-- ==== Sys2Proof/Word.lean ====
section
/-! DEFINITION. The widths the manual gives to what it treats as bits: bytes of messages and frames,
16-bit counters, round and reference numbers, the 32-bit millisecond clock. -/

namespace Sys2Proof

/-- A byte of a message or of a line frame. -/
abbrev Byte := BitVec 8

/-- A 16-bit quantity: counter (R171), round number (R2), sequence (R80), reference (R95), check value. -/
abbrev Word16 := BitVec 16

/-- The millisecond clock and the capture times read from it (R1). -/
abbrev Word32 := BitVec 32

end Sys2Proof
end

