-- ==== Sys2Proof/Syntax.lean ====
section
/-! DEFINITION. The commands of the block: one constructor of `Instr` per row of
spec/opcode_table.json, with what the row's rule takes from outside the part as operands (log 2). -/

namespace Sys2Proof

/-- Line A and Line B (1.6). -/
inductive LineId where
  | a | b
  deriving DecidableEq, Repr

/-- The level of an input pin at the moment of the command. -/
inductive PinLevel where
  | low | high
  deriving DecidableEq, Repr

/-- A byte on HLRX (R139): the levels of the input sampled since the stop bit of the byte before was decided, up to the
falling edge, and the three samples that decide each bit: bit k of `s7`, `s8` and `s9` is sample 16k + 7, 16k + 8 and
16k + 9. Bit 0 is the start bit, 1 to 8 the data bits, 9 the stop bit. -/
structure SampledByte where
  before : List PinLevel
  s7 : BitVec 10
  s8 : BitVec 10
  s9 : BitVec 10
  deriving DecidableEq, Repr

/-- A whole message on HLRX (R140): kind, tag or sequence, payload and the two check bytes. Sync and
length follow from the payload. -/
structure ReceivedMessage where
  kind : Byte
  tag : Byte
  payload : List Byte
  check : Word16
  deriving DecidableEq, Repr

/-- The levels of a line's receive input over the sample periods that pass up to the command's event, in order
(log 2). -/
abbrev Periods := List PinLevel

/-- The commands. -/
inductive Instr where
  /-- PIN_RESET (R156): RESET_N rises, or power comes on, with these levels on RATE1, RATE0, LARX and LBRX. -/
  | pinReset (rate1 rate0 levelA levelB : PinLevel)
  /-- MESSAGE_RECEIVED (R143). -/
  | messageReceived (m : ReceivedMessage)
  /-- MESSAGE_GAP_TIMEOUT (R142). -/
  | messageGapTimeout
  /-- ACKNOWLEDGEMENT (R164): the message of kind 0x0A with this sequence, payload and check value. -/
  | acknowledgement (sequence : Byte) (payload : List Byte) (check : Word16)
  /-- HELLO (R154). -/
  | hello
  /-- RESTART (R155): with the sample periods of both lines up to it. -/
  | restart (periodsA periodsB : Periods)
  /-- LINE_SET (R113). -/
  | lineSet
  /-- LINE_START (R115). -/
  | lineStart
  /-- LINE_STOP (R116). -/
  | lineStop
  /-- LINE_RESYNC (R119). -/
  | lineResync
  /-- LINE_QUERY (R120). -/
  | lineQuery
  /-- NODE_ADD (R44). -/
  | nodeAdd
  /-- NODE_REMOVE (R45). -/
  | nodeRemove
  /-- NODE_QUERY (R46). -/
  | nodeQuery
  /-- SUB_OPEN (R64). -/
  | subOpen
  /-- SUB_CLOSE (R74). -/
  | subClose
  /-- SUB_FETCH (R89). -/
  | subFetch
  /-- SUB_QUERY (R76). -/
  | subQuery
  /-- TXN_SUBMIT (R97). -/
  | txnSubmit
  /-- TXN_CANCEL (R106). -/
  | txnCancel
  /-- STATS_READ (R174). -/
  | statsRead
  /-- UNKNOWN_REQUEST (R146). -/
  | unknownRequest
  /-- HOST_TRANSMIT_END (R151). -/
  | hostTransmitEnd
  /-- ACK_TIMEOUT (R166). -/
  | ackTimeout
  /-- ROUND_TIMER_EXPIRY (R3). -/
  | roundTimerExpiry (l : LineId)
  /-- ROUND_START (R5). -/
  | roundStart (l : LineId)
  /-- QUIET_END (R12). -/
  | quietEnd (l : LineId)
  /-- ARBITER_CHOICE (R12). -/
  | arbiterChoice (l : LineId) (periods : Periods)
  /-- TRANSMIT_END (R26). -/
  | transmitEnd (l : LineId) (periods : Periods)
  /-- RESPONSE_WINDOW_EXPIRY (R30). -/
  | responseWindowExpiry (l : LineId)
  /-- CHARACTER_END (R129). -/
  | characterEnd (l : LineId) (periods : Periods)
  /-- GAP_TIMER_EXPIRY (R32). -/
  | gapTimerExpiry (l : LineId)
  /-- SETTLING_END (R35). -/
  | settlingEnd (l : LineId) (periods : Periods)
  /-- BREAK_DETECTED (R130). -/
  | breakDetected (l : LineId) (periods : Periods := [])
  /-- BREAK_END (R130). -/
  | breakEnd (l : LineId) (periods : Periods)
  /-- STUCK (R131). -/
  | stuck (l : LineId) (periods : Periods := [])
  /-- STUCK_END (R131). -/
  | stuckEnd (l : LineId) (periods : Periods := [])
  /-- CONTENTION (R135). -/
  | contention (l : LineId) (periods : Periods := [])
  /-- JAM_BREAK_END (R135). -/
  | jamBreakEnd (l : LineId) (periods : Periods)
  /-- BREAK_ORDER_END (R28). -/
  | breakOrderEnd (l : LineId) (periods : Periods)
  /-- HOLDOFF_EXPIRY (R122). -/
  | holdoffExpiry (l : LineId)
  /-- IDLE_WAIT_EXPIRY (R124). -/
  | idleWaitExpiry (l : LineId)
  /-- START_BEGUN (R128). -/
  | startBegun (l : LineId) (periods : Periods := [])
  /-- FALSE_START (R128). -/
  | falseStart (l : LineId) (periods : Periods)
  /-- RETURN_HIGH (R130). -/
  | returnHigh (l : LineId) (periods : Periods := [])
  /-- BYTE_RECEIVED (R141): the samples of the byte that ends on HLRX. -/
  | byteReceived (b : SampledByte)
  /-- RESET_N_LOW (R139). -/
  | resetNLow
  deriving DecidableEq, Repr

end Sys2Proof
end

