-- ==== Sys2Proof/Decode.lean ====
section
/-! DEFINITION. The command a word of the opcode table spells, and the bits the host link's receiver decides
from the samples of a byte. The table gives no row any bits ("fields": [] in every row), so no
word spells a command (log 13). -/

namespace Sys2Proof

/-- No row of spec/opcode_table.json has bits: no word is the word of a command. -/
def decodeTableWord (_nbits _w : Nat) : Option Instr := none

/-- The bits of a host link byte (R139). -/
def SampledByte.bits (b : SampledByte) : BitVec 10 :=
  (b.s7 &&& b.s8) ||| (b.s7 &&& b.s9) ||| (b.s8 &&& b.s9)

/-- The eight data bits of a host link byte, least significant first on the link (R139). -/
def SampledByte.byte (b : SampledByte) : Byte := b.bits.extractLsb' 1 8

/-- The stop bit of a host link byte: 0 is a framing error (R139). -/
def SampledByte.stop (b : SampledByte) : Bool := b.bits.getLsbD 9

end Sys2Proof
end

