-- ==== Sys2Proof/Config.lean ====
section
/-! DEFINITION. What is fixed in the part: the identity and capacities of R175, the line bit rates of
R126 and R112, the line configuration record and its defaults (R112), and the time constants. The
manual leaves no value of an instruction open, so there is no opaque free value here. -/

namespace Sys2Proof

/-- The line bit rates of R112 and R126, named by their rate in bit/s. -/
inductive BitRate where
  | r9600 | r19200 | r38400 | r57600 | r115200 | r250000 | r500000 | r1000000
  deriving DecidableEq, Repr

/-- The host link bit rates the straps select (R139). -/
inductive HostRate where
  | r115200 | r230400 | r460800 | r921600
  deriving DecidableEq, Repr

/-- A line's configuration record (R112). -/
structure LineConfig where
  bitRate : BitRate
  responseWindow : Nat
  retryLimit : Nat
  failureThreshold : Nat
  roundPeriod : Nat
  allowance : Nat
  holdoff : Nat
  echoCheck : Bool
  roundBroadcast : Bool
  deriving DecidableEq, Repr

namespace Config

/-- The defaults of R112. -/
def defaultLine : LineConfig :=
  { bitRate := .r115200, responseWindow := 8, retryLimit := 1, failureThreshold := 3
    roundPeriod := 100, allowance := 2, holdoff := 20, echoCheck := true, roundBroadcast := false }

/-- The identity and capacities the HELLO response carries after its status, in the order of R178:
vendor code, part code, revision, line count, then the capacities in the order of R175. -/
def identity : List Byte :=
  [0x44, 0x06, 0x08, 1, 2, 30, 48, 8, 96, 16, 8, 24, 4, 4, 6, 8, 240, 12, 6, 12]

/-- Subscription record slots (R62). -/
abbrev subSlots : Nat := 48
/-- Blocks of the sample pool (R78). -/
abbrev poolBlocks : Nat := 96
/-- Transaction record slots (R95). -/
abbrev txnSlots : Nat := 16
/-- Transactions of one line, queued or in flight (R96). -/
abbrev txnPerLine : Nat := 8
/-- Snapshots the report window holds at most (R160). -/
abbrev windowSize : Nat := 4
/-- Messages the request inbox holds at most (R144). -/
abbrev inboxSize : Nat := 4
/-- Responses the response queue holds at most (R150). -/
abbrev responseSize : Nat := 6
/-- Responses up to which the request processor takes a message (R145). -/
abbrev processorLimit : Nat := 4
/-- Entries the response cache holds at most (R148). -/
abbrev cacheSize : Nat := 8
/-- The largest payload of a line frame (1.6, R19). -/
abbrev maxPayload : Nat := 24
/-- Bytes of a SUB_FETCH response that samples may fill (R90). -/
abbrev fetchRoom : Nat := 232
/-- Contentions within one round that take a line to FAULT (R18, R121). -/
abbrev contentionLimit : Nat := 4
/-- Contention returns at which a transaction is completed and not returned (R102). -/
abbrev contentionReturnLimit : Nat := 3
/-- Consecutive timeouts at which the link detaches (R153, R168). -/
abbrev timeoutLimit : Nat := 5
/-- The gap timer of the message receiver, in ms (R142). -/
abbrev messageGapMs : Nat := 5
/-- Sample periods of one line character: 11 bit times of 16 samples (R126). -/
abbrev characterSamples : Nat := 176
/-- The quiet, the inter-character gap, the settling time and the jam break: 2 character times
(R12, R32, R35, R121). -/
abbrev twoCharacters : Nat := 352
/-- The resync break: 3 character times (R28). -/
abbrev breakOrderSamples : Nat := 528
/-- A low time greater than this is a stuck input: 4 character times (R131). -/
abbrev stuckSamples : Nat := 704
/-- Sample periods from the falling edge to the stop-bit decision (R129). -/
abbrev decisionSamples : Nat := 169
/-- Periods of CLKIN in one millisecond (R1), and in one second. -/
abbrev clkPerMs : Nat := 24000
abbrev clkPerSecond : Nat := 24000000

end Config
end Sys2Proof
end

