-- ==== Sys2Proof/Machine/State.lean ====
section
/-! DEFINITION. Everything the spec gives the part to hold, as plain data, block by block, and the
machine right after a pin reset or power-on. -/

namespace Sys2Proof.Machine

/-! ### Values shared by the blocks -/

/-- The outcome of an attempt or exchange (1.7, R37). `lineBreak` is the verdict BREAK. -/
inductive Verdict where
  | ok | refused | timeout | badCrc | framing | gap | lineBreak | misaddressed | malformed | contention
  deriving DecidableEq, Repr

/-- The reasons of a REFUSE (R21). -/
inductive RefuseReason where
  | noChannel | notReady | denied | badLength
  deriving DecidableEq, Repr

/-- A node profile (R42): node kind, channel count, max payload. -/
structure Profile where
  kind : Byte
  channels : Nat
  maxPayload : Nat
  deriving DecidableEq, Repr

/-- A millisecond timer of R1: the increments of the millisecond clock still to come. -/
inductive MsTimer where
  | stopped
  | running (left : Nat)
  deriving DecidableEq, Repr

/-- A timer in sample periods of the Exchange Engine (R25). While held it goes on counting and only its
expiry is deferred (R128): `held 0` is a timer whose time ran out while held. -/
inductive CharTimer where
  | stopped
  | running (left : Nat)
  | held (left : Nat)
  deriving DecidableEq, Repr

/-! ### Round Scheduler (R2) -/

inductive RoundTimer where
  | stopped
  | running (left : Nat)
  | expired
  deriving DecidableEq, Repr

inductive Alternation where
  | none | poll | transaction
  deriving DecidableEq, Repr

/-- The quiet of R12: passed, or running with the sample periods left. -/
inductive Quiet where
  | passed
  | running (left : Nat)
  deriving DecidableEq, Repr

structure Scheduler where
  roundNumber : Word16
  roundTimer : RoundTimer
  /-- ids of the subscriptions still to be polled in this round, in order -/
  pollList : List Nat
  broadcastSent : Bool
  probeDone : Bool
  allowanceUsed : Nat
  alternation : Alternation
  probePointer : Nat
  resyncRequest : Bool
  contentionCount : Nat
  quiet : Quiet
  deriving DecidableEq, Repr

/-! ### Exchange Engine (R24, R25) -/

inductive ExchangeState where
  | idle | sending | awaiting | receiving | settling
  deriving DecidableEq, Repr

/-- The six kinds of order with what each carries (R24). A node is named by its address and the uid of
its record: "The verdict record names the node record for which the order was taken" (R47). -/
inductive OrderKind where
  | breakOrder
  | roundBroadcast
  | probe (address nodeUid : Nat)
  | poll (subId subUid address nodeUid channel maxLength : Nat)
  | read (reference : Word16) (address nodeUid channel maxReply startAttempt : Nat)
  /-- address 0 is a broadcast WRITE, whose nodeUid names nothing -/
  | write (reference : Word16) (address nodeUid channel : Nat) (data : List Byte) (startAttempt : Nat)
  deriving DecidableEq, Repr

structure Order where
  kind : OrderKind
  round : Word16
  deriving DecidableEq, Repr

/-- The receive buffer (R25): the bytes taken in frame order, from which header, control, length,
payload and check bytes are read, and the flags of R32. Its character count is the list's length. -/
structure ReceiveBuffer where
  bytes : List Byte
  noiseSeen : Bool
  framingSeen : Bool
  deriving DecidableEq, Repr

structure Engine where
  state : ExchangeState
  order : Option Order
  attempt : Nat
  framesSent : Nat
  sentToggle : Bool
  window : CharTimer
  gap : CharTimer
  settling : CharTimer
  breakHold : Bool
  breakSeen : Bool
  lastVerdict : Option Verdict
  buffer : ReceiveBuffer
  deriving DecidableEq, Repr

/-- The reply fields of a verdict record (R37): OK to a POLL. -/
structure Reply where
  payload : List Byte
  captureTime : Word32
  deriving DecidableEq, Repr

/-- What an attempt ended with (R33): the verdict and what it carries. -/
structure AttemptResult where
  verdict : Verdict
  noisy : Bool
  reply : Option Reply
  profile : Option Profile
  reason : Option RefuseReason
  deriving DecidableEq, Repr

/-- A verdict record (R37). Address and channel are the order's. -/
structure VerdictRecord where
  order : Order
  result : AttemptResult
  framesSent : Nat
  retries : Nat
  deriving DecidableEq, Repr

/-! ### Line Port (R127) -/

inductive RxPhase where
  | hunt | qualify | bits | waitHigh | muted
  deriving DecidableEq, Repr

/-- The transmitter: in FRAME the characters of the frame (mark as bit 8) with the sample periods sent,
and whether RESTART has cut the frame to the character under way (R138); in BREAK whether it is a jam
break, and the sample periods left. -/
inductive Transmitter where
  | idle
  | frame (chars : List (BitVec 9)) (position : Nat) (finishing : Bool)
  | sendingBreak (jam : Bool) (left : Nat)
  deriving DecidableEq, Repr

/-- The echo field (R127, R134): none, the character expected with the transmit position at which its deadline
falls, or failed. -/
inductive Echo where
  | none
  | expecting (character : BitVec 9) (deadline : Nat)
  | failed
  deriving DecidableEq, Repr

/-- A character the receiver has decided (R129): data bits 0 to 8, the stop bit, noise seen, and whether it is
an echo (R134). -/
structure ReceivedCharacter where
  data : BitVec 9
  stop : Bool
  noisy : Bool
  echo : Bool
  deriving DecidableEq, Repr

/-- A character decided, until the nominal end of its stop bit (R129): the sample periods left to it, and whether a
start bit begun meanwhile waits for it to be signalled. -/
structure EndedCharacter where
  character : ReceivedCharacter
  left : Nat
  startWaits : Bool
  deriving DecidableEq, Repr

/-- What the receiver signals (R136) and a command takes. -/
inductive PortSignal where
  | startBegun
  /-- a start bit of an echo, for which the engine has no timer to hold -/
  | echoBegun
  | falseStart
  | characterEnd (c : ReceivedCharacter)
  | breakDetected
  | breakEnd (duration : Nat)
  /-- the return high after a framing error (R130) -/
  | returnHigh
  /-- with whether the break is detected only now (R131) -/
  | stuck (newBreak : Bool)
  | stuckEnd (duration : Nat)
  deriving DecidableEq, Repr

structure LinePort where
  /-- the level now on LARX or LBRX (1.4) -/
  input : PinLevel
  rxPhase : RxPhase
  samplePosition : Nat
  /-- bit values decided so far of the character being received -/
  rxBits : List Bool
  /-- the samples taken so far of the three that decide the next bit (R129) -/
  rxVotes : List PinLevel
  rxNoise : Bool
  /-- a character decided whose end is still to be signalled -/
  ended : Option EndedCharacter
  /-- in break: the sample periods since its falling edge -/
  inBreak : Option Nat
  lowTime : Nat
  stuck : Bool
  tx : Transmitter
  driverEnable : Bool
  echo : Echo
  rate : BitRate
  /-- the rate in force when the low period began (R138) -/
  lowRate : BitRate
  /-- the part of a sample period at that rate not yet counted, in units of 1 / hertz of the rate in force: the
  model's own (log 26) -/
  lowPhase : Nat
  /-- phase of the fractional divider of R126: the model's own (log 1) -/
  divider : Nat
  /-- events signalled and not yet taken by their command, oldest first: the model's own (log 20) -/
  signals : List PortSignal
  deriving DecidableEq, Repr

/-! ### Node Table (R42) -/

inductive NodeState where
  | pending | online | suspect | lost
  deriving DecidableEq, Repr

structure NodeCounters where
  good : Word16
  failed : Word16
  retries : Word16
  refusals : Word16
  losses : Word16
  noisy : Word16
  deriving DecidableEq, Repr

structure NodeRecord where
  address : Nat
  /-- which record of this address it is: the model's own (log 5) -/
  uid : Nat
  state : NodeState
  failures : Nat
  toggle : Bool
  profile : Option Profile
  lastVerdict : Option Verdict
  lastRound : Option Word16
  counters : NodeCounters
  deriving DecidableEq, Repr

/-! ### Line Control (R111, R114) and the line as a whole -/

inductive LineState where
  | stopped | running | holdoff | fault | stopping
  deriving DecidableEq, Repr

inductive Cause where
  | request | contention | holdoffEnd | contentionLimit | stuck | recovered
  deriving DecidableEq, Repr

structure LineCounters where
  rounds : Word16
  overruns : Word16
  exchanges : Word16
  retries : Word16
  timeouts : Word16
  crcErrors : Word16
  framingErrors : Word16
  gapErrors : Word16
  noiseFlags : Word16
  contentions : Word16
  breaksSeen : Word16
  strays : Word16
  deriving DecidableEq, Repr

/-- The per-line blocks of one line. -/
structure Line where
  lineState : LineState
  cause : Cause
  config : LineConfig
  purgePending : Bool
  holdoffTimer : MsTimer
  idleWait : MsTimer
  sched : Scheduler
  engine : Engine
  port : LinePort
  /-- the Node Table, by ascending address -/
  nodes : List NodeRecord
  /-- references of the line's QUEUED transactions, head first (R96) -/
  txnQueue : List Word16
  counters : LineCounters
  deriving DecidableEq, Repr

/-! ### Subscription Table and Sample Store (R61, R80) -/

inductive SubKind where
  | every | change
  deriving DecidableEq, Repr

inductive OverflowPolicy where
  | keepOldest | keepNewest
  deriving DecidableEq, Repr

inductive SubState where
  | waiting | active | faulted | closing
  deriving DecidableEq, Repr

inductive FaultReason where
  | noChannel | badLength
  deriving DecidableEq, Repr

inductive Notice where
  | none | queued | sent
  deriving DecidableEq, Repr

structure Sample where
  subId : Nat
  sequence : Word16
  round : Word16
  captureTime : Word32
  resumed : Bool
  noisy : Bool
  payload : List Byte
  deriving DecidableEq, Repr

structure SubRecord where
  id : Nat
  /-- which record of this id it is: the model's own (log 5) -/
  uid : Nat
  line : LineId
  node : Nat
  channel : Nat
  kind : SubKind
  period : Nat
  depth : Nat
  policy : OverflowPolicy
  maxLength : Nat
  state : SubState
  faultReason : Option FaultReason
  phase : Option Nat
  pollInFlight : Bool
  resumed : Bool
  referencePayload : Option (List Byte)
  refusals : Word16
  queue : List Sample
  nextSequence : Word16
  dropped : Word16
  notice : Notice
  deriving DecidableEq, Repr

/-! ### Transaction Queues (R95) -/

inductive TxnKind where
  | read (maxReply : Nat)
  | write (data : List Byte)
  deriving DecidableEq, Repr

inductive TxnState where
  | queued | inFlight | done | reported
  deriving DecidableEq, Repr

inductive TxnResult where
  | ok | sent | refused | failed | unconfirmed | unavailable | cancelled
  deriving DecidableEq, Repr

structure TxnRecord where
  reference : Word16
  line : LineId
  node : Nat
  channel : Nat
  kind : TxnKind
  state : TxnState
  attempts : Nat
  contentionReturns : Nat
  result : Option TxnResult
  lastVerdict : Option Verdict
  refuseReason : Option RefuseReason
  reply : Option (List Byte)
  deriving DecidableEq, Repr

/-! ### Host link (R139 to R156) -/

/-- A message of the part or a good message of the host: kind, tag or sequence, payload (R140). -/
structure Message where
  kind : Byte
  tag : Byte
  payload : List Byte
  deriving DecidableEq, Repr

inductive MsgPhase where
  | hunt | length | body | check
  deriving DecidableEq, Repr

structure CacheEntry where
  tag : Byte
  kind : Byte
  response : Message
  deriving DecidableEq, Repr

inductive LinkState where
  | detached | attached
  deriving DecidableEq, Repr

structure LinkCounters where
  received : Word16
  crcErrors : Word16
  gapDiscards : Word16
  framingErrors : Word16
  lengthErrors : Word16
  busy : Word16
  dropped : Word16
  duplicates : Word16
  reportsSent : Word16
  reportsResent : Word16
  strayAcks : Word16
  detaches : Word16
  deriving DecidableEq, Repr

structure HostLink where
  rate : HostRate
  rxPhase : MsgPhase
  /-- bytes still expected in the current phase -/
  rxExpected : Nat
  /-- bytes taken so far, from length on -/
  rxTaken : List Byte
  /-- after a framing error the receiver waits for HLRX to return high before the next falling edge (R139) -/
  rxWaitHigh : Bool
  gapTimer : MsTimer
  inbox : List Message
  responses : List Message
  cache : List CacheEntry
  /-- the message being sent on HLTX; none while the transmitter is free -/
  transmitter : Option Message
  linkState : LinkState
  counters : LinkCounters
  deriving DecidableEq, Repr

/-! ### Report Delivery (R157, R160) -/

/-- A report request: a kind of report with its owner (R157). -/
inductive ReportRequest where
  | sampleReady (subId subUid : Nat)
  | subState (subId subUid : Nat)
  | nodeState (line : LineId) (address nodeUid : Nat)
  | txnDone (reference : Word16)
  | lineState (line : LineId)
  deriving DecidableEq, Repr

structure Snapshot where
  sequence : Byte
  request : ReportRequest
  content : List Byte
  resendMark : Bool
  deriving DecidableEq, Repr

structure Delivery where
  queue : List ReportRequest
  window : List Snapshot
  nextSequence : Byte
  ackTimer : MsTimer
  timeoutCount : Nat
  ackTimeout : Nat
  /-- a timeout has marked the window and no resend message has begun since (R163, R166) -/
  resendRunDue : Bool
  deriving DecidableEq, Repr

/-! ### The machine -/

/-- The reasons the part stops with a fault: it has none. Nobody raises one (safe: nothing is
claimed of a stop that cannot happen). -/
inductive Fault
  deriving DecidableEq, Repr

/-- The reasons a command is refused. -/
inductive Refusal where
  /-- A command that has no meaning in the model yet, named by its mnemonic. Raised by no arm of `exec`. Safe. -/
  | notModelled (mnemonic : String)
  deriving DecidableEq, Repr

structure State where
  resetHeld : Bool
  msClock : Word32
  /-- periods of CLKIN since the last increment of the millisecond clock -/
  prescaler : Nat
  lineA : Line
  lineB : Line
  subs : List SubRecord
  freeBlocks : Nat
  txns : List TxnRecord
  link : HostLink
  delivery : Delivery
  /-- the uid the next node or subscription record takes: the model's own (log 5) -/
  nextUid : Nat
  pending : List Instr
  deriving DecidableEq, Repr

/-! ### Reset -/

/-- R2's reset column. -/
def Scheduler.initial : Scheduler :=
  { roundNumber := 0, roundTimer := .stopped, pollList := [], broadcastSent := false, probeDone := false
    allowanceUsed := 0, alternation := .none, probePointer := 1, resyncRequest := false
    contentionCount := 0, quiet := .passed }

def ReceiveBuffer.empty : ReceiveBuffer := { bytes := [], noiseSeen := false, framingSeen := false }

/-- R25's reset column. The attempt number has no reset value there (log 6). -/
def Engine.initial : Engine :=
  { state := .idle, order := none, attempt := 1, framesSent := 0, sentToggle := false
    window := .stopped, gap := .stopped, settling := .stopped, breakHold := false, breakSeen := false
    lastVerdict := none, buffer := ReceiveBuffer.empty }

/-- R127's reset column, with the input high. -/
def LinePort.initial : LinePort :=
  { input := .high, rxPhase := .hunt, samplePosition := 0, rxBits := [], rxVotes := [], rxNoise := false
    ended := none, inBreak := none, lowTime := 0, stuck := false, tx := .idle, driverEnable := false
    echo := .none, rate := .r115200, lowRate := .r115200, lowPhase := 0, divider := 0, signals := [] }

def LineCounters.zero : LineCounters := ⟨0, 0, 0, 0, 0, 0, 0, 0, 0, 0, 0, 0⟩
def NodeCounters.zero : NodeCounters := ⟨0, 0, 0, 0, 0, 0⟩
def LinkCounters.zero : LinkCounters := ⟨0, 0, 0, 0, 0, 0, 0, 0, 0, 0, 0, 0⟩

/-- A line after pin reset or power-on (R2, R25, R42, R95, R111, R127, R172). -/
def Line.initial : Line :=
  { lineState := .stopped, cause := .request, config := Config.defaultLine, purgePending := false
    holdoffTimer := .stopped, idleWait := .stopped, sched := Scheduler.initial, engine := Engine.initial
    port := LinePort.initial, nodes := [], txnQueue := [], counters := LineCounters.zero }

/-- The host link after pin reset or power-on (R156). The straps are inputs: both low here (log 7). No value is
given for the bytes still expected and taken: 0 and none (log 30); no wait for a high input (log 16). -/
def HostLink.initial : HostLink :=
  { rate := .r115200, rxPhase := .hunt, rxExpected := 0, rxTaken := [], rxWaitHigh := false
    gapTimer := .stopped, inbox := [], responses := [], cache := [], transmitter := none, linkState := .detached
    counters := LinkCounters.zero }

/-- R157's column for pin reset and power-on. -/
def Delivery.initial : Delivery :=
  { queue := [], window := [], nextSequence := 0, ackTimer := .stopped, timeoutCount := 0
    ackTimeout := 100, resendRunDue := false }

/-- The machine right after RESET_N has risen. -/
def State.reset : State :=
  { resetHeld := false, msClock := 0, prescaler := 0, lineA := Line.initial, lineB := Line.initial
    subs := [], freeBlocks := Config.poolBlocks, txns := [], link := HostLink.initial
    delivery := Delivery.initial, nextUid := 0, pending := [] }

end Sys2Proof.Machine
end

