-- ==== Sys2Proof/Machine/Ops.lean ====
section
/-! DEFINITION. The operations every block uses: a line's blocks, counters, byte order and check value,
timers, the report queue, and the record tables. -/

namespace Sys2Proof.Machine

open Sys2Proof

/-! ### Lines -/

/-- The blocks of one line (1.2: the two lines share no per-line state). -/
def State.line (s : State) : LineId → Line
  | .a => s.lineA
  | .b => s.lineB

def State.setLine (s : State) (l : LineId) (x : Line) : State :=
  match l with
  | .a => { s with lineA := x }
  | .b => { s with lineB := x }

def State.modifyLine (s : State) (l : LineId) (f : Line → Line) : State :=
  s.setLine l (f (s.line l))

def State.modifySched (s : State) (l : LineId) (f : Scheduler → Scheduler) : State :=
  s.modifyLine l fun x => { x with sched := f x.sched }

def State.modifyEngine (s : State) (l : LineId) (f : Engine → Engine) : State :=
  s.modifyLine l fun x => { x with engine := f x.engine }

def State.modifyPort (s : State) (l : LineId) (f : LinePort → LinePort) : State :=
  s.modifyLine l fun x => { x with port := f x.port }

def State.countLine (s : State) (l : LineId) (f : LineCounters → LineCounters) : State :=
  s.modifyLine l fun x => { x with counters := f x.counters }

def State.modifyLink (s : State) (f : HostLink → HostLink) : State :=
  { s with link := f s.link }

def State.modifyDelivery (s : State) (f : Delivery → Delivery) : State :=
  { s with delivery := f s.delivery }

def State.countLink (s : State) (f : LinkCounters → LinkCounters) : State :=
  s.modifyLink fun x => { x with counters := f x.counters }

/-! ### Counters and bytes -/

/-- An increment of a saturating 16-bit counter (R171). -/
def satInc (c : Word16) : Word16 := if c = 0xFFFF then c else c + 1

/-- A sum that saturates as single increments would (R171). -/
def satAdd (c : Word16) (n : Nat) : Word16 := BitVec.ofNat 16 (min 65535 (c.toNat + n))

/-- A field of two bytes, most significant first (1.6). -/
def be16 (w : Word16) : List Byte := [w.extractLsb' 8 8, w.extractLsb' 0 8]

/-- A field of four bytes, most significant first (1.6). -/
def be32 (w : Word32) : List Byte :=
  [w.extractLsb' 24 8, w.extractLsb' 16 8, w.extractLsb' 8 8, w.extractLsb' 0 8]

/-- The number in one byte of a message. -/
def byteOf (n : Nat) : Byte := BitVec.ofNat 8 n

/-- Two bytes read most significant first (1.6). -/
def word16Of (hi lo : Byte) : Word16 := hi ++ lo

/-- One shift of the check value: polynomial x^16 + x^12 + x^5 + 1, most significant bit first (1.6). -/
def crcShift (crc : Word16) : Word16 :=
  if crc.msb then (crc <<< 1) ^^^ 0x1021 else crc <<< 1

def crcByte (crc : Word16) (x : Byte) : Word16 :=
  let c := crc ^^^ (x ++ (0 : Byte))
  crcShift (crcShift (crcShift (crcShift (crcShift (crcShift (crcShift (crcShift c)))))))

/-- The check value of 1.6: initial value 0xFFFF, no final inversion. -/
def crc16 (bytes : List Byte) : Word16 := bytes.foldl crcByte 0xFFFF

/-! ### Millisecond timers (R1) -/

/-- One increment of the millisecond clock on a running timer. -/
def MsTimer.count : MsTimer → MsTimer
  | .stopped => .stopped
  | .running left => .running (left - 1)

/-- The last increment of the duration has come (R1): the timer expires. -/
def MsTimer.hasExpired : MsTimer → Bool
  | .running 0 => true
  | .running (_ + 1) | .stopped => false

def MsTimer.isRunning : MsTimer → Bool
  | .stopped => false
  | .running _ => true

/-! ### Report requests (R158, R159) -/

/-- A report request joins the queue at its tail unless an entry with the same owner and kind is there (R158). -/
def requestReport (r : ReportRequest) (s : State) : State :=
  if r ∈ s.delivery.queue then s
  else s.modifyDelivery fun d => { d with queue := d.queue ++ [r] }

/-- Withdrawal of an entry from wherever it stands (R159). -/
def withdrawReport (r : ReportRequest) (s : State) : State :=
  s.modifyDelivery fun d => { d with queue := d.queue.filter (· ≠ r) }

/-! ### Record tables -/

/-- The record declared at an address of a line (R42). -/
def findNode (s : State) (l : LineId) (address : Nat) : Option NodeRecord :=
  (s.line l).nodes.find? fun n => n.address == address

/-- The record an order or a report names: the one of this address and no later one (R47, R157). -/
def findNodeRecord (s : State) (l : LineId) (address uid : Nat) : Option NodeRecord :=
  (s.line l).nodes.find? fun n => n.address == address && n.uid == uid

def updateNode (l : LineId) (address uid : Nat) (f : NodeRecord → NodeRecord) (s : State) : State :=
  s.modifyLine l fun x =>
    { x with nodes := x.nodes.map fun n => if n.address = address ∧ n.uid = uid then f n else n }

/-- Insertion into the Node Table, kept by ascending address. -/
def insertNode (n : NodeRecord) : List NodeRecord → List NodeRecord
  | [] => [n]
  | m :: rest => if n.address < m.address then n :: m :: rest else m :: insertNode n rest

/-- The record that holds an id (R62). -/
def findSub (s : State) (id : Nat) : Option SubRecord := s.subs.find? fun r => r.id == id

/-- The record an order or a report names (R68, R157). -/
def findSubRecord (s : State) (id uid : Nat) : Option SubRecord :=
  s.subs.find? fun r => r.id == id && r.uid == uid

def updateSub (id uid : Nat) (f : SubRecord → SubRecord) (s : State) : State :=
  { s with subs := s.subs.map fun r => if r.id = id ∧ r.uid = uid then f r else r }

/-- The record is freed and its id becomes free (R62). -/
def freeSub (id uid : Nat) (s : State) : State :=
  { s with subs := s.subs.filter fun r => ¬ (r.id = id ∧ r.uid = uid) }

/-- Insertion into the Subscription Table, kept by ascending id. -/
def insertSub (r : SubRecord) : List SubRecord → List SubRecord
  | [] => [r]
  | q :: rest => if r.id < q.id then r :: q :: rest else q :: insertSub r rest

/-- Open: WAITING, ACTIVE or FAULTED (R62). -/
def SubRecord.isOpen (r : SubRecord) : Bool := r.state != .closing

/-- Subscriptions in the order of poll lists: ascending node, then ascending channel (R10). -/
def pollBefore (p q : SubRecord) : Bool :=
  p.node < q.node || (p.node == q.node && p.channel < q.channel)

def insertByPoll (r : SubRecord) : List SubRecord → List SubRecord
  | [] => [r]
  | q :: rest => if pollBefore r q then r :: q :: rest else q :: insertByPoll r rest

def sortByPoll : List SubRecord → List SubRecord
  | [] => []
  | r :: rest => insertByPoll r (sortByPoll rest)

/-- The live record that carries a reference (R95). -/
def findTxn (s : State) (reference : Word16) : Option TxnRecord :=
  s.txns.find? fun t => t.reference == reference

def updateTxn (reference : Word16) (f : TxnRecord → TxnRecord) (s : State) : State :=
  { s with txns := s.txns.map fun t => if t.reference = reference then f t else t }

/-- The record is freed: its slot and reference may be used again (R104). -/
def freeTxn (reference : Word16) (s : State) : State :=
  { s with txns := s.txns.filter fun t => t.reference ≠ reference }

/-- In service: ONLINE or SUSPECT (4.2). -/
def NodeState.inService : NodeState → Bool
  | .online | .suspect => true
  | .pending | .lost => false

end Sys2Proof.Machine
end

