-- ==== Sys2Proof/Machine/Operands.lean ====
section
/-! DEFINITION. The operand forms of the host's requests and of the part's messages: the code tables of
13.2, the payload lengths of R177 and the field reads. -/

namespace Sys2Proof.Machine

open Sys2Proof

/-! ### Codes of 13.2 -/

/-- The status a response carries. -/
inductive Status where
  | ok | badLength | badField | unknownKind | wrongState | notFound | present | noRoom | inUse | tooLate
  | notAttached | busy
  deriving DecidableEq, Repr

/-- Status codes; `present` is EXISTS. -/
def statusCode : Status → Byte
  | .ok => 0
  | .badLength => 1
  | .badField => 2
  | .unknownKind => 3
  | .wrongState => 4
  | .notFound => 5
  | .present => 6
  | .noRoom => 7
  | .inUse => 8
  | .tooLate => 9
  | .notAttached => 10
  | .busy => 11

def lineCode : LineId → Byte
  | .a => 0
  | .b => 1

def lineOfCode : Nat → Option LineId
  | 0 => some .a
  | 1 => some .b
  | _ => none

def bitRateCode : BitRate → Byte
  | .r9600 => 0
  | .r19200 => 1
  | .r38400 => 2
  | .r57600 => 3
  | .r115200 => 4
  | .r250000 => 5
  | .r500000 => 6
  | .r1000000 => 7

def bitRateOfCode : Nat → Option BitRate
  | 0 => some .r9600
  | 1 => some .r19200
  | 2 => some .r38400
  | 3 => some .r57600
  | 4 => some .r115200
  | 5 => some .r250000
  | 6 => some .r500000
  | 7 => some .r1000000
  | _ => none

def lineStateCode : LineState → Byte
  | .stopped => 0
  | .running => 1
  | .holdoff => 2
  | .fault => 3
  | .stopping => 4

def causeCode : Cause → Byte
  | .request => 0
  | .contention => 1
  | .holdoffEnd => 2
  | .contentionLimit => 3
  | .stuck => 4
  | .recovered => 5

def nodeStateCode : NodeState → Byte
  | .pending => 0
  | .online => 1
  | .suspect => 2
  | .lost => 3

def subKindCode : SubKind → Byte
  | .every => 0
  | .change => 1

def subKindOfCode : Nat → Option SubKind
  | 0 => some .every
  | 1 => some .change
  | _ => none

def policyCode : OverflowPolicy → Byte
  | .keepOldest => 0
  | .keepNewest => 1

def policyOfCode : Nat → Option OverflowPolicy
  | 0 => some .keepOldest
  | 1 => some .keepNewest
  | _ => none

def subStateCode : SubState → Byte
  | .waiting => 0
  | .active => 1
  | .faulted => 2
  | .closing => 3

def faultReasonCode : Option FaultReason → Byte
  | none => 0
  | some .noChannel => 1
  | some .badLength => 4

def noticeCode : Notice → Byte
  | .none => 0
  | .queued => 1
  | .sent => 2

def txnKindCode : TxnKind → Byte
  | .read _ => 0
  | .write _ => 1

def resultCode : TxnResult → Byte
  | .ok => 0
  | .sent => 1
  | .refused => 2
  | .failed => 3
  | .unconfirmed => 4
  | .unavailable => 5
  | .cancelled => 6

def verdictCode : Verdict → Byte
  | .ok => 0
  | .refused => 1
  | .timeout => 2
  | .badCrc => 3
  | .framing => 4
  | .gap => 5
  | .lineBreak => 6
  | .misaddressed => 7
  | .malformed => 8
  | .contention => 9

/-- An absent verdict is sent as 0xFF. -/
def lastVerdictCode : Option Verdict → Byte
  | none => 0xFF
  | some v => verdictCode v

def refuseReasonCode : Option RefuseReason → Byte
  | none => 0
  | some .noChannel => 1
  | some .notReady => 2
  | some .denied => 3
  | some .badLength => 4

def refuseReasonOfCode : Nat → Option RefuseReason
  | 1 => some .noChannel
  | 2 => some .notReady
  | 3 => some .denied
  | 4 => some .badLength
  | _ => none

/-! ### Message kinds of 13.2 -/

def kindHello : Byte := 0x10
def kindRestart : Byte := 0x11
def kindLineSet : Byte := 0x20
def kindLineStart : Byte := 0x21
def kindLineStop : Byte := 0x22
def kindLineResync : Byte := 0x23
def kindLineQuery : Byte := 0x24
def kindNodeAdd : Byte := 0x30
def kindNodeRemove : Byte := 0x31
def kindNodeQuery : Byte := 0x32
def kindSubOpen : Byte := 0x40
def kindSubClose : Byte := 0x41
def kindSubFetch : Byte := 0x42
def kindSubQuery : Byte := 0x43
def kindTxnSubmit : Byte := 0x50
def kindTxnCancel : Byte := 0x51
def kindStatsRead : Byte := 0x60
def kindAcknowledgement : Byte := 0x0A

/-- The request kinds of the part. -/
def requestKinds : List Byte :=
  [kindHello, kindRestart, kindLineSet, kindLineStart, kindLineStop, kindLineResync, kindLineQuery,
   kindNodeAdd, kindNodeRemove, kindNodeQuery, kindSubOpen, kindSubClose, kindSubFetch, kindSubQuery,
   kindTxnSubmit, kindTxnCancel, kindStatsRead]

/-- The kind of the response to a request: plus 0x80, or 0xFF for a kind the part does not know (R140). -/
def responseKind (kind : Byte) : Byte :=
  if kind ∈ requestKinds then kind + 0x80 else 0xFF

/-- The kind of a report. -/
def reportKind : ReportRequest → Byte
  | .sampleReady _ _ => 0x70
  | .txnDone _ => 0x71
  | .nodeState _ _ _ => 0x72
  | .subState _ _ => 0x73
  | .lineState _ => 0x74

/-! ### Request payloads (R177) -/

/-- The number in the payload byte at an offset. -/
def field (payload : List Byte) (offset : Nat) : Nat := (payload.getD offset 0).toNat

/-- The two-byte field at an offset. -/
def field16 (payload : List Byte) (offset : Nat) : Word16 :=
  word16Of (payload.getD offset 0) (payload.getD (offset + 1) 0)

/-- Check 4 of R146 for a request kind: the payload length R177 allows. For TXN_SUBMIT it is 8 plus the
data length byte. -/
def lengthAllowed (kind : Byte) (payload : List Byte) : Bool :=
  if kind = kindTxnSubmit then decide (8 ≤ payload.length) && payload.length == 8 + field payload 7
  else if kind = kindHello then payload.length == 3
  else if kind = kindRestart then payload.length == 0
  else if kind = kindLineSet then payload.length == 10
  else if kind = kindLineStart ∨ kind = kindLineResync ∨ kind = kindLineQuery then payload.length == 1
  else if kind = kindLineStop then payload.length == 2
  else if kind = kindNodeAdd ∨ kind = kindNodeRemove ∨ kind = kindNodeQuery then payload.length == 2
  else if kind = kindSubOpen then payload.length == 8
  else if kind = kindSubClose ∨ kind = kindSubQuery then payload.length == 1
  else if kind = kindSubFetch then payload.length == 2
  else if kind = kindTxnCancel then payload.length == 2
  else if kind = kindStatsRead then payload.length == 4
  else false

/-- A node address: 1..30 (1.6). -/
def isNodeAddress (n : Nat) : Bool := decide (1 ≤ n) && decide (n ≤ 30)

/-- A channel: 0..7 (1.6). -/
def isChannel (n : Nat) : Bool := decide (n ≤ 7)

/-! ### Messages as bytes (R140) -/

/-- The bytes the check value covers: length through the last payload byte. -/
def coveredBytes (m : Message) : List Byte :=
  byteOf (m.payload.length + 2) :: m.kind :: m.tag :: m.payload

/-- The run of bytes of a message on the link. -/
def messageBytes (m : Message) : List Byte :=
  0x5A :: (coveredBytes m ++ be16 (crc16 (coveredBytes m)))

/-! ### The level on HLTX (R139) -/

/-- The level of a bit of a byte on the host link: start bit 0, eight data bits with the least significant first, stop
bit 1. -/
def hostBitLevel (x : Byte) (bit : Nat) : PinLevel :=
  if bit = 0 then .low
  else if bit ≤ 8 then (if x.getLsbD (bit - 1) then .high else .low)
  else .high

/-- The level on HLTX so many bit times after the transmitter was granted what it sends: the bytes of the message back
to back, and high without a message. -/
def hostOutput (transmitter : Option Message) (bitTime : Nat) : PinLevel :=
  match transmitter with
  | none => .high
  | some m =>
    match (messageBytes m)[bitTime / 10]? with
    | some x => hostBitLevel x (bitTime % 10)
    | none => .high

end Sys2Proof.Machine
end

