-- ==== Sys2Proof/Machine/Frames.lean ====
section
/-! DEFINITION. Line frames: how the part builds the frame of an order (R19, R20, R180) and how it
judges a complete reply (R21, R33). -/

namespace Sys2Proof.Machine

open Sys2Proof

/-! ### What an order says -/

/-- The address of the order's frame; a break order has none and the round broadcast has 0. -/
def orderAddress : OrderKind → Nat
  | .breakOrder | .roundBroadcast => 0
  | .probe address _ => address
  | .poll _ _ address _ _ _ => address
  | .read _ address _ _ _ _ => address
  | .write _ address _ _ _ _ => address

/-- The node record the order was taken for (R47). -/
def orderNodeUid : OrderKind → Nat
  | .breakOrder | .roundBroadcast => 0
  | .probe _ uid => uid
  | .poll _ _ _ uid _ _ => uid
  | .read _ _ uid _ _ _ => uid
  | .write _ _ uid _ _ _ => uid

/-- The request's channel, 0 for SYNC (R21). -/
def orderChannel : OrderKind → Nat
  | .breakOrder | .roundBroadcast | .probe _ _ => 0
  | .poll _ _ _ _ channel _ => channel
  | .read _ _ _ channel _ _ => channel
  | .write _ _ _ channel _ _ => channel

/-- The attempt the exchange starts at (R36). -/
def startAttempt : OrderKind → Nat
  | .read _ _ _ _ _ start | .write _ _ _ _ _ start => start
  | .breakOrder | .roundBroadcast | .probe _ _ | .poll _ _ _ _ _ _ => 1

def isAddressedWrite : OrderKind → Bool
  | .write _ address _ _ _ _ => address != 0
  | .breakOrder | .roundBroadcast | .probe _ _ | .poll _ _ _ _ _ _ | .read _ _ _ _ _ _ => false

/-- A reply is awaited: every addressed frame (R24, R26). -/
def isAddressed : OrderKind → Bool
  | .probe _ _ | .poll _ _ _ _ _ _ | .read _ _ _ _ _ _ => true
  | .write _ address _ _ _ _ => address != 0
  | .breakOrder | .roundBroadcast => false

/-- The orders R34 lets retry: a poll, a READ transaction or an addressed WRITE transaction. -/
def mayRetry : OrderKind → Bool
  | .poll _ _ _ _ _ _ | .read _ _ _ _ _ _ => true
  | .write _ address _ _ _ _ => address != 0
  | .breakOrder | .roundBroadcast | .probe _ _ => false

/-- The failure verdicts of R43. -/
def isFailure : Verdict → Bool
  | .timeout | .badCrc | .framing | .gap | .lineBreak | .misaddressed | .malformed => true
  | .ok | .refused | .contention => false

/-! ### Frames sent -/

/-- Header, control, length and payload of a frame (13.6). -/
def frameBody (type address channel : Nat) (toggle : Bool) (payload : List Byte) : List Byte :=
  byteOf (32 * type + address) :: byteOf (channel + if toggle then 8 else 0)
    :: byteOf payload.length :: payload

/-- A line character: the mark as bit 8 (R126). -/
def lineCharacter (mark : Bool) (x : Byte) : BitVec 9 := BitVec.ofBool mark ++ x

/-- The characters of a frame: the mark on the header alone, the check value high byte first (R19). -/
def frameCharacters (body : List Byte) : List (BitVec 9) :=
  match body ++ be16 (crc16 body) with
  | [] => []
  | header :: rest => lineCharacter true header :: rest.map (lineCharacter false)

/-- The frame of an order (R20). The toggle is the sent toggle of an addressed WRITE; a break order has
no frame (R28). -/
def orderFrame (o : Order) (toggle : Bool) : List (BitVec 9) :=
  match o.kind with
  | .breakOrder => []
  | .roundBroadcast => frameCharacters (frameBody 3 0 0 false (be16 o.round))
  | .probe address _ => frameCharacters (frameBody 2 address 0 false [])
  | .poll _ _ address _ channel maxLength => frameCharacters (frameBody 0 address channel false [byteOf maxLength])
  | .read _ address _ channel maxReply _ => frameCharacters (frameBody 0 address channel false [byteOf maxReply])
  | .write _ address _ channel data _ =>
    frameCharacters (frameBody 1 address channel (toggle && address != 0) data)

/-! ### Replies (R33) -/

def plainResult (v : Verdict) : AttemptResult :=
  { verdict := v, noisy := false, reply := none, profile := none, reason := none }

/-- The length a buffer's third character states. -/
def statedLength (b : ReceiveBuffer) : Nat := field b.bytes 2

/-- The reply's payload. -/
def replyPayload (b : ReceiveBuffer) : List Byte := (b.bytes.drop 3).take (statedLength b)

/-- The frame is complete: length + 5 characters (R32). -/
def frameComplete (b : ReceiveBuffer) : Bool :=
  decide (3 ≤ b.bytes.length) && b.bytes.length == statedLength b + 5

/-- The largest reply length the POLL carried. -/
def largestReply : OrderKind → Option Nat
  | .poll _ _ _ _ _ maxLength => some maxLength
  | .read _ _ _ _ maxReply _ => some maxReply
  | .breakOrder | .roundBroadcast | .probe _ _ | .write _ _ _ _ _ _ => none

/-- Checks 4 to 6 of R33, by the frame type in the header's three high bits (R21, R180). -/
def judgeFit (k : OrderKind) (sentToggle : Bool) (b : ReceiveBuffer) (clock : Word32) : AttemptResult :=
  let payload := replyPayload b
  let accepted : AttemptResult :=
    { verdict := .ok, noisy := b.noiseSeen, reply := none, profile := none, reason := none }
  match field b.bytes 0 / 32 with
  | 4 =>
    match largestReply k with
    | some largest =>
      if statedLength b ≤ largest then { accepted with reply := some { payload := payload, captureTime := clock } }
      else plainResult .malformed
    | none => plainResult .malformed
  | 5 =>
    if isAddressedWrite k ∧ statedLength b = 0 ∧ (b.bytes.getD 1 0).getLsbD 3 = sentToggle then accepted
    else plainResult .malformed
  | 6 =>
    match k with
    | .probe _ _ =>
      if statedLength b = 3 ∧ 1 ≤ field payload 1 ∧ field payload 1 ≤ 8 ∧ field payload 2 ≤ Config.maxPayload then
        { accepted with
          profile := some { kind := payload.getD 0 0, channels := field payload 1, maxPayload := field payload 2 } }
      else plainResult .malformed
    | .breakOrder | .roundBroadcast | .poll _ _ _ _ _ _ | .read _ _ _ _ _ _ | .write _ _ _ _ _ _ =>
      plainResult .malformed
  | 7 =>
    if mayRetry k ∧ statedLength b = 1 then
      match refuseReasonOfCode (field payload 0) with
      | some reason => { plainResult .refused with reason := some reason }
      | none => plainResult .malformed
    else plainResult .malformed
  | _ => plainResult .malformed

/-- The judgement of a complete reply frame (R33): the first check that applies gives the verdict. -/
def judgeReply (k : OrderKind) (sentToggle : Bool) (b : ReceiveBuffer) (clock : Word32) : AttemptResult :=
  let covered := b.bytes.take (statedLength b + 3)
  if b.framingSeen then plainResult .framing
  else if be16 (crc16 covered) ≠ b.bytes.drop (statedLength b + 3) then plainResult .badCrc
  else if field b.bytes 0 % 32 ≠ orderAddress k ∨ field b.bytes 1 % 8 ≠ orderChannel k then
    plainResult .misaddressed
  else judgeFit k sentToggle b clock

end Sys2Proof.Machine
end

