-- ==== Sys2Proof/Machine/Flags.lean ====
section
/-! DEFINITION. The flag bytes of the encodings, bit by bit, bit 0 the least significant (13.1, 13.3,
13.4), and the configuration record on the link. A flag byte carries 0 in every bit its layout does not
name (R176). -/

namespace Sys2Proof.Machine

open Sys2Proof

def bit (b : Bool) (n : Nat) : Nat := if b then 2 ^ n else 0

/-- The option flags of LINE_SET: echo check in bit 0, round broadcast in bit 1. -/
def optionFlags (c : LineConfig) : Byte := byteOf (bit c.echoCheck 0 + bit c.roundBroadcast 1)

/-- The line flags of LINE_QUERY: resync request pending, purge pending, a transaction IN_FLIGHT. -/
def lineFlags (resync purge inFlight : Bool) : Byte := byteOf (bit resync 0 + bit purge 1 + bit inFlight 2)

/-- The presence flags of NODE_QUERY: profile, last verdict. -/
def presenceFlags (n : NodeRecord) : Byte := byteOf (bit n.profile.isSome 0 + bit n.lastVerdict.isSome 1)

/-- The sample flags: RESUMED, NOISY. -/
def sampleFlags (x : Sample) : Byte := byteOf (bit x.resumed 0 + bit x.noisy 1)

/-- Check 3 of R113: every field is a value listed in R112, and no option flag above bit 1 is set. -/
def configOf (p : List Byte) : Option LineConfig :=
  match bitRateOfCode (field p 1) with
  | none => none
  | some rate =>
    let c : LineConfig :=
      { bitRate := rate, responseWindow := field p 2, retryLimit := field p 3, failureThreshold := field p 4
        roundPeriod := (field16 p 5).toNat, allowance := field p 7, holdoff := field p 8
        echoCheck := (p.getD 9 0).getLsbD 0, roundBroadcast := (p.getD 9 0).getLsbD 1 }
    if 2 ≤ c.responseWindow ∧ c.retryLimit ≤ 3 ∧ 1 ≤ c.failureThreshold ∧ c.failureThreshold ≤ 15
        ∧ 2 ≤ c.roundPeriod ∧ c.roundPeriod ≤ 5000 ∧ c.allowance ≤ 8 ∧ 1 ≤ c.holdoff ∧ field p 9 ≤ 3
    then some c else none

/-- The nine configuration bytes of a LINE_QUERY response (R178). -/
def configBytes (c : LineConfig) : List Byte :=
  [bitRateCode c.bitRate, byteOf c.responseWindow, byteOf c.retryLimit, byteOf c.failureThreshold]
    ++ be16 (BitVec.ofNat 16 c.roundPeriod) ++ [byteOf c.allowance, byteOf c.holdoff, optionFlags c]

/-- The three profile bytes, 0 when the profile is absent (R178, R179). -/
def profileBytes : Option Profile → List Byte
  | none => [0, 0, 0]
  | some p => [p.kind, byteOf p.channels, byteOf p.maxPayload]

end Sys2Proof.Machine
end

