-- ==== Sys2Proof/Machine/Samples.lean ====
section
/-! DEFINITION. The Sample Store (chapter 6): the block pool and its reservations, the offer with its
overflow policies, notices, and what a fetch takes. -/

namespace Sys2Proof.Machine

open Sys2Proof

/-- Open subscriptions whose sample queue is empty: the reservations not yet in use (R79). -/
def emptyOpen (s : State) : Nat :=
  (s.subs.filter fun r => r.isOpen && r.queue.isEmpty).length

/-- The free blocks beyond the reservations (R79). -/
def spareBlocks (s : State) : Nat := s.freeBlocks - emptyOpen s

/-- After a store: a notice NONE becomes QUEUED and SAMPLE_READY is requested (R87). -/
def raiseNotice (id uid : Nat) (s : State) : State :=
  match findSubRecord s id uid with
  | none => s
  | some r =>
    if r.notice = .none then
      requestReport (.sampleReady id uid) (updateSub id uid (fun r => { r with notice := .queued }) s)
    else s

/-- What the offer of a sample does to its queue (R82): a store in a free block, or the overflow policy. -/
inductive OfferOutcome where
  | store | replaceOldest | drop
  deriving DecidableEq, Repr

/-- R82: case 1, case 2, otherwise the overflow policy (R83, R84). -/
def offerOutcome (r : SubRecord) (s : State) : OfferOutcome :=
  if r.queue = [] then .store
  else if r.queue.length < r.depth ∧ 1 ≤ spareBlocks s then .store
  else match r.policy with
    | .keepNewest => .replaceOldest
    | .keepOldest => .drop

/-- The offer: numbering (R81), then store or drop (R82 to R84), then the notice (R87). -/
def offerSample (id uid : Nat) (x : Sample) (s : State) : State :=
  match findSubRecord s id uid with
  | none => s
  | some r =>
    let x := { x with sequence := r.nextSequence }
    match offerOutcome r s with
    | .store =>
      raiseNotice id uid
        { updateSub id uid (fun r => { r with queue := r.queue ++ [x], nextSequence := r.nextSequence + 1 }) s with
          freeBlocks := s.freeBlocks - 1 }
    | .replaceOldest =>
      raiseNotice id uid
        (updateSub id uid (fun r => { r with
          queue := r.queue.tail ++ [x], nextSequence := r.nextSequence + 1, dropped := satInc r.dropped }) s)
    | .drop =>
      updateSub id uid (fun r => { r with
        nextSequence := r.nextSequence + 1, dropped := satInc r.dropped }) s

/-- The bytes of a sample in a SUB_FETCH response (R178). -/
def sampleBytes (x : Sample) : List Byte :=
  be16 x.sequence ++ be16 x.round ++ be32 x.captureTime ++ [sampleFlags x, byteOf x.payload.length] ++ x.payload

/-- How many samples a fetch takes from the head of the queue: up to `count`, while the next one, of
10 + length bytes, fits in the room left (R90). -/
def fetchCount : Nat → Nat → List Sample → Nat
  | 0, _, _ => 0
  | _, _, [] => 0
  | count + 1, room, x :: rest =>
    if 10 + x.payload.length ≤ room then 1 + fetchCount count (room - (10 + x.payload.length)) rest else 0

/-- The fetch settles the notice (R92): withdraw a QUEUED entry, set NONE, and raise it again at the tail
if samples are left. -/
def settleNotice (r : SubRecord) (left : List Sample) (s : State) : State :=
  let s := if r.notice = .queued then withdrawReport (.sampleReady r.id r.uid) s else s
  let s := updateSub r.id r.uid (fun r => { r with notice := .none }) s
  if left = [] then s else raiseNotice r.id r.uid s

/-- A served fetch removes the samples it takes, whose blocks become free (R91). -/
def takeSamples (r : SubRecord) (n : Nat) (s : State) : State :=
  settleNotice r (r.queue.drop n)
    { updateSub r.id r.uid (fun r => { r with queue := r.queue.drop n }) s with
      freeBlocks := s.freeBlocks + (r.queue.take n).length }

end Sys2Proof.Machine
end

