-- ==== Sys2Proof/Machine/Subscriptions.lean ====
section
/-! DEFINITION. The Subscription Table (chapter 5): entries to ACTIVE, WAITING and FAULTED, poll
verdicts, the profile re-check and the poll list entries they prune. -/

namespace Sys2Proof.Machine

open Sys2Proof

/-- The due test of R8. -/
def isDue (round : Word16) (r : SubRecord) : Bool :=
  r.phase == some (round.toNat % r.period)

/-- Entries of the poll list are pruned when their subscriptions leave ACTIVE (R11). -/
def prunePolls (l : LineId) (ids : List Nat) (s : State) : State :=
  s.modifySched l fun c => { c with pollList := c.pollList.filter fun id => id ∉ ids }

/-- Entry to ACTIVE (R66): the phase makes the round after the current one due, the resumed flag is set,
the reference payload is absent. The round after 65535 is 0 (log 10). -/
def enterActive (round : Word16) (r : SubRecord) : SubRecord :=
  { r with
    state := .active, phase := some ((round + 1).toNat % r.period), resumed := true, referencePayload := none }

/-- The node has left service: its ACTIVE subscriptions go to WAITING (R67). -/
def suspendSubs (l : LineId) (address : Nat) (s : State) : State :=
  let leaving (r : SubRecord) : Bool := r.line == l && r.node == address && r.state == .active
  prunePolls l ((s.subs.filter leaving).map (·.id))
    { s with subs := s.subs.map fun r =>
        if leaving r then { r with state := .waiting, referencePayload := none } else r }

/-- Entry to FAULTED, with its SUB_STATE request (R71, R73, R77). -/
def enterFaulted (id uid : Nat) (reason : FaultReason) (s : State) : State :=
  requestReport (.subState id uid)
    (updateSub id uid (fun r => { r with
      state := .faulted, faultReason := some reason, referencePayload := none }) s)

/-- The outcome of the profile re-check for one WAITING subscription (R73). -/
def recheckSub (round : Word16) (p : Profile) (r : SubRecord) (s : State) : State :=
  if p.channels ≤ r.channel then enterFaulted r.id r.uid .noChannel s
  else if p.maxPayload < r.maxLength then enterFaulted r.id r.uid .badLength s
  else updateSub r.id r.uid (enterActive round) s

/-- The node has entered ONLINE: its WAITING subscriptions in ascending channel order (R73). -/
def recheckSubs (l : LineId) (address : Nat) (p : Profile) (s : State) : State :=
  (sortByPoll (s.subs.filter fun r => r.line == l && r.node == address && r.state == .waiting)).foldl
    (fun s r => recheckSub (s.line l).sched.roundNumber p r s) s

/-- The CHANGE filter (R70): whether an OK reply is offered. -/
def passesFilter (r : SubRecord) (payload : List Byte) : Bool :=
  match r.kind with
  | .every => true
  | .change => r.resumed || r.referencePayload != some payload

/-- An OK verdict for an ACTIVE subscription (R69): filter, build the sample, offer it. -/
def takeOkReply (r : SubRecord) (round : Word16) (noisy : Bool) (reply : Reply) (s : State) : State :=
  if passesFilter r reply.payload then
    offerSample r.id r.uid
      { subId := r.id, sequence := r.nextSequence, round := round, captureTime := reply.captureTime
        resumed := r.resumed, noisy := noisy, payload := reply.payload }
      (updateSub r.id r.uid (fun r => { r with
        resumed := false
        referencePayload := match r.kind with
          | .every => r.referencePayload
          | .change => some reply.payload }) s)
  else s

/-- A REFUSED verdict for an ACTIVE subscription (R71). -/
def takeRefusal (r : SubRecord) (reason : RefuseReason) (s : State) : State :=
  match reason with
  | .noChannel => enterFaulted r.id r.uid .noChannel s
  | .badLength => enterFaulted r.id r.uid .badLength s
  | .notReady | .denied => updateSub r.id r.uid (fun r => { r with refusals := satInc r.refusals }) s

/-- The verdict of a poll of an ACTIVE subscription, by its kind (R69, R71, R72). -/
def takeActiveVerdict (r : SubRecord) (v : VerdictRecord) (s : State) : State :=
  match v.result.verdict, v.result.reply, v.result.reason with
  | .ok, some reply, _ => takeOkReply r v.order.round v.result.noisy reply s
  | .refused, _, some reason => takeRefusal r reason s
  | _, _, _ => s

/-- The Subscription Table takes a poll's verdict (R68): a CLOSING record is freed (R75), an ACTIVE one
acts by the verdict. -/
def takePollVerdict (id uid : Nat) (v : VerdictRecord) (s : State) : State :=
  match findSubRecord s id uid with
  | none => s
  | some r =>
    let s := updateSub id uid (fun r => { r with pollInFlight := false }) s
    match r.state with
    | .closing => freeSub id uid s
    | .active => takeActiveVerdict r v s
    | .waiting | .faulted => s

end Sys2Proof.Machine
end

