-- ==== Sys2Proof/Machine/Nodes.lean ====
section
/-! DEFINITION. The Node Table (chapter 4): verdicts, entries to PENDING, ONLINE and LOST, and the write
toggle copies. -/

namespace Sys2Proof.Machine

open Sys2Proof

/-- Entry to PENDING of one record: count 0, NODE_STATE, then its subscriptions (R57). -/
def nodeToPending (l : LineId) (n : NodeRecord) (s : State) : State :=
  suspendSubs l n.address
    (requestReport (.nodeState l n.address n.uid)
      (updateNode l n.address n.uid (fun n => { n with state := .pending, failures := 0 }) s))

/-- Every record of the line that satisfies the test enters PENDING, in ascending address order. -/
def nodesToPending (l : LineId) (test : NodeRecord → Bool) (s : State) : State :=
  ((s.line l).nodes.filter test).foldl (fun s n => nodeToPending l n s) s

/-- Every write toggle copy of the line is set to 0 (R23). -/
def resetToggles (l : LineId) (s : State) : State :=
  s.modifyLine l fun x => { x with nodes := x.nodes.map fun n => { n with toggle := false } }

/-- A break of this duration has ended on the line (R23, R130). -/
def breakEnded (l : LineId) (duration : Nat) (s : State) : State :=
  if Config.twoCharacters ≤ duration then resetToggles l s else s

/-- The node counters a verdict moves (R39). A CONTENTION moves none (R52, log 14). -/
def countNode (v : VerdictRecord) (c : NodeCounters) : NodeCounters :=
  let counted := { c with retries := satAdd c.retries v.retries }
  match v.result.verdict with
  | .ok => { counted with good := satInc c.good, noisy := if v.result.noisy then satInc c.noisy else c.noisy }
  | .refused => { counted with refusals := satInc c.refusals }
  | .contention => c
  | .timeout | .badCrc | .framing | .gap | .lineBreak | .misaddressed | .malformed =>
    { counted with failed := satInc c.failed }

/-- A probe OK (R48). -/
def nodeOnline (l : LineId) (n : NodeRecord) (p : Profile) (s : State) : State :=
  recheckSubs l n.address p
    (requestReport (.nodeState l n.address n.uid)
      (updateNode l n.address n.uid (fun n => { n with
        state := .online, failures := 0, toggle := false, profile := some p }) s))

/-- A poll or transaction answered (R50), with the toggle flipped by an OK addressed WRITE (R54). -/
def nodeAnswered (l : LineId) (n : NodeRecord) (flip : Bool) (s : State) : State :=
  let s := updateNode l n.address n.uid (fun n => { n with
    state := .online, failures := 0, toggle := if flip then !n.toggle else n.toggle }) s
  if n.state = .suspect then requestReport (.nodeState l n.address n.uid) s else s

/-- Entry to LOST (R51, R53). -/
def nodeLost (l : LineId) (n : NodeRecord) (s : State) : State :=
  suspendSubs l n.address
    (requestReport (.nodeState l n.address n.uid)
      (updateNode l n.address n.uid (fun n => { n with
        state := .lost, failures := n.failures + 1
        counters := { n.counters with losses := satInc n.counters.losses } }) s))

/-- A poll or transaction ended with a failure verdict (R51). -/
def nodeFailed (l : LineId) (n : NodeRecord) (s : State) : State :=
  if (s.line l).config.failureThreshold ≤ n.failures + 1 then nodeLost l n s
  else
    let s := updateNode l n.address n.uid (fun n => { n with state := .suspect, failures := n.failures + 1 }) s
    if n.state = .online then requestReport (.nodeState l n.address n.uid) s else s

/-- What the Node Table does by order kind and node state (R47 to R52). -/
def actOnVerdict (l : LineId) (n : NodeRecord) (v : VerdictRecord) (s : State) : State :=
  match v.order.kind with
  | .probe _ _ =>
    match v.result.verdict, v.result.profile with
    | .ok, some p => if n.state.inService then s else nodeOnline l n p s
    | _, _ => s
  | .poll _ _ _ _ _ _ | .read _ _ _ _ _ _ | .write _ _ _ _ _ _ =>
    if n.state.inService then
      match v.result.verdict with
      | .ok => nodeAnswered l n (isAddressedWrite v.order.kind) s
      | .refused => nodeAnswered l n false s
      | .contention => s
      | .timeout | .badCrc | .framing | .gap | .lineBreak | .misaddressed | .malformed => nodeFailed l n s
    else s
  | .breakOrder | .roundBroadcast => s

/-- The Node Table takes the verdict of an addressed order, once, for the record the order was taken for
(R47): last verdict and round, the counters, then the act. -/
def takeNodeVerdict (l : LineId) (v : VerdictRecord) (s : State) : State :=
  if isAddressed v.order.kind then
    match findNodeRecord s l (orderAddress v.order.kind) (orderNodeUid v.order.kind) with
    | none => s
    | some n =>
      actOnVerdict l n v
        (updateNode l n.address n.uid (fun n => { n with
          lastVerdict := some v.result.verdict, lastRound := some v.order.round
          counters := countNode v n.counters }) s)
  else s

end Sys2Proof.Machine
end

