-- ==== Sys2Proof/Machine/Transactions.lean ====
section
/-! DEFINITION. The Transaction Queues (chapter 7): completion, verdicts, contention returns and purge. -/

namespace Sys2Proof.Machine

open Sys2Proof

/-- Completion (R103): the result and what goes with it, state DONE, TXN_DONE requested. -/
def completeTxn (reference : Word16) (result : TxnResult) (verdict : Option Verdict)
    (reason : Option RefuseReason) (reply : Option (List Byte)) (s : State) : State :=
  requestReport (.txnDone reference)
    (updateTxn reference (fun t => { t with
      state := .done, result := some result, lastVerdict := verdict, refuseReason := reason, reply := reply }) s)

/-- A purge: every QUEUED record of the line completes CANCELLED, head first (R107). -/
def purgeLine (l : LineId) (s : State) : State :=
  (s.line l).txnQueue.foldl (fun s reference => completeTxn reference .cancelled none none none s)
    (s.modifyLine l fun x => { x with txnQueue := [] })

/-- The record leaves its line's queue from wherever it stands (R96). -/
def leaveQueue (l : LineId) (reference : Word16) (s : State) : State :=
  s.modifyLine l fun x => { x with txnQueue := x.txnQueue.filter (· ≠ reference) }

/-- What a failed or contended exchange means by the transaction's kind: FAILED for a READ, UNCONFIRMED
for a WRITE (R100, R102). -/
def failureResult : TxnKind → TxnResult
  | .read _ => .failed
  | .write _ => .unconfirmed

/-- What an OK means: SENT for a broadcast WRITE (R101), OK otherwise. -/
def okResult (t : TxnRecord) : TxnResult :=
  match t.kind with
  | .read _ => .ok
  | .write _ => if t.node = 0 then .sent else .ok

/-- A contended record is returned when its contention returns are below 3 and it is a READ or a WRITE
never sent in full (R102). -/
def isReturned (t : TxnRecord) : Bool :=
  decide (t.contentionReturns < Config.contentionReturnLimit) &&
    (match t.kind with
      | .read _ => true
      | .write _ => t.attempts == 0)

/-- R102 for a record of the line whose contention returns have been counted. -/
def takeContention (l : LineId) (t : TxnRecord) (s : State) : State :=
  if isReturned t then
    (updateTxn t.reference (fun t => { t with state := .queued }) s).modifyLine l fun x =>
      { x with txnQueue := t.reference :: x.txnQueue }
  else completeTxn t.reference (failureResult t.kind) (some .contention) none none s

/-- The Transaction Queues take the verdict of the line's IN_FLIGHT record (R100 to R102). -/
def takeTxnVerdict (l : LineId) (reference : Word16) (v : VerdictRecord) (s : State) : State :=
  match findTxn s reference with
  | none => s
  | some t =>
    let t := { t with attempts := t.attempts + v.framesSent }
    let s := updateTxn reference (fun t => { t with attempts := t.attempts + v.framesSent }) s
    let verdict := some v.result.verdict
    match v.result.verdict with
    | .ok => completeTxn reference (okResult t) verdict none (v.result.reply.map (·.payload)) s
    | .refused => completeTxn reference .refused verdict v.result.reason none s
    | .contention =>
      takeContention l { t with contentionReturns := t.contentionReturns + 1 }
        (updateTxn reference (fun t => { t with contentionReturns := t.contentionReturns + 1 }) s)
    | .timeout | .badCrc | .framing | .gap | .lineBreak | .misaddressed | .malformed =>
      completeTxn reference (failureResult t.kind) verdict none none s

end Sys2Proof.Machine
end

