-- ==== Sys2Proof/Machine/LineControl.lean ====
section
/-! DEFINITION. Line Control and the Round Scheduler's rounds (chapters 2 and 8): changes of line state,
the stop, the fault, and the round start. -/

namespace Sys2Proof.Machine

open Sys2Proof

/-- Every change of line state sets the cause and requests LINE_STATE (R125). -/
def changeLineState (l : LineId) (state : LineState) (cause : Cause) (s : State) : State :=
  requestReport (.lineState l) (s.modifyLine l fun x => { x with lineState := state, cause := cause })

/-- What the Round Scheduler does on STOPPED (R7). -/
def stopScheduler (c : Scheduler) : Scheduler :=
  { c with roundTimer := .stopped, pollList := [], resyncRequest := false }

/-- Entry to STOPPED (R118): the state, a pending purge, the timers and the scheduler. -/
def enterStopped (l : LineId) (s : State) : State :=
  let s := changeLineState l .stopped .request s
  let s := if (s.line l).purgePending then purgeLine l s else s
  s.modifyLine l fun x =>
    { x with
      purgePending := false, holdoffTimer := .stopped, idleWait := .stopped, sched := stopScheduler x.sched }

/-- Entry to FAULT (R121, R123): the round timer stops (R3), and so does a holdoff. -/
def enterFault (l : LineId) (cause : Cause) (s : State) : State :=
  (changeLineState l .fault cause s).modifyLine l fun x =>
    { x with holdoffTimer := .stopped, sched := { x.sched with roundTimer := .stopped } }

/-- In FAULT the idle wait starts from the full holdoff time (R124). -/
def startIdleWait (l : LineId) (s : State) : State :=
  s.modifyLine l fun x =>
    if x.lineState = .fault then { x with idleWait := .running x.config.holdoff } else x

/-- A line that enters RUNNING with a stuck input goes to FAULT at once (R123, R131). -/
def checkStuck (l : LineId) (s : State) : State :=
  if (s.line l).lineState = .running ∧ (s.line l).port.stuck ∧ (s.line l).engine.state = .idle then
    enterFault l .stuck s
  else s

/-- The poll list of a round: the due ACTIVE subscriptions in node and channel order (R10). -/
def buildPollList (l : LineId) (round : Word16) (s : State) : List Nat :=
  (sortByPoll (s.subs.filter fun r => r.line == l && r.state == .active && isDue round r)).map (·.id)

/-- A round start (R5). -/
def startRound (l : LineId) (s : State) : State :=
  let round := (s.line l).sched.roundNumber + 1
  let polls := buildPollList l round s
  s.modifyLine l fun x =>
    { x with
      sched := { x.sched with
        roundNumber := round, roundTimer := .running x.config.roundPeriod, pollList := polls
        broadcastSent := false, probeDone := false, allowanceUsed := 0, alternation := .none
        contentionCount := 0 }
      counters := { x.counters with rounds := satInc x.counters.rounds } }

/-- The four conditions of R4. -/
def roundStartDue (x : Line) : Bool :=
  x.lineState == .running && x.sched.roundTimer == .expired && x.sched.pollList.isEmpty
    && x.engine.state == .idle

/-- The quiet starts again (R12). -/
def restartQuiet (l : LineId) (s : State) : State :=
  s.modifySched l fun c => { c with quiet := .running Config.twoCharacters }

/-- The fourth step of a delivery (R38): Line Control on a CONTENTION (R118, R121), on a stop completed
by the verdict (R118), and on an exchange ended by a stuck input (R123). -/
def lineControlTake (l : LineId) (verdict : Verdict) (stuckEnded : Bool) (s : State) : State :=
  match (s.line l).lineState with
  | .stopping => if verdict = .contention then s else enterStopped l s
  | .running =>
    if verdict = .contention then
      if (s.line l).sched.contentionCount < Config.contentionLimit then changeLineState l .holdoff .contention s
      else enterFault l .contentionLimit s
    else if stuckEnded then enterFault l .stuck s
    else s
  | .stopped | .holdoff | .fault => s

end Sys2Proof.Machine
end

