-- ==== Sys2Proof/Machine/Receiver.lean ====
section
/-! DEFINITION. The Line Port in one sample period (chapter 9): the level it drives, what its receiver makes of
the sample of the input, the echo check, and what it signals. -/

namespace Sys2Proof.Machine

open Sys2Proof

/-- Bits per second of a line rate (R126). -/
def hertz : BitRate → Nat
  | .r9600 => 9600
  | .r19200 => 19200
  | .r38400 => 38400
  | .r57600 => 57600
  | .r115200 => 115200
  | .r250000 => 250000
  | .r500000 => 500000
  | .r1000000 => 1000000

/-! ### The transmit output (R126, R132, R133) -/

/-- The level of a bit of a line character: start bit 0, nine data bits with the least significant first, stop
bit 1 (R126). -/
def characterLevel (c : BitVec 9) (bit : Nat) : PinLevel :=
  if bit = 0 then .low
  else if bit ≤ 9 then (if c.getLsbD (bit - 1) then .high else .low)
  else .high

/-- The level on LATX or LBTX: the bit being sent, low through a break, high otherwise. -/
def transmitOutput (p : LinePort) : PinLevel :=
  match p.tx with
  | .idle => .high
  | .sendingBreak _ _ => .low
  | .frame chars position _ =>
    match chars[position / Config.characterSamples]? with
    | some c => characterLevel c (position % Config.characterSamples / 16)
    | none => .high

/-- The transmit position or the time left in a break, one sample period on (R127). -/
def Transmitter.count : Transmitter → Transmitter
  | .idle => .idle
  | .frame chars position finishing =>
    .frame chars (min (position + 1) (Config.characterSamples * chars.length)) finishing
  | .sendingBreak jam left => .sendingBreak jam (left - 1)

/-! ### The receiver's parts -/

def signal (x : PortSignal) (p : LinePort) : LinePort := { p with signals := p.signals ++ [x] }

/-- No character is being received: one under way is gone, and so is its start bit's signal if it still waits. -/
def clearCharacter (p : LinePort) : LinePort :=
  { p with
    samplePosition := 0, rxBits := [], rxVotes := [], rxNoise := false
    ended := p.ended.map fun e => { e with startWaits := false } }

/-- A frame is being sent whose characters are compared with their echoes (R134). -/
def echoing (echoCheck : Bool) (p : LinePort) : Bool :=
  match p.tx with
  | .frame _ _ false => echoCheck
  | .frame _ _ true | .idle | .sendingBreak _ _ => false

/-- The signal of a falling edge (R128). -/
def begunSignal (echo : Bool) : PortSignal := if echo then .echoBegun else .startBegun

/-- The falling edge, sample 1 of a character (R128): QUALIFY, and start begun, which waits for the nominal end of
the character before (R129). -/
def beginCharacter (echo : Bool) (p : LinePort) : LinePort :=
  let p := { clearCharacter p with rxPhase := .qualify }
  match p.ended with
  | none => signal (begunSignal echo) p
  | some e => { p with ended := some { e with startWaits := true } }

/-- One sample period towards the nominal end of a decided character's stop bit, where it is delivered (R129). -/
def endCharacter (echo : Bool) (p : LinePort) : LinePort :=
  match p.ended with
  | none => p
  | some e =>
    if e.left ≤ 1 then
      let p := signal (.characterEnd e.character) { p with ended := none }
      if e.startWaits then signal (begunSignal echo) p else p
    else { p with ended := some { e with left := e.left - 1 } }

/-- The low time (R131), in sample periods of the rate in force when the low period began (R138), and with it the
duration of a break (R130). -/
def countLow (level : PinLevel) (p : LinePort) : LinePort :=
  match level with
  | .high => { p with lowTime := 0, lowPhase := 0 }
  | .low =>
    if p.lowTime = 0 then
      { p with lowTime := 1, lowRate := p.rate, lowPhase := 0, inBreak := p.inBreak.map (· + 1) }
    else
      let passed := (p.lowPhase + hertz p.lowRate) / hertz p.rate
      { p with
        lowTime := p.lowTime + passed, lowPhase := (p.lowPhase + hertz p.lowRate) % hertz p.rate
        inBreak := p.inBreak.map (· + passed) }

/-! ### Bits and characters (R128 to R130) -/

/-- The value held by at least two of the three samples of a bit. -/
def majority (votes : List PinLevel) : Bool := decide (2 ≤ votes.count .high)

/-- The three samples of a bit do not all agree. -/
def disagree (votes : List PinLevel) : Bool := votes.contains .low && votes.contains .high

/-- The number whose bits these are, the least significant first. -/
def numberOf : List Bool → Nat
  | [] => 0
  | bit :: rest => bit.toNat + 2 * numberOf rest

/-- Data bits 0 to 8 of the eleven bits of a character (R126). -/
def dataOf (bits : List Bool) : BitVec 9 := BitVec.ofNat 9 (numberOf (bits.drop 1))

/-- An echo passes at a stop-bit decision with the data bits sent and stop bit 1, and fails at any other (R134). -/
def judgeEcho (c : ReceivedCharacter) : Echo → Echo
  | .expecting x _ => if c.data = x ∧ c.stop then .none else .failed
  | .none => .none
  | .failed => .failed

/-- An echo that is a break fails (R134). -/
def failEcho : Echo → Echo
  | .expecting _ _ => .failed
  | .none => .none
  | .failed => .failed

/-- The stop-bit decision of an all-zero character (R130): in break, since the falling edge. A break being measured
already, across a release of the driver after RESTART, is the same break (log 25). -/
def detectBreak (p : LinePort) : LinePort :=
  let q := { clearCharacter p with rxPhase := .waitHigh, echo := failEcho p.echo }
  match p.inBreak with
  | none => signal .breakDetected { q with
      inBreak := some (if p.lowRate = p.rate then Config.decisionSamples else p.lowTime) }
  | some _ => q

/-- The stop-bit decision (R129). -/
def decideCharacter (echo : Bool) (p : LinePort) : LinePort :=
  if p.rxBits.all (!·) then detectBreak p
  else
    let c : ReceivedCharacter :=
      { data := dataOf p.rxBits, stop := p.rxBits.getLastD true, noisy := p.rxNoise, echo := echo }
    { clearCharacter p with
      rxPhase := if c.stop then .hunt else .waitHigh, echo := judgeEcho c p.echo
      ended := some { character := c, left := Config.characterSamples - Config.decisionSamples
                      startWaits := false } }

/-- This rate is in force from here on (R138). At a change of rate the fractional divider starts anew, so that no sample
period at the new rate is off by a period of CLKIN (R126, log 1). -/
def LinePort.withRate (rate : BitRate) (p : LinePort) : LinePort :=
  { p with rate := rate, divider := if rate = p.rate then p.divider else 0 }

/-- Sample 9 of a start bit with majority 0 (R128). The rate configured becomes the rate in force, but not under a
character still being sent (R138, log 26). -/
def qualifyStart (configured : BitRate) (noisy : Bool) (p : LinePort) : LinePort :=
  { p.withRate (if p.tx = .idle then configured else p.rate) with
    rxPhase := .bits, rxBits := [false], rxNoise := noisy }

/-- Sample 9 of a start bit with majority 1 (R128). -/
def refuseStart (p : LinePort) : LinePort := signal .falseStart { clearCharacter p with rxPhase := .hunt }

/-- A bit is decided at sample 16k + 9 (R128, R129). -/
def decideBit (configured : BitRate) (echo : Bool) (votes : List PinLevel) (p : LinePort) : LinePort :=
  if p.rxPhase = .qualify then
    if majority votes then refuseStart p else qualifyStart configured (disagree votes) p
  else
    let p := { p with rxBits := p.rxBits ++ [majority votes], rxNoise := p.rxNoise || disagree votes }
    if p.samplePosition + 1 = Config.decisionSamples then decideCharacter echo p else p

/-- A sample inside a character: sample n of the character stands at position n - 1 (R127). -/
def bitSample (configured : BitRate) (echo : Bool) (level : PinLevel) (p : LinePort) : LinePort :=
  let p := { p with samplePosition := p.samplePosition + 1 }
  if p.samplePosition % 16 = 6 ∨ p.samplePosition % 16 = 7 then { p with rxVotes := p.rxVotes ++ [level] }
  else if p.samplePosition % 16 = 8 then
    decideBit configured echo (p.rxVotes ++ [level]) { p with rxVotes := [] }
  else p

/-- The signal of the return high that ends a break of this duration (R130, R131). -/
def breakEndSignal (stuck : Bool) (duration : Nat) : PortSignal :=
  if stuck then .stuckEnd duration else .breakEnd duration

/-- The return high in WAIT_HIGH (R130, R131). -/
def returnedHigh (p : LinePort) : LinePort :=
  signal
    (match p.inBreak with
      | some duration => breakEndSignal p.stuck duration
      | none => .returnHigh)
    { clearCharacter p with rxPhase := .hunt, inBreak := none, stuck := false }

/-- A sample inside a character while a break is being measured, which began before a release of the driver after
RESTART (R138, log 25): the first high one ends the break. -/
def endMeasuredBreak (level : PinLevel) (p : LinePort) : LinePort :=
  match level, p.inBreak with
  | .high, some duration => signal (breakEndSignal p.stuck duration) { p with inBreak := none, stuck := false }
  | .high, none | .low, _ => p

/-- The low time exceeds 4 character times (R131): stuck, and in break if it was not before. The receiver waits for
the return high, whichever phase it was in (log 19). -/
def findStuck (p : LinePort) : LinePort :=
  if p.tx = .idle ∧ p.stuck = false ∧ Config.stuckSamples < p.lowTime then
    signal (.stuck p.inBreak.isNone) { clearCharacter p with
      rxPhase := .waitHigh, stuck := true, inBreak := some (p.inBreak.getD p.lowTime) }
  else p

/-! ### The echo check (R134, R135) -/

/-- The echo expected of character k of a frame; its deadline is the end of that character's stop bit. -/
def expectedEcho (chars : List (BitVec 9)) (k : Nat) : Echo :=
  match chars[k]? with
  | some c => .expecting c (Config.characterSamples * (k + 1))
  | none => .none

/-- A start bit the part sends begins with this sample period. -/
def startsEcho (echoCheck : Bool) (p : LinePort) : Bool :=
  match p.tx with
  | .frame chars position false =>
    echoCheck && position % Config.characterSamples == 0
      && decide (position < Config.characterSamples * chars.length)
  | .frame _ _ true | .idle | .sendingBreak _ _ => false

/-- At each start bit the part sends the receiver discards a character it is in the middle of and starts again, with
no break of before. -/
def restartForEcho (p : LinePort) : LinePort :=
  match p.tx with
  | .frame chars position _ =>
    { clearCharacter p with
      rxPhase := .hunt, inBreak := none, echo := expectedEcho chars (position / Config.characterSamples) }
  | .idle | .sendingBreak _ _ => p

/-- An echo still expected at its deadline has failed. -/
def missEcho (position : Nat) : Echo → Echo
  | .expecting c deadline => if deadline ≤ position then .failed else .expecting c deadline
  | .none => .none
  | .failed => .failed

/-- The echo passes only at a decision before its deadline: the sample at the deadline comes too late. -/
def reachDeadline (p : LinePort) : LinePort :=
  match p.tx with
  | .frame _ position _ => { p with echo := missEcho (position + 1) p.echo }
  | .idle | .sendingBreak _ _ => p

/-- One sample period of the transmitter. Once an echo has failed the character under way is the last (R135). -/
def sendPeriod (p : LinePort) : LinePort :=
  match p.tx with
  | .frame chars position finishing =>
    let left := if p.echo = .failed then chars.take (position / Config.characterSamples + 1) else chars
    { p with tx := .frame left (min (position + 1) (Config.characterSamples * chars.length)) finishing }
  | .idle | .sendingBreak _ _ => { p with tx := p.tx.count }

/-! ### One sample period -/

/-- What the receiver makes of a sample, by its phase (R127). -/
def receive (configured : BitRate) (echo : Bool) (level : PinLevel) (edge : Bool) (p : LinePort) : LinePort :=
  match p.rxPhase with
  | .hunt => if edge then beginCharacter echo p else p
  | .qualify | .bits => bitSample configured echo level (endMeasuredBreak level p)
  | .waitHigh => if level = .high then returnedHigh p else p
  | .muted => p

/-- A sample of the input by a receiver that is not MUTED. A falling edge is a low sample after a high one (R128), or
at a start bit the part sends (R134). -/
def takeSample (configured : BitRate) (echoCheck : Bool) (level : PinLevel) (p : LinePort) : LinePort :=
  let starts := startsEcho echoCheck p
  let edge := level == .low && (starts || p.lowTime == 0)
  findStuck (receive configured (echoing echoCheck p) level edge
    (countLow level (if starts then restartForEcho p else p)))

/-- The Line Port in one sample period with its input at this level. A MUTED receiver takes no sample, and its low
time does not run (R131, R132, R133). -/
def samplePort (configured : BitRate) (echoCheck : Bool) (level : PinLevel) (p : LinePort) : LinePort :=
  let p := reachDeadline (endCharacter (echoing echoCheck p) { p with input := level })
  sendPeriod (if p.rxPhase = .muted then p else takeSample configured echoCheck level p)

end Sys2Proof.Machine
end

