-- ==== Sys2Proof/Machine/Port.lean ====
section
/-! DEFINITION. The Line Port at the edges of the driver enable (chapter 9): the assertion and release
of the driver, the two kinds of break, and the engine's timers that a start bit holds. -/

namespace Sys2Proof.Machine

open Sys2Proof

/-! ### Timers held by a start bit (R128) -/

def CharTimer.hold : CharTimer → CharTimer
  | .running left => .held left
  | t => t

/-- A start bit holds whichever of the engine's timers is running (R128). -/
def holdTimers (e : Engine) : Engine :=
  { e with window := e.window.hold, gap := e.gap.hold, settling := e.settling.hold }

/-- A moment that counts as a falling edge (R127, R133): QUALIFY, and the low time counts from it. That it is sample 1
and the first low sample, as the falling edge of R128 is, is the model's choice (log 32). -/
def startCharacter (p : LinePort) : LinePort :=
  { clearCharacter p with rxPhase := .qualify, lowTime := 1, lowRate := p.rate, lowPhase := 0 }

/-- The receiver waits for a falling edge after a high input. -/
def huntHigh (p : LinePort) : LinePort :=
  { clearCharacter p with rxPhase := .hunt, lowTime := 0, lowPhase := 0 }

/-! ### Driver edges (R132, R133) -/

/-- At an assertion of the driver enable a low period being measured ends as though the input had
returned high (R133): break end to the Node Table and the engine, stuck end, low time 0. -/
def endLowPeriod (l : LineId) (s : State) : State :=
  let s := match (s.line l).port.inBreak with
    | none => s
    | some duration => (breakEnded l duration s).modifyEngine l fun e => { e with breakSeen := true }
  s.modifyPort l fun p => { p with inBreak := none, stuck := false, lowTime := 0, lowPhase := 0 }

/-- The transmitter takes a frame (R132): FRAME, the driver asserted. With echo check off the receiver is MUTED;
with it on, it starts again at each start bit and the first echo is expected (R134). -/
def sendFrame (l : LineId) (chars : List (BitVec 9)) (s : State) : State :=
  (endLowPeriod l s).modifyLine l fun x =>
    { x with port := { (clearCharacter x.port).withRate x.config.bitRate with
        rxPhase := if x.config.echoCheck then .hunt else .muted
        tx := .frame chars 0 false, driverEnable := true
        echo := if x.config.echoCheck then expectedEcho chars 0 else .none } }

/-- The transmitter sends a break (R133): BREAK, driver asserted, receiver MUTED. -/
def sendBreak (l : LineId) (jam : Bool) (length : Nat) (s : State) : State :=
  (endLowPeriod l s).modifyPort l fun p =>
    { clearCharacter p with tx := .sendingBreak jam length, driverEnable := true, rxPhase := .muted }

/-- The driver enable is released (R133): the receiver hunts, or takes the moment as a falling edge if
the input is low, and then a start bit has begun. -/
def releaseDriver (l : LineId) (s : State) : State :=
  s.modifyLine l fun x =>
    let p := { x.port with tx := .idle, driverEnable := false, echo := .none }
    match p.input with
    | .high => { x with port := huntHigh p }
    | .low => { x with port := startCharacter p, engine := holdTimers x.engine }

/-- The receiver is inside a character, or waits for the return high. -/
def receiverBusy (p : LinePort) : Bool := p.rxPhase == .qualify || p.rxPhase == .bits || p.rxPhase == .waitHigh

/-- The release at the end of the character finished after RESTART. With the input low it is a falling edge as at
every release (R133), and a break being measured goes on; with the input high a character being received completes
(R138, log 25). -/
def releaseAfterRestart (l : LineId) (s : State) : State :=
  if (s.line l).port.input = .high ∧ receiverBusy (s.line l).port then
    s.modifyPort l fun p => { p with tx := .idle, driverEnable := false, echo := .none }
  else releaseDriver l s

end Sys2Proof.Machine
end

