-- ==== Sys2Proof/Machine/Exchange.lean ====
section
/-! DEFINITION. The Exchange Engine (chapter 3): orders, the end of an attempt with its retry decision,
settling, the delivery of a verdict, and the characters of a reply. -/

namespace Sys2Proof.Machine

open Sys2Proof

/-! ### The delivery of a verdict (R38) -/

/-- Step 1: the owner. For a probe the Node Table takes the record once, at step 2. The Round Scheduler
records nothing for its broadcast's OK (R14). -/
def ownerTake (l : LineId) (v : VerdictRecord) (s : State) : State :=
  match v.order.kind with
  | .poll id uid _ _ _ _ => takePollVerdict id uid v s
  | .read reference _ _ _ _ _ => takeTxnVerdict l reference v s
  | .write reference _ _ _ _ _ => takeTxnVerdict l reference v s
  | .breakOrder | .roundBroadcast | .probe _ _ => s

/-- Step 3: the Round Scheduler counts a CONTENTION (R18). -/
def schedulerTake (l : LineId) (v : VerdictRecord) (s : State) : State :=
  if v.result.verdict = .contention then
    s.modifySched l fun c => { c with contentionCount := c.contentionCount + 1 }
  else s

/-- The four steps of one delivery, in order. -/
def deliverVerdict (l : LineId) (v : VerdictRecord) (stuckEnded : Bool) (s : State) : State :=
  lineControlTake l v.result.verdict stuckEnded
    (schedulerTake l v (takeNodeVerdict l v (ownerTake l v s)))

/-- The engine back in IDLE with its timers stopped and no order (R38). -/
def idleEngine (e : Engine) : Engine :=
  { e with
    state := .idle, order := none, window := .stopped, gap := .stopped, settling := .stopped
    breakHold := false }

/-- The line counters an exchange's end moves (R39). -/
def countExchange (v : Verdict) (c : LineCounters) : LineCounters :=
  { c with
    exchanges := satInc c.exchanges
    contentions := if v = .contention then satInc c.contentions else c.contentions }

/-- The exchange ends (R38): the engine is IDLE, the exchange is counted, the verdict record (R37) is
delivered. -/
def finishExchange (l : LineId) (r : AttemptResult) (stuckEnded : Bool) (s : State) : State :=
  let e := (s.line l).engine
  match e.order with
  | none => s
  | some o =>
    deliverVerdict l
      { order := o, result := r, framesSent := e.framesSent, retries := e.attempt - startAttempt o.kind } stuckEnded
      (s.modifyLine l fun x =>
        { x with engine := idleEngine x.engine, counters := countExchange r.verdict x.counters })

/-! ### The end of an attempt (R34) -/

/-- The line counters an attempt's end moves (R39). -/
def countAttempt (v : Verdict) (c : LineCounters) : LineCounters :=
  match v with
  | .timeout => { c with timeouts := satInc c.timeouts }
  | .badCrc => { c with crcErrors := satInc c.crcErrors }
  | .framing => { c with framingErrors := satInc c.framingErrors }
  | .gap => { c with gapErrors := satInc c.gapErrors }
  | .ok | .refused | .lineBreak | .misaddressed | .malformed | .contention => c

/-- R34: whether another attempt follows. -/
def retryFollows (retryLimit : Nat) (e : Engine) (o : Order) (v : Verdict) : Bool :=
  isFailure v && mayRetry o.kind && decide (e.attempt ≤ retryLimit)
    && !(isAddressedWrite o.kind && e.breakSeen)

/-- An attempt's verdict is recorded and counted, and the timers that could end it stop. -/
def recordAttempt (l : LineId) (v : Verdict) (s : State) : State :=
  s.modifyLine l fun x =>
    { x with
      engine := { x.engine with
        lastVerdict := some v, window := .stopped, gap := .stopped, breakHold := false }
      counters := countAttempt v x.counters }

/-- SETTLING begins (R35). -/
def startSettling (l : LineId) (s : State) : State :=
  s.modifyEngine l fun e => { e with state := .settling, settling := .running Config.twoCharacters }

/-- An attempt ends: R34 decides between SETTLING (R35) and the end of the exchange. -/
def endAttempt (l : LineId) (r : AttemptResult) (s : State) : State :=
  let x := s.line l
  match x.engine.order with
  | none => recordAttempt l r.verdict s
  | some o =>
    if retryFollows x.config.retryLimit x.engine o r.verdict then startSettling l (recordAttempt l r.verdict s)
    else finishExchange l r false (recordAttempt l r.verdict s)

/-! ### Sending (R26, R28, R35) -/

/-- The toggle an addressed WRITE reads from its node record when the exchange begins (R26). Of any other order R26
says nothing: 0 (log 31). -/
def toggleFor (s : State) (l : LineId) (k : OrderKind) : Bool :=
  match findNodeRecord s l (orderAddress k) (orderNodeUid k) with
  | some n => isAddressedWrite k && n.toggle
  | none => false

/-- An order other than a break arrives in IDLE (R26). -/
def startExchange (l : LineId) (k : OrderKind) (s : State) : State :=
  let o : Order := { kind := k, round := (s.line l).sched.roundNumber }
  let toggle := toggleFor s l k
  sendFrame l (orderFrame o toggle)
    (s.modifyEngine l fun e =>
      { e with
        state := .sending, order := some o, attempt := startAttempt k, framesSent := 0, breakSeen := false
        sentToggle := toggle })

/-- A break order (R28): SENDING without characters. -/
def startBreakOrder (l : LineId) (s : State) : State :=
  let o : Order := { kind := .breakOrder, round := (s.line l).sched.roundNumber }
  sendBreak l false Config.breakOrderSamples
    (s.modifyEngine l fun e => { e with state := .sending, order := some o })

/-- SETTLING ends (R35): a WRITE that has seen a break ends its exchange with the last attempt verdict,
any other order is sent again. -/
def endSettling (l : LineId) (s : State) : State :=
  let e := (s.line l).engine
  match e.order, e.lastVerdict with
  | some o, some v =>
    if isAddressedWrite o.kind ∧ e.breakSeen then finishExchange l (plainResult v) false s
    else
      sendFrame l (orderFrame o e.sentToggle)
        (s.modifyLine l fun x =>
          { x with
            engine := { x.engine with
              state := .sending, attempt := x.engine.attempt + 1, settling := .stopped
              buffer := ReceiveBuffer.empty }
            counters := { x.counters with retries := satInc x.counters.retries } })
  | _, _ => s

/-! ### Timers that run out, and the end of a hold (R30, R32, R35) -/

/-- The response window expires once its time is up (log 4): TIMEOUT. While a start bit holds it, that waits for the end
of the hold (R30, R128). -/
def windowRunsOut (l : LineId) (s : State) : State :=
  match (s.line l).engine.window with
  | .running 0 => endAttempt l (plainResult .timeout) s
  | .running (_ + 1) | .stopped | .held _ => s

/-- The gap timer expires once its time is up (log 4): GAP. While a start bit holds it, that waits for the end of the
hold (R32, R128). -/
def gapRunsOut (l : LineId) (s : State) : State :=
  match (s.line l).engine.gap with
  | .running 0 => endAttempt l (plainResult .gap) s
  | .running (_ + 1) | .stopped | .held _ => s

/-- The hold of a start bit ends without stopping the timer: it resumes, or expires at once if its time
ran out while held (R30, R32, R35, R128). -/
def resumeTimers (l : LineId) (s : State) : State :=
  let e := (s.line l).engine
  match e.state with
  | .awaiting =>
    match e.window with
    | .held 0 => endAttempt l (plainResult .timeout) s
    | .held left => s.modifyEngine l fun e => { e with window := .running left }
    | .stopped | .running _ => s
  | .receiving =>
    match e.gap with
    | .held 0 => endAttempt l (plainResult .gap) s
    | .held left => s.modifyEngine l fun e => { e with gap := .running left }
    | .stopped | .running _ => s
  | .settling =>
    match e.settling with
    | .held 0 => endSettling l s
    | .held left => s.modifyEngine l fun e => { e with settling := .running left }
    | .stopped | .running _ => s
  | .idle | .sending => s

/-! ### Characters handed to the engine (R30, R32, R137) -/

/-- The character's byte: data bits 0 to 7 (R126). -/
def ReceivedCharacter.byte (c : ReceivedCharacter) : Byte := c.data.extractLsb' 0 8

/-- The mark: data bit 8 (R126). -/
def ReceivedCharacter.mark (c : ReceivedCharacter) : Bool := c.data.getLsbD 8

/-- A stray character (R137). -/
def countStray (l : LineId) (s : State) : State :=
  s.countLine l fun c => { c with strays := satInc c.strays }

/-- A character joins the receive buffer (R32). -/
def storeCharacter (c : ReceivedCharacter) (b : ReceiveBuffer) : ReceiveBuffer :=
  { bytes := b.bytes ++ [c.byte], noiseSeen := b.noiseSeen || c.noisy, framingSeen := b.framingSeen || !c.stop }

/-- After a character of the reply has been stored: over-length, the complete frame judged (R33), or the
gap timer started (R32). -/
def afterStored (l : LineId) (s : State) : State :=
  let e := (s.line l).engine
  match e.order with
  | none => s
  | some o =>
    if e.buffer.bytes.length = 3 ∧ Config.maxPayload < statedLength e.buffer then
      endAttempt l (plainResult .malformed) s
    else if frameComplete e.buffer then
      endAttempt l (judgeReply o.kind e.sentToggle e.buffer s.msClock) s
    else s.modifyEngine l fun e => { e with gap := .running Config.twoCharacters }

/-- A reply character ends; the quiet starts again at its stop bit, so that it has started at the reply's
last character however the reply ends (R12, log 15). -/
def takeReplyCharacter (l : LineId) (c : ReceivedCharacter) (s : State) : State :=
  afterStored l
    (restartQuiet l (s.modifyEngine l fun e =>
      { e with state := .receiving, window := .stopped, buffer := storeCharacter c e.buffer }))

/-- A delivered character that is no echo, by the engine's state (R40's table). In SENDING it was decided before the
frame began (log 24), and is a stray character as every other is (R137, log 21). -/
def takeCharacter (l : LineId) (c : ReceivedCharacter) (s : State) : State :=
  match (s.line l).engine.state with
  | .idle | .sending => countStray l s
  | .awaiting => if c.mark then takeReplyCharacter l c s else resumeTimers l (countStray l s)
  | .receiving =>
    if c.mark then endAttempt l (plainResult .malformed) (restartQuiet l s)
    else takeReplyCharacter l c s
  | .settling => resumeTimers l (countStray l s)

/-! ### Breaks (R31) -/

/-- Break detected: it ends an attempt in AWAITING or RECEIVING, held until the break's end, and is seen in
SETTLING too (R31). -/
def engineBreak (e : Engine) : Engine :=
  match e.state with
  | .awaiting | .receiving =>
    { e with
      window := .stopped, gap := .stopped, buffer := ReceiveBuffer.empty, breakHold := true
      breakSeen := true, lastVerdict := some .lineBreak }
  | .settling => { e with breakSeen := true }
  | .idle | .sending => e

/-- Break end to the engine: the held attempt's end is decided (R31, R34), or SETTLING goes on (R35). -/
def engineBreakEnd (l : LineId) (s : State) : State :=
  if (s.line l).engine.breakHold then endAttempt l (plainResult .lineBreak) s
  else resumeTimers l s

/-- A stuck input reported to the engine in AWAITING, RECEIVING or SETTLING ends the exchange (R31). -/
def engineStuck (l : LineId) (s : State) : State :=
  let e := (s.line l).engine
  match e.state with
  | .awaiting | .receiving => finishExchange l (plainResult .lineBreak) true s
  | .settling => finishExchange l (plainResult (e.lastVerdict.getD .lineBreak)) true s
  | .idle | .sending => s

end Sys2Proof.Machine
end

