-- ==== Sys2Proof/Machine/Periods.lean ====
section
/-! DEFINITION. A sample period of a line (R126): its port, and the timers counted in sample periods; the periods
that pass up to a command's event, and the signals of the port that commands take. -/

namespace Sys2Proof.Machine

open Sys2Proof

/-- One sample period on a timer of the engine: held or not, it goes on counting (R128). -/
def CharTimer.count : CharTimer → CharTimer
  | .stopped => .stopped
  | .running left => .running (left - 1)
  | .held left => .held (left - 1)

def Quiet.count : Quiet → Quiet
  | .passed => .passed
  | .running left => .running (left - 1)

/-- In FAULT, while the part does not transmit, the idle wait stops whenever the input is low, and starts from the
full holdoff time at each return high (R124). -/
def idleWaitSample (level : PinLevel) (x : Line) : MsTimer :=
  if x.lineState = .fault ∧ x.port.tx = .idle then
    match level with
    | .low => .stopped
    | .high => if x.port.lowTime = 0 then x.idleWait else .running x.config.holdoff
  else x.idleWait

/-- One sample period of the line's sample clock (R126) with the receive input at this level. -/
def linePeriod (level : PinLevel) (x : Line) : Line :=
  { x with
    idleWait := idleWaitSample level x
    sched := { x.sched with quiet := x.sched.quiet.count }
    engine := { x.engine with
      window := x.engine.window.count, gap := x.engine.gap.count, settling := x.engine.settling.count }
    port := samplePort x.config.bitRate x.config.echoCheck level x.port }

/-- The sample periods that pass on a line up to a command's event (log 2). -/
def playPeriods (l : LineId) (periods : Periods) (s : State) : State :=
  s.modifyLine l fun x => periods.foldl (fun x level => linePeriod level x) x

/-- A command's event after the periods it carries; a command whose event has not come then leaves the state as it
was (log 3). -/
def afterPeriods (l : LineId) (periods : Periods) (event : State → Option State) (s : State) : State :=
  (event (playPeriods l periods s)).getD s

/-- The oldest signal of the port is taken, if it is one the command takes. -/
def takeSignal (l : LineId) (effect : PortSignal → Option (State → State)) (s : State) : Option State :=
  match (s.line l).port.signals with
  | [] => none
  | x :: rest => (effect x).map fun run => run (s.modifyPort l fun p => { p with signals := rest })

end Sys2Proof.Machine
end

