-- ==== Sys2Proof/Machine/Reports.lean ====
section
/-! DEFINITION. Report Delivery and the outbound arbiter (chapters 10.7 and 11): what each report says,
the grants, acknowledgement, timeout, detach and the hand-back of the window. -/

namespace Sys2Proof.Machine

open Sys2Proof

/-! ### Content (R162, R179) -/

def subReady (r : SubRecord) : List Byte := [byteOf r.id, byteOf r.queue.length] ++ be16 r.dropped

def subStateContent (r : SubRecord) : List Byte :=
  [byteOf r.id, subStateCode r.state, faultReasonCode r.faultReason]

def nodeStateContent (l : LineId) (n : NodeRecord) : List Byte :=
  [lineCode l, byteOf n.address, nodeStateCode n.state, byteOf n.failures, byteOf (bit n.profile.isSome 0)]
    ++ profileBytes n.profile

def txnDoneContent (t : TxnRecord) : List Byte :=
  be16 t.reference
    ++ [lineCode t.line, byteOf t.node, txnKindCode t.kind, (t.result.map resultCode).getD 0,
        lastVerdictCode t.lastVerdict, byteOf t.attempts, refuseReasonCode t.refuseReason,
        byteOf (t.reply.getD []).length]
    ++ t.reply.getD []

def lineStateContent (l : LineId) (x : Line) : List Byte :=
  [lineCode l, lineStateCode x.lineState, causeCode x.cause]

/-- The content of a report, read from its owner as it stands (R162); none when the owner is gone. -/
def reportContent (r : ReportRequest) (s : State) : Option (List Byte) :=
  match r with
  | .sampleReady id uid => (findSubRecord s id uid).map subReady
  | .subState id uid => (findSubRecord s id uid).map subStateContent
  | .nodeState l address uid => (findNodeRecord s l address uid).map (nodeStateContent l)
  | .txnDone reference => (findTxn s reference).map txnDoneContent
  | .lineState l => some (lineStateContent l (s.line l))

/-! ### Grants (R151, R152) -/

/-- HLTX takes a message. -/
def sendMessage (m : Message) (s : State) : State :=
  s.modifyLink fun k => { k with transmitter := some m }

/-- The owner is told of the composition (R161 step 5): R88 for SAMPLE_READY, R104 for TXN_DONE. -/
def tellOwner (r : ReportRequest) (s : State) : State :=
  match r with
  | .sampleReady id uid =>
    updateSub id uid (fun r => { r with notice := if r.notice = .queued then .sent else r.notice }) s
  | .txnDone reference =>
    updateTxn reference (fun t => { t with state := if t.state = .done then .reported else t.state }) s
  | .subState _ _ | .nodeState _ _ _ | .lineState _ => s

/-- The snapshot takes the next sequence number and joins the window (R161 steps 3, 4 and 6). -/
def joinWindow (r : ReportRequest) (content : List Byte) (d : Delivery) : Delivery :=
  { d with
    nextSequence := d.nextSequence + 1
    window := d.window ++ [{ sequence := d.nextSequence, request := r, content := content, resendMark := false }]
    ackTimer := if d.window = [] then .running d.ackTimeout else d.ackTimer }

/-- The composition of the entry at the head of the report queue (R161). An entry whose owner is gone
would leave without a report; R158 says that there is none. -/
def composeReport (s : State) : State :=
  match s.delivery.queue with
  | [] => s
  | r :: rest =>
    let s := s.modifyDelivery fun d => { d with queue := rest }
    match reportContent r s with
    | none => s
    | some content =>
      sendMessage { kind := reportKind r, tag := s.delivery.nextSequence, payload := content }
        (tellOwner r ((s.modifyDelivery (joinWindow r content)).countLink fun c =>
          { c with reportsSent := satInc c.reportsSent }))

/-- The oldest marked snapshot (R151). -/
def oldestMarked (window : List Snapshot) : Option Snapshot := window.find? (·.resendMark)

/-- The mark of the oldest marked snapshot is cleared (R152). -/
def clearOldestMark : List Snapshot → List Snapshot
  | [] => []
  | x :: rest => if x.resendMark then { x with resendMark := false } :: rest else x :: clearOldestMark rest

/-- A resend is granted (R152); the first after a timeout restarts the timer (R163). -/
def resendSnapshot (x : Snapshot) (s : State) : State :=
  sendMessage { kind := reportKind x.request, tag := x.sequence, payload := x.content }
    ((s.modifyDelivery fun d => { d with
        window := clearOldestMark d.window
        ackTimer := if d.resendRunDue then .running d.ackTimeout else d.ackTimer
        resendRunDue := false }).countLink fun c => { c with reportsResent := satInc c.reportsResent })

/-- The response at the head of the response queue is granted (R152). -/
def grantResponse (s : State) : State :=
  match s.link.responses with
  | [] => s
  | m :: rest => sendMessage m (s.modifyLink fun k => { k with responses := rest })

/-- A resend waits (R151). -/
def resendWaits (s : State) : Option Snapshot :=
  if s.link.linkState = .attached then oldestMarked s.delivery.window else none

/-- A new report waits and may be granted (R151). -/
def reportWaits (s : State) : Bool :=
  s.link.linkState == .attached && decide (s.delivery.window.length < Config.windowSize)
    && !s.delivery.queue.isEmpty

/-- The outbound arbiter (R151): when the transmitter is free and a source waits, one grant. -/
def outbound (s : State) : State :=
  if s.link.transmitter.isSome then s
  else
    match resendWaits s with
    | some x => resendSnapshot x s
    | none =>
      if s.link.responses ≠ [] then grantResponse s
      else if reportWaits s then composeReport s
      else s

/-- Every command but PIN_RESET and RESET_N_LOW: while RESET_N is low the part does nothing (R139);
otherwise its effect, and then a grant if one has become possible (R151). -/
def perform (f : State → State) (s : State) : Host.Outcome State Fault Refusal :=
  .next (if s.resetHeld then s else outbound (f s))

/-! ### Acknowledgement (R163 to R165) -/

/-- The window up to and including the snapshot of this number, and what is behind it; none when no
snapshot has the number. -/
def ackSplit (sequence : Byte) : List Snapshot → Option (List Snapshot × List Snapshot)
  | [] => none
  | x :: rest =>
    if x.sequence = sequence then some ([x], rest)
    else (ackSplit sequence rest).map fun p => (x :: p.1, p.2)

/-- The record of a removed TXN_DONE snapshot is freed (R104, R164 step 2). -/
def releaseOwner (s : State) (x : Snapshot) : State :=
  match x.request with
  | .txnDone reference => freeTxn reference s
  | .sampleReady _ _ | .subState _ _ | .nodeState _ _ _ | .lineState _ => s

/-- An acknowledgement (R164), or a stray one (R165). -/
def acknowledge (sequence : Byte) (s : State) : State :=
  match if s.link.linkState = .attached then ackSplit sequence s.delivery.window else none with
  | some (removed, left) =>
    removed.foldl releaseOwner
      (s.modifyDelivery fun d => { d with
        window := left, timeoutCount := 0
        ackTimer := if left = [] then .stopped else .running d.ackTimeout })
  | none => s.countLink fun c => { c with strayAcks := satInc c.strayAcks }

/-! ### Timeout (R166 to R168) -/

/-- The link detaches (R153, R168). -/
def detach (s : State) : State :=
  ((s.modifyLink fun k => { k with linkState := .detached }).countLink fun c =>
      { c with detaches := satInc c.detaches }).modifyDelivery fun d =>
    { d with window := d.window.map fun x => { x with resendMark := false }, resendRunDue := false }

/-- The acknowledgement timer expires (R166). -/
def ackTimerRunsOut (s : State) : State :=
  let s := s.modifyDelivery fun d => { d with timeoutCount := d.timeoutCount + 1, ackTimer := .stopped }
  if s.delivery.timeoutCount < Config.timeoutLimit then
    s.modifyDelivery fun d =>
      { d with window := d.window.map fun x => { x with resendMark := true }, resendRunDue := true }
  else detach s

/-! ### The hand-back of the window at HELLO (R169) -/

/-- Whether a discarded snapshot settles a request (R169, R93). -/
def settles (s : State) (r : ReportRequest) : Bool :=
  match r with
  | .txnDone _ | .lineState _ => true
  | .nodeState l address uid => (findNodeRecord s l address uid).isSome
  | .subState id uid =>
    match findSubRecord s id uid with
    | some r => r.isOpen
    | none => false
  | .sampleReady id uid =>
    match findSubRecord s id uid with
    | some r => r.isOpen && r.notice != .none
    | none => false

/-- Of equal requests the first stays (R169). -/
def keepFirst : List ReportRequest → List ReportRequest
  | [] => []
  | r :: rest => r :: (keepFirst rest).filter (· ≠ r)

/-- The settled requests, in window order (R169). -/
def settledRequests (s : State) : List ReportRequest :=
  keepFirst ((s.delivery.window.map (·.request)).filter (settles s))

/-- The owner of a settled request: a REPORTED record is DONE again (R105), a notice SENT is QUEUED (R93). -/
def requeueOwner (s : State) (r : ReportRequest) : State :=
  match r with
  | .txnDone reference =>
    updateTxn reference (fun t => { t with state := if t.state = .reported then .done else t.state }) s
  | .sampleReady id uid =>
    updateSub id uid (fun r => { r with notice := if r.notice = .sent then .queued else r.notice }) s
  | .subState _ _ | .nodeState _ _ _ | .lineState _ => s

/-- Report Delivery at HELLO (R169). -/
def handBackWindow (start : Byte) (timeout : Nat) (s : State) : State :=
  let settled := settledRequests s
  (settled.foldl requeueOwner s).modifyDelivery fun d =>
    { queue := settled ++ d.queue.filter fun r => r ∉ settled
      window := [], nextSequence := start, ackTimer := .stopped, timeoutCount := 0, ackTimeout := timeout
      resendRunDue := false }

end Sys2Proof.Machine
end

