-- ==== Sys2Proof/Machine/Arbiter.lean ====
section
/-! DEFINITION. The Round Scheduler's events and the line arbiter (chapter 2): the round timer, the
round start, the quiet, and the arbiter's choice in its fixed order. -/

namespace Sys2Proof.Machine

open Sys2Proof

/-! ### Rounds -/

/-- The round timer expires once its time is up (R1, R3, log 4): an overrun is counted if the poll list is not
empty. -/
def roundTimerRunsOut (l : LineId) (s : State) : State :=
  match (s.line l).sched.roundTimer with
  | .running 0 =>
    s.modifyLine l fun x =>
      { x with
        sched := { x.sched with roundTimer := .expired }
        counters := if x.sched.pollList = [] then x.counters
          else { x.counters with overruns := satInc x.counters.overruns } }
  | .running (_ + 1) | .stopped | .expired => s

def execRoundTimerExpiry (l : LineId) (s : State) : Host.Outcome State Fault Refusal :=
  perform (roundTimerRunsOut l) s

/-- A round start is taken when it is due (R4). -/
def takeRoundStart (l : LineId) (s : State) : State :=
  if roundStartDue (s.line l) then startRound l s else s

def execRoundStart (l : LineId) (s : State) : Host.Outcome State Fault Refusal := perform (takeRoundStart l) s

/-- The quiet passes at the end of its gap of 2 character times (R12, log 4). -/
def endQuiet (l : LineId) (s : State) : State :=
  match (s.line l).sched.quiet with
  | .running 0 => s.modifySched l fun c => { c with quiet := .passed }
  | .running (_ + 1) | .passed => s

def execQuietEnd (l : LineId) (s : State) : Host.Outcome State Fault Refusal := perform (endQuiet l) s

/-! ### The arbiter's choice (R12 to R17) -/

/-- The addresses in the order of the search: after the pointer, past 30 to 1, ending with the pointer's (R15). -/
def probeOrder (pointer : Nat) : List Nat := (List.range 30).map fun k => (pointer + k) % 30 + 1

/-- The record at an address if it is PENDING or LOST. -/
def probeCandidate (s : State) (l : LineId) (address : Nat) : Option NodeRecord :=
  (findNode s l address).filter fun n => !n.state.inService

/-- The first candidate of the search (R15). -/
def probeTarget (s : State) (l : LineId) : Option NodeRecord :=
  (probeOrder (s.line l).sched.probePointer).findSome? (probeCandidate s l)

/-- The uid of the record at an address: the record the order is taken for (R47). -/
def nodeUidAt (s : State) (l : LineId) (address : Nat) : Nat :=
  match findNode s l address with
  | some n => n.uid
  | none => 0

/-- A poll choice (R16): the head entry leaves the list, poll in flight becomes yes (R68). -/
def choosePoll (l : LineId) (id : Nat) (s : State) : State :=
  let s := s.modifySched l fun c => { c with pollList := c.pollList.tail, alternation := .poll }
  match findSub s id with
  | none => s
  | some r =>
    startExchange l (.poll r.id r.uid r.node (nodeUidAt s l r.node) r.channel r.maxLength)
      (updateSub r.id r.uid (fun r => { r with pollInFlight := true }) s)

/-- The order of a transaction, with its starting attempt number (R36, R99). -/
def txnOrder (t : TxnRecord) (uid : Nat) : OrderKind :=
  match t.kind with
  | .read maxReply => .read t.reference t.node uid t.channel maxReply (t.attempts + 1)
  | .write data => .write t.reference t.node uid t.channel data (t.attempts + 1)

/-- The head transaction goes IN_FLIGHT (R99), with the alternation memory and the allowance of R16. -/
def sendTxn (l : LineId) (t : TxnRecord) (s : State) : State :=
  startExchange l (txnOrder t (nodeUidAt s l t.node))
    ((updateTxn t.reference (fun t => { t with state := .inFlight }) s).modifySched l fun c =>
      { c with
        alternation := .transaction
        allowanceUsed := if c.pollList = [] then c.allowanceUsed else c.allowanceUsed + 1 })

/-- A transaction may be sent: it names node 0 or a node in service (R99). -/
def mayBeSent (s : State) (l : LineId) (t : TxnRecord) : Bool :=
  t.node == 0 ||
    match findNode s l t.node with
    | some n => n.state.inService
    | none => false

/-- R16's table, with a non-empty queue: the transaction is chosen. -/
def choosesTxn (x : Line) : Bool :=
  x.sched.pollList.isEmpty ||
    (decide (x.sched.allowanceUsed < x.config.allowance) && x.sched.alternation == .poll)

/-- The head record leaves the line's queue (R96, R99). -/
def popTxn (l : LineId) (s : State) : State :=
  s.modifyLine l fun x => { x with txnQueue := x.txnQueue.tail }

/-- The poll-or-transaction choice of R16. A head transaction whose node is out of service completes
UNAVAILABLE and the arbiter chooses again (R17), at most once per record of the queue. -/
def chooseWork (l : LineId) : Nat → State → State
  | 0, s => s
  | again + 1, s =>
    match (s.line l).txnQueue, (s.line l).sched.pollList with
    | [], [] => s
    | [], id :: _ => choosePoll l id s
    | reference :: _, polls =>
      if choosesTxn (s.line l) then
        match findTxn s reference with
        | none => chooseWork l again (popTxn l s)
        | some t =>
          if mayBeSent s l t then sendTxn l t (popTxn l s)
          else chooseWork l again (completeTxn reference .unavailable none none none (popTxn l s))
      else
        match polls with
        | [] => s
        | id :: _ => choosePoll l id s

/-- A probe of a record (R15): the pointer, the flag and the SYNC order. -/
def sendProbe (l : LineId) (n : NodeRecord) (s : State) : State :=
  startExchange l (.probe n.address n.uid)
    (s.modifySched l fun c => { c with probePointer := n.address, probeDone := true })

/-- The third and later choices: one probe (R15), then R16. -/
def chooseProbeOrWork (l : LineId) (s : State) : State :=
  match if (s.line l).sched.probeDone then none else probeTarget s l with
  | some n => sendProbe l n s
  | none => chooseWork l ((s.line l).txnQueue.length + 1) s

/-- The arbiter's fixed order: resync break (R13), round broadcast (R14), probe, poll or transaction. -/
def choose (l : LineId) (s : State) : State :=
  let x := s.line l
  if x.sched.resyncRequest then
    startBreakOrder l (s.modifySched l fun c => { c with resyncRequest := false })
  else if x.config.roundBroadcast = true ∧ x.sched.broadcastSent = false then
    startExchange l .roundBroadcast (s.modifySched l fun c => { c with broadcastSent := true })
  else chooseProbeOrWork l s

/-- The conditions of R12, no round start due, and the transmitter free to take a frame (R132, log 11). -/
def mayChoose (x : Line) : Bool :=
  x.lineState == .running && x.engine.state == .idle && x.sched.quiet == .passed && !roundStartDue x
    && x.port.tx == .idle

def arbiterChoice (l : LineId) (s : State) : Option State :=
  if mayChoose (s.line l) then some (choose l s) else none

def execArbiterChoice (l : LineId) (periods : Periods) (s : State) : Host.Outcome State Fault Refusal :=
  perform (afterPeriods l periods (arbiterChoice l)) s

end Sys2Proof.Machine
end

