-- ==== Sys2Proof/WellFormed.lean ====
section
/-! DEFINITION. The form checks of a command's operands: what the spec's event can carry at all. -/

namespace Sys2Proof

/-- A byte ends only when its start bit was qualified (R139). -/
def SampledByte.wellFormed (b : SampledByte) : Bool :=
  !b.bits.getLsbD 0

/-- A payload is 0..238 bytes (R140). -/
def payloadFits (p : List Byte) : Bool := p.length ≤ 238

/-- The well-formedness of a command.
MESSAGE_RECEIVED is for messages other than acknowledgements, whose kind is 0x0A (R143). -/
def Instr.wellFormed : Instr → Bool
  | .messageReceived m => payloadFits m.payload && m.kind != 0x0A
  | .acknowledgement _ payload _ => payloadFits payload
  | .byteReceived b => b.wellFormed
  | .pinReset _ _ _ _ | .messageGapTimeout | .hello | .restart _ _ | .lineSet | .lineStart | .lineStop
  | .lineResync | .lineQuery | .nodeAdd | .nodeRemove | .nodeQuery | .subOpen | .subClose | .subFetch
  | .subQuery | .txnSubmit | .txnCancel | .statsRead | .unknownRequest | .hostTransmitEnd | .ackTimeout
  | .roundTimerExpiry _ | .roundStart _ | .quietEnd _ | .arbiterChoice _ _ | .transmitEnd _ _
  | .responseWindowExpiry _ | .characterEnd _ _ | .gapTimerExpiry _ | .settlingEnd _ _ | .breakDetected _ _
  | .breakEnd _ _ | .stuck _ _ | .stuckEnd _ _ | .contention _ _ | .jamBreakEnd _ _ | .breakOrderEnd _ _
  | .holdoffExpiry _ | .idleWaitExpiry _ | .startBegun _ _ | .falseStart _ _ | .returnHigh _ _
  | .resetNLow => true

end Sys2Proof
end

