-- ==== Sys2Proof/Machine/ExchangeEvents.lean ====
section
/-! DEFINITION. The events of an exchange (chapters 3 and 9): the end of a frame, characters and start
bits of the line, and the engine's timers. -/

namespace Sys2Proof.Machine

open Sys2Proof

/-! ### The end of a frame (R26, R27, R132) -/

/-- The engine at the last stop bit of an addressed frame (R26). -/
def awaitReply (window : Nat) (e : Engine) : Engine :=
  { e with
    state := .awaiting, buffer := ReceiveBuffer.empty
    window := .running (window * Config.characterSamples) }

/-- Frames sent in full increments (R26), and the quiet starts again (R12). -/
def countFrame (l : LineId) (s : State) : State :=
  restartQuiet l (s.modifyEngine l fun e => { e with framesSent := e.framesSent + 1 })

/-- A frame has been sent in full: the driver is released (R132), and the
engine awaits the reply or a broadcast ends OK (R26, R27). -/
def frameSent (l : LineId) (s : State) : State :=
  match (s.line l).engine.order with
  | none => releaseDriver l (countFrame l s)
  | some o =>
    if isAddressed o.kind then
      releaseDriver l ((countFrame l s).modifyEngine l (awaitReply (s.line l).config.responseWindow))
    else endAttempt l (plainResult .ok) (releaseDriver l (countFrame l s))

/-- A frame has been sent through its last stop bit, and no echo of it is missing or failed (R132, R134). -/
def frameDone (p : LinePort) : Bool :=
  match p.tx, p.echo with
  | .frame chars position false, .none => decide (Config.characterSamples * chars.length ≤ position)
  | .frame _ _ false, .expecting _ _ | .frame _ _ false, .failed | .frame _ _ true, _ | .idle, _
  | .sendingBreak _ _, _ => false

/-- The last stop bit of what the transmitter sends ends: of the character finished after a RESTART
(R41, R138), or of a frame. -/
def transmitEnd (l : LineId) (s : State) : Option State :=
  match (s.line l).port.tx with
  | .frame chars position true =>
    if Config.characterSamples * chars.length ≤ position then some (restartQuiet l (releaseAfterRestart l s))
    else none
  | .frame _ _ false => if frameDone (s.line l).port then some (frameSent l s) else none
  | .idle | .sendingBreak _ _ => none

def execTransmitEnd (l : LineId) (periods : Periods) (s : State) : Host.Outcome State Fault Refusal :=
  perform (afterPeriods l periods (transmitEnd l)) s

/-! ### The engine's timers (R30, R32, R35) -/

def execResponseWindowExpiry (l : LineId) (s : State) : Host.Outcome State Fault Refusal :=
  perform (windowRunsOut l) s

def execGapTimerExpiry (l : LineId) (s : State) : Host.Outcome State Fault Refusal := perform (gapRunsOut l) s

/-- SETTLING_END: the settling timer expires once its time is up (log 4). While the receiver is inside a character or
break the end of SETTLING waits (R35). -/
def settlingEnd (l : LineId) (s : State) : Option State :=
  match (s.line l).engine.settling with
  | .running 0 => some (endSettling l s)
  | .running (_ + 1) | .stopped | .held _ => none

def execSettlingEnd (l : LineId) (periods : Periods) (s : State) : Host.Outcome State Fault Refusal :=
  perform (afterPeriods l periods (settlingEnd l)) s

/-! ### Characters (R129, R137) -/

/-- The noise flags counter (R137). -/
def countNoise (c : ReceivedCharacter) (k : LineCounters) : LineCounters :=
  if c.noisy then { k with noiseFlags := satInc k.noiseFlags } else k

/-- The nominal end of a character's stop bit: an echo is only counted (R134), any other character goes to the
engine (R137). -/
def deliverCharacter (l : LineId) (c : ReceivedCharacter) (s : State) : State :=
  let s := s.countLine l (countNoise c)
  if c.echo then s else takeCharacter l c s

/-- CHARACTER_END takes a character end. -/
def characterEnd (l : LineId) : PortSignal → Option (State → State)
  | .characterEnd c => some (deliverCharacter l c)
  | _ => none

def execCharacterEnd (l : LineId) (periods : Periods) (s : State) : Host.Outcome State Fault Refusal :=
  perform (afterPeriods l periods (takeSignal l (characterEnd l))) s

/-! ### Start bits (R128) -/

/-- START_BEGUN takes start begun: the engine holds the timer that runs (R128). In an exchange that is being sent
no timer runs. -/
def startBegun (l : LineId) : PortSignal → Option (State → State)
  | .startBegun => some fun s => s.modifyEngine l holdTimers
  | .echoBegun => some id
  | _ => none

def execStartBegun (l : LineId) (s : State) (periods : Periods := []) : Host.Outcome State Fault Refusal :=
  perform (afterPeriods l periods (takeSignal l (startBegun l))) s

/-- FALSE_START takes false start: the held timer resumes (R128). -/
def falseStart (l : LineId) : PortSignal → Option (State → State)
  | .falseStart => some (resumeTimers l)
  | _ => none

def execFalseStart (l : LineId) (periods : Periods) (s : State) : Host.Outcome State Fault Refusal :=
  perform (afterPeriods l periods (takeSignal l (falseStart l))) s

/-- RETURN_HIGH takes the return high after a framing error (R130), on which no other block acts. -/
def returnHigh : PortSignal → Option (State → State)
  | .returnHigh => some id
  | _ => none

/-- A return of the input to high that the port does not signal, inside a character or in HUNT: the periods carried
have passed, which is all (log 28). -/
def unsignalledHigh (l : LineId) (signals : List PortSignal) (s : State) : Option State :=
  if (s.line l).port.input = .high ∧ (s.line l).port.signals = signals then some s else none

def returnHighEvent (l : LineId) (signals : List PortSignal) (s : State) : Option State :=
  match takeSignal l returnHigh s with
  | some t => some t
  | none => unsignalledHigh l signals s

def execReturnHigh (l : LineId) (s : State) (periods : Periods := []) : Host.Outcome State Fault Refusal :=
  perform (afterPeriods l periods (returnHighEvent l (s.line l).port.signals)) s

end Sys2Proof.Machine
end

