-- ==== Sys2Proof/Machine/BreakEvents.lean ====
section
/-! DEFINITION. Breaks, the stuck input, contention, the ends of the breaks the part sends, and the two
timers of Line Control (chapters 8 and 9). -/

namespace Sys2Proof.Machine

open Sys2Proof

/-! ### Breaks received (R130, R131) -/

def countBreak (c : LineCounters) : LineCounters := { c with breaksSeen := satInc c.breaksSeen }

/-- A break: the breaks seen counter, if it is a new one (R137), and the engine (R31). -/
def takeBreak (l : LineId) (newBreak : Bool) (s : State) : State :=
  s.modifyLine l fun x => { x with
    counters := if newBreak then countBreak x.counters else x.counters, engine := engineBreak x.engine }

/-- BREAK_DETECTED takes break detected (R130). -/
def breakDetected (l : LineId) : PortSignal → Option (State → State)
  | .breakDetected => some (takeBreak l true)
  | _ => none

def execBreakDetected (l : LineId) (s : State) (periods : Periods := []) : Host.Outcome State Fault Refusal :=
  perform (afterPeriods l periods (takeSignal l (breakDetected l))) s

/-- Break end to the Node Table (R23) and to the engine (R31, R35). -/
def breakOver (l : LineId) (duration : Nat) (s : State) : State := engineBreakEnd l (breakEnded l duration s)

/-- BREAK_END takes break end (R130). -/
def breakEnd (l : LineId) : PortSignal → Option (State → State)
  | .breakEnd duration => some (breakOver l duration)
  | _ => none

def execBreakEnd (l : LineId) (periods : Periods) (s : State) : Host.Outcome State Fault Refusal :=
  perform (afterPeriods l periods (takeSignal l (breakEnd l))) s

/-! ### The stuck input (R131, R123) -/

/-- The report straight to Line Control (R123). -/
def stuckToLineControl (l : LineId) (s : State) : State :=
  match (s.line l).lineState with
  | .running | .holdoff => enterFault l .stuck s
  | .stopped | .fault | .stopping => s

/-- The stuck report goes to the engine in AWAITING, RECEIVING or SETTLING, else to Line Control (R131). In SENDING
there is no such report: one that still waits is of a low period that the driver's assertion has ended (R133,
log 20). -/
def reportStuck (l : LineId) (s : State) : State :=
  match (s.line l).engine.state with
  | .awaiting | .receiving | .settling => engineStuck l s
  | .idle => stuckToLineControl l s
  | .sending => s

/-- A stuck input is always a break as well, counted now unless it was before (R131). -/
def takeStuck (l : LineId) (newBreak : Bool) (s : State) : State := reportStuck l (takeBreak l newBreak s)

/-- STUCK takes a stuck report (R131). -/
def stuckInput (l : LineId) : PortSignal → Option (State → State)
  | .stuck newBreak => some (takeStuck l newBreak)
  | _ => none

def execStuck (l : LineId) (s : State) (periods : Periods := []) : Host.Outcome State Fault Refusal :=
  perform (afterPeriods l periods (takeSignal l (stuckInput l))) s

/-- Stuck end to Line Control: in FAULT the idle wait runs from the return high (R124, R131). It starts here if the
line entered FAULT only after the input had returned. -/
def ensureIdleWait (l : LineId) (s : State) : State :=
  if (s.line l).port.input = .high ∧ (s.line l).idleWait = .stopped then startIdleWait l s else s

/-- STUCK_END takes the return high after a stuck input: break end with the whole low period, then stuck end
(R131). -/
def stuckEnd (l : LineId) : PortSignal → Option (State → State)
  | .stuckEnd duration => some fun s => ensureIdleWait l (breakOver l duration s)
  | _ => none

def execStuckEnd (l : LineId) (s : State) (periods : Periods := []) : Host.Outcome State Fault Refusal :=
  perform (afterPeriods l periods (takeSignal l (stuckEnd l))) s

/-! ### Contention (R29, R135) -/

/-- A frame is being sent, an echo of it has failed, and the character under way then has been sent through its stop
bit (R135). -/
def mayContend (p : LinePort) : Bool :=
  match p.tx, p.echo with
  | .frame chars position false, .failed => decide (Config.characterSamples * chars.length ≤ position)
  | .frame _ _ false, .none | .frame _ _ false, .expecting _ _ | .frame _ _ true, _ | .idle, _
  | .sendingBreak _ _, _ => false

/-- The exchange ends CONTENTION, and the jam break begins at the same moment (R29, R135). That the quiet does not start
again at the stop bit which ends the frame here, but at the jam break's end alone, is the model's choice (log 33). -/
def contention (l : LineId) (s : State) : Option State :=
  if mayContend (s.line l).port then
    some (sendBreak l true Config.twoCharacters (endAttempt l (plainResult .contention) s))
  else none

def execContention (l : LineId) (s : State) (periods : Periods := []) : Host.Outcome State Fault Refusal :=
  perform (afterPeriods l periods (contention l)) s

/-! ### The ends of the breaks the part sends (R28, R121, R133) -/

/-- Break sent: the driver is released, the quiet starts again, the toggle copies are 0 (R12, R23, R133). -/
def breakSent (l : LineId) (s : State) : State := resetToggles l (restartQuiet l (releaseDriver l s))

/-- What follows the jam break, by the line's state (R118, R121, R124). -/
def afterJam (l : LineId) (s : State) : State :=
  match (s.line l).lineState with
  | .holdoff => s.modifyLine l fun x => { x with holdoffTimer := .running x.config.holdoff }
  | .fault => if (s.line l).port.input = .high then startIdleWait l s else s
  | .stopping => enterStopped l s
  | .stopped | .running => s

/-- The end of the jam break, once its length has been sent (R133, R135). -/
def jamBreakEnd (l : LineId) (s : State) : Option State :=
  match (s.line l).port.tx with
  | .sendingBreak true 0 => some (afterJam l (breakSent l s))
  | .sendingBreak true (_ + 1) | .sendingBreak false _ | .idle | .frame _ _ _ => none

def execJamBreakEnd (l : LineId) (periods : Periods) (s : State) : Host.Outcome State Fault Refusal :=
  perform (afterPeriods l periods (jamBreakEnd l)) s

/-- The line's in-service nodes enter PENDING (R13, R58). -/
def pendInService (l : LineId) (s : State) : State := nodesToPending l (fun n => n.state.inService) s

/-- A stop completed by the end of the resync break (R118). -/
def completeStop (l : LineId) (s : State) : State :=
  if (s.line l).lineState = .stopping then enterStopped l s else s

/-- The engine is IDLE again after its break order (R28). -/
def endOrder (l : LineId) (s : State) : State :=
  s.modifyEngine l fun e => { e with state := .idle, order := none }

/-- The end of the break order, once its length has been sent (R28, R133). In STOPPING the line enters STOPPED after the
Node Table has moved the nodes (R118), so the nodes' NODE_STATE requests join the report queue ahead of LINE_STATE; that
R118's order holds for the requests too, over the order of R125 and R158, is the model's choice (log 9). -/
def breakOrderEnd (l : LineId) (s : State) : Option State :=
  match (s.line l).port.tx with
  | .sendingBreak false 0 => some (completeStop l (pendInService l (breakSent l (endOrder l s))))
  | .sendingBreak false (_ + 1) | .sendingBreak true _ | .idle | .frame _ _ _ => none

def execBreakOrderEnd (l : LineId) (periods : Periods) (s : State) : Host.Outcome State Fault Refusal :=
  perform (afterPeriods l periods (breakOrderEnd l)) s

/-! ### The timers of Line Control (R122, R124) -/

/-- The holdoff timer expires in HOLDOFF (R122), once its time is up (R1, log 4). -/
def holdoffRunsOut (l : LineId) (s : State) : State :=
  let x := s.line l
  if x.lineState = .holdoff ∧ x.holdoffTimer.hasExpired then
    checkStuck l ((changeLineState l .running .holdoffEnd s).modifyLine l fun x =>
      { x with holdoffTimer := .stopped })
  else s

def execHoldoffExpiry (l : LineId) (s : State) : Host.Outcome State Fault Refusal :=
  perform (holdoffRunsOut l) s

/-- The three steps of the recovery (R124), and a stuck input present as the line enters RUNNING. -/
def recoverLine (l : LineId) (s : State) : State :=
  checkStuck l (startRound l (pendInService l
    ((changeLineState l .running .recovered s).modifyLine l fun x => { x with idleWait := .stopped })))

/-- The idle wait expires in FAULT (R124), once its time is up (R1, log 4). -/
def idleWaitRunsOut (l : LineId) (s : State) : State :=
  let x := s.line l
  if x.lineState = .fault ∧ x.idleWait.hasExpired then recoverLine l s else s

def execIdleWaitExpiry (l : LineId) (s : State) : Host.Outcome State Fault Refusal :=
  perform (idleWaitRunsOut l) s

end Sys2Proof.Machine
end

