-- ==== Sys2Proof/Machine/HostLink.lean ====
section
/-! DEFINITION. The Host Link (chapter 10): the message receiver, the inbox, the request processor with
its four checks, and the response cache. -/

namespace Sys2Proof.Machine

open Sys2Proof

/-! ### Responses -/

/-- A response of status alone (R176). -/
def statusOnly (m : Message) (status : Status) : Message :=
  { kind := responseKind m.kind, tag := m.tag, payload := [statusCode status] }

/-- A response joins the response queue at its tail (R150). -/
def queueResponse (m : Message) (s : State) : State :=
  s.modifyLink fun k => { k with responses := k.responses ++ [m] }

/-! ### Messages received (R141 to R144) -/

/-- A good message finds the inbox full (R144): dropped in DETACHED unless it is a HELLO, BUSY if the
response queue has room, dropped otherwise. -/
def refuseMessage (m : Message) (s : State) : State :=
  if s.link.linkState = .detached ∧ m.kind ≠ kindHello then
    s.countLink fun c => { c with dropped := satInc c.dropped }
  else if s.link.responses.length < Config.responseSize then
    queueResponse (statusOnly m .busy) (s.countLink fun c => { c with busy := satInc c.busy })
  else s.countLink fun c => { c with dropped := satInc c.dropped }

/-- A good message is passed on by its kind (R143). -/
def passMessage (m : Message) (s : State) : State :=
  if m.kind = kindAcknowledgement then acknowledge m.tag s
  else if s.link.inbox.length < Config.inboxSize then
    s.modifyLink fun k => { k with inbox := k.inbox ++ [m] }
  else refuseMessage m s

/-- The receiver back in HUNT with its gap timer stopped (R141, R142). -/
def huntMessage (k : HostLink) : HostLink :=
  { k with rxPhase := .hunt, rxExpected := 0, rxTaken := [], gapTimer := .stopped }

/-- The judgement at the second check byte (R143). -/
def judgeMessage (m : Message) (check : Word16) (s : State) : State :=
  let s := s.modifyLink huntMessage
  if crc16 (coveredBytes m) = check then
    passMessage m (s.countLink fun c => { c with received := satInc c.received })
  else s.countLink fun c => { c with crcErrors := satInc c.crcErrors }

/-- A byte of a message is kept and the gap timer starts (R141, R142). -/
def keepByte (x : Byte) (phase : MsgPhase) (expected : Nat) (k : HostLink) : HostLink :=
  { k with
    rxPhase := phase, rxExpected := expected, rxTaken := k.rxTaken ++ [x]
    gapTimer := .running Config.messageGapMs }

/-- The message whose bytes from length through the high check byte have been taken. -/
def takenMessage (taken : List Byte) : Message :=
  { kind := taken.getD 1 0, tag := taken.getD 2 0, payload := (taken.drop 3).dropLast }

/-- A byte received without framing error (R141). -/
def takeByte (x : Byte) (s : State) : State :=
  match s.link.rxPhase with
  | .hunt =>
    if x = 0x5A then
      s.modifyLink fun k =>
        { k with rxPhase := .length, rxExpected := 1, rxTaken := [], gapTimer := .running Config.messageGapMs }
    else s
  | .length =>
    if 2 ≤ x.toNat ∧ x.toNat ≤ 240 then s.modifyLink (keepByte x .body x.toNat)
    else (s.modifyLink huntMessage).countLink fun c => { c with lengthErrors := satInc c.lengthErrors }
  | .body =>
    if s.link.rxExpected ≤ 1 then s.modifyLink (keepByte x .check 2)
    else s.modifyLink (keepByte x .body (s.link.rxExpected - 1))
  | .check =>
    if s.link.rxExpected = 2 then s.modifyLink (keepByte x .check 1)
    else
      judgeMessage (takenMessage s.link.rxTaken) (word16Of (s.link.rxTaken.getLastD 0) x) s

/-- HLRX has been high: the wait for it after a framing error is over (R139). -/
def endHighWait (s : State) : State := s.modifyLink fun k => { k with rxWaitHigh := false }

/-- A byte received with a framing error (R141): the receiver waits for HLRX to return high (R139). -/
def takeFramingError (s : State) : State :=
  let s := (s.countLink fun c => { c with framingErrors := satInc c.framingErrors }).modifyLink fun k =>
    { k with rxWaitHigh := true }
  if s.link.rxPhase = .hunt then s else s.modifyLink huntMessage

/-! ### The request processor (R145 to R149) -/

/-- What the owner of a request does: the state after it and the response's payload, status first. -/
abbrev Service := List Byte → State → State × List Byte

/-- A refusal by the owner: the status alone, and no change (R176). -/
def refuseWith (status : Status) (s : State) : State × List Byte := (s, [statusCode status])

/-- OK with the content of R178. -/
def answerOk (content : List Byte) (s : State) : State × List Byte := (s, statusCode .ok :: content)

/-- The entry of this tag and kind (R146 check 2). -/
def cacheHit (m : Message) (cache : List CacheEntry) : Option CacheEntry :=
  if m.tag = 0 then none else cache.find? fun e => e.tag == m.tag && e.kind == m.kind

/-- The entry of a response in the cache (R148). -/
def enterCache (e : CacheEntry) (cache : List CacheEntry) : List CacheEntry :=
  let others := cache.filter fun x => x.tag ≠ e.tag
  (if others.length = Config.cacheSize then others.tail else others) ++ [e]

/-- The response of an executed request is queued and, if the tag is not 0, cached (R147, R148). -/
def completeRequest (m : Message) (p : State × List Byte) : State :=
  let response : Message := { kind := responseKind m.kind, tag := m.tag, payload := p.2 }
  (queueResponse response p.1).modifyLink fun k =>
    if m.tag = 0 then k
    else { k with cache := enterCache { tag := m.tag, kind := m.kind, response := response } k.cache }

/-- The four checks of R146, in order, and the execution (R147). -/
def judgeRequest (run : Service) (m : Message) (s : State) : State :=
  if s.link.linkState = .detached ∧ m.kind ≠ kindHello then queueResponse (statusOnly m .notAttached) s
  else
    match cacheHit m s.link.cache with
    | some e =>
      queueResponse e.response (s.countLink fun c => { c with duplicates := satInc c.duplicates })
    | none =>
      if m.kind ∉ requestKinds then queueResponse (statusOnly m .unknownKind) s
      else if lengthAllowed m.kind m.payload then completeRequest m (run m.payload s)
      else queueResponse (statusOnly m .badLength) s

/-- The processor takes the message at the head of the inbox when it is of this sort and the response
queue holds 4 responses or fewer (R145). -/
def takeRequest (accepts : Byte → Bool) (run : Service) (s : State) : State :=
  match s.link.inbox with
  | [] => s
  | m :: rest =>
    if accepts m.kind = true ∧ s.link.responses.length ≤ Config.processorLimit then
      judgeRequest run m (s.modifyLink fun k => { k with inbox := rest })
    else s

/-- A request of one kind is taken. -/
def takeKind (kind : Byte) (run : Service) (s : State) : State := takeRequest (· == kind) run s

end Sys2Proof.Machine
end

