-- ==== Sys2Proof/Machine/HostEvents.lean ====
section
/-! DEFINITION. The events of the pins and of the host link: the two edges of RESET_N, bytes and
messages on HLRX, the end of a message on HLTX, and the two millisecond timers of the link. -/

namespace Sys2Proof.Machine

open Sys2Proof

/-! ### RESET_N (R139, R156) -/

/-- The strap coding of R139. -/
def strapRate (rate1 rate0 : PinLevel) : HostRate :=
  match rate1, rate0 with
  | .low, .low => .r115200
  | .low, .high => .r230400
  | .high, .low => .r460800
  | .high, .high => .r921600

/-- A Line Port as RESET_N rises: HUNT, or QUALIFY with the low time counting if the input is low (R127). That the low
time then stands at 1, where R127's column has 0, is the model's choice (log 32). -/
def portAtReset (level : PinLevel) : LinePort :=
  let p := { LinePort.initial with input := level }
  match level with
  | .high => p
  | .low => startCharacter p

/-- The part as RESET_N rises: every block's value after pin reset. The queue of commands is not the
part's and is kept. -/
def pinReset (rate1 rate0 levelA levelB : PinLevel) (s : State) : State :=
  { State.reset with
    lineA := { Line.initial with port := portAtReset levelA }
    lineB := { Line.initial with port := portAtReset levelB }
    link := { HostLink.initial with rate := strapRate rate1 rate0 }
    pending := s.pending }

def execPinReset (rate1 rate0 levelA levelB : PinLevel) (s : State) : Host.Outcome State Fault Refusal :=
  .next (pinReset rate1 rate0 levelA levelB s)

/-- A line while RESET_N is low: its driver enable is released (R25). -/
def releaseLine (x : Line) : Line :=
  { x with port := { x.port with tx := .idle, driverEnable := false } }

/-- RESET_N is low: HLTX is held high, the drivers are released, and the part does nothing (R139). -/
def holdInReset (s : State) : State :=
  { s with
    resetHeld := true, lineA := releaseLine s.lineA, lineB := releaseLine s.lineB
    link := { s.link with transmitter := none } }

def execResetNLow (s : State) : Host.Outcome State Fault Refusal := .next (holdInReset s)

/-! ### HLRX (R139 to R143) -/

/-- A byte completes on HLRX (R141). Samples whose start bit is no start bit end no byte, and after a framing error
nothing is taken until the input has been high (R139). -/
def takeSampledByte (b : SampledByte) (s : State) : State :=
  if s.link.rxWaitHigh = true ∧ .high ∉ b.before then s
  else
    let s := endHighWait s
    if b.wellFormed then if b.stop then takeByte b.byte s else takeFramingError s else s

def execByteReceived (b : SampledByte) (s : State) : Host.Outcome State Fault Refusal :=
  perform (takeSampledByte b) s

/-- A whole message has arrived, at its second check byte. A payload above 238 bytes has no length byte (R140). The
stop bits of its bytes are high, so no wait for a high input is left (R139). -/
def takeReceivedMessage (m : ReceivedMessage) (s : State) : State :=
  if payloadFits m.payload then
    judgeMessage { kind := m.kind, tag := m.tag, payload := m.payload } m.check (endHighWait s)
  else s

def execMessageReceived (m : ReceivedMessage) (s : State) : Host.Outcome State Fault Refusal :=
  perform (takeReceivedMessage m) s

/-- The message of kind 0x0A (R143, R164); its payload is not read but for the check value. -/
def execAcknowledgement (sequence : Byte) (payload : List Byte) (check : Word16) (s : State) :
    Host.Outcome State Fault Refusal :=
  perform (takeReceivedMessage { kind := kindAcknowledgement, tag := sequence, payload := payload, check := check }) s

/-- The gap timer expires in LENGTH, BODY or CHECK (R142), once its time is up (log 4). -/
def messageGapRunsOut (s : State) : State :=
  if s.link.gapTimer.hasExpired ∧ s.link.rxPhase ≠ .hunt then
    (s.modifyLink huntMessage).countLink fun c => { c with gapDiscards := satInc c.gapDiscards }
  else s

def execMessageGapTimeout (s : State) : Host.Outcome State Fault Refusal := perform messageGapRunsOut s

/-! ### HLTX and the acknowledgement timer -/

/-- The last byte of the message on HLTX ends: the transmitter is free (R151), and the grant follows. -/
def freeTransmitter (s : State) : State := s.modifyLink fun k => { k with transmitter := none }

def execHostTransmitEnd (s : State) : Host.Outcome State Fault Refusal := perform freeTransmitter s

/-- The acknowledgement timer expires (R166), once its time is up (R1, log 4). -/
def ackTimerExpiry (s : State) : State :=
  if s.delivery.ackTimer.hasExpired then ackTimerRunsOut s else s

def execAckTimeout (s : State) : Host.Outcome State Fault Refusal := perform ackTimerExpiry s

end Sys2Proof.Machine
end

