-- ==== Sys2Proof/Machine/LineRequests.lean ====
section
/-! DEFINITION. The requests Line Control owns (chapter 8): LINE_SET, LINE_START, LINE_STOP,
LINE_RESYNC and LINE_QUERY. -/

namespace Sys2Proof.Machine

open Sys2Proof

/-- A request whose line field is not 0 or 1 is answered BAD_FIELD (R147). -/
def onLine (code : Nat) (run : LineId → State → State × List Byte) (s : State) : State × List Byte :=
  match lineOfCode code with
  | none => refuseWith .badField s
  | some l => run l s

/-! ### LINE_SET (R113) -/

/-- The record is replaced, and SUSPECT nodes whose count is not below the new threshold enter PENDING (R59). -/
def setConfig (l : LineId) (c : LineConfig) (s : State) : State :=
  nodesToPending l (fun n => n.state == .suspect && decide (c.failureThreshold ≤ n.failures))
    (s.modifyLine l fun x => { x with config := c })

def runLineSet : Service := fun p s =>
  onLine (field p 0) (fun l s =>
    if (s.line l).lineState ≠ .stopped then refuseWith .wrongState s
    else
      match configOf p with
      | none => refuseWith .badField s
      | some c => answerOk [] (setConfig l c s)) s

def execLineSet (s : State) : Host.Outcome State Fault Refusal := perform (takeKind kindLineSet runLineSet) s

/-! ### LINE_START (R115) -/

/-- The three steps of R115, and a stuck input present as the line enters RUNNING (R123). -/
def startLine (l : LineId) (s : State) : State :=
  checkStuck l (startRound l (nodesToPending l (fun n => n.state != .pending)
    (changeLineState l .running .request s)))

def runLineStart : Service := fun p s =>
  onLine (field p 0) (fun l s =>
    if (s.line l).lineState = .stopped then answerOk [] (startLine l s) else refuseWith .wrongState s) s

def execLineStart (s : State) : Host.Outcome State Fault Refusal :=
  perform (takeKind kindLineStart runLineStart) s

/-! ### LINE_STOP (R116 to R118) -/

/-- A break is being sent. -/
def sendingBreakNow (p : LinePort) : Bool :=
  match p.tx with
  | .sendingBreak _ _ => true
  | .idle | .frame _ _ _ => false

/-- The stop goes through STOPPING: purge pending keeps the purge flag (R117). -/
def enterStopping (l : LineId) (purge : Bool) (s : State) : State :=
  changeLineState l .stopping .request
    (s.modifyLine l fun x =>
      { x with purgePending := purge, holdoffTimer := .stopped, idleWait := .stopped })

/-- The stop by the line's state (R116); the purge of the flag comes before it (R117, log 9). -/
def stopLine (l : LineId) (purge : Bool) (s : State) : State :=
  let s := if purge then purgeLine l s else s
  let x := s.line l
  match x.lineState with
  | .stopped => s
  | .running =>
    if x.engine.state = .idle ∧ sendingBreakNow x.port = false then enterStopped l s
    else enterStopping l purge s
  | .holdoff | .fault => if sendingBreakNow x.port then enterStopping l purge s else enterStopped l s
  | .stopping => s.modifyLine l fun x => { x with purgePending := x.purgePending || purge }

def runLineStop : Service := fun p s =>
  onLine (field p 0) (fun l s => answerOk [] (stopLine l (field p 1 != 0) s)) s

def execLineStop (s : State) : Host.Outcome State Fault Refusal :=
  perform (takeKind kindLineStop runLineStop) s

/-! ### LINE_RESYNC (R119) -/

def requestResync (l : LineId) (s : State) : State :=
  s.modifySched l fun c => { c with resyncRequest := true }

def runLineResync : Service := fun p s =>
  onLine (field p 0) (fun l s =>
    match (s.line l).lineState with
    | .running | .holdoff => answerOk [] (requestResync l s)
    | .stopped | .fault | .stopping => refuseWith .wrongState s) s

def execLineResync (s : State) : Host.Outcome State Fault Refusal :=
  perform (takeKind kindLineResync runLineResync) s

/-! ### LINE_QUERY (R120) -/

def nodesIn (state : NodeState) (x : Line) : Nat := (x.nodes.filter fun n => n.state == state).length

/-- Transaction records of a line in flight. -/
def inFlightCount (s : State) (l : LineId) : Nat :=
  (s.txns.filter fun t => t.line == l && t.state == .inFlight).length

def lineReport (l : LineId) (s : State) : List Byte :=
  let x := s.line l
  [lineCode l, lineStateCode x.lineState, causeCode x.cause] ++ be16 x.sched.roundNumber
    ++ [byteOf x.sched.contentionCount,
        lineFlags x.sched.resyncRequest x.purgePending (inFlightCount s l != 0),
        byteOf x.txnQueue.length,
        byteOf (nodesIn .pending x), byteOf (nodesIn .online x), byteOf (nodesIn .suspect x),
        byteOf (nodesIn .lost x)]
    ++ configBytes x.config

def runLineQuery : Service := fun p s =>
  onLine (field p 0) (fun l s => answerOk (lineReport l s) s) s

def execLineQuery (s : State) : Host.Outcome State Fault Refusal :=
  perform (takeKind kindLineQuery runLineQuery) s

end Sys2Proof.Machine
end

