-- ==== Sys2Proof/Machine/LinkRequests.lean ====
section
/-! DEFINITION. The requests the Host Link owns: HELLO (R154), RESTART (R155), and a message of a kind
the part does not know (R146). -/

namespace Sys2Proof.Machine

open Sys2Proof

/-! ### HELLO (R154) -/

/-- The four steps of an executed HELLO, up to its response. -/
def attachLink (start : Byte) (timeout : Nat) (s : State) : State :=
  (handBackWindow start timeout (s.modifyLink fun k => { k with linkState := .attached })).modifyLink fun k =>
    { k with cache := [] }

/-- HELLO: start sequence, acknowledgement timeout in ms (R177). -/
def runHello : Service := fun p s =>
  let timeout := (field16 p 1).toNat
  if 10 ≤ timeout ∧ timeout ≤ 1000 then answerOk Config.identity (attachLink (p.getD 0 0) timeout s)
  else refuseWith .badField s

def execHello (s : State) : Host.Outcome State Fault Refusal := perform (takeKind kindHello runHello) s

/-! ### RESTART (R155) -/

/-- How many characters of a frame leave: those sent and the one being sent (R41, R138). -/
def charactersLeft (position : Nat) : Nat := position / Config.characterSamples + 1

/-- The port at RESTART (R138): a frame is cut after the character being sent, whose echo is no longer checked. -/
def restartPort (p : LinePort) : LinePort :=
  match p.tx with
  | .frame chars position false =>
    { p with tx := .frame (chars.take (charactersLeft position)) position true, echo := .none }
  | .frame _ _ true | .idle | .sendingBreak _ _ => p

/-- One line at RESTART: the values of R2, R25, R42, R95 and R111; the counters and the port kept (R138, R172). -/
def restartLine (x : Line) : Line :=
  { Line.initial with counters := x.counters, port := restartPort x.port }

/-- A break being sent at RESTART ends at once and the driver is released (R138). -/
def endBreak (l : LineId) (s : State) : State :=
  match (s.line l).port.tx with
  | .sendingBreak _ _ => releaseDriver l s
  | .idle | .frame _ _ _ => s

/-- Report Delivery at RESTART (R157). -/
def restartDelivery (d : Delivery) : Delivery :=
  { d with queue := [], window := [], ackTimer := .stopped, timeoutCount := 0, resendRunDue := false }

/-- Every block's RESTART values in one step (R155). -/
def restartAll (s : State) : State :=
  endBreak .b (endBreak .a
    { s with
      lineA := restartLine s.lineA, lineB := restartLine s.lineB, subs := []
      freeBlocks := Config.poolBlocks, txns := [], delivery := restartDelivery s.delivery
      link := { s.link with cache := [] } })

/-- RESTART, after the sample periods that pass on both lines up to it: they say which character is being sent
(log 2). -/
def runRestart (periodsA periodsB : Periods) : Service := fun _ s =>
  answerOk [] (restartAll (playPeriods .b periodsB (playPeriods .a periodsA s)))

def execRestart (periodsA periodsB : Periods) (s : State) : Host.Outcome State Fault Refusal :=
  perform (takeKind kindRestart (runRestart periodsA periodsB)) s

/-! ### Unknown kinds -/

/-- A message of a kind that is no request kind is taken; check 3 of R146 stops it before any owner. -/
def execUnknownRequest (s : State) : Host.Outcome State Fault Refusal :=
  perform (takeRequest (fun kind => kind ∉ requestKinds) fun _ s => refuseWith .unknownKind s) s

end Sys2Proof.Machine
end

