-- ==== Sys2Proof/Machine/NodeRequests.lean ====
section
/-! DEFINITION. The requests the Node Table owns (chapter 4.3) and STATS_READ (chapter 12.2). -/

namespace Sys2Proof.Machine

open Sys2Proof

/-- The first check of R44, R45 and R46: a line and an address 1..30. -/
def onNode (p : List Byte) (run : LineId → Nat → State → State × List Byte) (s : State) : State × List Byte :=
  onLine (field p 0) (fun l s =>
    if isNodeAddress (field p 1) then run l (field p 1) s else refuseWith .badField s) s

/-! ### NODE_ADD (R44) -/

/-- R42's values on creation. -/
def newNode (address uid : Nat) : NodeRecord :=
  { address := address, uid := uid, state := .pending, failures := 0, toggle := false, profile := none
    lastVerdict := none, lastRound := none, counters := NodeCounters.zero }

def addNode (l : LineId) (address : Nat) (s : State) : State :=
  { s.modifyLine l (fun x => { x with nodes := insertNode (newNode address s.nextUid) x.nodes }) with
    nextUid := s.nextUid + 1 }

def runNodeAdd : Service := fun p s =>
  onNode p (fun l address s =>
    if (findNode s l address).isSome then refuseWith .present s else answerOk [] (addNode l address s)) s

def execNodeAdd (s : State) : Host.Outcome State Fault Refusal := perform (takeKind kindNodeAdd runNodeAdd) s

/-! ### NODE_REMOVE (R45) -/

/-- Subscription records in any state that name the node (R45, R46). -/
def subsNaming (s : State) (l : LineId) (address : Nat) : Nat :=
  (s.subs.filter fun r => r.line == l && r.node == address).length

/-- Transaction records in any state that name the node (R45, R46). -/
def txnsNaming (s : State) (l : LineId) (address : Nat) : Nat :=
  (s.txns.filter fun t => t.line == l && t.node == address).length

def removeNode (l : LineId) (n : NodeRecord) (s : State) : State :=
  withdrawReport (.nodeState l n.address n.uid)
    (s.modifyLine l fun x => { x with nodes := x.nodes.filter fun m => m.address ≠ n.address })

def runNodeRemove : Service := fun p s =>
  onNode p (fun l address s =>
    match findNode s l address with
    | none => refuseWith .notFound s
    | some n =>
      if subsNaming s l address = 0 ∧ txnsNaming s l address = 0 then answerOk [] (removeNode l n s)
      else refuseWith .inUse s) s

def execNodeRemove (s : State) : Host.Outcome State Fault Refusal :=
  perform (takeKind kindNodeRemove runNodeRemove) s

/-! ### NODE_QUERY (R46) -/

def nodeReport (l : LineId) (n : NodeRecord) (s : State) : List Byte :=
  [lineCode l, byteOf n.address, nodeStateCode n.state, byteOf n.failures, byteOf (bit n.toggle 0),
   presenceFlags n] ++ profileBytes n.profile ++ [lastVerdictCode n.lastVerdict] ++ be16 (n.lastRound.getD 0)
    ++ [byteOf (subsNaming s l n.address), byteOf (txnsNaming s l n.address)]

def runNodeQuery : Service := fun p s =>
  onNode p (fun l address s =>
    match findNode s l address with
    | none => refuseWith .notFound s
    | some n => answerOk (nodeReport l n s) s) s

def execNodeQuery (s : State) : Host.Outcome State Fault Refusal :=
  perform (takeKind kindNodeQuery runNodeQuery) s

/-! ### STATS_READ (R174) -/

/-- The counters in the order of 12.1. -/
def lineCounterBytes (c : LineCounters) : List Byte :=
  be16 c.rounds ++ be16 c.overruns ++ be16 c.exchanges ++ be16 c.retries ++ be16 c.timeouts
    ++ be16 c.crcErrors ++ be16 c.framingErrors ++ be16 c.gapErrors ++ be16 c.noiseFlags
    ++ be16 c.contentions ++ be16 c.breaksSeen ++ be16 c.strays

def nodeCounterBytes (c : NodeCounters) : List Byte :=
  be16 c.good ++ be16 c.failed ++ be16 c.retries ++ be16 c.refusals ++ be16 c.losses ++ be16 c.noisy

def linkCounterBytes (c : LinkCounters) : List Byte :=
  be16 c.received ++ be16 c.crcErrors ++ be16 c.gapDiscards ++ be16 c.framingErrors
    ++ be16 c.lengthErrors ++ be16 c.busy ++ be16 c.dropped ++ be16 c.duplicates ++ be16 c.reportsSent
    ++ be16 c.reportsResent ++ be16 c.strayAcks ++ be16 c.detaches

/-- Scope LINE: the line's counters, cleared in the same step if asked. -/
def readLineStats (clear : Bool) (l : LineId) (s : State) : State × List Byte :=
  answerOk ([0, lineCode l, 0] ++ lineCounterBytes (s.line l).counters)
    (if clear then s.countLine l fun _ => LineCounters.zero else s)

/-- Scope NODE. -/
def readNodeStats (clear : Bool) (l : LineId) (address : Nat) (s : State) : State × List Byte :=
  match findNode s l address with
  | none => refuseWith .notFound s
  | some n =>
    answerOk ([1, lineCode l, byteOf address] ++ nodeCounterBytes n.counters)
      (if clear then updateNode l n.address n.uid (fun n => { n with counters := NodeCounters.zero }) s else s)

/-- Scope LINK. -/
def readLinkStats (clear : Bool) (s : State) : State × List Byte :=
  answerOk ([2, 0, 0] ++ linkCounterBytes s.link.counters)
    (if clear then s.countLink fun _ => LinkCounters.zero else s)

/-- Scope, line, address, clear (R177), with the checks of R174. -/
def runStatsRead : Service := fun p s =>
  let clear := field p 3 == 1
  if 2 < field p 0 ∨ 1 < field p 3 then refuseWith .badField s
  else if field p 0 = 0 then onLine (field p 1) (readLineStats clear) s
  else if field p 0 = 1 then
    onLine (field p 1) (fun l s =>
      if isNodeAddress (field p 2) then readNodeStats clear l (field p 2) s else refuseWith .badField s) s
  else readLinkStats clear s

def execStatsRead (s : State) : Host.Outcome State Fault Refusal :=
  perform (takeKind kindStatsRead runStatsRead) s

end Sys2Proof.Machine
end

