-- ==== Sys2Proof/Machine/SubRequests.lean ====
section
/-! DEFINITION. The requests the Subscription Table and the Sample Store own (chapters 5 and 6):
SUB_OPEN, SUB_CLOSE, SUB_FETCH and SUB_QUERY. -/

namespace Sys2Proof.Machine

open Sys2Proof

/-! ### SUB_OPEN (R64, R65) -/

/-- What SUB_OPEN carries, once check 1 of R64 has passed. -/
structure OpenFields where
  line : LineId
  node : Nat
  channel : Nat
  kind : SubKind
  period : Nat
  depth : Nat
  policy : OverflowPolicy
  maxLength : Nat
  deriving DecidableEq, Repr

/-- Check 1 of R64, over the fields of R177. -/
def openFieldsOf (p : List Byte) : Option OpenFields :=
  match lineOfCode (field p 0), subKindOfCode (field p 3), policyOfCode (field p 6) with
  | some l, some kind, some policy =>
    let f : OpenFields :=
      { line := l, node := field p 1, channel := field p 2, kind := kind, period := field p 4
        depth := field p 5, policy := policy, maxLength := field p 7 }
    if isNodeAddress f.node ∧ isChannel f.channel ∧ 1 ≤ f.period ∧ f.period ≤ 64 ∧ 1 ≤ f.depth
        ∧ f.depth ≤ 8 ∧ f.maxLength ≤ Config.maxPayload
    then some f else none
  | _, _, _ => none

/-- Check 3 of R64: skipped while the profile is absent. -/
def fitsProfile (profile : Option Profile) (channel length : Nat) : Bool :=
  match profile with
  | none => true
  | some p => decide (channel < p.channels) && decide (length ≤ p.maxPayload)

/-- Check 4 of R64: an open subscription of the same line, node and channel. -/
def channelTaken (s : State) (f : OpenFields) : Bool :=
  s.subs.any fun r => r.isOpen && r.line == f.line && r.node == f.node && r.channel == f.channel

/-- The lowest free id (R62, R65). -/
def lowestFreeId (s : State) : Option Nat :=
  ((List.range Config.subSlots).map (· + 1)).find? fun id => (findSub s id).isNone

/-- The record in R61's values, WAITING; the entry to ACTIVE is R66's. -/
def newSub (id uid : Nat) (f : OpenFields) : SubRecord :=
  { id := id, uid := uid, line := f.line, node := f.node, channel := f.channel, kind := f.kind
    period := f.period, depth := f.depth, policy := f.policy, maxLength := f.maxLength, state := .waiting
    faultReason := none, phase := none, pollInFlight := false, resumed := false, referencePayload := none
    refusals := 0, queue := [], nextSequence := 0, dropped := 0, notice := .none }

/-- The record is created, ACTIVE or WAITING by its node's state (R65). -/
def openSub (id : Nat) (f : OpenFields) (n : NodeRecord) (s : State) : State :=
  let r := newSub id s.nextUid f
  let r := if n.state.inService then enterActive (s.line f.line).sched.roundNumber r else r
  { s with subs := insertSub r s.subs, nextUid := s.nextUid + 1 }

/-- Checks 2 to 6 of R64 in order. -/
def judgeOpen (f : OpenFields) (s : State) : State × List Byte :=
  match findNode s f.line f.node with
  | none => refuseWith .notFound s
  | some n =>
    if fitsProfile n.profile f.channel f.maxLength = false then refuseWith .badField s
    else if channelTaken s f then refuseWith .present s
    else
      match lowestFreeId s with
      | none => refuseWith .noRoom s
      | some id =>
        if emptyOpen s < s.freeBlocks then answerOk [byteOf id] (openSub id f n s)
        else refuseWith .noRoom s

def runSubOpen : Service := fun p s =>
  match openFieldsOf p with
  | none => refuseWith .badField s
  | some f => judgeOpen f s

def execSubOpen (s : State) : Host.Outcome State Fault Refusal := perform (takeKind kindSubOpen runSubOpen) s

/-! ### SUB_CLOSE (R74) -/

/-- Step 1: the samples are discarded and their blocks are free (R94). -/
def discardSamples (r : SubRecord) (s : State) : State :=
  { updateSub r.id r.uid (fun r => { r with queue := [], notice := .none }) s with
    freeBlocks := s.freeBlocks + r.queue.length }

/-- The four steps of R74. -/
def closeSub (r : SubRecord) (s : State) : State :=
  let s := discardSamples r s
  let s := withdrawReport (.subState r.id r.uid) (withdrawReport (.sampleReady r.id r.uid) s)
  let s := prunePolls r.line [r.id] s
  if r.pollInFlight then
    updateSub r.id r.uid (fun r => { r with state := .closing, faultReason := none }) s
  else freeSub r.id r.uid s

def runSubClose : Service := fun p s =>
  match findSub s (field p 0) with
  | none => refuseWith .notFound s
  | some r => if r.isOpen then answerOk [] (closeSub r s) else refuseWith .notFound s

def execSubClose (s : State) : Host.Outcome State Fault Refusal :=
  perform (takeKind kindSubClose runSubClose) s

/-! ### SUB_FETCH (R89 to R92) -/

/-- The content of a served fetch of `n` samples (R91). -/
def fetchContent (r : SubRecord) (n : Nat) : List Byte :=
  [byteOf r.id, byteOf (r.queue.take n).length, byteOf (r.queue.drop n).length] ++ be16 r.dropped
    ++ (r.queue.take n).flatMap sampleBytes

/-- id, max count (R177). -/
def runSubFetch : Service := fun p s =>
  if field p 1 = 0 ∨ 8 < field p 1 then refuseWith .badField s
  else
    match findSub s (field p 0) with
    | none => refuseWith .notFound s
    | some r =>
      if r.isOpen then
        let n := fetchCount (field p 1) Config.fetchRoom r.queue
        answerOk (fetchContent r n) (takeSamples r n s)
      else refuseWith .notFound s

def execSubFetch (s : State) : Host.Outcome State Fault Refusal :=
  perform (takeKind kindSubFetch runSubFetch) s

/-! ### SUB_QUERY (R76) -/

def subReport (r : SubRecord) : List Byte :=
  [byteOf r.id, lineCode r.line, byteOf r.node, byteOf r.channel, subKindCode r.kind, byteOf r.period,
   byteOf r.depth, policyCode r.policy, byteOf r.maxLength, subStateCode r.state,
   faultReasonCode r.faultReason, (r.phase.map byteOf).getD 0xFF, byteOf (bit r.pollInFlight 0),
   byteOf r.queue.length] ++ be16 r.nextSequence ++ be16 r.dropped ++ be16 r.refusals ++ [noticeCode r.notice]

def runSubQuery : Service := fun p s =>
  match findSub s (field p 0) with
  | none => refuseWith .notFound s
  | some r => answerOk (subReport r) s

def execSubQuery (s : State) : Host.Outcome State Fault Refusal :=
  perform (takeKind kindSubQuery runSubQuery) s

end Sys2Proof.Machine
end

