-- ==== Sys2Proof/Machine/TxnRequests.lean ====
section
/-! DEFINITION. The requests the Transaction Queues own (chapter 7): TXN_SUBMIT and TXN_CANCEL. -/

namespace Sys2Proof.Machine

open Sys2Proof

/-! ### TXN_SUBMIT (R97, R98) -/

/-- What TXN_SUBMIT carries, once check 1 of R97 has passed. -/
structure SubmitFields where
  reference : Word16
  line : LineId
  node : Nat
  channel : Nat
  kind : TxnKind
  deriving DecidableEq, Repr

/-- The kind with its max reply or data, by check 1 of R97: a READ names a node, carries a max reply of
0..24 and no data; a WRITE carries 0..24 bytes, and its max reply byte is not read (R177). -/
def submitKind (p : List Byte) : Option TxnKind :=
  match field p 5 with
  | 0 =>
    if field p 6 ≤ Config.maxPayload ∧ field p 7 = 0 ∧ field p 3 ≠ 0 then some (.read (field p 6)) else none
  | 1 => if field p 7 ≤ Config.maxPayload then some (.write ((p.drop 8).take (field p 7))) else none
  | _ => none

/-- Check 1 of R97, over the fields of R177. -/
def submitFieldsOf (p : List Byte) : Option SubmitFields :=
  match lineOfCode (field p 2), submitKind p with
  | some l, some kind =>
    if field16 p 0 ≠ 0 ∧ field p 3 ≤ 30 ∧ isChannel (field p 4) then
      some { reference := field16 p 0, line := l, node := field p 3, channel := field p 4, kind := kind }
    else none
  | _, _ => none

/-- The length check 4 of R97 compares with the node's max payload. -/
def kindLength : TxnKind → Nat
  | .read maxReply => maxReply
  | .write data => data.length

/-- R95's values on submission. -/
def newTxn (f : SubmitFields) : TxnRecord :=
  { reference := f.reference, line := f.line, node := f.node, channel := f.channel, kind := f.kind
    state := .queued, attempts := 0, contentionReturns := 0, result := none, lastVerdict := none
    refuseReason := none, reply := none }

/-- The record is created and appended to its line's queue (R98). -/
def submitTxn (f : SubmitFields) (s : State) : State :=
  { s.modifyLine f.line (fun x => { x with txnQueue := x.txnQueue ++ [f.reference] }) with
    txns := s.txns ++ [newTxn f] }

/-- Checks 5 and 6 of R97. -/
def roomForTxn (s : State) (l : LineId) : Bool :=
  decide (s.txns.length < Config.txnSlots)
    && decide ((s.line l).txnQueue.length + inFlightCount s l < Config.txnPerLine)

/-- Checks 2 to 6 of R97 in order. -/
def judgeSubmit (f : SubmitFields) (s : State) : State × List Byte :=
  if (findTxn s f.reference).isSome then refuseWith .present s
  else if f.node = 0 then
    if roomForTxn s f.line then answerOk [] (submitTxn f s) else refuseWith .noRoom s
  else
    match findNode s f.line f.node with
    | none => refuseWith .notFound s
    | some n =>
      if fitsProfile n.profile f.channel (kindLength f.kind) = false then refuseWith .badField s
      else if roomForTxn s f.line then answerOk [] (submitTxn f s)
      else refuseWith .noRoom s

def runTxnSubmit : Service := fun p s =>
  match submitFieldsOf p with
  | none => refuseWith .badField s
  | some f => judgeSubmit f s

def execTxnSubmit (s : State) : Host.Outcome State Fault Refusal :=
  perform (takeKind kindTxnSubmit runTxnSubmit) s

/-! ### TXN_CANCEL (R106) -/

/-- A QUEUED record leaves its queue from wherever it stands and completes CANCELLED (R106). -/
def cancelTxn (t : TxnRecord) (s : State) : State :=
  completeTxn t.reference .cancelled none none none (leaveQueue t.line t.reference s)

def runTxnCancel : Service := fun p s =>
  if field16 p 0 = 0 then refuseWith .badField s
  else
    match findTxn s (field16 p 0) with
    | none => refuseWith .notFound s
    | some t =>
      match t.state with
      | .queued => answerOk [] (cancelTxn t s)
      | .inFlight | .done | .reported => refuseWith .tooLate s

def execTxnCancel (s : State) : Host.Outcome State Fault Refusal :=
  perform (takeKind kindTxnCancel runTxnCancel) s

end Sys2Proof.Machine
end

