-- ==== Sys2Proof/Machine/Dispatch.lean ====
section
/-! DEFINITION. One arm per constructor of `Instr`, each a direct call of its meaning. -/

namespace Sys2Proof.Machine

open Sys2Proof

def exec (i : Instr) (s : State) : Host.Outcome State Fault Refusal :=
  match i with
  | .pinReset rate1 rate0 levelA levelB => Sys2Proof.Machine.execPinReset rate1 rate0 levelA levelB s
  | .messageReceived m => Sys2Proof.Machine.execMessageReceived m s
  | .messageGapTimeout => Sys2Proof.Machine.execMessageGapTimeout s
  | .acknowledgement sequence payload check => Sys2Proof.Machine.execAcknowledgement sequence payload check s
  | .hello => Sys2Proof.Machine.execHello s
  | .restart periodsA periodsB => Sys2Proof.Machine.execRestart periodsA periodsB s
  | .lineSet => Sys2Proof.Machine.execLineSet s
  | .lineStart => Sys2Proof.Machine.execLineStart s
  | .lineStop => Sys2Proof.Machine.execLineStop s
  | .lineResync => Sys2Proof.Machine.execLineResync s
  | .lineQuery => Sys2Proof.Machine.execLineQuery s
  | .nodeAdd => Sys2Proof.Machine.execNodeAdd s
  | .nodeRemove => Sys2Proof.Machine.execNodeRemove s
  | .nodeQuery => Sys2Proof.Machine.execNodeQuery s
  | .subOpen => Sys2Proof.Machine.execSubOpen s
  | .subClose => Sys2Proof.Machine.execSubClose s
  | .subFetch => Sys2Proof.Machine.execSubFetch s
  | .subQuery => Sys2Proof.Machine.execSubQuery s
  | .txnSubmit => Sys2Proof.Machine.execTxnSubmit s
  | .txnCancel => Sys2Proof.Machine.execTxnCancel s
  | .statsRead => Sys2Proof.Machine.execStatsRead s
  | .unknownRequest => Sys2Proof.Machine.execUnknownRequest s
  | .hostTransmitEnd => Sys2Proof.Machine.execHostTransmitEnd s
  | .ackTimeout => Sys2Proof.Machine.execAckTimeout s
  | .roundTimerExpiry l => Sys2Proof.Machine.execRoundTimerExpiry l s
  | .roundStart l => Sys2Proof.Machine.execRoundStart l s
  | .quietEnd l => Sys2Proof.Machine.execQuietEnd l s
  | .arbiterChoice l periods => Sys2Proof.Machine.execArbiterChoice l periods s
  | .transmitEnd l periods => Sys2Proof.Machine.execTransmitEnd l periods s
  | .responseWindowExpiry l => Sys2Proof.Machine.execResponseWindowExpiry l s
  | .characterEnd l periods => Sys2Proof.Machine.execCharacterEnd l periods s
  | .gapTimerExpiry l => Sys2Proof.Machine.execGapTimerExpiry l s
  | .settlingEnd l periods => Sys2Proof.Machine.execSettlingEnd l periods s
  | .breakDetected l periods => Sys2Proof.Machine.execBreakDetected l s periods
  | .breakEnd l periods => Sys2Proof.Machine.execBreakEnd l periods s
  | .stuck l periods => Sys2Proof.Machine.execStuck l s periods
  | .stuckEnd l periods => Sys2Proof.Machine.execStuckEnd l s periods
  | .contention l periods => Sys2Proof.Machine.execContention l s periods
  | .jamBreakEnd l periods => Sys2Proof.Machine.execJamBreakEnd l periods s
  | .breakOrderEnd l periods => Sys2Proof.Machine.execBreakOrderEnd l periods s
  | .holdoffExpiry l => Sys2Proof.Machine.execHoldoffExpiry l s
  | .idleWaitExpiry l => Sys2Proof.Machine.execIdleWaitExpiry l s
  | .startBegun l periods => Sys2Proof.Machine.execStartBegun l s periods
  | .falseStart l periods => Sys2Proof.Machine.execFalseStart l periods s
  | .returnHigh l periods => Sys2Proof.Machine.execReturnHigh l s periods
  | .byteReceived b => Sys2Proof.Machine.execByteReceived b s
  | .resetNLow => Sys2Proof.Machine.execResetNLow s

end Sys2Proof.Machine
end

