-- ==== Sys2Proof/Machine/Time.lean ====
section
/-! DEFINITION. One period of CLKIN (R1, R126): what the step does on an empty queue (log 1). The
clock, the running millisecond timers and what counts sample periods move; no event happens, since the
expiries are commands. -/

namespace Sys2Proof.Machine

open Sys2Proof

def RoundTimer.count : RoundTimer → RoundTimer
  | .running left => .running (left - 1)
  | t => t

/-- One period of CLKIN through a fractional divider for 16 samples per bit: the new phase, and whether
a sample period has passed. The average is exactly 1/(16 × bit rate), and no sample period is off by a
period of CLKIN (R126). -/
def divide (rate : BitRate) (phase : Nat) : Nat × Bool :=
  let next := phase + 16 * hertz rate
  if Config.clkPerSecond ≤ next then (next - Config.clkPerSecond, true) else (next, false)

/-- At a sample period of its clock the line samples its input. -/
def clkTickLine (x : Line) : Line :=
  let d := divide x.port.rate x.port.divider
  let x := { x with port := { x.port with divider := d.1 } }
  if d.2 then linePeriod x.port.input x else x

/-- One increment of the millisecond clock, which every millisecond timer counts (R1). -/
def msTickLine (x : Line) : Line :=
  { x with
    holdoffTimer := x.holdoffTimer.count, idleWait := x.idleWait.count
    sched := { x.sched with roundTimer := x.sched.roundTimer.count } }

def msTick (s : State) : State :=
  { s with
    msClock := s.msClock + 1, prescaler := 0, lineA := msTickLine s.lineA, lineB := msTickLine s.lineB
    link := { s.link with gapTimer := s.link.gapTimer.count }
    delivery := { s.delivery with ackTimer := s.delivery.ackTimer.count } }

/-- One period of CLKIN. While RESET_N is low the part does nothing (R139). Where a sample period of a line and an
increment of the millisecond clock fall in one period of CLKIN, the sample periods come first (the model's choice,
log 1). -/
def clkTick (s : State) : State :=
  if s.resetHeld then s
  else
    let s := { s with lineA := clkTickLine s.lineA, lineB := clkTickLine s.lineB }
    if s.prescaler + 1 < Config.clkPerMs then { s with prescaler := s.prescaler + 1 } else msTick s

end Sys2Proof.Machine
end

