-- ==== Sys2Proof/Machine/Step.lean ====
section
/-! DEFINITION. The step: the command at the front of the queue; on an empty queue one period of CLKIN
passes (log 1). -/

namespace Sys2Proof.Machine

open Sys2Proof

def step (s : State) : Host.Outcome State Fault Refusal :=
  match s.pending with
  | [] => .next (clkTick s)
  | c :: rest => exec c { s with pending := rest }

/-- The state with the command a table word spells at the front of its queue. -/
def State.withFetchWord (s : State) (nbits w : Nat) : State :=
  match decodeTableWord nbits w with
  | some c => { s with pending := c :: s.pending }
  | none => s

end Sys2Proof.Machine
end

