-- ==== Sys2Proof/Safety.lean ====
section
/-! DEFINITION. What counts as a safe run, and the relations the spec says hold at all times: the bounds
of the host link, the report queue and window, the sample pool, the node records, the state of a line
and its exchange, and the life of a transaction record. -/

namespace Sys2Proof.Machine

open Sys2Proof

/-- The step answers a next state. -/
def goesOn (s : State) : Prop := ∃ t, step s = .next t

/-- The bounds of the host link: the inbox (R144), the response queue (R150), and the response cache,
each of whose entries has a tag of its own that is not 0 (R148). -/
structure LinkBounded (s : State) : Prop where
  inbox : s.link.inbox.length ≤ 4
  responses : s.link.responses.length ≤ 6
  cacheSize : s.link.cache.length ≤ 8
  cacheTags : (s.link.cache.map (·.tag)).Nodup
  cacheNonzero : ∀ e ∈ s.link.cache, e.tag ≠ 0

/-- The report queue never holds two entries with the same owner and kind (R158). -/
def QueueDistinct (s : State) : Prop := s.delivery.queue.Nodup

/-- The report window (R161): at most 4 snapshots, and the number of each is the next sequence number
less the number of snapshots from it on, modulo 256. The timer runs only while the window holds a
snapshot (R163, R168). The timeout count is below 5 in ATTACHED and at most 5 (R166, R168). In DETACHED no
snapshot is marked and the timer is stopped (R168). -/
structure WindowOrdered (s : State) : Prop where
  size : s.delivery.window.length ≤ 4
  consecutive : ∀ older x newer, s.delivery.window = older ++ x :: newer →
    x.sequence + BitVec.ofNat 8 (newer.length + 1) = s.delivery.nextSequence
  timer : s.delivery.ackTimer.isRunning = true → s.delivery.window ≠ []
  count : s.delivery.timeoutCount ≤ 5
  attached : s.link.linkState = .attached → s.delivery.timeoutCount < 5
  detachedTimer : s.link.linkState = .detached → s.delivery.ackTimer = .stopped
  detachedMarks : s.link.linkState = .detached → ∀ x ∈ s.delivery.window, x.resendMark = false

/-- Samples held in all sample queues (R78). -/
def heldBlocks (s : State) : Nat := (s.subs.map fun r => r.queue.length).sum

/-- The sample pool and the subscription records it serves: free blocks and samples number 96 (R78), the
free blocks cover the reservations (R79), ids are distinct and 1..48 (R62), no queue is above its depth
(R82), a CLOSING record holds no sample (R94), and a notice is NONE exactly while the queue is empty
(R86). -/
structure PoolConserved (s : State) : Prop where
  blocks : s.freeBlocks + heldBlocks s = 96
  reserved : emptyOpen s ≤ s.freeBlocks
  ids : (s.subs.map (·.id)).Nodup
  idRange : ∀ r ∈ s.subs, 1 ≤ r.id ∧ r.id ≤ 48
  depth : ∀ r ∈ s.subs, 1 ≤ r.depth ∧ r.depth ≤ 8 ∧ r.queue.length ≤ r.depth
  closing : ∀ r ∈ s.subs, r.state = .closing → r.queue = []
  notice : ∀ r ∈ s.subs, r.notice = .none ↔ r.queue = []

/-- The relation of R43 between a node's state and its consecutive failure count. -/
def countFits (threshold : Nat) (n : NodeRecord) : Prop :=
  match n.state with
  | .pending | .online => n.failures = 0
  | .suspect => 1 ≤ n.failures ∧ n.failures < threshold
  | .lost => 1 ≤ n.failures ∧ n.failures ≤ 15

/-- The node records of a line: addresses distinct and 1..30 (R42), failure counts by R43, profiles within
the ranges of R42, and a failure threshold of 1..15 (R112). -/
structure NodesSound (x : Line) : Prop where
  threshold : 1 ≤ x.config.failureThreshold ∧ x.config.failureThreshold ≤ 15
  addresses : (x.nodes.map (·.address)).Nodup
  range : ∀ n ∈ x.nodes, 1 ≤ n.address ∧ n.address ≤ 30
  counts : ∀ n ∈ x.nodes, countFits x.config.failureThreshold n
  profiles : ∀ n ∈ x.nodes, ∀ p, n.profile = some p → 1 ≤ p.channels ∧ p.channels ≤ 8 ∧ p.maxPayload ≤ 24

/-- What the transmitter does, by the engine's state and order: a frame only while SENDING, a break order's
break only while SENDING it, a jam break or the character finished after RESTART only while IDLE (R28,
R29, R41). -/
def transmitFits (e : Engine) (tx : Transmitter) : Prop :=
  match tx with
  | .idle => e.state ≠ .sending
  | .frame _ _ true => e.state = .idle
  | .frame _ _ false => e.state = .sending ∧ ∃ o, e.order = some o ∧ o.kind ≠ .breakOrder
  | .sendingBreak true _ => e.state = .idle
  | .sendingBreak false _ => e.state = .sending ∧ ∃ o, e.order = some o ∧ o.kind = .breakOrder

/-- A line and its exchange: an order is held exactly outside IDLE (R25), an exchange is in flight only in RUNNING and
STOPPING (R114), a reply is awaited of addressed frames only (R24, R26), each timer of the engine runs only in its
state (R25), the driver enable is asserted exactly while something is sent (R132, R133), the timers of Line Control
run only in their line states and purge pending is yes only in STOPPING (R111), and STOPPED and FAULT stop the round
timer, STOPPED with an empty poll list and no resync request (R7). -/
structure LineSound (x : Line) : Prop where
  order : x.engine.order = none ↔ x.engine.state = .idle
  exchange : x.engine.state ≠ .idle → x.lineState = .running ∨ x.lineState = .stopping
  reply : x.engine.state ≠ .idle → x.engine.state ≠ .sending →
    ∀ o, x.engine.order = some o → isAddressed o.kind = true
  window : x.engine.window ≠ .stopped → x.engine.state = .awaiting
  gap : x.engine.gap ≠ .stopped → x.engine.state = .receiving
  settling : x.engine.settling ≠ .stopped → x.engine.state = .settling
  breakHold : x.engine.breakHold = true → x.engine.state = .awaiting ∨ x.engine.state = .receiving
  transmit : transmitFits x.engine x.port.tx
  driver : x.port.driverEnable = true ↔ x.port.tx ≠ .idle
  holdoff : x.holdoffTimer ≠ .stopped → x.lineState = .holdoff
  idleWait : x.idleWait ≠ .stopped → x.lineState = .fault
  purge : x.purgePending = true → x.lineState = .stopping
  stopped : x.lineState = .stopped →
    x.sched.roundTimer = .stopped ∧ x.sched.pollList = [] ∧ x.sched.resyncRequest = false
  fault : x.lineState = .fault → x.sched.roundTimer = .stopped

/-- Both lines, unless RESET_N is low: the drivers are then released whatever the engines do (R25, R139). -/
def LinesSound (s : State) : Prop := s.resetHeld = false → ∀ l, LineSound (s.line l)

/-- The reference of a transaction order. -/
def orderReference : OrderKind → Option Word16
  | .read reference _ _ _ _ _ | .write reference _ _ _ _ _ => some reference
  | .breakOrder | .roundBroadcast | .probe _ _ | .poll _ _ _ _ _ _ => none

/-- The reference of a TXN_DONE request. -/
def doneReference : ReportRequest → Option Word16
  | .txnDone reference => some reference
  | .sampleReady _ _ | .subState _ _ | .nodeState _ _ _ | .lineState _ => none

/-- The reference of the transaction the engine of a line holds. -/
def inFlightReference (x : Line) : Option Word16 := x.engine.order.bind fun o => orderReference o.kind

/-- The life of the transaction records: at most 16, each with a reference of its own (R95); a record is in
its line's queue exactly while QUEUED (R96), the order of its line's engine exactly while IN_FLIGHT (R96,
R99), named by one TXN_DONE entry exactly while DONE and by one TXN_DONE snapshot exactly while REPORTED
(R103, R104); it has a result exactly from completion on (R103); and a line's QUEUED and IN_FLIGHT records are
at most 8 (R96). -/
structure TxnsSound (s : State) : Prop where
  count : s.txns.length ≤ 16
  references : (s.txns.map (·.reference)).Nodup
  queues : ∀ l, (s.line l).txnQueue.Nodup
  queued : ∀ l reference, reference ∈ (s.line l).txnQueue ↔
    ∃ t ∈ s.txns, t.reference = reference ∧ t.line = l ∧ t.state = .queued
  inFlight : ∀ l reference, inFlightReference (s.line l) = some reference ↔
    ∃ t ∈ s.txns, t.reference = reference ∧ t.line = l ∧ t.state = .inFlight
  done : ∀ reference, .txnDone reference ∈ s.delivery.queue ↔
    ∃ t ∈ s.txns, t.reference = reference ∧ t.state = .done
  entries : s.delivery.queue.Nodup
  snapshots : (s.delivery.window.filterMap fun x => doneReference x.request).Nodup
  reported : ∀ reference, (∃ x ∈ s.delivery.window, x.request = .txnDone reference) ↔
    ∃ t ∈ s.txns, t.reference = reference ∧ t.state = .reported
  results : ∀ t ∈ s.txns, t.result.isSome = true ↔ t.state = .done ∨ t.state = .reported
  room : ∀ l, (s.line l).txnQueue.length + inFlightCount s l ≤ 8

/-! ### What the statements are written with -/

/-- The line whose event a command is; none for a command of the pins, the host link or the host. -/
def lineOf : Instr → Option LineId
  | .roundTimerExpiry l => some l
  | .roundStart l => some l
  | .quietEnd l => some l
  | .arbiterChoice l _ => some l
  | .transmitEnd l _ => some l
  | .responseWindowExpiry l => some l
  | .characterEnd l _ => some l
  | .gapTimerExpiry l => some l
  | .settlingEnd l _ => some l
  | .breakDetected l _ => some l
  | .breakEnd l _ => some l
  | .stuck l _ => some l
  | .stuckEnd l _ => some l
  | .contention l _ => some l
  | .jamBreakEnd l _ => some l
  | .breakOrderEnd l _ => some l
  | .holdoffExpiry l => some l
  | .idleWaitExpiry l => some l
  | .startBegun l _ => some l
  | .falseStart l _ => some l
  | .returnHigh l _ => some l
  | .pinReset _ _ _ _ | .messageReceived _ | .messageGapTimeout | .acknowledgement _ _ _ | .hello
  | .restart _ _ | .lineSet | .lineStart | .lineStop | .lineResync | .lineQuery | .nodeAdd | .nodeRemove
  | .nodeQuery | .subOpen | .subClose | .subFetch | .subQuery | .txnSubmit | .txnCancel | .statsRead
  | .unknownRequest | .hostTransmitEnd | .ackTimeout | .byteReceived _ | .resetNLow => none

/-- The kind of the request a command executes; none for a command that executes none, and for
UNKNOWN_REQUEST, whose kind is none of these (13.2). -/
def requestKindOf : Instr → Option Byte
  | .hello => some 0x10
  | .restart _ _ => some 0x11
  | .lineSet => some 0x20
  | .lineStart => some 0x21
  | .lineStop => some 0x22
  | .lineResync => some 0x23
  | .lineQuery => some 0x24
  | .nodeAdd => some 0x30
  | .nodeRemove => some 0x31
  | .nodeQuery => some 0x32
  | .subOpen => some 0x40
  | .subClose => some 0x41
  | .subFetch => some 0x42
  | .subQuery => some 0x43
  | .txnSubmit => some 0x50
  | .txnCancel => some 0x51
  | .statsRead => some 0x60
  | _ => none

/-- The request processor can take the message at the head of the inbox (R145), and neither of the
first two checks of R146 answers it. -/
structure Ready (s : State) (m : Message) (rest : List Message) : Prop where
  running : s.resetHeld = false
  head : s.link.inbox = m :: rest
  room : s.link.responses.length ≤ 4
  attached : s.link.linkState = .attached ∨ m.kind = 0x10
  fresh : m.tag = 0 ∨ ∀ e ∈ s.link.cache, ¬ (e.tag = m.tag ∧ e.kind = m.kind)

/-- The state with the message at the head of the inbox taken. -/
def headTaken (s : State) (rest : List Message) : State := { s with link := { s.link with inbox := rest } }

/-- A report queue after a request (R158). -/
def joined (queue : List ReportRequest) (r : ReportRequest) : List ReportRequest :=
  if r ∈ queue then queue else queue ++ [r]

/-- Records of line `l` that satisfy the test have entered PENDING (R57), in ascending address order, and
nothing else: state and failure count; one NODE_STATE each; their ACTIVE subscriptions WAITING without a
reference payload (R67) and out of the poll list (R11). -/
structure EnteredPending (l : LineId) (test : NodeRecord → Bool) (s t : State) : Prop where
  nodes : (t.line l).nodes =
    (s.line l).nodes.map fun n => if test n then { n with state := .pending, failures := 0 } else n
  subs : t.subs = s.subs.map fun r =>
    if r.line = l ∧ r.state = .active ∧ ∃ n ∈ (s.line l).nodes, n.address = r.node ∧ test n = true then
      { r with state := .waiting, referencePayload := none } else r
  polls : (t.line l).sched.pollList = (s.line l).sched.pollList.filter fun id =>
    ¬ ∃ r ∈ s.subs, r.id = id ∧ r.line = l ∧ r.state = .active ∧
      ∃ n ∈ (s.line l).nodes, n.address = r.node ∧ test n = true
  reports : t.delivery = { s.delivery with queue :=
    (((s.line l).nodes.filter test).map fun n => .nodeState l n.address n.uid).foldl joined s.delivery.queue }
  line : t.line l = { s.line l with
    nodes := (t.line l).nodes, sched := { (s.line l).sched with pollList := (t.line l).sched.pollList } }
  other : ∀ k, k ≠ l → t.line k = s.line k
  rest : t = { s with lineA := t.lineA, lineB := t.lineB, subs := t.subs, delivery := t.delivery }

/-- The poll list of a round of line `l` (R10): the ids of its ACTIVE subscriptions that are due in the round
(R8), each once, by ascending node and then channel. -/
def PollListFor (s : State) (l : LineId) (round : Word16) (ids : List Nat) : Prop :=
  ∃ records : List SubRecord, ids = records.map (·.id) ∧
    records.Perm (s.subs.filter fun r =>
      decide (r.line = l ∧ r.state = .active ∧ r.phase = some (round.toNat % r.period))) ∧
    records.Pairwise fun p q => p.node < q.node ∨ (p.node = q.node ∧ p.channel ≤ q.channel)

/-- The QUEUED records of line `l` completed CANCELLED, head first (R107). -/
def purged (l : LineId) (s : State) : State :=
  { s.modifyLine l (fun x => { x with txnQueue := [] }) with
    txns := s.txns.map fun t =>
      if t.reference ∈ (s.line l).txnQueue then
        { t with
          state := .done, result := some .cancelled, lastVerdict := none, refuseReason := none, reply := none }
      else t
    delivery := { s.delivery with queue :=
      ((s.line l).txnQueue.map .txnDone).foldl joined s.delivery.queue } }

/-- The arbiter of a line may choose (R12): RUNNING, the engine IDLE, the quiet passed, no round start due (R4),
and the transmitter free of a character finished after RESTART (log 11). -/
structure ArbiterFree (x : Line) : Prop where
  running : x.lineState = .running
  idle : x.engine.state = .idle
  quiet : x.sched.quiet = .passed
  transmitter : x.port.tx = .idle
  noRoundStart : ¬(x.sched.roundTimer = .expired ∧ x.sched.pollList = [])

/-- A port whose receiver is in no character, and which measures no low period. -/
def clearedPort (p : LinePort) : LinePort :=
  { p with
    samplePosition := 0, rxBits := [], rxVotes := [], rxNoise := false, inBreak := none, lowTime := 0
    lowPhase := 0, stuck := false, ended := p.ended.map fun e => { e with startWaits := false } }

/-- The transmitter has begun to send on line `l` (R132 to R134): a frame, or a break. The driver is asserted, a
low period being measured has ended, which the Node Table takes by its duration (R23) and the engine as a
break seen (R31), and the receiver is MUTED unless echoes of the frame are expected. The rate configured is in force for
a frame (R138), and the fractional divider starts anew if that is another rate (R126, log 1). -/
structure SendingBegun (l : LineId) (tx : Transmitter) (s t : State) : Prop where
  engine : (t.line l).engine = { (s.line l).engine with
    breakSeen := (s.line l).engine.breakSeen || (s.line l).port.inBreak.isSome }
  frame : ∀ chars, tx = .frame chars 0 false →
    (t.line l).port = { clearedPort (s.line l).port with
      tx := .frame chars 0 false, driverEnable := true, rate := (s.line l).config.bitRate
      divider := if (s.line l).config.bitRate = (s.line l).port.rate then (s.line l).port.divider else 0
      rxPhase := if (s.line l).config.echoCheck then .hunt else .muted
      echo := match chars, (s.line l).config.echoCheck with
        | c :: _, true => .expecting c 176
        | [], true | _, false => .none }
  breakSent : ∀ jam left, tx = .sendingBreak jam left →
    (t.line l).port = { clearedPort (s.line l).port with
      tx := .sendingBreak jam left, driverEnable := true, rxPhase := .muted }
  toggles : (t.line l).nodes =
    if (s.line l).port.inBreak.any fun duration => decide (352 ≤ duration) then
      (s.line l).nodes.map fun n => { n with toggle := false }
    else (s.line l).nodes
  rest : t = s.setLine l { s.line l with
    engine := (t.line l).engine, port := (t.line l).port, nodes := (t.line l).nodes }

/-- The engine as an exchange begins (R26): SENDING the order, taken in the current round, at its first
attempt, with the toggle the addressed WRITE reads; of any other order it is 0, the model's choice (log 31). -/
def beginExchange (l : LineId) (kind : OrderKind) (s : State) : State :=
  s.modifyLine l fun x => { x with engine := { x.engine with
    state := .sending, order := some { kind := kind, round := x.sched.roundNumber }
    attempt := startAttempt kind, framesSent := 0, breakSeen := false, sentToggle := toggleFor s l kind } }

/-- An exchange of this order has begun on line `l`: its first frame is being sent. -/
def ExchangeBegun (l : LineId) (kind : OrderKind) (s t : State) : Prop :=
  SendingBegun l
    (.frame (orderFrame { kind := kind, round := (s.line l).sched.roundNumber } (toggleFor s l kind)) 0 false)
    (beginExchange l kind s) t

/-- A port after the release of the driver enable (R132, R133). With the input low the release is the first low sample:
the low time is 1, the model's choice (log 32). -/
def releasedPort (p : LinePort) : LinePort :=
  { p with
    tx := .idle, driverEnable := false, echo := .none, samplePosition := 0, rxBits := [], rxVotes := []
    rxNoise := false, ended := p.ended.map fun e => { e with startWaits := false }, lowPhase := 0
    rxPhase := if p.input = .high then .hunt else .qualify
    lowTime := if p.input = .high then 0 else 1
    lowRate := if p.input = .high then p.lowRate else p.rate }

/-- The engine with its running timer held when the driver is released with the input low (R128, R133). -/
def releasedEngine (p : LinePort) (e : Engine) : Engine :=
  if p.input = .high then e
  else { e with window := e.window.hold, gap := e.gap.hold, settling := e.settling.hold }

/-- The state after the sample periods a command carries, with the oldest signal of the port, `x`, taken. -/
def Signalled (l : LineId) (periods : Periods) (x : PortSignal) (s base : State) : Prop :=
  ∃ rest, ((playPeriods l periods s).line l).port.signals = x :: rest ∧
    base = (playPeriods l periods s).modifyLine l fun y => { y with port := { y.port with signals := rest } }

/-- A port after n sample periods of its receive input; sample k is `levels k`, from 1 on (R127). -/
def afterSamples (configured : BitRate) (echoCheck : Bool) (levels : Nat → PinLevel) : Nat → LinePort → LinePort
  | 0, p => p
  | n + 1, p => samplePort configured echoCheck (levels (n + 1)) (afterSamples configured echoCheck levels n p)

/-- The three samples that decide bit k of a character, counted from its falling edge (R129). -/
def bitSamples (levels : Nat → PinLevel) (k : Nat) : List PinLevel :=
  [levels (16 * k + 7), levels (16 * k + 8), levels (16 * k + 9)]

/-- The value of bit k: the one at least two of its samples have (R129). -/
def bitValue (levels : Nat → PinLevel) (k : Nat) : Bool := decide (2 ≤ (bitSamples levels k).count .high)

/-- The character these samples give at the stop-bit decision (R129): data bit i is bit i + 1, the stop bit is bit
10, and a bit whose samples do not all agree is noise. -/
structure SampledAs (levels : Nat → PinLevel) (c : ReceivedCharacter) : Prop where
  data : ∀ i, i < 9 → c.data.getLsbD i = bitValue levels (i + 1)
  stop : c.stop = bitValue levels 10
  noisy : c.noisy = true ↔ ∃ k, k ≤ 10 ∧ .low ∈ bitSamples levels k ∧ .high ∈ bitSamples levels k

/-- The engine back in IDLE after an exchange whose last attempt ended in this verdict (R38). -/
def endedEngine (v : Verdict) (e : Engine) : Engine :=
  { e with
    state := .idle, order := none, window := .stopped, gap := .stopped, settling := .stopped
    breakHold := false, lastVerdict := some v }

/-- The engine in SETTLING after an attempt that is to be repeated (R34, R35). -/
def settlingEngine (v : Verdict) (e : Engine) : Engine :=
  { e with
    state := .settling, window := .stopped, gap := .stopped, settling := .running 352, breakHold := false
    lastVerdict := some v }

/-- Another attempt follows a failed one (R34): a poll, a READ or an addressed WRITE, below the retry limit, and no
WRITE that has seen a break. -/
def RetryFollows (x : Line) (o : Order) : Prop :=
  mayRetry o.kind = true ∧ x.engine.attempt ≤ x.config.retryLimit ∧
    ¬(isAddressedWrite o.kind = true ∧ x.engine.breakSeen = true)

/-- The exchange of order `o` on line `l` has ended in the failure `v` (R38): the engine is IDLE, the exchange is
counted, and the verdict record (R37) is delivered. -/
def exchangeEnded (l : LineId) (o : Order) (v : Verdict) (s : State) : State :=
  deliverVerdict l
    { order := o, result := plainResult v, framesSent := (s.line l).engine.framesSent
      retries := (s.line l).engine.attempt - startAttempt o.kind } false
    (s.modifyLine l fun x => { x with
      engine := endedEngine v x.engine, counters := { x.counters with exchanges := satInc x.counters.exchanges } })

/-- An attempt of order `o`, counted in `s`, has ended in the failure `v` (R34): SETTLING when another attempt follows,
else the end of the exchange. -/
structure AttemptEnds (l : LineId) (o : Order) (v : Verdict) (s t : State) : Prop where
  again : RetryFollows (s.line l) o → t = s.modifyLine l fun x => { x with engine := settlingEngine v x.engine }
  ended : ¬ RetryFollows (s.line l) o → t = exchangeEnded l o v s

/-- SETTLING has ended with order `o` sent again as the next attempt, counted as a retry (R35). -/
def SentAgain (l : LineId) (o : Order) (s t : State) : Prop :=
  SendingBegun l (.frame (orderFrame o (s.line l).engine.sentToggle) 0 false)
    (s.modifyLine l fun x => { x with
      engine := { x.engine with
        state := .sending, attempt := x.engine.attempt + 1, settling := .stopped
        buffer := { bytes := [], noiseSeen := false, framingSeen := false } }
      counters := { x.counters with retries := satInc x.counters.retries } }) t

/-- The hold of a start bit has ended without stopping the timer held (R30, R32, R35, R128): the timer of the engine's
state resumes with the time it has left; with none left it expires at once, and the attempt ends TIMEOUT or GAP, or
SETTLING ends. -/
structure HoldEnded (l : LineId) (s t : State) : Prop where
  unheld : (∀ left, (s.line l).engine.state = .awaiting → (s.line l).engine.window ≠ .held left) →
    (∀ left, (s.line l).engine.state = .receiving → (s.line l).engine.gap ≠ .held left) →
    (∀ left, (s.line l).engine.state = .settling → (s.line l).engine.settling ≠ .held left) → t = s
  window : ∀ left, (s.line l).engine.state = .awaiting → (s.line l).engine.window = .held (left + 1) →
    t = s.modifyLine l fun x => { x with engine := { x.engine with window := .running (left + 1) } }
  gap : ∀ left, (s.line l).engine.state = .receiving → (s.line l).engine.gap = .held (left + 1) →
    t = s.modifyLine l fun x => { x with engine := { x.engine with gap := .running (left + 1) } }
  settling : ∀ left, (s.line l).engine.state = .settling → (s.line l).engine.settling = .held (left + 1) →
    t = s.modifyLine l fun x => { x with engine := { x.engine with settling := .running (left + 1) } }
  timeout : ∀ o, (s.line l).engine.order = some o → (s.line l).engine.state = .awaiting →
    (s.line l).engine.window = .held 0 →
    AttemptEnds l o .timeout
      (s.modifyLine l fun x => { x with
        counters := { x.counters with timeouts := satInc x.counters.timeouts } }) t
  gapOut : ∀ o, (s.line l).engine.order = some o → (s.line l).engine.state = .receiving →
    (s.line l).engine.gap = .held 0 →
    AttemptEnds l o .gap
      (s.modifyLine l fun x => { x with
        counters := { x.counters with gapErrors := satInc x.counters.gapErrors } }) t
  settled : ∀ o v, (s.line l).engine.order = some o → (s.line l).engine.lastVerdict = some v →
    (s.line l).engine.state = .settling → (s.line l).engine.settling = .held 0 →
    ¬(isAddressedWrite o.kind = true ∧ (s.line l).engine.breakSeen = true) → SentAgain l o s t
  broken : ∀ o v, (s.line l).engine.order = some o → (s.line l).engine.lastVerdict = some v →
    (s.line l).engine.state = .settling → (s.line l).engine.settling = .held 0 → isFailure v = true →
    isAddressedWrite o.kind = true → (s.line l).engine.breakSeen = true → t = exchangeEnded l o v s

/-- A contended record of line `l` has been returned to the head of its queue (R102), with the frames its exchange
has sent in full among its attempts and the contention counted. -/
structure TxnReturned (l : LineId) (x : TxnRecord) (framesSent : Nat) (s t : State) : Prop where
  queue : (t.line l).txnQueue = x.reference :: (s.line l).txnQueue
  records : t.txns = s.txns.map fun k => if k = x then
    { k with
      attempts := k.attempts + framesSent, contentionReturns := k.contentionReturns + 1, state := .queued } else k

/-- A contended record of line `l` has completed with this result and last verdict CONTENTION (R102, R103). -/
structure TxnContended (l : LineId) (x : TxnRecord) (framesSent : Nat) (result : TxnResult) (s t : State) : Prop where
  queue : (t.line l).txnQueue = (s.line l).txnQueue
  report : .txnDone x.reference ∈ t.delivery.queue
  records : t.txns = s.txns.map fun k => if k = x then
    { k with
      attempts := k.attempts + framesSent, contentionReturns := k.contentionReturns + 1, state := .done
      result := some result, lastVerdict := some .contention, refuseReason := none, reply := none } else k

/-- Line `l` has entered STOPPED on request (R118): a pending purge is done (R107), LINE_STATE is requested (R125),
the timers and the scheduler stop (R7). -/
def stopCompleted (l : LineId) (s : State) : State :=
  let u := { s with delivery := { s.delivery with queue := joined s.delivery.queue (.lineState l) } }
  (if (s.line l).purgePending then purged l u else u).modifyLine l fun x => { x with
    lineState := .stopped, cause := .request, purgePending := false, holdoffTimer := .stopped
    idleWait := .stopped
    sched := { x.sched with roundTimer := .stopped, pollList := [], resyncRequest := false } }

/-- Line `l` has entered FAULT (R121, R123): LINE_STATE is requested, the round timer and a holdoff stop. -/
def faulted (l : LineId) (cause : Cause) (s : State) : State :=
  { s with delivery := { s.delivery with queue := joined s.delivery.queue (.lineState l) } }.modifyLine l
    fun x => { x with
      lineState := .fault, cause := cause, holdoffTimer := .stopped
      sched := { x.sched with roundTimer := .stopped } }

/-- The samples of a byte that arrives without noise: the input high before it, start bit 0, the data bits, stop bit
1. -/
def byteSamples (x : Byte) : SampledByte :=
  let bits : BitVec 10 := (1 : BitVec 1) ++ (x ++ (0 : BitVec 1))
  { before := [.high], s7 := bits, s8 := bits, s9 := bits }

/-- The bytes arrive on HLRX one after the other. -/
def sendBytes : List Byte → State → Host.Outcome State Fault Refusal
  | [], s => .next s
  | x :: rest, s =>
    match exec (.byteReceived (byteSamples x)) s with
    | .next t => sendBytes rest t
    | stopped => stopped

end Sys2Proof.Machine
end

