-- ==== Sys2Proof/Certificates/Slice0/Obligations.lean ====
section
/-! DEFINITION. The statements for the provers, each a proposition about the machine of
Sys2Proof/Machine. The command statements give the state a command answers with, before the grant of the
outbound arbiter (`outbound`), whose grants are statements of their own; a request's statement gives the
state and the answer its owner makes, before the answer is queued and cached (`completeRequest`). -/

section
open Sys2Proof Sys2Proof.Machine

/-! ### The step and the pins -/

/-- A step takes the command at the front of the queue and runs it with the queue's rest. -/
def Obligations.StepRunsFrontCommand : Prop :=
  ∀ (c : Instr) (rest : List Instr) (s : State), s.pending = c :: rest →
    step s = exec c { s with pending := rest }

/-- Every command answers a next state in every state, and leaves the commands that wait. A command whose event
cannot happen changes nothing (the model's choice, log 3), so a request's command does nothing while the inbox is
empty, while the response queue holds more than 4 responses (R145), and, by the same choice, when the head of the
inbox is a request of another kind; UNKNOWN_REQUEST when that is of a kind the part knows. This gives no command its
effect. -/
def Obligations.EveryCommandCompletes : Prop :=
  (∀ (c : Instr) (s : State), ∃ t, exec c s = .next t ∧ t.pending = s.pending) ∧
  (∀ (c : Instr) (k : Byte) (s : State), s.resetHeld = false → requestKindOf c = some k →
    (s.link.inbox = [] ∨ 4 < s.link.responses.length ∨ (∃ m rest, s.link.inbox = m :: rest ∧ m.kind ≠ k)) →
    exec c s = .next (outbound s)) ∧
  (∀ s : State, s.resetHeld = false →
    (s.link.inbox = [] ∨ 4 < s.link.responses.length ∨
      (∃ m rest, s.link.inbox = m :: rest ∧ m.kind ∈ requestKinds)) →
    exec .unknownRequest s = .next (outbound s))

/-- On an empty queue one period of CLKIN passes (the model's choice, log 1): the prescaler counts, and at every
24000th period the millisecond clock and the millisecond timers (R1). The divider of each line counts, and where it
says so a sample period of the line passes (R126), in which the engine's timers and the quiet count, the port takes
one sample, and in FAULT, while the part does not transmit, the idle wait stops at a low sample and starts in full at
the first high one after it (R124). In a period that brings both, the sample periods of the lines come before the
increment of the millisecond clock (the model's choice, log 1). Nothing else changes. -/
def Obligations.IdleStepCountsTime : Prop :=
  (∀ s : State, s.pending = [] →
    (s.resetHeld = true → step s = .next s) ∧
    (s.resetHeld = false → ∃ lines : LineId → Line,
      (∀ l, lines l =
        if (s.line l).port.divider + 16 * hertz (s.line l).port.rate < 24000000 then
          { s.line l with port := { (s.line l).port with
            divider := (s.line l).port.divider + 16 * hertz (s.line l).port.rate } }
        else
          linePeriod (s.line l).port.input { s.line l with port := { (s.line l).port with
            divider := (s.line l).port.divider + 16 * hertz (s.line l).port.rate - 24000000 } }) ∧
      (s.prescaler + 1 < 24000 →
        step s = .next { s with prescaler := s.prescaler + 1, lineA := lines .a, lineB := lines .b }) ∧
      (24000 ≤ s.prescaler + 1 →
        ∃ counted : LineId → Line,
          (∀ l, counted l = { lines l with
            holdoffTimer := (lines l).holdoffTimer.count, idleWait := (lines l).idleWait.count
            sched := { (lines l).sched with roundTimer := (lines l).sched.roundTimer.count } }) ∧
          step s = .next { s with
            prescaler := 0, msClock := s.msClock + 1, lineA := counted .a, lineB := counted .b
            link := { s.link with gapTimer := s.link.gapTimer.count }
            delivery := { s.delivery with ackTimer := s.delivery.ackTimer.count } }))) ∧
  (∀ (level : PinLevel) (x : Line), linePeriod level x = { x with
    sched := { x.sched with quiet := match x.sched.quiet with
      | .passed => .passed
      | .running left => .running (left - 1) }
    engine := { x.engine with
      window := x.engine.window.count, gap := x.engine.gap.count, settling := x.engine.settling.count }
    idleWait := if x.lineState = .fault ∧ x.port.tx = .idle then
        (if level = .low then .stopped else if x.port.lowTime = 0 then x.idleWait
          else .running x.config.holdoff)
      else x.idleWait
    port := samplePort x.config.bitRate x.config.echoCheck level x.port }) ∧
  (∀ left : Nat, CharTimer.count .stopped = .stopped ∧ CharTimer.count (.running left) = .running (left - 1) ∧
    CharTimer.count (.held left) = .held (left - 1) ∧ MsTimer.count .stopped = .stopped ∧
    MsTimer.count (.running left) = .running (left - 1) ∧ RoundTimer.count .stopped = .stopped ∧
    RoundTimer.count (.running left) = .running (left - 1) ∧ RoundTimer.count .expired = .expired)

/-- PIN_RESET: every block at its value after pin reset, the straps' host rate, and a port whose input is low in
QUALIFY with the low time counting, from 1 on (DEDUCED, log 32). RESET_N_LOW: HLTX is high (R139), the drivers are
released, and until RESET_N rises no command but the two of its edges does anything; that every field else keeps its
value until then is the model's (DEDUCED, log 22). The commands that wait are not the part's. Of the reset state's other
values the next statement says which are the model's. -/
def Obligations.PinResetLoadsResetValues : Prop :=
  (∀ (rate1 rate0 levelA levelB : PinLevel) (s : State),
    exec (.pinReset rate1 rate0 levelA levelB) s = .next { State.reset with
      lineA := { Line.initial with port :=
        if levelA = .high then LinePort.initial
        else { LinePort.initial with input := .low, rxPhase := .qualify, lowTime := 1 } }
      lineB := { Line.initial with port :=
        if levelB = .high then LinePort.initial
        else { LinePort.initial with input := .low, rxPhase := .qualify, lowTime := 1 } }
      link := { HostLink.initial with rate :=
        if rate1 = .low then (if rate0 = .low then .r115200 else .r230400)
        else (if rate0 = .low then .r460800 else .r921600) }
      pending := s.pending }) ∧
  (∀ s : State, exec .resetNLow s = .next { s with
     resetHeld := true, link := { s.link with transmitter := none }
     lineA := { s.lineA with port := { s.lineA.port with tx := .idle, driverEnable := false } }
     lineB := { s.lineB with port := { s.lineB.port with tx := .idle, driverEnable := false } } }) ∧
  (∀ (c : Instr) (s : State), s.resetHeld = true → c ≠ .resetNLow →
     (∀ rate1 rate0 levelA levelB, c ≠ .pinReset rate1 rate0 levelA levelB) → exec c s = .next s)

/-- The reset state, every field written out: both lines (R2, R25, R111, R127, R172), the tables (R42, R62, R78, R95),
the host link (R156) and Report Delivery (R157) at the values the manual gives, and it satisfies every invariant
stated below. The model's own are: both receive inputs high, so that the receivers are in HUNT, and both rate straps
low (log 7); the prescaler, the divider's phase and the low period's rate (log 1); the attempt number (log 6); the
message receiver's two counts (log 30) and that it waits for no high input (log 16); the model's own fields nextUid
(log 5), resendRunDue (log 8), signals (log 20) and lowPhase (log 26), and the queue of commands, empty. -/
def Obligations.ResetStateHoldsTheSpecValues : Prop :=
  (∀ line : Line,
    line = {
      lineState := .stopped, cause := .request, config := ⟨.r115200, 8, 1, 3, 100, 2, 20, true, false⟩
      purgePending := false, holdoffTimer := .stopped, idleWait := .stopped
      sched := {
        roundNumber := 0, roundTimer := .stopped, pollList := [], broadcastSent := false, probeDone := false
        allowanceUsed := 0, alternation := .none, probePointer := 1, resyncRequest := false, contentionCount := 0
        quiet := .passed }
      engine := {
        state := .idle, order := none, attempt := 1, framesSent := 0, sentToggle := false, window := .stopped
        gap := .stopped, settling := .stopped, breakHold := false, breakSeen := false, lastVerdict := none
        buffer := { bytes := [], noiseSeen := false, framingSeen := false } }
      port := {
        input := .high, rxPhase := .hunt, samplePosition := 0, rxBits := [], rxVotes := [], rxNoise := false
        ended := none, inBreak := none, lowTime := 0, stuck := false, tx := .idle, driverEnable := false
        echo := .none, rate := .r115200, lowRate := .r115200, lowPhase := 0, divider := 0, signals := [] }
      nodes := [], txnQueue := [], counters := ⟨0, 0, 0, 0, 0, 0, 0, 0, 0, 0, 0, 0⟩ } →
    State.reset = {
      resetHeld := false, msClock := 0, prescaler := 0, lineA := line, lineB := line, subs := [], freeBlocks := 96
      txns := []
      link := {
        rate := .r115200, rxPhase := .hunt, rxExpected := 0, rxTaken := [], rxWaitHigh := false
        gapTimer := .stopped, inbox := [], responses := [], cache := [], transmitter := none, linkState := .detached
        counters := ⟨0, 0, 0, 0, 0, 0, 0, 0, 0, 0, 0, 0⟩ }
      delivery := {
        queue := [], window := [], nextSequence := 0, ackTimer := .stopped, timeoutCount := 0, ackTimeout := 100
        resendRunDue := false }
      nextUid := 0, pending := [] }) ∧
  LinkBounded State.reset ∧ QueueDistinct State.reset ∧ WindowOrdered State.reset ∧ PoolConserved State.reset ∧
  (∀ l, NodesSound (State.reset.line l)) ∧ LinesSound State.reset ∧ TxnsSound State.reset

/-! ### The host link -/

/-- BYTE_RECEIVED: what a byte, or a framing error, does in each phase of the message receiver (R141). After a framing
error the receiver waits for HLRX to return high before it looks for the next falling edge (R139): until the input has
been high nothing is taken. Samples whose start bit is read as 1 are no byte; that the command then changes nothing
but the wait is the model's choice (log 3). -/
def Obligations.ByteReceivedByPhase : Prop :=
  ∀ (b : SampledByte) (s : State), s.resetHeld = false →
    (s.link.rxWaitHigh = true → .high ∉ b.before → exec (.byteReceived b) s = .next (outbound s)) ∧
    (s.link.rxWaitHigh = false ∨ .high ∈ b.before → b.bits.getLsbD 0 = true →
      exec (.byteReceived b) s = .next (outbound { s with link := { s.link with rxWaitHigh := false } })) ∧
    (s.link.rxWaitHigh = false ∨ .high ∈ b.before → b.bits.getLsbD 0 = false →
      (b.stop = false → exec (.byteReceived b) s = .next (outbound { s with link := { s.link with
        counters := { s.link.counters with framingErrors := satInc s.link.counters.framingErrors }
        rxPhase := .hunt, rxWaitHigh := true
        rxExpected := if s.link.rxPhase = .hunt then s.link.rxExpected else 0
        rxTaken := if s.link.rxPhase = .hunt then s.link.rxTaken else []
        gapTimer := if s.link.rxPhase = .hunt then s.link.gapTimer else .stopped } })) ∧
      (b.stop = true → s.link.rxPhase = .hunt → exec (.byteReceived b) s = .next (outbound (
        if b.byte = 0x5A then { s with link := { s.link with
          rxPhase := .length, rxExpected := 1, rxTaken := [], rxWaitHigh := false, gapTimer := .running 5 } }
        else { s with link := { s.link with rxWaitHigh := false } }))) ∧
      (b.stop = true → s.link.rxPhase = .length → exec (.byteReceived b) s = .next (outbound (
        if 2 ≤ b.byte.toNat ∧ b.byte.toNat ≤ 240 then { s with link := { s.link with
          rxPhase := .body, rxExpected := b.byte.toNat, rxTaken := s.link.rxTaken ++ [b.byte]
          rxWaitHigh := false, gapTimer := .running 5 } }
        else { s with link := { s.link with
          rxPhase := .hunt, rxExpected := 0, rxTaken := [], rxWaitHigh := false, gapTimer := .stopped
          counters := { s.link.counters with lengthErrors := satInc s.link.counters.lengthErrors } } }))) ∧
      (b.stop = true → s.link.rxPhase = .body → exec (.byteReceived b) s = .next (outbound (
        { s with link := { s.link with
          rxPhase := if s.link.rxExpected ≤ 1 then .check else .body
          rxExpected := if s.link.rxExpected ≤ 1 then 2 else s.link.rxExpected - 1
          rxTaken := s.link.rxTaken ++ [b.byte], rxWaitHigh := false, gapTimer := .running 5 } }))) ∧
      (b.stop = true → s.link.rxPhase = .check → s.link.rxExpected = 2 →
        exec (.byteReceived b) s = .next (outbound (
          { s with link := { s.link with
            rxExpected := 1, rxTaken := s.link.rxTaken ++ [b.byte], rxWaitHigh := false, gapTimer := .running 5 } }))) ∧
      (∀ length kind tag payload high, b.stop = true → s.link.rxPhase = .check → s.link.rxExpected = 1 →
        payload.length ≤ 238 → s.link.rxTaken = length :: kind :: tag :: (payload ++ [high]) →
        exec (.byteReceived b) s = exec (.messageReceived ⟨kind, tag, payload, word16Of high b.byte⟩) s))

/-- A message sent byte by byte to a receiver in HUNT does what the whole message does. The state is one in
which no grant is open, as after any command. -/
def Obligations.BytesOfAMessageActAsTheMessage : Prop :=
  ∀ (m : Message) (s : State), s.resetHeld = false → s.link.rxPhase = .hunt → m.payload.length ≤ 238 →
    outbound s = s →
    sendBytes (messageBytes m) s =
      exec (.messageReceived ⟨m.kind, m.tag, m.payload, crc16 (coveredBytes m)⟩) s

/-- MESSAGE_RECEIVED: a message whose check value is wrong is discarded and counted; a good one joins the inbox while
that holds fewer than 4. With 4 there it is dropped in DETACHED unless it is a HELLO; else answered BUSY while the
response queue holds fewer than 6, and dropped otherwise. That no wait for a high input is left is the model's choice
(log 16). -/
def Obligations.MessageReceivedIsJudged : Prop :=
  (∀ (r : ReceivedMessage) (s : State), s.resetHeld = false → r.payload.length ≤ 238 → r.kind ≠ 0x0A →
     (crc16 (coveredBytes ⟨r.kind, r.tag, r.payload⟩) ≠ r.check →
       exec (.messageReceived r) s = .next (outbound { s with link := { s.link with
         rxPhase := .hunt, rxExpected := 0, rxTaken := [], rxWaitHigh := false, gapTimer := .stopped
         counters := { s.link.counters with crcErrors := satInc s.link.counters.crcErrors } } })) ∧
     (crc16 (coveredBytes ⟨r.kind, r.tag, r.payload⟩) = r.check → s.link.inbox.length < 4 →
       exec (.messageReceived r) s = .next (outbound { s with link := { s.link with
         rxPhase := .hunt, rxExpected := 0, rxTaken := [], rxWaitHigh := false, gapTimer := .stopped
         inbox := s.link.inbox ++ [⟨r.kind, r.tag, r.payload⟩]
         counters := { s.link.counters with received := satInc s.link.counters.received } } }))) ∧
  (∀ (r : ReceivedMessage) (s : State), s.resetHeld = false → r.payload.length ≤ 238 → r.kind ≠ 0x0A →
     crc16 (coveredBytes ⟨r.kind, r.tag, r.payload⟩) = r.check → 4 ≤ s.link.inbox.length →
     exec (.messageReceived r) s = .next (outbound (
       if (s.link.linkState = .attached ∨ r.kind = 0x10) ∧ s.link.responses.length < 6 then
         { s with link := { s.link with
           rxPhase := .hunt, rxExpected := 0, rxTaken := [], rxWaitHigh := false, gapTimer := .stopped
           responses := s.link.responses ++ [⟨responseKind r.kind, r.tag, [11]⟩]
           counters := { s.link.counters with
             received := satInc s.link.counters.received, busy := satInc s.link.counters.busy } } }
       else
         { s with link := { s.link with
           rxPhase := .hunt, rxExpected := 0, rxTaken := [], rxWaitHigh := false, gapTimer := .stopped
           counters := { s.link.counters with
             received := satInc s.link.counters.received, dropped := satInc s.link.counters.dropped } } })))

/-- MESSAGE_GAP_TIMEOUT: in LENGTH, BODY and CHECK, once the time of the gap timer is up, the message begun is
discarded and counted (R142). That the command changes nothing in HUNT or with the timer stopped (log 3), nor while
the timer has time left (log 4), is the model's choice. -/
def Obligations.MessageGapDiscardsTheMessage : Prop :=
  ∀ s : State, s.resetHeld = false →
    (s.link.gapTimer = .running 0 → s.link.rxPhase ≠ .hunt →
      exec .messageGapTimeout s = .next (outbound { s with link := { s.link with
        rxPhase := .hunt, rxExpected := 0, rxTaken := [], gapTimer := .stopped
        counters := { s.link.counters with gapDiscards := satInc s.link.counters.gapDiscards } } })) ∧
    (s.link.gapTimer ≠ .running 0 ∨ s.link.rxPhase = .hunt →
      exec .messageGapTimeout s = .next (outbound s))

/-! ### Report Delivery and the outbound arbiter -/

/-- ACKNOWLEDGEMENT of a snapshot in the window: it and every older one go, their transactions are freed, the timeout
count is 0, and the timer restarts or stops (R164). One whose check value is wrong is discarded and counted in CRC
errors, whatever it names (R143). The receiver is in HUNT after it (R141); that no wait for a high input is left is the
model's choice (log 16). -/
def Obligations.AcknowledgementRemovesSnapshots : Prop :=
  (∀ (sequence : Byte) (payload : List Byte) (check : Word16) (s : State) (older newer : List Snapshot)
     (named : Snapshot),
     s.resetHeld = false → payload.length ≤ 238 → crc16 (coveredBytes ⟨0x0A, sequence, payload⟩) = check →
     s.link.linkState = .attached → s.delivery.window = older ++ named :: newer →
     named.sequence = sequence → (∀ x ∈ older, x.sequence ≠ sequence) →
     exec (.acknowledgement sequence payload check) s = .next (outbound { s with
       link := { s.link with
         rxPhase := .hunt, rxExpected := 0, rxTaken := [], rxWaitHigh := false, gapTimer := .stopped
         counters := { s.link.counters with received := satInc s.link.counters.received } }
       txns := s.txns.filter fun t => ∀ x ∈ older ++ [named], x.request ≠ .txnDone t.reference
       delivery := { s.delivery with
         window := newer, timeoutCount := 0
         ackTimer := if newer = [] then .stopped else .running s.delivery.ackTimeout } })) ∧
  (∀ (sequence : Byte) (payload : List Byte) (check : Word16) (s : State),
     s.resetHeld = false → payload.length ≤ 238 → crc16 (coveredBytes ⟨0x0A, sequence, payload⟩) ≠ check →
     exec (.acknowledgement sequence payload check) s = .next (outbound { s with link := { s.link with
       rxPhase := .hunt, rxExpected := 0, rxTaken := [], rxWaitHigh := false, gapTimer := .stopped
       counters := { s.link.counters with crcErrors := satInc s.link.counters.crcErrors } } }))

/-- An acknowledgement with a good check value taken in DETACHED, or one that names no snapshot in the window, is
ignored and counted, as a message received and as a stray (R143, R165); and a snapshot younger than the one an
acknowledgement names is not removed by it (R164, R165). With a wrong check value it is discarded, as
AcknowledgementRemovesSnapshots says. The receiver is in HUNT after it (R141); that no wait for a high input is left
is the model's choice (log 16). -/
def Obligations.StrayAcknowledgementIsIgnored : Prop :=
  ∀ (sequence : Byte) (payload : List Byte) (check : Word16) (s : State),
    s.resetHeld = false → payload.length ≤ 238 → crc16 (coveredBytes ⟨0x0A, sequence, payload⟩) = check →
    (s.link.linkState = .detached ∨ (∀ x ∈ s.delivery.window, x.sequence ≠ sequence) →
      exec (.acknowledgement sequence payload check) s = .next (outbound { s with link := { s.link with
        rxPhase := .hunt, rxExpected := 0, rxTaken := [], rxWaitHigh := false, gapTimer := .stopped
        counters := { s.link.counters with
          received := satInc s.link.counters.received
          strayAcks := satInc s.link.counters.strayAcks } } })) ∧
    (∀ older named newer, s.link.linkState = .attached → s.delivery.window = older ++ named :: newer →
      named.sequence = sequence → (∀ x ∈ older, x.sequence ≠ sequence) →
      ∃ t, exec (.acknowledgement sequence payload check) s = .next (outbound t) ∧
        t.delivery.window = newer)

/-- ACK_TIMEOUT, once the time of the acknowledgement timer is up: below the fifth expiry every snapshot is marked for
resend and the timer stays stopped; the fifth detaches the link (R166). That the command changes nothing with the
timer stopped (log 3), nor while it has time left (log 4), is the model's choice. -/
def Obligations.AckTimeoutMarksOrDetaches : Prop :=
  ∀ s : State, s.resetHeld = false →
    (s.delivery.ackTimer = .running 0 → s.delivery.timeoutCount + 1 < 5 → exec .ackTimeout s = .next (outbound { s with
      delivery := { s.delivery with
        timeoutCount := s.delivery.timeoutCount + 1, ackTimer := .stopped, resendRunDue := true
        window := s.delivery.window.map fun x => { x with resendMark := true } } })) ∧
    (s.delivery.ackTimer = .running 0 → 5 ≤ s.delivery.timeoutCount + 1 → exec .ackTimeout s = .next (outbound { s with
      link := { s.link with
        linkState := .detached
        counters := { s.link.counters with detaches := satInc s.link.counters.detaches } }
      delivery := { s.delivery with
        timeoutCount := s.delivery.timeoutCount + 1, ackTimer := .stopped, resendRunDue := false
        window := s.delivery.window.map fun x => { x with resendMark := false } } })) ∧
    (s.delivery.ackTimer ≠ .running 0 → exec .ackTimeout s = .next (outbound s))

/-- HOST_TRANSMIT_END frees the transmitter, and the outbound arbiter then grants: nothing while the transmitter is
busy; the oldest snapshot marked for resend while ATTACHED; then the oldest response; nothing when no new
report may be granted either. HLTX carries the bytes of the message granted back to back from its grant, ten bit times
each: start bit 0, eight data bits with the least significant first, stop bit 1; it is high after them and without a
message (R139). -/
def Obligations.TransmitterGrantsResendsThenResponses : Prop :=
  (∀ s : State, s.resetHeld = false →
     exec .hostTransmitEnd s = .next (outbound { s with link := { s.link with transmitter := none } })) ∧
  (∀ s : State,
     (s.link.transmitter ≠ none → outbound s = s) ∧
     (∀ older x newer, s.link.transmitter = none → s.link.linkState = .attached →
       s.delivery.window = older ++ x :: newer → x.resendMark = true → (∀ y ∈ older, y.resendMark = false) →
       outbound s = { s with
         link := { s.link with
           transmitter := some ⟨reportKind x.request, x.sequence, x.content⟩
           counters := { s.link.counters with reportsResent := satInc s.link.counters.reportsResent } }
         delivery := { s.delivery with
           window := older ++ { x with resendMark := false } :: newer, resendRunDue := false
           ackTimer := if s.delivery.resendRunDue then .running s.delivery.ackTimeout else s.delivery.ackTimer } }) ∧
     (∀ m rest, s.link.transmitter = none →
       (s.link.linkState = .detached ∨ ∀ x ∈ s.delivery.window, x.resendMark = false) →
       s.link.responses = m :: rest →
       outbound s = { s with link := { s.link with transmitter := some m, responses := rest } }) ∧
     (s.link.transmitter = none →
       (s.link.linkState = .detached ∨ ∀ x ∈ s.delivery.window, x.resendMark = false) →
       s.link.responses = [] →
       (s.link.linkState = .detached ∨ 4 ≤ s.delivery.window.length ∨ s.delivery.queue = []) → outbound s = s)) ∧
  (∀ bitTime, hostOutput none bitTime = .high) ∧
  (∀ m i x bit, (messageBytes m)[i]? = some x → bit ≤ 9 →
    hostOutput (some m) (10 * i + bit) =
      if bit = 0 then .low else if bit = 9 ∨ x.getLsbD (bit - 1) = true then .high else .low) ∧
  (∀ m bitTime, 10 * (messageBytes m).length ≤ bitTime → hostOutput (some m) bitTime = .high)

/-- A new report is composed when nothing else waits: the head of the report queue takes the next sequence
number, joins the window, is counted and sent; the timer starts if the window was empty; a notice QUEUED
becomes SENT, and a DONE transaction REPORTED. -/
def Obligations.OutboundComposesNewReports : Prop :=
  ∀ (s : State) (r : ReportRequest) (rest : List ReportRequest) (content : List Byte),
    s.link.transmitter = none → s.link.linkState = .attached →
    (∀ x ∈ s.delivery.window, x.resendMark = false) → s.link.responses = [] →
    s.delivery.window.length < 4 → s.delivery.queue = r :: rest → reportContent r s = some content →
    outbound s = { s with
      link := { s.link with
        transmitter := some ⟨reportKind r, s.delivery.nextSequence, content⟩
        counters := { s.link.counters with reportsSent := satInc s.link.counters.reportsSent } }
      delivery := { s.delivery with
        queue := rest, nextSequence := s.delivery.nextSequence + 1
        window := s.delivery.window ++ [⟨s.delivery.nextSequence, r, content, false⟩]
        ackTimer := if s.delivery.window = [] then .running s.delivery.ackTimeout else s.delivery.ackTimer }
      subs := s.subs.map fun q =>
        if r = .sampleReady q.id q.uid ∧ q.notice = .queued then { q with notice := .sent } else q
      txns := s.txns.map fun t =>
        if r = .txnDone t.reference ∧ t.state = .done then { t with state := .reported } else t }

/-- What each report says, read from its owner as it stands. -/
def Obligations.ReportsCarryTheirOwner : Prop :=
  ∀ s : State,
    (∀ r ∈ s.subs, (s.subs.map (·.id)).Nodup →
      reportContent (.sampleReady r.id r.uid) s =
        some ([byteOf r.id, byteOf r.queue.length] ++ be16 r.dropped) ∧
      reportContent (.subState r.id r.uid) s =
        some [byteOf r.id, subStateCode r.state, faultReasonCode r.faultReason]) ∧
    (∀ l, ∀ n ∈ (s.line l).nodes, ((s.line l).nodes.map (·.address)).Nodup →
      reportContent (.nodeState l n.address n.uid) s =
        some ([lineCode l, byteOf n.address, nodeStateCode n.state, byteOf n.failures] ++
          match n.profile with
          | none => [0, 0, 0, 0]
          | some p => [1, p.kind, byteOf p.channels, byteOf p.maxPayload])) ∧
    (∀ t ∈ s.txns, ∀ result, t.result = some result → (s.txns.map (·.reference)).Nodup →
      reportContent (.txnDone t.reference) s =
        some (be16 t.reference ++ [lineCode t.line, byteOf t.node, txnKindCode t.kind, resultCode result,
          lastVerdictCode t.lastVerdict, byteOf t.attempts, refuseReasonCode t.refuseReason,
          byteOf (t.reply.getD []).length] ++ t.reply.getD [])) ∧
    ∀ l, reportContent (.lineState l) s =
      some [lineCode l, lineStateCode (s.line l).lineState, causeCode (s.line l).cause]

/-! ### The request processor -/

/-- The checks of R146 ahead of execution: a message other than HELLO is answered NOT_ATTACHED in DETACHED; a
request already answered is answered again from the cache and counted; a request of another length than R177
gives its kind is answered BAD_LENGTH; a kind the part does not know is answered UNKNOWN_KIND. None is
executed. -/
def Obligations.ChecksAnswerWithoutExecution : Prop :=
  (∀ (c : Instr) (s : State) (m : Message) (rest : List Message),
     s.resetHeld = false → s.link.inbox = m :: rest → s.link.responses.length ≤ 4 →
     (requestKindOf c = some m.kind ∨ (c = .unknownRequest ∧ m.kind ∉ requestKinds)) →
     (s.link.linkState = .detached → m.kind ≠ 0x10 →
       exec c s = .next (outbound { s with link := { s.link with
         inbox := rest, responses := s.link.responses ++ [⟨responseKind m.kind, m.tag, [10]⟩] } })) ∧
     (∀ older e newer, s.link.linkState = .attached ∨ m.kind = 0x10 → m.tag ≠ 0 →
       s.link.cache = older ++ e :: newer → e.tag = m.tag → e.kind = m.kind →
       (∀ x ∈ older, x.tag ≠ m.tag) →
       exec c s = .next (outbound { s with link := { s.link with
         inbox := rest, responses := s.link.responses ++ [e.response]
         counters := { s.link.counters with duplicates := satInc s.link.counters.duplicates } } })) ∧
     (Ready s m rest → requestKindOf c = some m.kind → lengthAllowed m.kind m.payload = false →
       exec c s = .next (outbound { s with link := { s.link with
         inbox := rest, responses := s.link.responses ++ [⟨m.kind + 0x80, m.tag, [1]⟩] } })) ∧
     (Ready s m rest → c = .unknownRequest →
       exec c s = .next (outbound { s with link := { s.link with
         inbox := rest, responses := s.link.responses ++ [⟨0xFF, m.tag, [3]⟩] } }))) ∧
  (∀ p : List Byte,
     (lengthAllowed 0x10 p = true ↔ p.length = 3) ∧ (lengthAllowed 0x11 p = true ↔ p.length = 0) ∧
     (lengthAllowed 0x20 p = true ↔ p.length = 10) ∧ (lengthAllowed 0x21 p = true ↔ p.length = 1) ∧
     (lengthAllowed 0x22 p = true ↔ p.length = 2) ∧ (lengthAllowed 0x23 p = true ↔ p.length = 1) ∧
     (lengthAllowed 0x24 p = true ↔ p.length = 1) ∧ (lengthAllowed 0x30 p = true ↔ p.length = 2) ∧
     (lengthAllowed 0x31 p = true ↔ p.length = 2) ∧ (lengthAllowed 0x32 p = true ↔ p.length = 2) ∧
     (lengthAllowed 0x40 p = true ↔ p.length = 8) ∧ (lengthAllowed 0x41 p = true ↔ p.length = 1) ∧
     (lengthAllowed 0x42 p = true ↔ p.length = 2) ∧ (lengthAllowed 0x43 p = true ↔ p.length = 1) ∧
     (lengthAllowed 0x50 p = true ↔ 8 ≤ p.length ∧ p.length = 8 + (p.getD 7 0).toNat) ∧
     (lengthAllowed 0x51 p = true ↔ p.length = 2) ∧ (lengthAllowed 0x60 p = true ↔ p.length = 4))

/-- The end of an executed request: its response joins the response queue, and with a tag other than 0 it
enters the cache as the newest entry, in place of the entry of the same tag, or else of the oldest of 8.
Nothing else changes. -/
def Obligations.ExecutedRequestIsAnsweredAndCached : Prop :=
  ∀ (m : Message) (content : List Byte) (s : State), m.kind ∈ requestKinds →
    ∃ cache, completeRequest m (s, content) = { s with link := { s.link with
        responses := s.link.responses ++ [⟨m.kind + 0x80, m.tag, content⟩], cache := cache } } ∧
      (m.tag = 0 → cache = s.link.cache) ∧
      (m.tag ≠ 0 → (s.link.cache.map (·.tag)).Nodup →
        (∀ older e newer, s.link.cache = older ++ e :: newer → e.tag = m.tag →
          s.link.cache.length ≤ 8 →
          cache = older ++ newer ++ [⟨m.tag, m.kind, ⟨m.kind + 0x80, m.tag, content⟩⟩]) ∧
        (∀ oldest newer, s.link.cache = oldest :: newer → newer.length = 7 →
          (∀ e ∈ s.link.cache, e.tag ≠ m.tag) →
          cache = newer ++ [⟨m.tag, m.kind, ⟨m.kind + 0x80, m.tag, content⟩⟩]) ∧
        (s.link.cache.length < 8 → (∀ e ∈ s.link.cache, e.tag ≠ m.tag) →
          cache = s.link.cache ++ [⟨m.tag, m.kind, ⟨m.kind + 0x80, m.tag, content⟩⟩]))

/-! ### HELLO and RESTART -/

/-- HELLO with a timeout of 10..1000 ms attaches the link. The window is handed back (R169): each request that its
table settles stands once ahead of the queue, in window order, a repeated owner at the place of its older snapshot,
and its owner is told; the sequence and timeout are the host's; the cache is cleared. Another timeout is answered
BAD_FIELD and clears nothing; that this answer enters the cache like every other is the model's (DEDUCED, log 17). -/
def Obligations.HelloAttachesTheLink : Prop :=
  ∀ (s : State) (m : Message) (rest : List Message) (start high low : Byte), Ready s m rest → m.kind = 0x10 →
    m.payload = [start, high, low] →
    (10 ≤ (high ++ low).toNat → (high ++ low).toNat ≤ 1000 → (s.subs.map (·.id)).Nodup →
      ∃ settled t, settled.Nodup ∧ List.Sublist settled (s.delivery.window.map (·.request)) ∧
        (∀ r, r ∈ settled ↔ (∃ x ∈ s.delivery.window, x.request = r) ∧
          match r with
          | .txnDone _ | .lineState _ => True
          | .nodeState l address uid => ∃ n ∈ (s.line l).nodes, n.address = address ∧ n.uid = uid
          | .subState id uid => ∃ q ∈ s.subs, q.id = id ∧ q.uid = uid ∧ q.state ≠ .closing
          | .sampleReady id uid =>
            ∃ q ∈ s.subs, q.id = id ∧ q.uid = uid ∧ q.state ≠ .closing ∧ q.notice ≠ .none) ∧
        settled.Pairwise (fun p q => (s.delivery.window.map (·.request)).idxOf p <
          (s.delivery.window.map (·.request)).idxOf q) ∧
        exec .hello s = .next (outbound (completeRequest m (t, 0 :: [0x44, 0x06, 0x08, 1, 2, 30, 48, 8, 96, 16, 8,
          24, 4, 4, 6, 8, 240, 12, 6, 12]))) ∧
        t = { s with
          link := { s.link with inbox := rest, linkState := .attached, cache := [] }
          delivery := {
            queue := settled ++ s.delivery.queue.filter fun r => r ∉ settled
            window := [], nextSequence := start, ackTimer := .stopped, timeoutCount := 0
            ackTimeout := (high ++ low).toNat, resendRunDue := false }
          subs := s.subs.map fun r =>
            if .sampleReady r.id r.uid ∈ settled ∧ r.notice = .sent then { r with notice := .queued } else r
          txns := s.txns.map fun x =>
            if .txnDone x.reference ∈ settled ∧ x.state = .reported then { x with state := .done } else x }) ∧
    ((high ++ low).toNat < 10 ∨ 1000 < (high ++ low).toNat →
      exec .hello s = .next (outbound (completeRequest m (headTaken s rest, [2]))))

/-- RESTART: both lines, the subscriptions, the pool, the transactions and Report Delivery at their starting values;
the line counters, the next sequence number, the acknowledgement timeout, the link's state and counters, and the clock
kept. An idle port stays as it is; a frame being sent is cut after the character under way, whose echo is no longer
checked (R41, R138, log 25); a break being sent ends and releases the driver (R133), with the input low as the first
low sample (DEDUCED, log 32). The attempt number 1 of the engine is the model's choice (log 6). Which character is
under way is said by the sample periods of the two lines that the command carries (log 2). -/
def Obligations.RestartReturnsToTheStart : Prop :=
  ∀ (periodsA periodsB : Periods) (s u : State) (m : Message) (rest : List Message), Ready s m rest →
    u = playPeriods .b periodsB (playPeriods .a periodsA s) → m.kind = 0x11 → m.payload = [] →
    ∃ t, exec (.restart periodsA periodsB) s = .next (outbound (completeRequest m (t, [0]))) ∧
      t = { s with
        lineA := t.lineA, lineB := t.lineB, subs := [], freeBlocks := 96, txns := []
        link := { s.link with inbox := rest, cache := [] }
        delivery := { s.delivery with
          queue := [], window := [], ackTimer := .stopped, timeoutCount := 0, resendRunDue := false } } ∧
      ∀ l, t.line l = { Line.initial with counters := (u.line l).counters, port := (t.line l).port } ∧
        ((u.line l).port.tx = .idle → (t.line l).port = (u.line l).port) ∧
        (∀ chars position, (u.line l).port.tx = .frame chars position false →
          (t.line l).port = { (u.line l).port with
            tx := .frame (chars.take (position / 176 + 1)) position true, echo := .none }) ∧
        (∀ chars position, (u.line l).port.tx = .frame chars position true →
          (t.line l).port = (u.line l).port) ∧
        (∀ jam left, (u.line l).port.tx = .sendingBreak jam left →
          (t.line l).port = releasedPort (u.line l).port)

/-! ### The requests of Line Control -/

/-- LINE_SET in STOPPED: the record is replaced, and the SUSPECT nodes whose failure count is not below the new
threshold enter PENDING. A value outside R112 is answered BAD_FIELD, a line not STOPPED WRONG_STATE, and no
such line BAD_FIELD. The record is read exactly from the values of R112, by the fields of R177. -/
def Obligations.LineSetReplacesTheRecord : Prop :=
  (∀ (s : State) (m : Message) (rest : List Message) (l : LineId), Ready s m rest → m.kind = 0x20 →
     m.payload.length = 10 →
     (m.payload.head? = some (lineCode l) → (s.line l).lineState = .stopped →
       (∀ c, configOf m.payload = some c → ((s.line l).nodes.map (·.address)).Nodup →
         ∃ t, exec .lineSet s = .next (outbound (completeRequest m (t, [0]))) ∧
           EnteredPending l (fun n => n.state == .suspect && decide (c.failureThreshold ≤ n.failures))
             ((headTaken s rest).modifyLine l fun x => { x with config := c }) t) ∧
       (configOf m.payload = none → exec .lineSet s = .next (outbound (completeRequest m (headTaken s rest, [2]))))) ∧
     (m.payload.head? = some (lineCode l) → (s.line l).lineState ≠ .stopped →
       exec .lineSet s = .next (outbound (completeRequest m (headTaken s rest, [4])))) ∧
     ((∀ k, m.payload.head? ≠ some (lineCode k)) →
       exec .lineSet s = .next (outbound (completeRequest m (headTaken s rest, [2]))))) ∧
  (∀ (line rate window retries threshold high low allowance holdoff flags : Byte) (c : LineConfig),
     configOf [line, rate, window, retries, threshold, high, low, allowance, holdoff, flags] = some c ↔
       rate = bitRateCode c.bitRate ∧ c.responseWindow = window.toNat ∧ 2 ≤ window.toNat ∧
       c.retryLimit = retries.toNat ∧ retries.toNat ≤ 3 ∧
       c.failureThreshold = threshold.toNat ∧ 1 ≤ threshold.toNat ∧ threshold.toNat ≤ 15 ∧
       c.roundPeriod = 256 * high.toNat + low.toNat ∧ 2 ≤ c.roundPeriod ∧ c.roundPeriod ≤ 5000 ∧
       c.allowance = allowance.toNat ∧ allowance.toNat ≤ 8 ∧ c.holdoff = holdoff.toNat ∧ 1 ≤ holdoff.toNat ∧
       flags = byteOf ((if c.echoCheck then 1 else 0) + if c.roundBroadcast then 2 else 0))

/-- LINE_START in STOPPED: RUNNING by request, every node PENDING, then a round start; with a stuck input and
the engine IDLE the line goes to FAULT at once. In another state WRONG_STATE; a line that is not 0 or 1 BAD_FIELD
(R147). -/
def Obligations.LineStartEntersRunning : Prop :=
  (∀ (s : State) (m : Message) (rest : List Message) (line : Byte), Ready s m rest → m.kind = 0x21 →
    m.payload = [line] → 1 < line.toNat →
    exec .lineStart s = .next (outbound (completeRequest m (headTaken s rest, [2])))) ∧
  ∀ (s : State) (m : Message) (rest : List Message) (l : LineId), Ready s m rest → m.kind = 0x21 →
    m.payload = [lineCode l] →
    ((s.line l).lineState = .stopped → ((s.line l).nodes.map (·.address)).Nodup →
      ∃ u ids t, exec .lineStart s = .next (outbound (completeRequest m (t, [0]))) ∧
        EnteredPending l (fun n => n.state != .pending)
          ({ headTaken s rest with delivery := { s.delivery with
              queue := joined s.delivery.queue (.lineState l) } }.modifyLine l fun x =>
            { x with lineState := .running, cause := .request }) u ∧
        PollListFor u l ((u.line l).sched.roundNumber + 1) ids ∧
        t = u.modifyLine l fun x => { x with
          counters := { x.counters with rounds := satInc x.counters.rounds }
          lineState := if x.port.stuck ∧ x.engine.state = .idle then .fault else .running
          cause := if x.port.stuck ∧ x.engine.state = .idle then .stuck else .request
          holdoffTimer := if x.port.stuck ∧ x.engine.state = .idle then .stopped else x.holdoffTimer
          sched := { x.sched with
            roundNumber := x.sched.roundNumber + 1, pollList := ids, broadcastSent := false
            probeDone := false, allowanceUsed := 0, alternation := .none, contentionCount := 0
            roundTimer := if x.port.stuck ∧ x.engine.state = .idle then .stopped
              else .running x.config.roundPeriod } }) ∧
    ((s.line l).lineState ≠ .stopped →
      exec .lineStart s = .next (outbound (completeRequest m (headTaken s rest, [4]))))

/-- LINE_STOP by the line's state, after the purge its flag asks for: STOPPED stays; RUNNING with nothing in flight,
and HOLDOFF and FAULT without a jam break, stop at once; otherwise the line enters STOPPING, which keeps the flag;
STOPPING only adds the flag. A line that is not 0 or 1 is answered BAD_FIELD (R147). The order of the reports, the
purge's TXN_DONE ahead of LINE_STATE, is the model's (DEDUCED, log 9), and so is that entry to STOPPING stops the
holdoff and the idle wait (log 27). -/
def Obligations.LineStopByState : Prop :=
  (∀ (s : State) (m : Message) (rest : List Message) (line flag : Byte), Ready s m rest → m.kind = 0x22 →
    m.payload = [line, flag] → 1 < line.toNat →
    exec .lineStop s = .next (outbound (completeRequest m (headTaken s rest, [2])))) ∧
  ∀ (s : State) (m : Message) (rest : List Message) (l : LineId) (flag : Byte), Ready s m rest →
    m.kind = 0x22 → m.payload = [lineCode l, flag] →
    ∃ u, u = (if flag = 0 then headTaken s rest else purged l (headTaken s rest)) ∧
      ((s.line l).lineState = .stopped →
        exec .lineStop s = .next (outbound (completeRequest m (u, [0])))) ∧
      ((s.line l).purgePending = false →
        ((s.line l).lineState = .running ∧ (s.line l).engine.state = .idle ∨
          (s.line l).lineState = .holdoff ∨ (s.line l).lineState = .fault) →
        (∀ jam left, (s.line l).port.tx ≠ .sendingBreak jam left) →
        exec .lineStop s = .next (outbound (completeRequest m
          ({ u with delivery := { u.delivery with
              queue := joined u.delivery.queue (.lineState l) } }.modifyLine l fun x => { x with
            lineState := .stopped, cause := .request, holdoffTimer := .stopped, idleWait := .stopped
            sched := { x.sched with roundTimer := .stopped, pollList := [], resyncRequest := false } },
            [0])))) ∧
      (((s.line l).lineState = .running ∧ (s.line l).engine.state ≠ .idle ∨
          ((s.line l).lineState = .running ∨ (s.line l).lineState = .holdoff ∨ (s.line l).lineState = .fault) ∧
            ∃ jam left, (s.line l).port.tx = .sendingBreak jam left) →
        exec .lineStop s = .next (outbound (completeRequest m
          ({ u with delivery := { u.delivery with
              queue := joined u.delivery.queue (.lineState l) } }.modifyLine l fun x => { x with
            lineState := .stopping, cause := .request, purgePending := flag != 0
            holdoffTimer := .stopped, idleWait := .stopped }, [0])))) ∧
      ((s.line l).lineState = .stopping →
        exec .lineStop s = .next (outbound (completeRequest m
          (u.modifyLine l fun x => { x with purgePending := x.purgePending || flag != 0 }, [0]))))

/-- LINE_RESYNC: in RUNNING and HOLDOFF the resync request is pending, whether or not it was; in STOPPED, FAULT
and STOPPING WRONG_STATE; no such line BAD_FIELD. Neither the line state nor the report queue changes. -/
def Obligations.LineResyncSetsTheRequest : Prop :=
  ∀ (s : State) (m : Message) (rest : List Message), Ready s m rest → m.kind = 0x23 →
    m.payload.length = 1 →
    (∀ l, m.payload = [lineCode l] → ((s.line l).lineState = .running ∨ (s.line l).lineState = .holdoff) →
      exec .lineResync s = .next (outbound (completeRequest m
        ((headTaken s rest).modifyLine l fun x => { x with sched := { x.sched with resyncRequest := true } },
          [0])))) ∧
    (∀ l, m.payload = [lineCode l] →
      ((s.line l).lineState = .stopped ∨ (s.line l).lineState = .fault ∨ (s.line l).lineState = .stopping) →
      exec .lineResync s = .next (outbound (completeRequest m (headTaken s rest, [4])))) ∧
    ((∀ l, m.payload ≠ [lineCode l]) →
      exec .lineResync s = .next (outbound (completeRequest m (headTaken s rest, [2]))))

/-- LINE_QUERY, NODE_QUERY and SUB_QUERY answer the line or record as it stands and change nothing; without a record
NOT_FOUND. A line that is not 0 or 1 (R147), and an address outside 1..30, are answered BAD_FIELD. -/
def Obligations.QueriesReadTheRecord : Prop :=
  (∀ (s : State) (m : Message) (rest : List Message) (line address : Byte), Ready s m rest →
     (m.kind = 0x24 → m.payload = [line] → 1 < line.toNat →
       exec .lineQuery s = .next (outbound (completeRequest m (headTaken s rest, [2])))) ∧
     (m.kind = 0x32 → m.payload = [line, address] →
       (1 < line.toNat ∨ address.toNat = 0 ∨ 30 < address.toNat) →
       exec .nodeQuery s = .next (outbound (completeRequest m (headTaken s rest, [2]))))) ∧
  (∀ (s : State) (m : Message) (rest : List Message) (l : LineId), Ready s m rest → m.kind = 0x24 →
     m.payload = [lineCode l] →
     exec .lineQuery s = .next (outbound (completeRequest m (headTaken s rest,
       [0, lineCode l, lineStateCode (s.line l).lineState, causeCode (s.line l).cause]
         ++ be16 (s.line l).sched.roundNumber ++ [byteOf (s.line l).sched.contentionCount,
           byteOf ((if (s.line l).sched.resyncRequest then 1 else 0)
             + (if (s.line l).purgePending then 2 else 0)
             + if s.txns.any fun t => t.line == l && t.state == .inFlight then 4 else 0),
           byteOf (s.line l).txnQueue.length,
           byteOf ((s.line l).nodes.filter fun n => n.state == .pending).length,
           byteOf ((s.line l).nodes.filter fun n => n.state == .online).length,
           byteOf ((s.line l).nodes.filter fun n => n.state == .suspect).length,
           byteOf ((s.line l).nodes.filter fun n => n.state == .lost).length,
           bitRateCode (s.line l).config.bitRate, byteOf (s.line l).config.responseWindow,
           byteOf (s.line l).config.retryLimit, byteOf (s.line l).config.failureThreshold]
         ++ be16 (BitVec.ofNat 16 (s.line l).config.roundPeriod)
         ++ [byteOf (s.line l).config.allowance, byteOf (s.line l).config.holdoff,
           byteOf ((if (s.line l).config.echoCheck then 1 else 0)
             + if (s.line l).config.roundBroadcast then 2 else 0)])))) ∧
  (∀ (s : State) (m : Message) (rest : List Message), Ready s m rest →
     (∀ l address, m.kind = 0x32 → m.payload = [lineCode l, byteOf address] → 1 ≤ address → address ≤ 30 →
       ((∀ n ∈ (s.line l).nodes, n.address ≠ address) →
         exec .nodeQuery s = .next (outbound (completeRequest m (headTaken s rest, [5])))) ∧
       (∀ n ∈ (s.line l).nodes, n.address = address → ((s.line l).nodes.map (·.address)).Nodup →
         exec .nodeQuery s = .next (outbound (completeRequest m (headTaken s rest,
           [0, lineCode l, byteOf n.address, nodeStateCode n.state, byteOf n.failures,
             (if n.toggle then 1 else 0),
             byteOf ((if n.profile.isSome then 1 else 0) + if n.lastVerdict.isSome then 2 else 0)]
           ++ (match n.profile with
             | none => [0, 0, 0]
             | some p => [p.kind, byteOf p.channels, byteOf p.maxPayload])
           ++ [match n.lastVerdict with
             | none => 0xFF
             | some v => verdictCode v]
           ++ be16 (n.lastRound.getD 0)
           ++ [byteOf (s.subs.filter fun r => r.line == l && r.node == address).length,
             byteOf (s.txns.filter fun t => t.line == l && t.node == address).length]))))) ∧
     (∀ id : Byte, m.kind = 0x43 → m.payload = [id] →
       ((∀ r ∈ s.subs, r.id ≠ id.toNat) →
         exec .subQuery s = .next (outbound (completeRequest m (headTaken s rest, [5])))) ∧
       (∀ r ∈ s.subs, r.id = id.toNat → (s.subs.map (·.id)).Nodup →
         exec .subQuery s = .next (outbound (completeRequest m (headTaken s rest,
           [0, byteOf r.id, lineCode r.line, byteOf r.node, byteOf r.channel, subKindCode r.kind,
             byteOf r.period, byteOf r.depth, policyCode r.policy, byteOf r.maxLength, subStateCode r.state,
             faultReasonCode r.faultReason,
             (match r.phase with
               | none => 0xFF
               | some p => byteOf p),
             (if r.pollInFlight then 1 else 0), byteOf r.queue.length]
           ++ be16 r.nextSequence ++ be16 r.dropped ++ be16 r.refusals ++ [noticeCode r.notice]))))))

/-! ### The requests of the Node Table, and STATS_READ -/

/-- NODE_ADD: a PENDING record with nothing known of the node and counters 0 joins the table; an address that
has a record is answered EXISTS; an address outside 1..30, or a line that is not 0 or 1 (R147), BAD_FIELD. -/
def Obligations.NodeAddCreatesAPendingRecord : Prop :=
  (∀ (s : State) (m : Message) (rest : List Message) (line address : Byte), Ready s m rest → m.kind = 0x30 →
    m.payload = [line, address] → 1 < line.toNat →
    exec .nodeAdd s = .next (outbound (completeRequest m (headTaken s rest, [2])))) ∧
  ∀ (s : State) (m : Message) (rest : List Message) (l : LineId) (address : Byte), Ready s m rest →
    m.kind = 0x30 → m.payload = [lineCode l, address] →
    (1 ≤ address.toNat → address.toNat ≤ 30 → (∀ n ∈ (s.line l).nodes, n.address ≠ address.toNat) →
      ∃ nodes, exec .nodeAdd s = .next (outbound (completeRequest m
          ({ (headTaken s rest).modifyLine l (fun x => { x with nodes := nodes }) with
            nextUid := s.nextUid + 1 }, [0]))) ∧
        nodes.Perm ({ address := address.toNat, uid := s.nextUid, state := .pending, failures := 0
                      toggle := false, profile := none, lastVerdict := none, lastRound := none
                      counters := NodeCounters.zero } :: (s.line l).nodes) ∧
        ((s.line l).nodes.Pairwise (fun p q => p.address < q.address) →
          nodes.Pairwise fun p q => p.address < q.address)) ∧
    (1 ≤ address.toNat → address.toNat ≤ 30 → (∃ n ∈ (s.line l).nodes, n.address = address.toNat) →
      exec .nodeAdd s = .next (outbound (completeRequest m (headTaken s rest, [6])))) ∧
    (address.toNat = 0 ∨ 30 < address.toNat →
      exec .nodeAdd s = .next (outbound (completeRequest m (headTaken s rest, [2]))))

/-- NODE_REMOVE: a record that no subscription and no transaction names goes, with its NODE_STATE request;
one that is named is answered IN_USE, an address without a record NOT_FOUND; an address outside 1..30, or a line that
is not 0 or 1 (R147), BAD_FIELD. -/
def Obligations.NodeRemoveFreesAnUnusedRecord : Prop :=
  (∀ (s : State) (m : Message) (rest : List Message) (line address : Byte), Ready s m rest → m.kind = 0x31 →
    m.payload = [line, address] → (1 < line.toNat ∨ address.toNat = 0 ∨ 30 < address.toNat) →
    exec .nodeRemove s = .next (outbound (completeRequest m (headTaken s rest, [2])))) ∧
  ∀ (s : State) (m : Message) (rest : List Message) (l : LineId) (address : Byte), Ready s m rest →
    m.kind = 0x31 → m.payload = [lineCode l, address] → 1 ≤ address.toNat → address.toNat ≤ 30 →
    ((s.line l).nodes.map (·.address)).Nodup →
    ((∀ n ∈ (s.line l).nodes, n.address ≠ address.toNat) →
      exec .nodeRemove s = .next (outbound (completeRequest m (headTaken s rest, [5])))) ∧
    (∀ n ∈ (s.line l).nodes, n.address = address.toNat →
      ((∃ r ∈ s.subs, r.line = l ∧ r.node = n.address) ∨ (∃ t ∈ s.txns, t.line = l ∧ t.node = n.address) →
        exec .nodeRemove s = .next (outbound (completeRequest m (headTaken s rest, [8])))) ∧
      ((∀ r ∈ s.subs, ¬(r.line = l ∧ r.node = n.address)) →
        (∀ t ∈ s.txns, ¬(t.line = l ∧ t.node = n.address)) →
        exec .nodeRemove s = .next (outbound (completeRequest m
          ({ headTaken s rest with delivery := { s.delivery with
              queue := s.delivery.queue.filter fun r => r ≠ ReportRequest.nodeState l n.address n.uid } }.modifyLine l
            fun x => { x with nodes := x.nodes.filter fun k => k ≠ n }, [0])))))

/-- STATS_READ answers the counters of its scope as they stand and, where asked, sets them to 0 in the same step;
a node without a record is answered NOT_FOUND. A scope above 2 or a clear flag above 1 (check 1 of R174), and where the
scope reads them a line that is not 0 or 1 or an address outside 1..30 (check 2), are answered BAD_FIELD. -/
def Obligations.StatsReadReturnsAndClears : Prop :=
  (∀ (s : State) (m : Message) (rest : List Message) (scope line address clear : Byte), Ready s m rest →
    m.kind = 0x60 → m.payload = [scope, line, address, clear] →
    (2 < scope.toNat ∨ 1 < clear.toNat ∨ scope.toNat ≤ 1 ∧ 1 < line.toNat ∨
      scope.toNat = 1 ∧ (address.toNat = 0 ∨ 30 < address.toNat)) →
    exec .statsRead s = .next (outbound (completeRequest m (headTaken s rest, [2])))) ∧
  ∀ (s : State) (m : Message) (rest : List Message) (l : LineId) (address clear : Byte), Ready s m rest →
    m.kind = 0x60 → clear = 0 ∨ clear = 1 →
    (m.payload = [0, lineCode l, address, clear] →
      exec .statsRead s = .next (outbound (completeRequest m
        ((headTaken s rest).modifyLine l (fun x =>
          { x with counters := if clear = 1 then LineCounters.zero else x.counters }),
        [0, 0, lineCode l, 0] ++ [(s.line l).counters.rounds, (s.line l).counters.overruns,
          (s.line l).counters.exchanges, (s.line l).counters.retries, (s.line l).counters.timeouts,
          (s.line l).counters.crcErrors, (s.line l).counters.framingErrors, (s.line l).counters.gapErrors,
          (s.line l).counters.noiseFlags, (s.line l).counters.contentions, (s.line l).counters.breaksSeen,
          (s.line l).counters.strays].flatMap be16)))) ∧
    (m.payload = [1, lineCode l, address, clear] → 1 ≤ address.toNat → address.toNat ≤ 30 →
      ((∀ n ∈ (s.line l).nodes, n.address ≠ address.toNat) →
        exec .statsRead s = .next (outbound (completeRequest m (headTaken s rest, [5])))) ∧
      (∀ n ∈ (s.line l).nodes, n.address = address.toNat → ((s.line l).nodes.map (·.address)).Nodup →
        exec .statsRead s = .next (outbound (completeRequest m
          ((headTaken s rest).modifyLine l (fun x => { x with nodes := x.nodes.map fun k =>
            if k = n ∧ clear = 1 then { k with counters := NodeCounters.zero } else k }),
          [0, 1, lineCode l, address] ++ [n.counters.good, n.counters.failed, n.counters.retries,
            n.counters.refusals, n.counters.losses, n.counters.noisy].flatMap be16))))) ∧
    (∀ line, m.payload = [2, line, address, clear] →
      exec .statsRead s = .next (outbound (completeRequest m
        ({ headTaken s rest with link := { s.link with
            inbox := rest, counters := if clear = 1 then LinkCounters.zero else s.link.counters } },
        [0, 2, 0, 0] ++ [s.link.counters.received, s.link.counters.crcErrors, s.link.counters.gapDiscards,
          s.link.counters.framingErrors, s.link.counters.lengthErrors, s.link.counters.busy,
          s.link.counters.dropped, s.link.counters.duplicates, s.link.counters.reportsSent,
          s.link.counters.reportsResent, s.link.counters.strayAcks, s.link.counters.detaches].flatMap be16))))

/-! ### The requests of the Subscription Table, the Sample Store and the Transaction Queues -/

/-- SUB_OPEN with every field in its range: a node without a record NOT_FOUND; a channel or length outside a
present profile BAD_FIELD; a channel that has an open subscription EXISTS; no free id or no spare block NO_ROOM;
otherwise the record takes the lowest free id, ACTIVE with the next round due if its node is in service and
WAITING if not. With a field outside its range BAD_FIELD. -/
def Obligations.SubOpenCreatesTheSubscription : Prop :=
  (∀ (s : State) (m : Message) (rest : List Message) (l : LineId) (kind : SubKind) (policy : OverflowPolicy)
     (node channel period depth maxLength : Nat), Ready s m rest → m.kind = 0x40 →
     m.payload = [lineCode l, byteOf node, byteOf channel, subKindCode kind, byteOf period, byteOf depth,
       policyCode policy, byteOf maxLength] →
     1 ≤ node → node ≤ 30 → channel ≤ 7 → 1 ≤ period → period ≤ 64 → 1 ≤ depth → depth ≤ 8 →
     maxLength ≤ 24 →
     ((∀ n ∈ (s.line l).nodes, n.address ≠ node) →
       exec .subOpen s = .next (outbound (completeRequest m (headTaken s rest, [5])))) ∧
     ∀ n ∈ (s.line l).nodes, n.address = node → ((s.line l).nodes.map (·.address)).Nodup →
       (∀ p, n.profile = some p → p.channels ≤ channel ∨ p.maxPayload < maxLength →
         exec .subOpen s = .next (outbound (completeRequest m (headTaken s rest, [2])))) ∧
       ((∀ p, n.profile = some p → channel < p.channels ∧ maxLength ≤ p.maxPayload) →
         ((∃ r ∈ s.subs, r.state ≠ .closing ∧ r.line = l ∧ r.node = node ∧ r.channel = channel) →
           exec .subOpen s = .next (outbound (completeRequest m (headTaken s rest, [6])))) ∧
         ((∀ r ∈ s.subs, ¬(r.state ≠ .closing ∧ r.line = l ∧ r.node = node ∧ r.channel = channel)) →
           ((∀ id, 1 ≤ id → id ≤ 48 → ∃ r ∈ s.subs, r.id = id) ∨
               s.freeBlocks ≤ (s.subs.filter fun r => r.state != .closing && r.queue == []).length →
             exec .subOpen s = .next (outbound (completeRequest m (headTaken s rest, [7])))) ∧
           (∀ id, 1 ≤ id → id ≤ 48 → (∀ r ∈ s.subs, r.id ≠ id) →
             (∀ k, 1 ≤ k → k < id → ∃ r ∈ s.subs, r.id = k) →
             (s.subs.filter fun r => r.state != .closing && r.queue == []).length < s.freeBlocks →
             ∃ subs, exec .subOpen s = .next (outbound (completeRequest m
                 ({ headTaken s rest with subs := subs, nextUid := s.nextUid + 1 }, [0, byteOf id]))) ∧
               subs.Perm
                 ({ id := id, uid := s.nextUid, line := l, node := node, channel := channel, kind := kind
                    period := period, depth := depth, policy := policy, maxLength := maxLength
                    state := if n.state = .online ∨ n.state = .suspect then .active else .waiting
                    faultReason := none
                    phase := if n.state = .online ∨ n.state = .suspect then
                      some (((s.line l).sched.roundNumber + 1).toNat % period) else none
                    pollInFlight := false
                    resumed := n.state == .online || n.state == .suspect
                    referencePayload := none, refusals := 0, queue := [], nextSequence := 0, dropped := 0
                    notice := .none } :: s.subs))))) ∧
  (∀ (s : State) (m : Message) (rest : List Message)
     (line node channel kind period depth policy maxLength : Byte), Ready s m rest → m.kind = 0x40 →
     m.payload = [line, node, channel, kind, period, depth, policy, maxLength] →
     (1 < line.toNat ∨ node.toNat = 0 ∨ 30 < node.toNat ∨ 7 < channel.toNat ∨ 1 < kind.toNat ∨
       period.toNat = 0 ∨ 64 < period.toNat ∨ depth.toNat = 0 ∨ 8 < depth.toNat ∨ 1 < policy.toNat ∨
       24 < maxLength.toNat) →
     exec .subOpen s = .next (outbound (completeRequest m (headTaken s rest, [2]))))

/-- SUB_CLOSE: the samples' blocks are free, both reports of the record are withdrawn, its poll list entry goes,
and the record is freed, or CLOSING while its poll is in flight. A record that is not open is answered
NOT_FOUND. -/
def Obligations.SubCloseReleasesTheSubscription : Prop :=
  ∀ (s : State) (m : Message) (rest : List Message) (id : Byte), Ready s m rest → m.kind = 0x41 →
    m.payload = [id] → (s.subs.map (·.id)).Nodup →
    ((∀ r ∈ s.subs, r.id = id.toNat → r.state = .closing) →
      exec .subClose s = .next (outbound (completeRequest m (headTaken s rest, [5])))) ∧
    (∀ r ∈ s.subs, r.id = id.toNat → r.state ≠ .closing →
      exec .subClose s = .next (outbound (completeRequest m
        ({ headTaken s rest with
            freeBlocks := s.freeBlocks + r.queue.length
            subs := if r.pollInFlight then
                s.subs.map fun q => if q = r then
                  { q with state := .closing, faultReason := none, queue := [], notice := .none } else q
              else s.subs.filter fun q => q ≠ r
            delivery := { s.delivery with queue := s.delivery.queue.filter fun x =>
              x ≠ ReportRequest.sampleReady r.id r.uid ∧ x ≠ ReportRequest.subState r.id r.uid } }.modifyLine r.line
          fun x => { x with sched := { x.sched with
            pollList := x.sched.pollList.filter fun k => k ≠ r.id } }, [0]))))

/-- SUB_FETCH takes samples from the head of the queue, oldest first: as many as asked for, as there are, and as
fit in 232 bytes at 10 bytes and the payload each. Their blocks are free, and the notice is settled: NONE
with its entry withdrawn, or QUEUED again at the tail when samples are left. -/
def Obligations.SubFetchTakesTheOldestSamples : Prop :=
  ∀ (s : State) (m : Message) (rest : List Message) (id count : Byte), Ready s m rest → m.kind = 0x42 →
    m.payload = [id, count] → (s.subs.map (·.id)).Nodup →
    (count.toNat = 0 ∨ 8 < count.toNat →
      exec .subFetch s = .next (outbound (completeRequest m (headTaken s rest, [2])))) ∧
    (1 ≤ count.toNat → count.toNat ≤ 8 → (∀ r ∈ s.subs, r.id = id.toNat → r.state = .closing) →
      exec .subFetch s = .next (outbound (completeRequest m (headTaken s rest, [5])))) ∧
    (1 ≤ count.toNat → count.toNat ≤ 8 → ∀ r ∈ s.subs, r.id = id.toNat → r.state ≠ .closing →
      ∃ taken left, r.queue = taken ++ left ∧ taken.length ≤ count.toNat ∧
        (taken.map fun x => 10 + x.payload.length).sum ≤ 232 ∧
        (taken.length = count.toNat ∨ left = [] ∨
          ∃ x after, left = x :: after ∧ 232 < (taken.map fun x => 10 + x.payload.length).sum + (10 + x.payload.length)) ∧
        exec .subFetch s = .next (outbound (completeRequest m
          ({ headTaken s rest with
              freeBlocks := s.freeBlocks + taken.length
              subs := s.subs.map fun q => if q = r then
                { q with queue := left, notice := if left = [] then .none else .queued } else q
              delivery := { s.delivery with queue :=
                (if r.notice = .queued then
                  s.delivery.queue.filter fun x => x ≠ ReportRequest.sampleReady r.id r.uid
                else s.delivery.queue) |> fun queue =>
                  if left = [] then queue else joined queue (.sampleReady r.id r.uid) } },
          [0, byteOf r.id, byteOf taken.length, byteOf left.length] ++ be16 r.dropped
            ++ taken.flatMap fun x => be16 x.sequence ++ be16 x.round ++ be32 x.captureTime
              ++ [byteOf ((if x.resumed then 1 else 0) + if x.noisy then 2 else 0),
                byteOf x.payload.length] ++ x.payload))))

/-- TXN_SUBMIT. With a field outside its range BAD_FIELD: reference 0, a line, node, channel or kind out of range, a
READ of node 0, with a reply above 24 bytes or with data, a WRITE of more than 24 bytes. Of a READ or a WRITE with
every field in its range: a live reference EXISTS; a node without a record NOT_FOUND; a channel or length outside a
present profile BAD_FIELD; 16 records, or 8 of the line queued or in flight, NO_ROOM; otherwise the record joins the
table and the tail of its line's queue. Node 0 needs no record. -/
def Obligations.TxnSubmitQueuesTheRecord : Prop :=
  (∀ (s : State) (m : Message) (rest : List Message) (l : LineId) (reference : Word16) (node channel : Nat)
    (kind : TxnKind), Ready s m rest → m.kind = 0x50 → reference ≠ 0 → node ≤ 30 → channel ≤ 7 →
    (match kind with
      | .read maxReply => maxReply ≤ 24 ∧ 1 ≤ node ∧
          m.payload = be16 reference ++
            [lineCode l, byteOf node, byteOf channel, 0, byteOf maxReply, 0]
      | .write data => data.length ≤ 24 ∧ ∃ unread, m.payload = be16 reference ++
          [lineCode l, byteOf node, byteOf channel, 1, unread, byteOf data.length] ++ data) →
    ((∃ t ∈ s.txns, t.reference = reference) →
      exec .txnSubmit s = .next (outbound (completeRequest m (headTaken s rest, [6])))) ∧
    ((∀ t ∈ s.txns, t.reference ≠ reference) →
      (node ≠ 0 → (∀ n ∈ (s.line l).nodes, n.address ≠ node) →
        exec .txnSubmit s = .next (outbound (completeRequest m (headTaken s rest, [5])))) ∧
      (∀ n ∈ (s.line l).nodes, n.address = node → node ≠ 0 → ((s.line l).nodes.map (·.address)).Nodup →
        (∃ p, n.profile = some p ∧ (p.channels ≤ channel ∨ p.maxPayload < kindLength kind)) →
        exec .txnSubmit s = .next (outbound (completeRequest m (headTaken s rest, [2])))) ∧
      ((node = 0 ∨ ((s.line l).nodes.map (·.address)).Nodup ∧ ∃ n ∈ (s.line l).nodes, n.address = node ∧
          ∀ p, n.profile = some p → channel < p.channels ∧ kindLength kind ≤ p.maxPayload) →
        (16 ≤ s.txns.length ∨ 8 ≤ (s.line l).txnQueue.length +
            (s.txns.filter fun t => t.line == l && t.state == .inFlight).length →
          exec .txnSubmit s = .next (outbound (completeRequest m (headTaken s rest, [7])))) ∧
        (s.txns.length < 16 → (s.line l).txnQueue.length +
            (s.txns.filter fun t => t.line == l && t.state == .inFlight).length < 8 →
          exec .txnSubmit s = .next (outbound (completeRequest m
            ({ headTaken s rest with txns := s.txns ++
                [TxnRecord.mk reference l node channel kind .queued 0 0 none none none none] }.modifyLine l
              fun x => { x with txnQueue := x.txnQueue ++ [reference] }, [0]))))))) ∧
  (∀ (s : State) (m : Message) (rest : List Message) (high low line node channel kind reply : Byte)
     (data : List Byte), Ready s m rest → m.kind = 0x50 → data.length ≤ 230 →
     m.payload = [high, low, line, node, channel, kind, reply, byteOf data.length] ++ data →
     ((high ++ low).toNat = 0 ∨ 1 < line.toNat ∨ 30 < node.toNat ∨ 7 < channel.toNat ∨ 1 < kind.toNat ∨
       kind.toNat = 0 ∧ (node.toNat = 0 ∨ 24 < reply.toNat ∨ data ≠ []) ∨
       kind.toNat = 1 ∧ 24 < data.length) →
     exec .txnSubmit s = .next (outbound (completeRequest m (headTaken s rest, [2]))))

/-- TXN_CANCEL: a QUEUED record leaves its queue and completes CANCELLED, with its TXN_DONE request; one IN_FLIGHT,
DONE or REPORTED is answered TOO_LATE and unchanged; reference 0 BAD_FIELD; an unknown one NOT_FOUND. -/
def Obligations.TxnCancelByState : Prop :=
  ∀ (s : State) (m : Message) (rest : List Message) (reference : Word16), Ready s m rest → m.kind = 0x51 →
    m.payload = be16 reference →
    (reference = 0 → exec .txnCancel s = .next (outbound (completeRequest m (headTaken s rest, [2])))) ∧
    (reference ≠ 0 → (∀ t ∈ s.txns, t.reference ≠ reference) →
      exec .txnCancel s = .next (outbound (completeRequest m (headTaken s rest, [5])))) ∧
    (∀ t ∈ s.txns, t.reference = reference → reference ≠ 0 → (s.txns.map (·.reference)).Nodup →
      (t.state ≠ .queued →
        exec .txnCancel s = .next (outbound (completeRequest m (headTaken s rest, [9])))) ∧
      (t.state = .queued →
        exec .txnCancel s = .next (outbound (completeRequest m
          ({ headTaken s rest with
              txns := s.txns.map fun x => if x = t then
                { x with
                  state := .done, result := some .cancelled, lastVerdict := none, refuseReason := none
                  reply := none } else x
              delivery := { s.delivery with
                queue := joined s.delivery.queue (.txnDone reference) } }.modifyLine t.line
            fun x => { x with txnQueue := x.txnQueue.filter fun r => r ≠ reference }, [0])))))

/-! ### The Round Scheduler and the line arbiter -/

/-- ROUND_TIMER_EXPIRY, once the timer's time is up: it takes the value expired, and an overrun is counted if the poll
list is not empty (R3). QUIET_END, once the gap of 2 character times is over: the quiet has passed (R12). ROUND_START:
in RUNNING with the round timer expired, the poll list empty and the engine IDLE (R4), the round number is
incremented, the round timer starts, the poll list is built (R10), the round's memories are cleared and the round is
counted (R5). That a command whose event cannot happen changes nothing (log 3), an expiry with time left on its timer
among them (log 4), is the model's choice. -/
def Obligations.SchedulerTimersExpire : Prop :=
  ∀ (l : LineId) (s : State), s.resetHeld = false →
    ((s.line l).sched.roundTimer = .running 0 →
      exec (.roundTimerExpiry l) s = .next (outbound (s.modifyLine l fun x => { x with
        sched := { x.sched with roundTimer := .expired }
        counters := { x.counters with overruns :=
          if x.sched.pollList = [] then x.counters.overruns else satInc x.counters.overruns } }))) ∧
    ((s.line l).sched.roundTimer ≠ .running 0 → exec (.roundTimerExpiry l) s = .next (outbound s)) ∧
    ((s.line l).sched.quiet = .running 0 →
      exec (.quietEnd l) s = .next (outbound (s.modifyLine l fun x =>
        { x with sched := { x.sched with quiet := .passed } }))) ∧
    ((s.line l).sched.quiet ≠ .running 0 → exec (.quietEnd l) s = .next (outbound s)) ∧
    ((s.line l).lineState = .running → (s.line l).sched.roundTimer = .expired →
      (s.line l).sched.pollList = [] → (s.line l).engine.state = .idle →
      ∃ ids, PollListFor s l ((s.line l).sched.roundNumber + 1) ids ∧
        exec (.roundStart l) s = .next (outbound (s.modifyLine l fun x => { x with
          counters := { x.counters with rounds := satInc x.counters.rounds }
          sched := { x.sched with
            roundNumber := x.sched.roundNumber + 1, roundTimer := .running x.config.roundPeriod
            pollList := ids, broadcastSent := false, probeDone := false, allowanceUsed := 0
            alternation := .none, contentionCount := 0 } }))) ∧
    ((s.line l).lineState ≠ .running ∨ (s.line l).sched.roundTimer ≠ .expired ∨
      (s.line l).sched.pollList ≠ [] ∨ (s.line l).engine.state ≠ .idle →
      exec (.roundStart l) s = .next (outbound s))

/-- ARBITER_CHOICE, first to third: a pending resync request gives a break order; then a configured round broadcast
not yet sent in the round; then, once a round, the probe of the first PENDING or LOST node after the probe pointer,
past 30 to 1. The choice is made after the sample periods the command carries (log 2). It is made only in RUNNING with
the engine IDLE and the quiet passed (R12), with no round start due (R4) and the transmitter idle (DEDUCED, log 11):
otherwise the command changes nothing, its periods included (the model's choice, log 3). That the sent toggle is 0 in an
exchange that is no addressed WRITE (log 31), and that the divider starts anew at a change of rate (log 1), is the
model's choice. -/
def Obligations.ArbiterSendsBreakBroadcastAndProbe : Prop :=
  ∀ (l : LineId) (periods : Periods) (s u : State), s.resetHeld = false → u = playPeriods l periods s →
    (¬ ArbiterFree (u.line l) → exec (.arbiterChoice l periods) s = .next (outbound s)) ∧
    (ArbiterFree (u.line l) → (u.line l).sched.resyncRequest = true →
      ∃ t, exec (.arbiterChoice l periods) s = .next (outbound t) ∧
        SendingBegun l (.sendingBreak false 528)
          (u.modifyLine l fun x => { x with
            sched := { x.sched with resyncRequest := false }
            engine := { x.engine with
              state := .sending, order := some { kind := .breakOrder, round := x.sched.roundNumber } } }) t) ∧
    (ArbiterFree (u.line l) → (u.line l).sched.resyncRequest = false → (u.line l).config.roundBroadcast = true →
      (u.line l).sched.broadcastSent = false →
      ∃ t, exec (.arbiterChoice l periods) s = .next (outbound t) ∧
        ExchangeBegun l .roundBroadcast
          (u.modifyLine l fun x => { x with sched := { x.sched with broadcastSent := true } }) t) ∧
    (ArbiterFree (u.line l) → ∀ n ∈ (u.line l).nodes, (u.line l).sched.resyncRequest = false →
      ((u.line l).config.roundBroadcast = false ∨ (u.line l).sched.broadcastSent = true) →
      (u.line l).sched.probeDone = false → NodesSound (u.line l) →
      1 ≤ (u.line l).sched.probePointer → (u.line l).sched.probePointer ≤ 30 →
      (n.state = .pending ∨ n.state = .lost) →
      (∀ k ∈ (u.line l).nodes, k.state = .pending ∨ k.state = .lost →
        (n.address + 29 - (u.line l).sched.probePointer) % 30 ≤
          (k.address + 29 - (u.line l).sched.probePointer) % 30) →
      ∃ t, exec (.arbiterChoice l periods) s = .next (outbound t) ∧
        ExchangeBegun l (.probe n.address n.uid)
          (u.modifyLine l fun x =>
            { x with sched := { x.sched with probePointer := n.address, probeDone := true } }) t)

/-- ARBITER_CHOICE with no break, broadcast or probe to send (R16, R17): with the transaction queue empty, or with
polls left and no allowance left or no poll sent since the last transaction, the head of the poll list is
polled; otherwise the head transaction is sent if it names node 0 or a node in service, and completes UNAVAILABLE,
with another choice after it, if not; with neither nothing happens. An addressed WRITE keeps its node record's write
toggle copy as the sent toggle, and its frame carries it (R26). The choice is made after the sample periods the
command carries (log 2). That the sent toggle is 0 in any other exchange (log 31), and that the divider starts anew at
a change of rate (log 1), is the model's choice. -/
def Obligations.ArbiterPollsOrSendsATransaction : Prop :=
  ∀ (l : LineId) (periods : Periods) (s u : State), s.resetHeld = false → u = playPeriods l periods s →
    ArbiterFree (u.line l) →
    (u.line l).sched.resyncRequest = false →
    ((u.line l).config.roundBroadcast = false ∨ (u.line l).sched.broadcastSent = true) →
    ((u.line l).sched.probeDone = true ∨ ∀ n ∈ (u.line l).nodes, n.state = .online ∨ n.state = .suspect) →
    ((u.line l).txnQueue = [] → (u.line l).sched.pollList = [] →
      exec (.arbiterChoice l periods) s = .next (outbound u)) ∧
    (∀ r ∈ u.subs, ∀ n ∈ (u.line l).nodes, ∀ polls, (u.subs.map (·.id)).Nodup →
      ((u.line l).nodes.map (·.address)).Nodup → r.node = n.address →
      (u.line l).sched.pollList = r.id :: polls →
      ((u.line l).txnQueue = [] ∨ (u.line l).config.allowance ≤ (u.line l).sched.allowanceUsed ∨
        (u.line l).sched.alternation ≠ .poll) →
      ∃ t, exec (.arbiterChoice l periods) s = .next (outbound t) ∧
        ExchangeBegun l (.poll r.id r.uid r.node n.uid r.channel r.maxLength)
          ({ u with subs := u.subs.map fun q =>
              if q = r then { q with pollInFlight := true } else q }.modifyLine l fun x =>
            { x with sched := { x.sched with pollList := polls, alternation := .poll } }) t) ∧
    (∀ x ∈ u.txns, ∀ queue, (u.txns.map (·.reference)).Nodup → ((u.line l).nodes.map (·.address)).Nodup →
      (u.line l).txnQueue = x.reference :: queue →
      ((u.line l).sched.pollList = [] ∨
        (u.line l).sched.allowanceUsed < (u.line l).config.allowance ∧
        (u.line l).sched.alternation = .poll) →
      (∀ uid, (x.node = 0 ∧ uid = nodeUidAt u l 0 ∨ ∃ n ∈ (u.line l).nodes, n.address = x.node ∧ n.uid = uid ∧
          (n.state = .online ∨ n.state = .suspect)) →
        ∃ t, exec (.arbiterChoice l periods) s = .next (outbound t) ∧
          ExchangeBegun l
            (match x.kind with
              | .read maxReply => .read x.reference x.node uid x.channel maxReply (x.attempts + 1)
              | .write data => .write x.reference x.node uid x.channel data (x.attempts + 1))
            ({ u with txns := u.txns.map fun k =>
                if k = x then { k with state := .inFlight } else k }.modifyLine l fun y =>
              { y with
                txnQueue := queue
                sched := { y.sched with
                  alternation := .transaction
                  allowanceUsed := y.sched.allowanceUsed + if y.sched.pollList = [] then 0 else 1 } }) t ∧
          (∀ data, x.kind = .write data → ∀ n ∈ (u.line l).nodes, x.node ≠ 0 → n.address = x.node → n.uid = uid →
            (t.line l).engine.sentToggle = n.toggle ∧
            (t.line l).port.tx = .frame (orderFrame ⟨.write x.reference x.node uid x.channel data (x.attempts + 1),
              (u.line l).sched.roundNumber⟩ n.toggle) 0 false)) ∧
      (x.node ≠ 0 → (∀ n ∈ (u.line l).nodes, n.address = x.node → n.state = .pending ∨ n.state = .lost) →
        exec (.arbiterChoice l periods) s = exec (.arbiterChoice l [])
          ({ u with
              txns := u.txns.map fun k => if k = x then
                { k with
                  state := .done, result := some .unavailable, lastVerdict := none, refuseReason := none
                  reply := none } else k
              delivery := { u.delivery with
                queue := joined u.delivery.queue (.txnDone x.reference) } }.modifyLine l fun y =>
            { y with txnQueue := queue })))

/-- The frames the part sends (R19, R20): type and address in the header, channel and toggle in the control
character, the length, the payload, the check value high byte first, and the mark on the header alone. -/
def Obligations.FramesCarryTheirOrders : Prop :=
  ∀ (round : Word16) (toggle : Bool) (address channel length uid id subUid start : Nat) (reference : Word16)
    (data : List Byte) (frame : List Byte → List (BitVec 9)),
    (∀ body, frame body =
      (body ++ be16 (crc16 body)).mapIdx fun i x => (BitVec.ofBool (i == 0)) ++ x) →
    orderFrame ⟨.poll id subUid address uid channel length, round⟩ toggle =
      frame [byteOf address, byteOf channel, 1, byteOf length] ∧
    orderFrame ⟨.read reference address uid channel length start, round⟩ toggle =
      frame [byteOf address, byteOf channel, 1, byteOf length] ∧
    orderFrame ⟨.write reference address uid channel data start, round⟩ toggle =
      frame ([byteOf (0x20 + address), byteOf (channel + if toggle ∧ address ≠ 0 then 8 else 0),
        byteOf data.length] ++ data) ∧
    orderFrame ⟨.probe address uid, round⟩ toggle = frame [byteOf (0x40 + address), 0, 0] ∧
    orderFrame ⟨.roundBroadcast, round⟩ toggle = frame ([0x60, 0, 2] ++ be16 round)

/-! ### The Exchange Engine -/

/-- TRANSMIT_END, after the sample periods it carries (log 2), once the last stop bit has been sent. The character
finished after RESTART releases the driver: with the input low that is a falling edge (R133), and with it high a
character being received, or a wait for the return high, goes on (R138, log 25). A frame with no echo missing or
failed releases the driver, with the input low as the first low sample (DEDUCED, log 32): an addressed one makes the
engine await its reply, the window held if the input is low; a broadcast ends OK, and a broadcast WRITE's transaction
SENT; in STOPPING the stop is completed (R118). That nothing happens with the transmitter idle or in a break, before
the end of the last stop bit, or with an echo expected or failed is the model's choice (log 3, log 4). -/
def Obligations.TransmitEndReleasesAndAwaits : Prop :=
  ∀ (l : LineId) (periods : Periods) (s u : State), s.resetHeld = false → LineSound (s.line l) →
    u = playPeriods l periods s →
    (∀ chars position, (u.line l).port.tx = .frame chars position true →
      (position < 176 * chars.length → exec (.transmitEnd l periods) s = .next (outbound s)) ∧
      (176 * chars.length ≤ position →
        ((u.line l).port.input = .low ∨ (u.line l).port.rxPhase = .hunt ∨ (u.line l).port.rxPhase = .muted →
          exec (.transmitEnd l periods) s = .next (outbound (u.modifyLine l fun x => { x with
            port := releasedPort x.port, sched := { x.sched with quiet := .running 352 } }))) ∧
        ((u.line l).port.input = .high →
          ((u.line l).port.rxPhase = .qualify ∨ (u.line l).port.rxPhase = .bits ∨
            (u.line l).port.rxPhase = .waitHigh) →
          exec (.transmitEnd l periods) s = .next (outbound (u.modifyLine l fun x => { x with
            port := { x.port with tx := .idle, driverEnable := false, echo := .none }
            sched := { x.sched with quiet := .running 352 } }))))) ∧
    (∀ chars position, (u.line l).port.tx = .frame chars position false →
      ((u.line l).port.echo ≠ .none ∨ position < 176 * chars.length →
        exec (.transmitEnd l periods) s = .next (outbound s)) ∧
      ((u.line l).port.echo = .none →
        176 * chars.length ≤ position → ∀ o, (u.line l).engine.order = some o →
        (isAddressed o.kind = true →
          exec (.transmitEnd l periods) s = .next (outbound (u.modifyLine l fun x => { x with
            port := releasedPort x.port, sched := { x.sched with quiet := .running 352 }
            engine := { x.engine with
              state := .awaiting, framesSent := x.engine.framesSent + 1
              buffer := { bytes := [], noiseSeen := false, framingSeen := false }
              window := if x.port.input = .high then .running (176 * x.config.responseWindow)
                else .held (176 * x.config.responseWindow) } }))) ∧
        (∀ sent, o.kind = .roundBroadcast →
          sent = u.modifyLine l (fun x => { x with
            port := releasedPort x.port, sched := { x.sched with quiet := .running 352 }
            engine := endedEngine .ok { x.engine with framesSent := x.engine.framesSent + 1 }
            counters := { x.counters with exchanges := satInc x.counters.exchanges } }) →
          ((u.line l).lineState = .running →
            exec (.transmitEnd l periods) s = .next (outbound sent)) ∧
          ((u.line l).lineState = .stopping →
            exec (.transmitEnd l periods) s = .next (outbound (stopCompleted l sent)))) ∧
        (∀ reference uid channel data start x sent, o.kind = .write reference 0 uid channel data start →
          x ∈ s.txns → x.reference = reference → x.node = 0 → x.kind = .write data →
          (s.txns.map (·.reference)).Nodup →
          sent = ({ u with
              txns := s.txns.map fun k => if k = x then
                { k with
                  attempts := k.attempts + ((s.line l).engine.framesSent + 1)
                  state := .done, result := some .sent, lastVerdict := some .ok, refuseReason := none
                  reply := none } else k
              delivery := { s.delivery with
                queue := joined s.delivery.queue (.txnDone reference) } }.modifyLine l fun y => { y with
            port := releasedPort y.port, sched := { y.sched with quiet := .running 352 }
            engine := endedEngine .ok { y.engine with framesSent := y.engine.framesSent + 1 }
            counters := { y.counters with exchanges := satInc y.counters.exchanges } }) →
          ((u.line l).lineState = .running →
            exec (.transmitEnd l periods) s = .next (outbound sent)) ∧
          ((u.line l).lineState = .stopping →
            exec (.transmitEnd l periods) s = .next (outbound (stopCompleted l sent)))))) ∧
    ((u.line l).port.tx = .idle ∨ (∃ jam left, (u.line l).port.tx = .sendingBreak jam left) →
      exec (.transmitEnd l periods) s = .next (outbound s))

/-- RESPONSE_WINDOW_EXPIRY and GAP_TIMER_EXPIRY, once the timer's time is up, end the attempt TIMEOUT or GAP, counted:
SETTLING begins when another attempt follows, and otherwise, at the last attempt, the exchange ends with that verdict,
which its owner takes, be it of a poll, a READ, a WRITE or a probe (R34, R38). A timer that a start bit holds does not
expire (R30, R32). That a command changes nothing with its timer stopped or held (log 3), nor with time left (log 4),
is the model's choice. -/
def Obligations.ReplyTimersEndTheAttempt : Prop :=
  ∀ (l : LineId) (s : State), s.resetHeld = false →
    (∀ o, (s.line l).engine.order = some o → (s.line l).engine.window = .running 0 →
      ∃ t, exec (.responseWindowExpiry l) s = .next (outbound t) ∧
        AttemptEnds l o .timeout
          (s.modifyLine l fun x => { x with
            counters := { x.counters with timeouts := satInc x.counters.timeouts } }) t) ∧
    (∀ o, (s.line l).engine.order = some o → (s.line l).engine.gap = .running 0 →
      ∃ t, exec (.gapTimerExpiry l) s = .next (outbound t) ∧
        AttemptEnds l o .gap
          (s.modifyLine l fun x => { x with
            counters := { x.counters with gapErrors := satInc x.counters.gapErrors } }) t) ∧
    ((s.line l).engine.window ≠ .running 0 → exec (.responseWindowExpiry l) s = .next (outbound s)) ∧
    ((s.line l).engine.gap ≠ .running 0 → exec (.gapTimerExpiry l) s = .next (outbound s))

/-- The last attempt of a poll ends TIMEOUT or GAP in RUNNING, the timer's time being up: the exchange is counted, the
poll is no longer in flight, the node takes the verdict, the failure and the retries, and goes to SUSPECT below the
failure threshold; at the threshold it goes to LOST, its ACTIVE subscriptions to WAITING and their entries out of the
poll list. NODE_STATE is requested when the state changes. -/
def Obligations.FailedPollSuspectsOrLosesTheNode : Prop :=
  ∀ (l : LineId) (s : State) (c : Instr) (v : Verdict) (round : Word16) (r : SubRecord)
    (n : NodeRecord), s.resetHeld = false → (s.line l).lineState = .running →
    (c = .responseWindowExpiry l ∧ v = .timeout ∧ (s.line l).engine.window = .running 0 ∨
      c = .gapTimerExpiry l ∧ v = .gap ∧ (s.line l).engine.gap = .running 0) →
    (s.line l).engine.order = some ⟨.poll r.id r.uid n.address n.uid r.channel r.maxLength, round⟩ →
    (s.line l).config.retryLimit < (s.line l).engine.attempt →
    r ∈ s.subs → (s.subs.map (·.id)).Nodup → r.state = .active → r.line = l → r.node = n.address →
    n ∈ (s.line l).nodes → ((s.line l).nodes.map (·.address)).Nodup →
    (n.state = .online ∨ n.state = .suspect) →
    ∃ t, exec c s = .next (outbound t) ∧
      (t.line l).engine = endedEngine v (s.line l).engine ∧
      (t.line l).counters = { (s.line l).counters with
        exchanges := satInc (s.line l).counters.exchanges
        timeouts := if v = .timeout then satInc (s.line l).counters.timeouts else (s.line l).counters.timeouts
        gapErrors := if v = .gap then satInc (s.line l).counters.gapErrors else (s.line l).counters.gapErrors } ∧
      t = { s.setLine l { s.line l with
              engine := (t.line l).engine, counters := (t.line l).counters, nodes := (t.line l).nodes
              sched := { (s.line l).sched with pollList := (t.line l).sched.pollList } } with
            subs := t.subs, delivery := { s.delivery with queue := t.delivery.queue } } ∧
      (n.failures + 1 < (s.line l).config.failureThreshold →
        (t.line l).nodes = ((s.line l).nodes.map fun k => if k = n then
          { k with
            state := .suspect, failures := k.failures + 1, lastVerdict := some v, lastRound := some round
            counters := { k.counters with
              failed := satInc k.counters.failed
              retries := satAdd k.counters.retries ((s.line l).engine.attempt - 1) } } else k) ∧
        (t.line l).sched.pollList = (s.line l).sched.pollList ∧
        t.subs = (s.subs.map fun q => if q = r then { q with pollInFlight := false } else q) ∧
        t.delivery.queue = if n.state = .online then joined s.delivery.queue (.nodeState l n.address n.uid)
          else s.delivery.queue) ∧
      ((s.line l).config.failureThreshold ≤ n.failures + 1 →
        (t.line l).nodes = ((s.line l).nodes.map fun k => if k = n then
          { k with
            state := .lost, failures := k.failures + 1, lastVerdict := some v, lastRound := some round
            counters := { k.counters with
              failed := satInc k.counters.failed, losses := satInc k.counters.losses
              retries := satAdd k.counters.retries ((s.line l).engine.attempt - 1) } } else k) ∧
        (t.line l).sched.pollList = (s.line l).sched.pollList.filter (fun id =>
          ∀ q ∈ s.subs, q.id = id → ¬(q.line = l ∧ q.node = n.address ∧ q.state = .active)) ∧
        t.subs = (s.subs.map fun q =>
          if q.line = l ∧ q.node = n.address ∧ q.state = .active then
            { q with
              pollInFlight := if q = r then false else q.pollInFlight
              state := .waiting, referencePayload := none }
          else q) ∧
        t.delivery.queue = joined s.delivery.queue (.nodeState l n.address n.uid))

/-- SETTLING_END, after the sample periods it carries (log 2), once the time of the settling timer is up: the order is
sent again as the next attempt, counted as a retry; an addressed WRITE that has seen a break ends instead with the last
verdict, delivered in every line state, its transaction UNCONFIRMED in RUNNING and in STOPPING, where the stop is then
completed (R118). A timer that a start bit holds does not expire (R35). That the command changes nothing with the timer
stopped or held (log 3), nor with time left (log 4), and that the divider starts anew at a change of rate (log 1), is
the model's choice. -/
def Obligations.SettlingEndSendsAgain : Prop :=
  ∀ (l : LineId) (periods : Periods) (s u : State), s.resetHeld = false → u = playPeriods l periods s →
    (∀ o v, (u.line l).engine.order = some o → (u.line l).engine.lastVerdict = some v →
      (u.line l).engine.settling = .running 0 →
      (¬(isAddressedWrite o.kind = true ∧ (u.line l).engine.breakSeen = true) →
        ∃ t, exec (.settlingEnd l periods) s = .next (outbound t) ∧ SentAgain l o u t) ∧
      (∀ reference address uid channel data start x, (u.line l).lineState = .running →
        o.kind = .write reference address uid channel data start → address ≠ 0 →
        (u.line l).engine.breakSeen = true → isFailure v = true → x ∈ u.txns → x.reference = reference →
        x.kind = .write data → (u.txns.map (·.reference)).Nodup →
        ∃ t, exec (.settlingEnd l periods) s = .next (outbound t) ∧
          (t.line l).engine = endedEngine v (u.line l).engine ∧
          (t.line l).counters = { (u.line l).counters with exchanges := satInc (u.line l).counters.exchanges } ∧
          t.txns = (u.txns.map fun k => if k = x then
            { k with
              attempts := k.attempts + (u.line l).engine.framesSent, state := .done
              result := some .unconfirmed, lastVerdict := some v, refuseReason := none, reply := none } else k) ∧
          .txnDone reference ∈ t.delivery.queue) ∧
      (isAddressedWrite o.kind = true → (u.line l).engine.breakSeen = true → isFailure v = true →
        exec (.settlingEnd l periods) s = .next (outbound (exchangeEnded l o v u))) ∧
      (∀ reference address uid channel data start x, (u.line l).lineState = .stopping →
        o.kind = .write reference address uid channel data start → address ≠ 0 →
        (u.line l).engine.breakSeen = true → isFailure v = true → x ∈ u.txns → x.reference = reference →
        x.kind = .write data → (u.txns.map (·.reference)).Nodup →
        ∃ w, exec (.settlingEnd l periods) s = .next (outbound (stopCompleted l w)) ∧
          (w.line l).engine = endedEngine v (u.line l).engine ∧
          (w.line l).counters = { (u.line l).counters with exchanges := satInc (u.line l).counters.exchanges } ∧
          (w.line l).purgePending = (u.line l).purgePending ∧ (w.line l).txnQueue = (u.line l).txnQueue ∧
          w.txns = (u.txns.map fun k => if k = x then
            { k with
              attempts := k.attempts + (u.line l).engine.framesSent, state := .done
              result := some .unconfirmed, lastVerdict := some v, refuseReason := none, reply := none } else k) ∧
          .txnDone reference ∈ w.delivery.queue)) ∧
    ((u.line l).engine.settling ≠ .running 0 → exec (.settlingEnd l periods) s = .next (outbound s))

/-- CHARACTER_END takes the character end the port has signalled, after the sample periods it carries (log 2, log 20):
noise is counted (R137); an echo goes no further; a character in IDLE is counted as a stray. So is one in SENDING, which
was decided before the frame (DEDUCED, log 21). In AWAITING the mark begins the reply; without it, and in SETTLING, the
character is a stray and ends the hold of the timer. In RECEIVING it is a further character of the reply, or the end of
the attempt MALFORMED with the mark or a stated length above 24. That the quiet starts again at every character of the
reply is the model's (DEDUCED, log 15). With no such signal nothing happens (the model's choice, log 3). -/
def Obligations.CharacterEndByState : Prop :=
  ∀ (l : LineId) (periods : Periods) (s : State), s.resetHeld = false →
    ((∀ c taken, ¬ Signalled l periods (.characterEnd c) s taken) →
      exec (.characterEnd l periods) s = .next (outbound s)) ∧
    ∀ c taken base, Signalled l periods (.characterEnd c) s taken →
      base = taken.modifyLine l (fun x => { x with counters := { x.counters with
        noiseFlags := if c.noisy then satInc x.counters.noiseFlags else x.counters.noiseFlags } }) →
      (c.echo = true → exec (.characterEnd l periods) s = .next (outbound base)) ∧
      (c.echo = false →
        ((base.line l).engine.state = .idle ∨ (base.line l).engine.state = .sending →
          exec (.characterEnd l periods) s = .next (outbound (base.modifyLine l fun x => { x with
            counters := { x.counters with strays := satInc x.counters.strays } }))) ∧
        ((base.line l).engine.state = .awaiting ∧ c.mark = false ∨ (base.line l).engine.state = .settling →
          ∃ t, exec (.characterEnd l periods) s = .next (outbound t) ∧
            HoldEnded l
              (base.modifyLine l fun x => { x with
                counters := { x.counters with strays := satInc x.counters.strays } }) t) ∧
        ((base.line l).engine.state = .awaiting → c.mark = true → ∀ o, (base.line l).engine.order = some o →
          (base.line l).engine.buffer.bytes = [] →
          exec (.characterEnd l periods) s = .next (outbound (base.modifyLine l fun x => { x with
            sched := { x.sched with quiet := .running 352 }
            engine := { x.engine with
              state := .receiving, window := .stopped, gap := .running 352
              buffer := {
                bytes := [c.byte], noiseSeen := x.engine.buffer.noiseSeen || c.noisy
                framingSeen := x.engine.buffer.framingSeen || !c.stop } } }))) ∧
        (∀ o, (base.line l).engine.state = .receiving → (base.line l).engine.order = some o →
          (c.mark = true → ∃ t, exec (.characterEnd l periods) s = .next (outbound t) ∧
            AttemptEnds l o .malformed
              (base.modifyLine l fun x => { x with sched := { x.sched with quiet := .running 352 } }) t) ∧
          (c.mark = false → (base.line l).engine.window = .stopped →
            ((base.line l).engine.buffer.bytes.length < 2 ∨
              (base.line l).engine.buffer.bytes.length = 2 ∧ c.byte.toNat ≤ 24 ∨
              3 ≤ (base.line l).engine.buffer.bytes.length ∧
              (base.line l).engine.buffer.bytes.length + 1 <
                ((base.line l).engine.buffer.bytes.getD 2 0).toNat + 5) →
            exec (.characterEnd l periods) s = .next (outbound (base.modifyLine l fun x => { x with
              sched := { x.sched with quiet := .running 352 }
              engine := { x.engine with
                gap := .running 352
                buffer := {
                  bytes := x.engine.buffer.bytes ++ [c.byte]
                  noiseSeen := x.engine.buffer.noiseSeen || c.noisy
                  framingSeen := x.engine.buffer.framingSeen || !c.stop } } }))) ∧
          (c.mark = false → (base.line l).engine.buffer.bytes.length = 2 → 24 < c.byte.toNat →
            ∃ t, exec (.characterEnd l periods) s = .next (outbound t) ∧
              AttemptEnds l o .malformed
                (base.modifyLine l fun x => { x with
                  sched := { x.sched with quiet := .running 352 }
                  engine := { x.engine with
                    buffer := {
                      bytes := x.engine.buffer.bytes ++ [c.byte]
                      noiseSeen := x.engine.buffer.noiseSeen || c.noisy
                      framingSeen := x.engine.buffer.framingSeen || !c.stop } } }) t)))

/-- The last character of a reply completes its frame (R32), which is judged (R33): FRAMING, BAD_CRC, MISADDRESSED and
MALFORMED in that order, REFUSED with its reason, or OK with what it carries. A failure that another attempt follows
begins SETTLING; any other verdict ends the exchange and is delivered with the frames sent and the retries (R37, R38).
So the good DATA reply to a poll of an ACTIVE EVERY subscription in RUNNING, its sample queue empty and its node in
service: the sample, with the order's round and the millisecond clock, joins the queue in a block of the pool; the
notice is raised; the node is ONLINE, its failure count 0, its good exchange counted; both reports are requested, the
sample's first. -/
def Obligations.PollReplyIsStoredAndCounted : Prop :=
  (∀ (l : LineId) (periods : Periods) (c : ReceivedCharacter) (s base : State) (o : Order)
     (header control : Byte) (payload : List Byte) (check : Word16), s.resetHeld = false →
     Signalled l periods (.characterEnd c) s base → c.echo = false → c.mark = false →
     (base.line l).engine.state = .receiving → (base.line l).engine.order = some o → payload.length ≤ 24 →
     ∀ body noisy framing, body = header :: control :: byteOf payload.length :: payload →
       (base.line l).engine.buffer.bytes ++ [c.byte] = body ++ be16 check →
       noisy = ((base.line l).engine.buffer.noiseSeen || c.noisy) →
       framing = ((base.line l).engine.buffer.framingSeen || !c.stop) →
     ∃ r : AttemptResult,
       (framing = true → r = plainResult .framing) ∧
       (framing = false →
         (crc16 body ≠ check → r = plainResult .badCrc) ∧
         (crc16 body = check →
           (header.toNat % 32 ≠ orderAddress o.kind ∨ control.toNat % 8 ≠ orderChannel o.kind →
             r = plainResult .misaddressed) ∧
           (header.toNat % 32 = orderAddress o.kind → control.toNat % 8 = orderChannel o.kind →
             (∀ largest, largestReply o.kind = some largest → header.toNat / 32 = 4 →
               payload.length ≤ largest →
               r = ⟨.ok, noisy, some ⟨payload, base.msClock⟩, none, none⟩) ∧
             (isAddressedWrite o.kind = true → header.toNat / 32 = 5 → payload = [] →
               control.getLsbD 3 = (base.line l).engine.sentToggle → r = ⟨.ok, noisy, none, none, none⟩) ∧
             (∀ address uid kind channels room, o.kind = .probe address uid → header.toNat / 32 = 6 →
               payload = [kind, channels, room] → 1 ≤ channels.toNat → channels.toNat ≤ 8 → room.toNat ≤ 24 →
               r = ⟨.ok, noisy, none, some ⟨kind, channels.toNat, room.toNat⟩, none⟩) ∧
             (∀ reason, mayRetry o.kind = true → header.toNat / 32 = 7 → payload = [refuseReasonCode (some reason)] →
               r = ⟨.refused, false, none, none, some reason⟩) ∧
             ((¬ ∃ largest, largestReply o.kind = some largest ∧ header.toNat / 32 = 4 ∧
                  payload.length ≤ largest) →
               ¬(isAddressedWrite o.kind = true ∧ header.toNat / 32 = 5 ∧ payload = [] ∧
                  control.getLsbD 3 = (base.line l).engine.sentToggle) →
               (¬ ∃ address uid kind channels room, o.kind = .probe address uid ∧ header.toNat / 32 = 6 ∧
                  payload = [kind, channels, room] ∧ 1 ≤ channels.toNat ∧ channels.toNat ≤ 8 ∧
                  room.toNat ≤ 24) →
               (¬ ∃ reason, mayRetry o.kind = true ∧ header.toNat / 32 = 7 ∧
                  payload = [refuseReasonCode (some reason)]) →
               r = plainResult .malformed)))) ∧
       ∀ ended, ended = base.modifyLine l (fun x => { x with
           sched := { x.sched with quiet := .running 352 }
           engine := { x.engine with buffer := {
             bytes := x.engine.buffer.bytes ++ [c.byte], noiseSeen := noisy, framingSeen := framing } }
           counters := { x.counters with
             noiseFlags := if c.noisy then satInc x.counters.noiseFlags else x.counters.noiseFlags
             crcErrors := if r.verdict = .badCrc then satInc x.counters.crcErrors else x.counters.crcErrors
             framingErrors := if r.verdict = .framing then satInc x.counters.framingErrors
               else x.counters.framingErrors } }) →
         (isFailure r.verdict = true → RetryFollows (base.line l) o →
           exec (.characterEnd l periods) s = .next (outbound (ended.modifyLine l fun x => { x with
             engine := settlingEngine r.verdict x.engine }))) ∧
         (¬(isFailure r.verdict = true ∧ RetryFollows (base.line l) o) →
           exec (.characterEnd l periods) s = .next (outbound (deliverVerdict l
             { order := o, result := r, framesSent := (base.line l).engine.framesSent
               retries := (base.line l).engine.attempt - startAttempt o.kind } false
             (ended.modifyLine l fun x => { x with
               engine := endedEngine r.verdict x.engine
               counters := { x.counters with exchanges := satInc x.counters.exchanges } }))))) ∧
  (∀ (l : LineId) (periods : Periods) (c : ReceivedCharacter) (s base : State) (r : SubRecord) (n : NodeRecord)
     (round : Word16) (payload : List Byte), s.resetHeld = false →
     Signalled l periods (.characterEnd c) s base → c.stop = true → c.mark = false → c.echo = false →
     (s.line l).lineState = .running → (s.line l).engine.state = .receiving →
     (s.line l).engine.order = some ⟨.poll r.id r.uid n.address n.uid r.channel r.maxLength, round⟩ →
     payload.length ≤ r.maxLength → r.maxLength ≤ 24 → r.channel ≤ 7 → 1 ≤ n.address → n.address ≤ 30 →
     (∀ body, body = [byteOf (0x80 + n.address), byteOf r.channel, byteOf payload.length] ++ payload →
       (s.line l).engine.buffer.bytes ++ [c.byte] = body ++ be16 (crc16 body)) →
     (s.line l).engine.buffer.framingSeen = false →
     r ∈ s.subs → (s.subs.map (·.id)).Nodup → r.state = .active → r.kind = .every → r.queue = [] →
     r.notice = .none → r.line = l → r.node = n.address →
     n ∈ (s.line l).nodes → ((s.line l).nodes.map (·.address)).Nodup →
     (n.state = .online ∨ n.state = .suspect) →
     ∃ t, exec (.characterEnd l periods) s = .next (outbound t) ∧
       (t.line l).engine.state = .idle ∧ (t.line l).engine.order = none ∧
       (t.line l).engine.lastVerdict = some .ok ∧
       (t.line l).counters = { (s.line l).counters with
         noiseFlags := if c.noisy then satInc (s.line l).counters.noiseFlags else (s.line l).counters.noiseFlags
         exchanges := satInc (s.line l).counters.exchanges } ∧
       t.freeBlocks = s.freeBlocks - 1 ∧
       t.subs = (s.subs.map fun q => if q = r then
         { q with
           pollInFlight := false, resumed := false, notice := .queued, nextSequence := q.nextSequence + 1
           queue := [{ subId := q.id, sequence := q.nextSequence, round := round, captureTime := s.msClock
                       resumed := q.resumed, noisy := (s.line l).engine.buffer.noiseSeen || c.noisy
                       payload := payload }] } else q) ∧
       (t.line l).nodes = ((s.line l).nodes.map fun k => if k = n then
         { k with
           state := .online, failures := 0, lastVerdict := some .ok, lastRound := some round
           counters := { k.counters with
             good := satInc k.counters.good
             noisy := if (s.line l).engine.buffer.noiseSeen || c.noisy then satInc k.counters.noisy
               else k.counters.noisy
             retries := satAdd k.counters.retries ((s.line l).engine.attempt - 1) } } else k) ∧
       t.delivery.queue = (if n.state = .suspect then
         joined (joined s.delivery.queue (.sampleReady r.id r.uid)) (.nodeState l n.address n.uid)
         else joined s.delivery.queue (.sampleReady r.id r.uid)) ∧
       t.txns = s.txns ∧ t.link = s.link ∧ ∀ k, k ≠ l → t.line k = s.line k)

/-- The four steps a verdict is delivered in (R38), by its owner. The poll of a subscription: a CLOSING record is freed
whatever the verdict (R75); an ACTIVE one offers an OK reply that passes the CHANGE filter (R70), stored while there is
room, in place of the oldest sample under KEEP_NEWEST (R83), takes a refusal as a fault or counts it (R71), and
takes a failure or a contention with nothing else (R72). A READ or addressed WRITE completes OK, with the reply, or
REFUSED, with the reason, or else FAILED or UNCONFIRMED (R100). A probe's OK brings the node ONLINE with its profile,
against which its WAITING subscriptions are checked (R48, R73); a probe that ends otherwise leaves all but the last
verdict, the last round and the counters (R49). An answered poll, READ or WRITE brings a node in service ONLINE, and an
OK of an addressed WRITE flips the toggle (R50, R54). Any failure verdict of these counts towards LOST (R51): below the
threshold the node is SUSPECT; at it the node is LOST, and its ACTIVE subscriptions go to WAITING and out of the poll
list (R53). CONTENTION changes only the last verdict and round (R52). In STOPPING any verdict but CONTENTION completes
the stop (R118), and in RUNNING an exchange that a stuck input has ended takes the line to FAULT (R123). -/
def Obligations.VerdictsReachTheirOwners : Prop :=
  (∀ (l : LineId) (v : VerdictRecord) (ended : Bool) (s : State),
    (∀ owner node sched,
      owner = (match v.order.kind with
        | .poll id uid _ _ _ _ => takePollVerdict id uid v s
        | .read reference _ _ _ _ _ => takeTxnVerdict l reference v s
        | .write reference _ _ _ _ _ => takeTxnVerdict l reference v s
        | _ => s) →
      node = takeNodeVerdict l v owner →
      sched = (if v.result.verdict = .contention then
        node.modifyLine l fun x => { x with sched := { x.sched with
          contentionCount := x.sched.contentionCount + 1 } }
        else node) →
      deliverVerdict l v ended s = lineControlTake l v.result.verdict ended sched) ∧
    ((s.line l).lineState = .stopping → v.result.verdict ≠ .contention →
      lineControlTake l v.result.verdict ended s = stopCompleted l s) ∧
    ((s.line l).lineState = .running → v.result.verdict ≠ .contention →
      lineControlTake l v.result.verdict ended s = if ended = true then faulted l .stuck s else s)) ∧
  (∀ (s : State) (v : VerdictRecord) (r : SubRecord), r ∈ s.subs → (s.subs.map (·.id)).Nodup →
    ∀ became : (SubRecord → SubRecord) → List SubRecord,
      (∀ f, became f = s.subs.map fun q => if q = r then f { q with pollInFlight := false } else q) →
    (r.state = .closing →
      takePollVerdict r.id r.uid v s = { s with subs := s.subs.filter fun q => q ≠ r }) ∧
    (r.state = .active →
      (∀ reason, v.result.verdict = .refused → v.result.reason = some reason →
        (∀ fault, (reason = .noChannel ∧ fault = .noChannel ∨ reason = .badLength ∧ fault = .badLength) →
          takePollVerdict r.id r.uid v s = { s with
            subs := became fun q => { q with
              state := .faulted, faultReason := some fault, referencePayload := none }
            delivery := { s.delivery with queue := joined s.delivery.queue (.subState r.id r.uid) } }) ∧
        (reason = .notReady ∨ reason = .denied →
          takePollVerdict r.id r.uid v s = { s with
            subs := became fun q => { q with refusals := satInc q.refusals } })) ∧
      (isFailure v.result.verdict = true ∨ v.result.verdict = .contention →
        takePollVerdict r.id r.uid v s = { s with subs := became fun q => q }) ∧
      (∀ reply x, v.result.verdict = .ok → v.result.reply = some reply →
        x = { subId := r.id, sequence := r.nextSequence, round := v.order.round
              captureTime := reply.captureTime, resumed := r.resumed, noisy := v.result.noisy
              payload := reply.payload } →
        (r.kind = .change → r.resumed = false → r.referencePayload = some reply.payload →
          takePollVerdict r.id r.uid v s = { s with subs := became fun q => q }) ∧
        ((r.kind = .every ∨ r.resumed = true ∨ r.referencePayload ≠ some reply.payload) →
          ∀ offered : SubRecord → SubRecord, (∀ q, offered q = { q with
              resumed := false, nextSequence := q.nextSequence + 1
              notice := if q.notice = .none then .queued else q.notice
              referencePayload := if q.kind = .change then some reply.payload else q.referencePayload }) →
          (r.queue = [] ∨ r.queue.length < r.depth ∧ 1 ≤ spareBlocks s →
            takePollVerdict r.id r.uid v s = { s with
              freeBlocks := s.freeBlocks - 1
              subs := became fun q => { offered q with queue := q.queue ++ [x] }
              delivery := { s.delivery with queue :=
                if r.notice = .none then joined s.delivery.queue (.sampleReady r.id r.uid)
                else s.delivery.queue } }) ∧
          (r.queue ≠ [] → (r.depth ≤ r.queue.length ∨ spareBlocks s = 0) → r.policy = .keepNewest →
            takePollVerdict r.id r.uid v s = { s with
              subs := became fun q => { offered q with
                queue := q.queue.tail ++ [x], dropped := satInc q.dropped }
              delivery := { s.delivery with queue :=
                if r.notice = .none then joined s.delivery.queue (.sampleReady r.id r.uid)
                else s.delivery.queue } }))))) ∧
  (∀ (l : LineId) (s : State) (v : VerdictRecord) (t : TxnRecord), t ∈ s.txns →
    (s.txns.map (·.reference)).Nodup → t.node ≠ 0 →
    ∀ completed : TxnResult → State, (∀ result, completed result = { s with
        txns := s.txns.map fun k => if k = t then
          { k with
            attempts := k.attempts + v.framesSent, state := .done, result := some result
            lastVerdict := some v.result.verdict
            refuseReason := if v.result.verdict = .refused then v.result.reason else none
            reply := if v.result.verdict = .ok then v.result.reply.map (·.payload) else none } else k
        delivery := { s.delivery with queue := joined s.delivery.queue (.txnDone t.reference) } }) →
      (v.result.verdict = .ok → takeTxnVerdict l t.reference v s = completed .ok) ∧
      (v.result.verdict = .refused → takeTxnVerdict l t.reference v s = completed .refused) ∧
      (isFailure v.result.verdict = true →
        (∀ maxReply, t.kind = .read maxReply → takeTxnVerdict l t.reference v s = completed .failed) ∧
        (∀ data, t.kind = .write data → takeTxnVerdict l t.reference v s = completed .unconfirmed))) ∧
  (∀ (l : LineId) (s : State) (v : VerdictRecord) (n : NodeRecord), n ∈ (s.line l).nodes →
    ((s.line l).nodes.map (·.address)).Nodup → isAddressed v.order.kind = true →
    orderAddress v.order.kind = n.address → orderNodeUid v.order.kind = n.uid →
    (∀ p, v.order.kind = .probe n.address n.uid → v.result.verdict = .ok → v.result.profile = some p →
      (n.state = .pending ∨ n.state = .lost) → (s.subs.map (·.id)).Nodup →
      ∃ (t : State) (faults : List SubRecord), takeNodeVerdict l v s = t ∧
        t = { s.modifyLine l (fun x => { x with nodes := x.nodes.map fun k => if k = n then
            { k with
              state := .online, failures := 0, toggle := false, profile := some p, lastVerdict := some .ok
              lastRound := some v.order.round
              counters := { k.counters with
                good := satInc k.counters.good, retries := satAdd k.counters.retries v.retries
                noisy := if v.result.noisy then satInc k.counters.noisy else k.counters.noisy } } else k }) with
          subs := s.subs.map fun q =>
            if q.line = l ∧ q.node = n.address ∧ q.state = .waiting then
              if p.channels ≤ q.channel then
                { q with state := .faulted, faultReason := some .noChannel, referencePayload := none }
              else if p.maxPayload < q.maxLength then
                { q with state := .faulted, faultReason := some .badLength, referencePayload := none }
              else { q with
                state := .active, resumed := true, referencePayload := none
                phase := some (((s.line l).sched.roundNumber + 1).toNat % q.period) }
            else q
          delivery := { s.delivery with
            queue := (faults.map fun q => ReportRequest.subState q.id q.uid).foldl joined
              (joined s.delivery.queue (.nodeState l n.address n.uid)) } } ∧
        faults.Perm (s.subs.filter fun q => decide (q.line = l ∧ q.node = n.address ∧ q.state = .waiting ∧
          (p.channels ≤ q.channel ∨ p.maxPayload < q.maxLength))) ∧
        faults.Pairwise fun a b => a.channel ≤ b.channel) ∧
    (mayRetry v.order.kind = true → (n.state = .online ∨ n.state = .suspect) →
      (v.result.verdict = .ok ∨ v.result.verdict = .refused) →
      takeNodeVerdict l v s = { s.modifyLine l (fun x => { x with nodes := x.nodes.map fun k => if k = n then
            { k with
              state := .online, failures := 0, lastVerdict := some v.result.verdict
              lastRound := some v.order.round
              toggle := if isAddressedWrite v.order.kind = true ∧ v.result.verdict = .ok then !k.toggle
                else k.toggle
              counters := { k.counters with
                good := if v.result.verdict = .ok then satInc k.counters.good else k.counters.good
                refusals := if v.result.verdict = .refused then satInc k.counters.refusals
                  else k.counters.refusals
                retries := satAdd k.counters.retries v.retries
                noisy := if v.result.verdict = .ok ∧ v.result.noisy = true then satInc k.counters.noisy
                  else k.counters.noisy } } else k }) with
          delivery := { s.delivery with queue :=
            if n.state = .suspect then joined s.delivery.queue (.nodeState l n.address n.uid)
            else s.delivery.queue } }) ∧
    (mayRetry v.order.kind = true → (n.state = .online ∨ n.state = .suspect) → isFailure v.result.verdict = true →
      ∀ failed : NodeRecord → NodeRecord, (∀ k, failed k = { k with
          failures := k.failures + 1, lastVerdict := some v.result.verdict, lastRound := some v.order.round
          counters := { k.counters with
            failed := satInc k.counters.failed, retries := satAdd k.counters.retries v.retries } }) →
      (n.failures + 1 < (s.line l).config.failureThreshold →
        takeNodeVerdict l v s = { s.modifyLine l (fun x => { x with nodes := x.nodes.map fun k => if k = n then
              { failed k with state := .suspect } else k }) with
            delivery := { s.delivery with queue :=
              if n.state = .online then joined s.delivery.queue (.nodeState l n.address n.uid)
              else s.delivery.queue } }) ∧
      ((s.line l).config.failureThreshold ≤ n.failures + 1 →
        takeNodeVerdict l v s = { s.modifyLine l (fun x => { x with
              nodes := x.nodes.map fun k => if k = n then
                { failed k with
                  state := .lost
                  counters := { (failed k).counters with losses := satInc k.counters.losses } } else k
              sched := { x.sched with pollList := x.sched.pollList.filter fun id =>
                ∀ q ∈ s.subs, q.id = id → ¬(q.line = l ∧ q.node = n.address ∧ q.state = .active) } }) with
            subs := s.subs.map fun q => if q.line = l ∧ q.node = n.address ∧ q.state = .active then
              { q with state := .waiting, referencePayload := none } else q
            delivery := { s.delivery with
              queue := joined s.delivery.queue (.nodeState l n.address n.uid) } })) ∧
    (v.result.verdict = .contention →
      takeNodeVerdict l v s = s.modifyLine l (fun x => { x with nodes := x.nodes.map fun k => if k = n then
        { k with lastVerdict := some .contention, lastRound := some v.order.round } else k })) ∧
    (v.order.kind = .probe n.address n.uid → isFailure v.result.verdict = true →
      takeNodeVerdict l v s = s.modifyLine l (fun x => { x with nodes := x.nodes.map fun k => if k = n then
        { k with
          lastVerdict := some v.result.verdict, lastRound := some v.order.round
          counters := { k.counters with
            failed := satInc k.counters.failed, retries := satAdd k.counters.retries v.retries } } else k })))

/-! ### The Line Port -/

/-- What the receiver makes of the samples of its input, while the part does not transmit. In HUNT the first low
sample is sample 1 of a character, and signals start begun (R128); each bit has the value of at least two of its three
samples, at 16k + 7 to 16k + 9 (R129). A start bit of 1 is a false start; with 0 the configured rate is in force
(R138), and at a change the fractional divider starts anew (the model's choice, log 1). The decision falls at sample
169: eleven bits of 0 are a break (R130); any other character is signalled at its nominal end, sample 176, ahead of a
start bit begun meanwhile, and after a stop bit of 0 the receiver waits for the return high. In WAIT_HIGH the low time
and a break are measured sample by sample, above 704 the input is stuck (R131), and the first high sample is the
return high. -/
def Obligations.SamplesMakeCharactersAndBreaks : Prop :=
  ∀ (configured : BitRate) (echoCheck : Bool) (levels : Nat → PinLevel) (p : LinePort), p.tx = .idle →
    ∀ after : Nat → LinePort, (∀ n, after n = afterSamples configured echoCheck levels n p) →
    (p.rxPhase = .hunt → p.lowTime = 0 → p.ended = none → p.inBreak = none → levels 1 = .low →
      (bitValue levels 0 = true →
        (after 9).rxPhase = .hunt ∧ (after 9).ended = none ∧ (after 9).inBreak = none ∧
        (after 9).rate = p.rate ∧ (after 9).signals = p.signals ++ [.startBegun, .falseStart]) ∧
      (bitValue levels 0 = false →
        ((after 9).rxPhase = .bits ∧ (after 9).rate = configured ∧
          (after 9).divider = (if configured = p.rate then p.divider else 0) ∧
          (after 9).signals = p.signals ++ [.startBegun]) ∧
        (p.rate = configured → (∃ k, k ≤ 10 ∧ bitValue levels k = true) →
          ∃ c, SampledAs levels c ∧ c.echo = false ∧
            (after 169).ended = some { character := c, left := 7, startWaits := false } ∧
            (after 169).rxPhase = (if c.stop then .hunt else .waitHigh) ∧ (after 169).inBreak = none ∧
            (after 169).signals = p.signals ++ [.startBegun]) ∧
        (p.rate = configured → (∀ k, k ≤ 10 → bitValue levels k = false) →
          (after 169).ended = none ∧ (after 169).rxPhase = .waitHigh ∧ (after 169).inBreak = some 169 ∧
          (after 169).signals = p.signals ++ [.startBegun, .breakDetected]))) ∧
    (∀ c, p.ended = some { character := c, left := 7, startWaits := false } → p.rxPhase = .hunt →
      p.lowTime = 0 → p.inBreak = none →
      ((∀ k, 1 ≤ k → k ≤ 7 → levels k = .high) →
        (after 7).ended = none ∧ (after 7).rxPhase = .hunt ∧
        (after 7).signals = p.signals ++ [.characterEnd c]) ∧
      (∀ k, 1 ≤ k → k ≤ 7 → (∀ j, 1 ≤ j → j < k → levels j = .high) → levels k = .low →
        (after 7).ended = none ∧ (after 7).rxPhase = .qualify ∧ (after 7).samplePosition = 7 - k ∧
        (after 7).signals = p.signals ++ [.characterEnd c, .startBegun])) ∧
    (p.rxPhase = .waitHigh → p.ended = none →
      (levels 1 = .high →
        (after 1).rxPhase = .hunt ∧ (after 1).inBreak = none ∧ (after 1).stuck = false ∧
        (after 1).lowTime = 0 ∧
        (after 1).signals = p.signals ++ [match p.inBreak with
          | none => .returnHigh
          | some duration => if p.stuck then .stuckEnd duration else .breakEnd duration]) ∧
      (1 ≤ p.lowTime → p.lowRate = p.rate → p.lowPhase = 0 →
        (∀ n, (∀ k, 1 ≤ k → k ≤ n → levels k = .low) → (p.stuck = true ∨ p.lowTime + n ≤ 704) →
          (after n).rxPhase = .waitHigh ∧ (after n).lowTime = p.lowTime + n ∧
          (after n).inBreak = p.inBreak.map (· + n) ∧ (after n).stuck = p.stuck ∧
          (after n).signals = p.signals) ∧
        (levels 1 = .low → p.stuck = false → p.lowTime = 704 →
          (after 1).rxPhase = .waitHigh ∧ (after 1).stuck = true ∧ (after 1).lowTime = 705 ∧
          (after 1).inBreak = some (match p.inBreak with
            | none => 705
            | some duration => duration + 1) ∧
          (after 1).signals = p.signals ++ [.stuck p.inBreak.isNone])))

/-- What the part sends, and its echoes. The transmit output is the bit being sent, 16 sample periods each: start bit
0, the nine data bits with the least significant first, stop bit 1; low through a break and high otherwise (R126,
R132, R133). Under echo check the receiver starts again at each start bit the part sends, the end of the echo before
still to be signalled. An echo that begins up to 6 sample periods after it has its stop-bit decision before the
deadline, and passes with the data bits sent and a stop bit of 1 and fails otherwise, as it does when it is a break;
after a false start, with an echo that begins 7 or more sample periods late, or with none, no decision comes in time
and it fails at the end of the character, that a decision at that very sample comes too late being the model's choice
(log 20); once it has failed no further character of the frame is sent (R134, R135). A MUTED receiver takes no sample. -/
def Obligations.FramesAreSentAndEchoesChecked : Prop :=
  ∀ (configured : BitRate) (echoCheck : Bool) (levels : Nat → PinLevel) (p : LinePort) (after : Nat → LinePort),
    (∀ n, after n = afterSamples configured echoCheck levels n p) →
    (p.tx = .idle → transmitOutput p = .high) ∧
    (∀ jam left, p.tx = .sendingBreak jam left → transmitOutput p = .low) ∧
    (∀ chars position finishing, p.tx = .frame chars position finishing →
      (∀ i c bit part, chars[i]? = some c → bit ≤ 10 → part < 16 → position = 176 * i + 16 * bit + part →
        transmitOutput p =
          if bit = 0 then .low else if bit = 10 ∨ c.getLsbD (bit - 1) = true then .high else .low) ∧
      (176 * chars.length ≤ position → transmitOutput p = .high)) ∧
    (p.rxPhase = .muted → p.ended = none →
      (∀ jam left n, p.tx = .sendingBreak jam left → (∀ k, levels k = levels 1) → 1 ≤ n →
        after n = { p with input := levels 1, tx := .sendingBreak jam (left - n) }) ∧
      (∀ chars position finishing n, p.tx = .frame chars position finishing → p.echo = .none →
        position + n ≤ 176 * chars.length → (∀ k, levels k = levels 1) → 1 ≤ n →
        after n = { p with input := levels 1, tx := .frame chars (position + n) finishing })) ∧
    (∀ chars i c before, p.tx = .frame chars (176 * i) false → chars[i]? = some c → echoCheck = true →
      p.rate = configured → p.rxPhase ≠ .muted →
      (∀ e, p.ended = some e → e.left ≤ 7 ∧ e.startWaits = false) →
      before = p.signals ++ (p.ended.map fun e => PortSignal.characterEnd e.character).toList →
      (∀ (delay : Nat) (delayed : Nat → PinLevel), delay ≤ 6 → (∀ k, delayed k = levels (delay + k)) →
        (∀ k, 1 ≤ k → k ≤ delay → levels k = .high) → delayed 1 = .low →
        (bitValue delayed 0 = false →
          ((∃ k, k ≤ 10 ∧ bitValue delayed k = true) →
            ∃ e, SampledAs delayed e ∧ e.echo = true ∧
              (after (delay + 169)).ended = some { character := e, left := 7, startWaits := false } ∧
              (after (delay + 169)).signals = before ++ [.echoBegun] ∧
              ((e.data = c ∧ e.stop = true) →
                (after (delay + 169)).echo = .none ∧
                (after (delay + 169)).tx = .frame chars (176 * i + delay + 169) false) ∧
              (¬(e.data = c ∧ e.stop = true) →
                (after (delay + 169)).echo = .failed ∧
                (after (delay + 169)).tx = .frame (chars.take (i + 1)) (176 * i + delay + 169) false)) ∧
          ((∀ k, k ≤ 10 → bitValue delayed k = false) →
            (after (delay + 169)).ended = none ∧ (after (delay + 169)).inBreak.isSome = true ∧
            (after (delay + 169)).signals = before ++ [.echoBegun, .breakDetected] ∧
            (after (delay + 169)).echo = .failed ∧
            (after (delay + 169)).tx = .frame (chars.take (i + 1)) (176 * i + delay + 169) false)) ∧
        (bitValue delayed 0 = true →
          (after (delay + 9)).rxPhase = .hunt ∧
          (after (delay + 9)).signals = before ++ [.echoBegun, .falseStart] ∧
          (after 175).echo = .expecting c (176 * (i + 1)) ∧ (after 176).echo = .failed ∧
          (after 176).tx = .frame (chars.take (i + 1)) (176 * (i + 1)) false)) ∧
      ((∀ k, 1 ≤ k → k ≤ 7 → levels k = .high) →
        (after 175).echo = .expecting c (176 * (i + 1)) ∧
        (after 175).tx = .frame chars (176 * i + 175) false ∧ (after 176).echo = .failed ∧
        (after 176).tx = .frame (chars.take (i + 1)) (176 * (i + 1)) false ∧
        ((∀ k, 1 ≤ k → k ≤ 176 → levels k = .high) → (after 176).signals = before)))

/-! ### Start bits, breaks and stuck inputs -/

/-- START_BEGUN takes start begun, after the sample periods it carries (log 2): the timers of the engine that run are
held; of an echo's start bit no timer is held. RETURN_HIGH takes the return high that ends no break; of a return the
port signals to nobody, inside a character or in HUNT, it carries the periods alone. The queue of the port's signals
(log 20), RETURN_HIGH in a break or without a signal (log 28), and that without the event nothing happens (log 3) are
the model's choices. -/
def Obligations.StartBitsHoldTheTimers : Prop :=
  ∀ (l : LineId) (periods : Periods) (s : State), s.resetHeld = false →
    (∀ base, Signalled l periods .startBegun s base →
      exec (.startBegun l periods) s = .next (outbound (base.modifyLine l fun x => { x with
        engine := { x.engine with
          window := x.engine.window.hold, gap := x.engine.gap.hold
          settling := x.engine.settling.hold } }))) ∧
    (∀ base, Signalled l periods .echoBegun s base →
      exec (.startBegun l periods) s = .next (outbound base)) ∧
    ((∀ base, ¬ Signalled l periods .startBegun s base ∧ ¬ Signalled l periods .echoBegun s base) →
      exec (.startBegun l periods) s = .next (outbound s)) ∧
    (∀ base, Signalled l periods .returnHigh s base →
      exec (.returnHigh l periods) s = .next (outbound base)) ∧
    ((∀ base, ¬ Signalled l periods .returnHigh s base) →
      ∀ u, u = playPeriods l periods s →
        ((u.line l).port.input = .high → (u.line l).port.signals = (s.line l).port.signals →
          exec (.returnHigh l periods) s = .next (outbound u)) ∧
        ((u.line l).port.input = .low ∨ (u.line l).port.signals ≠ (s.line l).port.signals →
          exec (.returnHigh l periods) s = .next (outbound s))) ∧
    (∀ left, CharTimer.hold .stopped = .stopped ∧ CharTimer.hold (.running left) = .held left ∧
      CharTimer.hold (.held left) = .held left)

/-- FALSE_START takes false start, after the sample periods it carries (the model's choice, log 2 and log 20): the held
timer resumes, or expires at once if its time ran out while held. Without the signal nothing happens (log 3). -/
def Obligations.FalseStartResumesTheTimer : Prop :=
  ∀ (l : LineId) (periods : Periods) (s : State), s.resetHeld = false →
    ((∀ base, ¬ Signalled l periods .falseStart s base) →
      exec (.falseStart l periods) s = .next (outbound s)) ∧
    ∀ base, Signalled l periods .falseStart s base →
      ∃ t, exec (.falseStart l periods) s = .next (outbound t) ∧ HoldEnded l base t

/-- BREAK_DETECTED takes break detected, after the sample periods it carries (the model's choice, log 2 and log 20):
the break is counted, and an attempt in AWAITING or RECEIVING ends BREAK, held until the break ends (R31). BREAK_END
takes break end with the duration the port has measured: a break of 2 character times or more sets the toggle copies to
0 (R23), and the engine decides the held attempt or goes on settling. Without the signal nothing happens (log 3). -/
def Obligations.BreaksAreCountedAndEndTheAttempt : Prop :=
  ∀ (l : LineId) (periods : Periods) (s : State), s.resetHeld = false →
    ((∀ taken, ¬ Signalled l periods .breakDetected s taken) →
      exec (.breakDetected l periods) s = .next (outbound s)) ∧
    (∀ taken base, Signalled l periods .breakDetected s taken →
      base = taken.modifyLine l (fun x => { x with
        counters := { x.counters with breaksSeen := satInc x.counters.breaksSeen } }) →
      ((base.line l).engine.state = .awaiting ∨ (base.line l).engine.state = .receiving →
        exec (.breakDetected l periods) s = .next (outbound (base.modifyLine l fun x => { x with
          engine := { x.engine with
            window := .stopped, gap := .stopped, breakHold := true, breakSeen := true
            lastVerdict := some .lineBreak
            buffer := { bytes := [], noiseSeen := false, framingSeen := false } } }))) ∧
      ((base.line l).engine.state = .settling →
        exec (.breakDetected l periods) s = .next (outbound (base.modifyLine l fun x => { x with
          engine := { x.engine with breakSeen := true } }))) ∧
      ((base.line l).engine.state = .idle ∨ (base.line l).engine.state = .sending →
        exec (.breakDetected l periods) s = .next (outbound base))) ∧
    ((∀ duration taken, ¬ Signalled l periods (.breakEnd duration) s taken) →
      exec (.breakEnd l periods) s = .next (outbound s)) ∧
    (∀ duration taken base, Signalled l periods (.breakEnd duration) s taken →
      base = taken.modifyLine l (fun x => { x with
        nodes := if 352 ≤ duration then x.nodes.map fun n => { n with toggle := false } else x.nodes }) →
      ((base.line l).engine.state = .idle ∨ (base.line l).engine.state = .sending →
        (base.line l).engine.breakHold = false →
        exec (.breakEnd l periods) s = .next (outbound base)) ∧
      (∀ o, (base.line l).engine.order = some o → (base.line l).engine.breakHold = true →
        ∃ t, exec (.breakEnd l periods) s = .next (outbound t) ∧ AttemptEnds l o .lineBreak base t) ∧
      ((base.line l).engine.state = .settling → (base.line l).engine.breakHold = false →
        ∃ t, exec (.breakEnd l periods) s = .next (outbound t) ∧ HoldEnded l base t))

/-- STUCK takes a stuck report, after the sample periods it carries (the model's choice, log 2 and log 20), counted as
a break seen unless it was one before: an exchange in flight ends at once, with BREAK in AWAITING and RECEIVING and
from SETTLING with the last attempt's verdict (R31); it is counted, and the verdict is delivered to its owner and its
node (R38), upon which RUNNING goes to FAULT with cause stuck and STOPPING to STOPPED (R123). With the engine IDLE
RUNNING and HOLDOFF go to FAULT, and the other states stay, STOPPING too, where only a report taken late comes with
its jam break still to end, as in SENDING (log 20). STUCK_END takes stuck end: the break ends with its duration, to
the Node Table and to the engine, and in FAULT the idle wait starts if it has not before (R124; DEDUCED, log 18).
Without the signal nothing happens (log 3). -/
def Obligations.StuckInputsFaultTheLine : Prop :=
  ∀ (l : LineId) (periods : Periods) (s : State), s.resetHeld = false →
    ((∀ newBreak taken, ¬ Signalled l periods (.stuck newBreak) s taken) →
      exec (.stuck l periods) s = .next (outbound s)) ∧
    (∀ newBreak taken base, Signalled l periods (.stuck newBreak) s taken →
      base = taken.modifyLine l (fun x => { x with
        counters := { x.counters with
          breaksSeen := if newBreak = true then satInc x.counters.breaksSeen else x.counters.breaksSeen } }) →
      ((base.line l).engine.state = .idle →
        ((base.line l).lineState = .running ∨ (base.line l).lineState = .holdoff →
          exec (.stuck l periods) s = .next (outbound (faulted l .stuck base))) ∧
        ((base.line l).lineState = .stopped ∨ (base.line l).lineState = .fault ∨
            (base.line l).lineState = .stopping →
          exec (.stuck l periods) s = .next (outbound base))) ∧
      ((base.line l).engine.state = .sending →
        exec (.stuck l periods) s = .next (outbound base)) ∧
      (∀ o v t, (base.line l).engine.order = some o →
        (((base.line l).engine.state = .awaiting ∨ (base.line l).engine.state = .receiving) ∧ v = .lineBreak ∨
          (base.line l).engine.state = .settling ∧ (base.line l).engine.lastVerdict = some v ∧ v ≠ .contention) →
        t = deliverVerdict l
          { order := o, result := plainResult v, framesSent := (base.line l).engine.framesSent
            retries := (base.line l).engine.attempt - startAttempt o.kind } true
          (base.modifyLine l fun x => { x with
            engine := { endedEngine v x.engine with
              breakSeen := true
              buffer := if x.engine.state = .settling then x.engine.buffer
                else { bytes := [], noiseSeen := false, framingSeen := false } }
            counters := { x.counters with exchanges := satInc x.counters.exchanges } }) →
        exec (.stuck l periods) s = .next (outbound t) ∧
        ((base.line l).lineState = .running ∨ (base.line l).lineState = .stopping →
          (t.line l).engine.state = .idle ∧ (t.line l).engine.order = none ∧
          (t.line l).engine.lastVerdict = some v ∧
          ((base.line l).lineState = .running →
            (t.line l).lineState = .fault ∧ (t.line l).cause = .stuck) ∧
          ((base.line l).lineState = .stopping →
            (t.line l).lineState = .stopped ∧ (t.line l).cause = .request ∧
            (t.line l).purgePending = false ∧ (t.line l).sched.pollList = []) ∧
          (t.line l).sched.roundTimer = .stopped ∧ (t.line l).port = (base.line l).port ∧
          (t.line l).counters = { (base.line l).counters with
            exchanges := satInc (base.line l).counters.exchanges } ∧
          .lineState l ∈ t.delivery.queue ∧ ∀ k, k ≠ l → t.line k = s.line k))) ∧
    ((∀ duration taken, ¬ Signalled l periods (.stuckEnd duration) s taken) →
      exec (.stuckEnd l periods) s = .next (outbound s)) ∧
    (∀ duration taken base, ∀ waiting : State → State, Signalled l periods (.stuckEnd duration) s taken →
      base = taken.modifyLine l (fun x => { x with
        nodes := if 352 ≤ duration then x.nodes.map fun n => { n with toggle := false } else x.nodes }) →
      (∀ t, waiting t = t.modifyLine l fun x => { x with
        idleWait := if x.lineState = .fault ∧ x.idleWait = .stopped ∧ x.port.input = .high then
          .running x.config.holdoff else x.idleWait }) →
      ((base.line l).engine.state = .idle ∨ (base.line l).engine.state = .sending →
        (base.line l).engine.breakHold = false →
        exec (.stuckEnd l periods) s = .next (outbound (waiting base))) ∧
      (∀ o, (base.line l).engine.order = some o → (base.line l).engine.breakHold = true →
        ∃ t, exec (.stuckEnd l periods) s = .next (outbound (waiting t)) ∧ AttemptEnds l o .lineBreak base t) ∧
      ((base.line l).engine.breakHold = false →
        ∃ t, exec (.stuckEnd l periods) s = .next (outbound (waiting t)) ∧ HoldEnded l base t))

/-! ### Contention, the breaks the part sends, and Line Control -/

/-- CONTENTION at the end of the character whose echo has failed, after the sample periods it carries (log 2): the
exchange ends CONTENTION and is counted, the jam break begins, RUNNING goes to HOLDOFF, or at the fourth contention of
the round to FAULT, and STOPPING stays. A break being measured, as when the failed echo was one, ends at that moment,
is seen by the engine, and resets the toggles if it lasted 2 character times; that the driver, asserted already, is
taken as asserted again there is the model's (DEDUCED, log 12). The node's last verdict and round change and nothing
else of it. A READ, or a WRITE never sent in full, is QUEUED again at the head while its contention returns are below
3; otherwise a READ completes FAILED and a WRITE UNCONFIRMED (R102). Before that moment nothing happens (log 3). -/
def Obligations.ContentionEndsTheExchange : Prop :=
  ∀ (l : LineId) (periods : Periods) (s u : State), s.resetHeld = false → u = playPeriods l periods s →
    ((∀ chars position, (u.line l).port.tx = .frame chars position false → (u.line l).port.echo = .failed →
        position < 176 * chars.length) →
      exec (.contention l periods) s = .next (outbound s)) ∧
    ∀ o chars position, (u.line l).port.tx = .frame chars position false → (u.line l).port.echo = .failed →
      176 * chars.length ≤ position → (u.line l).engine.order = some o →
    ∃ t, exec (.contention l periods) s = .next (outbound t) ∧
      (t.line l).engine = { endedEngine .contention (u.line l).engine with
        breakSeen := (u.line l).engine.breakSeen || (u.line l).port.inBreak.isSome } ∧
      (t.line l).port = { clearedPort (u.line l).port with
        tx := .sendingBreak true 352, driverEnable := true, rxPhase := .muted } ∧
      (t.line l).counters = { (u.line l).counters with
        exchanges := satInc (u.line l).counters.exchanges
        contentions := satInc (u.line l).counters.contentions } ∧
      (t.line l).sched.contentionCount = (u.line l).sched.contentionCount + 1 ∧
      ((u.line l).lineState = .running → .lineState l ∈ t.delivery.queue ∧
        ((u.line l).sched.contentionCount + 1 < 4 →
          (t.line l).lineState = .holdoff ∧ (t.line l).cause = .contention) ∧
        (4 ≤ (u.line l).sched.contentionCount + 1 →
          (t.line l).lineState = .fault ∧ (t.line l).cause = .contentionLimit ∧
          (t.line l).sched.roundTimer = .stopped)) ∧
      ((u.line l).lineState = .stopping → (t.line l).lineState = .stopping) ∧
      (t.line l).nodes = ((u.line l).nodes.map fun n =>
        if isAddressed o.kind = true ∧ n.address = orderAddress o.kind ∧ n.uid = orderNodeUid o.kind then
          { n with lastVerdict := some .contention, lastRound := some o.round } else n).map (fun n =>
        { n with toggle :=
          n.toggle && !((u.line l).port.inBreak.any fun duration => decide (352 ≤ duration)) }) ∧
      (∀ k, k ≠ l → t.line k = s.line k) ∧
      (∀ x ∈ s.txns, (s.txns.map (·.reference)).Nodup →
        (∀ node uid channel maxReply start, o.kind = .read x.reference node uid channel maxReply start →
          x.kind = .read maxReply →
          (x.contentionReturns + 1 < 3 → TxnReturned l x (s.line l).engine.framesSent s t) ∧
          (3 ≤ x.contentionReturns + 1 → TxnContended l x (s.line l).engine.framesSent .failed s t)) ∧
        (∀ node uid channel data start, o.kind = .write x.reference node uid channel data start →
          x.kind = .write data →
          (x.contentionReturns + 1 < 3 → x.attempts + (s.line l).engine.framesSent = 0 →
            TxnReturned l x (s.line l).engine.framesSent s t) ∧
          (3 ≤ x.contentionReturns + 1 ∨ 1 ≤ x.attempts + (s.line l).engine.framesSent →
            TxnContended l x (s.line l).engine.framesSent .unconfirmed s t)))

/-- JAM_BREAK_END and BREAK_ORDER_END, after the sample periods they carry (log 2): the driver is released, with the
input low as the first low sample (DEDUCED, log 32), the quiet
starts again and the toggle copies are 0. After a jam break, by the line's state, the holdoff starts, the idle wait
starts if the input is high, or the stop is completed. After a break order the engine is IDLE, the line's nodes in
service enter PENDING, and a stop is completed (R118); that their NODE_STATE requests then join ahead of LINE_STATE is
the model's choice (log 9). That nothing happens without the break (log 3), or before its length has
been sent (log 4), is the model's choice. -/
def Obligations.EndsOfTheBreaksSent : Prop :=
  (∀ (l : LineId) (periods : Periods) (s u : State), s.resetHeld = false → LineSound (s.line l) →
     u = playPeriods l periods s →
     (∀ base, (u.line l).port.tx = .sendingBreak true 0 →
       base = u.modifyLine l (fun x => { x with
         port := releasedPort x.port, sched := { x.sched with quiet := .running 352 }
         nodes := x.nodes.map fun n => { n with toggle := false } }) →
       ((u.line l).lineState = .holdoff →
         exec (.jamBreakEnd l periods) s = .next (outbound (base.modifyLine l fun x => { x with
           holdoffTimer := .running x.config.holdoff }))) ∧
       ((u.line l).lineState = .fault →
         exec (.jamBreakEnd l periods) s = .next (outbound (base.modifyLine l fun x => { x with
           idleWait := if x.port.input = .high then .running x.config.holdoff else x.idleWait }))) ∧
       ((u.line l).lineState = .stopping →
         exec (.jamBreakEnd l periods) s = .next (outbound (stopCompleted l base))) ∧
       ((u.line l).lineState = .stopped ∨ (u.line l).lineState = .running →
         exec (.jamBreakEnd l periods) s = .next (outbound base))) ∧
     ((u.line l).port.tx ≠ .sendingBreak true 0 →
       exec (.jamBreakEnd l periods) s = .next (outbound s))) ∧
  (∀ (l : LineId) (periods : Periods) (s u : State), s.resetHeld = false → LineSound (s.line l) →
     u = playPeriods l periods s → ((s.line l).nodes.map (·.address)).Nodup →
     ((u.line l).port.tx = .sendingBreak false 0 →
       ∃ t, EnteredPending l (fun n => n.state.inService)
         (u.modifyLine l fun x => { x with
           port := releasedPort x.port, sched := { x.sched with quiet := .running 352 }
           engine := { x.engine with state := .idle, order := none }
           nodes := x.nodes.map fun n => { n with toggle := false } }) t ∧
         exec (.breakOrderEnd l periods) s =
           .next (outbound (if (u.line l).lineState = .stopping then stopCompleted l t else t))) ∧
     ((u.line l).port.tx ≠ .sendingBreak false 0 →
       exec (.breakOrderEnd l periods) s = .next (outbound s)))

/-- HOLDOFF_EXPIRY, once the holdoff's time is up: HOLDOFF goes to RUNNING, or with a stuck input on to FAULT at once.
IDLE_WAIT_EXPIRY, once the idle wait's time is up: FAULT goes to RUNNING with cause recovered, the nodes in service
enter PENDING, and a new round starts. That a command changes nothing with its timer stopped or in another line state
(log 3), nor while its timer has time left (log 4), is the model's choice. -/
def Obligations.HoldoffAndIdleWaitReturnToRunning : Prop :=
  ∀ (l : LineId) (s : State), s.resetHeld = false →
    (∀ base, (s.line l).lineState = .holdoff → (s.line l).holdoffTimer = .running 0 →
      base = { s with delivery := { s.delivery with
          queue := joined s.delivery.queue (.lineState l) } }.modifyLine l (fun x => { x with
        lineState := .running, cause := .holdoffEnd, holdoffTimer := .stopped }) →
      ((s.line l).port.stuck = false → exec (.holdoffExpiry l) s = .next (outbound base)) ∧
      ((s.line l).port.stuck = true → (s.line l).engine.state = .idle →
        exec (.holdoffExpiry l) s = .next (outbound (faulted l .stuck base)))) ∧
    ((s.line l).lineState ≠ .holdoff ∨ (s.line l).holdoffTimer ≠ .running 0 →
      exec (.holdoffExpiry l) s = .next (outbound s)) ∧
    ((s.line l).lineState = .fault → (s.line l).idleWait = .running 0 →
      (s.line l).port.stuck = false → ((s.line l).nodes.map (·.address)).Nodup →
      ∃ t ids, EnteredPending l (fun n => n.state.inService)
        ({ s with delivery := { s.delivery with
            queue := joined s.delivery.queue (.lineState l) } }.modifyLine l fun x => { x with
          lineState := .running, cause := .recovered, idleWait := .stopped }) t ∧
        PollListFor t l ((s.line l).sched.roundNumber + 1) ids ∧
        exec (.idleWaitExpiry l) s = .next (outbound (t.modifyLine l fun x => { x with
          counters := { x.counters with rounds := satInc x.counters.rounds }
          sched := { x.sched with
            roundNumber := x.sched.roundNumber + 1, roundTimer := .running x.config.roundPeriod
            pollList := ids, broadcastSent := false, probeDone := false, allowanceUsed := 0
            alternation := .none, contentionCount := 0 } }))) ∧
    ((s.line l).lineState ≠ .fault ∨ (s.line l).idleWait ≠ .running 0 →
      exec (.idleWaitExpiry l) s = .next (outbound s))

/-- KEEP_OLDEST, no room for the sample, and the reply offered (R84): the queue and the blocks stay, the sequence
number is used up, the sample is counted as dropped, the resumed flag is cleared, and a CHANGE subscription's
reference payload is the dropped one, which is not offered again. -/
def Obligations.KeepOldestDropsTheSample : Prop :=
  ∀ (s : State) (r : SubRecord) (round : Word16) (noisy : Bool) (reply : Reply), r ∈ s.subs →
    (s.subs.map (·.id)).Nodup → r.policy = .keepOldest → r.queue ≠ [] →
    (r.depth ≤ r.queue.length ∨ spareBlocks s = 0) →
    (r.kind = .change → r.resumed = true ∨ r.referencePayload ≠ some reply.payload) →
    ∀ kept, kept = { r with
        nextSequence := r.nextSequence + 1, dropped := satInc r.dropped, resumed := false
        referencePayload := if r.kind = .change then some reply.payload else r.referencePayload } →
      takeOkReply r round noisy reply s = { s with subs := s.subs.map fun q => if q = r then kept else q } ∧
      spareBlocks (takeOkReply r round noisy reply s) = spareBlocks s ∧
      (r.kind = .change → ∀ (again : Word16) (other : Bool) (clock : Word32),
        takeOkReply kept again other { payload := reply.payload, captureTime := clock }
          (takeOkReply r round noisy reply s) = takeOkReply r round noisy reply s)

/-- KEEP_NEWEST, no room for the sample, and the reply offered (R83): the oldest sample goes, and with it its mark of
a resumption; the others stay as they are, and the new sample, made and numbered by R69 and R81, joins at the tail in
its block. The queue's length and the free and spare blocks stay, and the dropped count goes up by one, to 65535 at
most. The sequence number of the sample gone is missing from a queue whose numbers differ. A queue of depth 1 holds
the new sample alone. What else the offer does, VerdictsReachTheirOwners says. -/
def Obligations.KeepNewestReplacesTheOldestSample : Prop :=
  ∀ (s t : State) (r : SubRecord) (round : Word16) (noisy : Bool) (reply : Reply) (oldest x : Sample)
    (others : List Sample), r ∈ s.subs → (s.subs.map (·.id)).Nodup → r.policy = .keepNewest →
    r.queue = oldest :: others → (r.depth ≤ r.queue.length ∨ spareBlocks s = 0) →
    (r.kind = .change → r.resumed = true ∨ r.referencePayload ≠ some reply.payload) →
    x = {
      subId := r.id, sequence := r.nextSequence, round := round, captureTime := reply.captureTime
      resumed := r.resumed, noisy := noisy, payload := reply.payload } →
    t = takeOkReply r round noisy reply s →
    ∃ after ∈ t.subs, after.id = r.id ∧ after.uid = r.uid ∧ after.queue = others ++ [x] ∧
      after.queue.length = r.queue.length ∧ after.dropped = satInc r.dropped ∧
      t.freeBlocks = s.freeBlocks ∧ spareBlocks t = spareBlocks s ∧
      ((r.queue.map (·.sequence) ++ [r.nextSequence]).Nodup → ∀ y ∈ after.queue, y.sequence ≠ oldest.sequence) ∧
      (r.depth = 1 → r.queue.length ≤ r.depth → after.queue = [x]) ∧
      ∀ q ∈ s.subs, q ≠ r → q ∈ t.subs

/-! ### What holds at all times -/

/-- A command of one line that goes on leaves the other line, both configurations, the inbox, the response cache, the
link state and the commands that wait as they are. That the millisecond clock and its prescaler stand still under such a
command, the sample periods it carries included, is the model's choice (log 1). -/
def Obligations.LineEventsLeaveTheRest : Prop :=
  ∀ (c : Instr) (l : LineId) (s t : State), lineOf c = some l → exec c s = .next t →
    (∀ k, k ≠ l → t.line k = s.line k) ∧ (t.line l).config = (s.line l).config ∧
    t.resetHeld = s.resetHeld ∧ t.msClock = s.msClock ∧ t.prescaler = s.prescaler ∧ t.pending = s.pending ∧
    t.nextUid = s.nextUid ∧ t.link.inbox = s.link.inbox ∧ t.link.cache = s.link.cache ∧
    t.link.linkState = s.link.linkState

/-- Every step keeps the bounds of the host link, the report queue free of duplicates, and the order of the
report window. -/
def Obligations.StepsKeepTheLinkBounds : Prop :=
  ∀ (s t : State), step s = .next t →
    (LinkBounded s → LinkBounded t) ∧ (QueueDistinct s → QueueDistinct t) ∧
    (WindowOrdered s → WindowOrdered t)

/-- Every step keeps the sample pool: blocks number 96, reservations are covered, queues stay within their depths,
and notices agree with the queues. -/
def Obligations.StepsKeepTheSamplePool : Prop :=
  ∀ (s t : State), PoolConserved s → step s = .next t → PoolConserved t

/-- Every step keeps the node records of both lines sound. -/
def Obligations.StepsKeepTheNodeTable : Prop :=
  ∀ (s t : State), (∀ l, NodesSound (s.line l)) → step s = .next t → ∀ l, NodesSound (t.line l)

/-- Every step keeps the relations between the engine, the transmitter, the timers and the state of each line. -/
def Obligations.StepsKeepTheLines : Prop :=
  ∀ (s t : State), LinesSound s → step s = .next t → LinesSound t

/-- Every step keeps the life of the transaction records: queued, in flight, done or reported each in one place. -/
def Obligations.StepsKeepTheTransactions : Prop :=
  ∀ (s t : State), LinesSound s → TxnsSound s → step s = .next t → TxnsSound t

end
end

