-- ==== Sys2Proof/Laws/State.lean ====
section
/-! SUPPORT. One lemma per field of `State` for each way of updating it: what a line holds after its own
or the other line's update, and what every update leaves alone. -/

namespace Sys2Proof.Machine

open Sys2Proof

/-! ### Lines -/

theorem line_eq {s t : State} (ha : t.lineA = s.lineA) (hb : t.lineB = s.lineB) (l : LineId) :
    t.line l = s.line l := by
  cases l
  · exact ha
  · exact hb

@[simp] theorem setLine_line_same (s : State) (l : LineId) (x : Line) : (s.setLine l x).line l = x := by
  cases l <;> rfl

theorem setLine_line_other (s : State) {l k : LineId} (x : Line) (h : k ≠ l) :
    (s.setLine l x).line k = s.line k := by
  cases l <;> cases k <;> first | rfl | exact absurd rfl h

@[simp] theorem setLine_line_self (s : State) (l : LineId) : s.setLine l (s.line l) = s := by
  cases l <;> rfl

@[simp] theorem setLine_setLine (s : State) (l : LineId) (x y : Line) :
    (s.setLine l x).setLine l y = s.setLine l y := by
  cases l <;> rfl

@[simp] theorem setLine_resetHeld (s : State) (l : LineId) (x : Line) :
    (s.setLine l x).resetHeld = s.resetHeld := by cases l <;> rfl
@[simp] theorem setLine_msClock (s : State) (l : LineId) (x : Line) :
    (s.setLine l x).msClock = s.msClock := by cases l <;> rfl
@[simp] theorem setLine_prescaler (s : State) (l : LineId) (x : Line) :
    (s.setLine l x).prescaler = s.prescaler := by cases l <;> rfl
@[simp] theorem setLine_subs (s : State) (l : LineId) (x : Line) :
    (s.setLine l x).subs = s.subs := by cases l <;> rfl
@[simp] theorem setLine_freeBlocks (s : State) (l : LineId) (x : Line) :
    (s.setLine l x).freeBlocks = s.freeBlocks := by cases l <;> rfl
@[simp] theorem setLine_txns (s : State) (l : LineId) (x : Line) :
    (s.setLine l x).txns = s.txns := by cases l <;> rfl
@[simp] theorem setLine_link (s : State) (l : LineId) (x : Line) :
    (s.setLine l x).link = s.link := by cases l <;> rfl
@[simp] theorem setLine_delivery (s : State) (l : LineId) (x : Line) :
    (s.setLine l x).delivery = s.delivery := by cases l <;> rfl
@[simp] theorem setLine_nextUid (s : State) (l : LineId) (x : Line) :
    (s.setLine l x).nextUid = s.nextUid := by cases l <;> rfl
@[simp] theorem setLine_pending (s : State) (l : LineId) (x : Line) :
    (s.setLine l x).pending = s.pending := by cases l <;> rfl

@[simp] theorem modifyLine_line_same (s : State) (l : LineId) (f : Line → Line) :
    (s.modifyLine l f).line l = f (s.line l) := by
  cases l <;> rfl

theorem modifyLine_line_other (s : State) {l k : LineId} (f : Line → Line) (h : k ≠ l) :
    (s.modifyLine l f).line k = s.line k := setLine_line_other s _ h

@[simp] theorem modifyLine_modifyLine (s : State) (l : LineId) (f g : Line → Line) :
    (s.modifyLine l f).modifyLine l g = s.modifyLine l (fun x => g (f x)) := by
  cases l <;> rfl

@[simp] theorem modifyLine_resetHeld (s : State) (l : LineId) (f : Line → Line) :
    (s.modifyLine l f).resetHeld = s.resetHeld := setLine_resetHeld _ _ _
@[simp] theorem modifyLine_msClock (s : State) (l : LineId) (f : Line → Line) :
    (s.modifyLine l f).msClock = s.msClock := setLine_msClock _ _ _
@[simp] theorem modifyLine_prescaler (s : State) (l : LineId) (f : Line → Line) :
    (s.modifyLine l f).prescaler = s.prescaler := setLine_prescaler _ _ _
@[simp] theorem modifyLine_subs (s : State) (l : LineId) (f : Line → Line) :
    (s.modifyLine l f).subs = s.subs := setLine_subs _ _ _
@[simp] theorem modifyLine_freeBlocks (s : State) (l : LineId) (f : Line → Line) :
    (s.modifyLine l f).freeBlocks = s.freeBlocks := setLine_freeBlocks _ _ _
@[simp] theorem modifyLine_txns (s : State) (l : LineId) (f : Line → Line) :
    (s.modifyLine l f).txns = s.txns := setLine_txns _ _ _
@[simp] theorem modifyLine_link (s : State) (l : LineId) (f : Line → Line) :
    (s.modifyLine l f).link = s.link := setLine_link _ _ _
@[simp] theorem modifyLine_delivery (s : State) (l : LineId) (f : Line → Line) :
    (s.modifyLine l f).delivery = s.delivery := setLine_delivery _ _ _
@[simp] theorem modifyLine_nextUid (s : State) (l : LineId) (f : Line → Line) :
    (s.modifyLine l f).nextUid = s.nextUid := setLine_nextUid _ _ _
@[simp] theorem modifyLine_pending (s : State) (l : LineId) (f : Line → Line) :
    (s.modifyLine l f).pending = s.pending := setLine_pending _ _ _

/-- The updates of one block of a line are updates of the line. -/
@[simp] theorem modifySched_modifyLine (s : State) (l : LineId) (f : Scheduler → Scheduler) :
    s.modifySched l f = s.modifyLine l fun x => { x with sched := f x.sched } := rfl
@[simp] theorem modifyEngine_modifyLine (s : State) (l : LineId) (f : Engine → Engine) :
    s.modifyEngine l f = s.modifyLine l fun x => { x with engine := f x.engine } := rfl
@[simp] theorem modifyPort_modifyLine (s : State) (l : LineId) (f : LinePort → LinePort) :
    s.modifyPort l f = s.modifyLine l fun x => { x with port := f x.port } := rfl
@[simp] theorem countLine_modifyLine (s : State) (l : LineId) (f : LineCounters → LineCounters) :
    s.countLine l f = s.modifyLine l fun x => { x with counters := f x.counters } := rfl

/-! ### The host link -/

@[simp] theorem countLink_modifyLink (s : State) (f : LinkCounters → LinkCounters) :
    s.countLink f = s.modifyLink fun x => { x with counters := f x.counters } := rfl

@[simp] theorem modifyLink_link (s : State) (f : HostLink → HostLink) : (s.modifyLink f).link = f s.link := rfl
@[simp] theorem modifyLink_line (s : State) (f : HostLink → HostLink) (l : LineId) :
    (s.modifyLink f).line l = s.line l := by cases l <;> rfl
@[simp] theorem modifyLink_lineA (s : State) (f : HostLink → HostLink) :
    (s.modifyLink f).lineA = s.lineA := rfl
@[simp] theorem modifyLink_lineB (s : State) (f : HostLink → HostLink) :
    (s.modifyLink f).lineB = s.lineB := rfl
@[simp] theorem modifyLink_resetHeld (s : State) (f : HostLink → HostLink) :
    (s.modifyLink f).resetHeld = s.resetHeld := rfl
@[simp] theorem modifyLink_msClock (s : State) (f : HostLink → HostLink) :
    (s.modifyLink f).msClock = s.msClock := rfl
@[simp] theorem modifyLink_prescaler (s : State) (f : HostLink → HostLink) :
    (s.modifyLink f).prescaler = s.prescaler := rfl
@[simp] theorem modifyLink_subs (s : State) (f : HostLink → HostLink) : (s.modifyLink f).subs = s.subs := rfl
@[simp] theorem modifyLink_freeBlocks (s : State) (f : HostLink → HostLink) :
    (s.modifyLink f).freeBlocks = s.freeBlocks := rfl
@[simp] theorem modifyLink_txns (s : State) (f : HostLink → HostLink) : (s.modifyLink f).txns = s.txns := rfl
@[simp] theorem modifyLink_delivery (s : State) (f : HostLink → HostLink) :
    (s.modifyLink f).delivery = s.delivery := rfl
@[simp] theorem modifyLink_nextUid (s : State) (f : HostLink → HostLink) :
    (s.modifyLink f).nextUid = s.nextUid := rfl
@[simp] theorem modifyLink_pending (s : State) (f : HostLink → HostLink) :
    (s.modifyLink f).pending = s.pending := rfl

/-! ### Report Delivery -/

@[simp] theorem modifyDelivery_delivery (s : State) (f : Delivery → Delivery) :
    (s.modifyDelivery f).delivery = f s.delivery := rfl
@[simp] theorem modifyDelivery_line (s : State) (f : Delivery → Delivery) (l : LineId) :
    (s.modifyDelivery f).line l = s.line l := by cases l <;> rfl
@[simp] theorem modifyDelivery_lineA (s : State) (f : Delivery → Delivery) :
    (s.modifyDelivery f).lineA = s.lineA := rfl
@[simp] theorem modifyDelivery_lineB (s : State) (f : Delivery → Delivery) :
    (s.modifyDelivery f).lineB = s.lineB := rfl
@[simp] theorem modifyDelivery_resetHeld (s : State) (f : Delivery → Delivery) :
    (s.modifyDelivery f).resetHeld = s.resetHeld := rfl
@[simp] theorem modifyDelivery_msClock (s : State) (f : Delivery → Delivery) :
    (s.modifyDelivery f).msClock = s.msClock := rfl
@[simp] theorem modifyDelivery_prescaler (s : State) (f : Delivery → Delivery) :
    (s.modifyDelivery f).prescaler = s.prescaler := rfl
@[simp] theorem modifyDelivery_subs (s : State) (f : Delivery → Delivery) :
    (s.modifyDelivery f).subs = s.subs := rfl
@[simp] theorem modifyDelivery_freeBlocks (s : State) (f : Delivery → Delivery) :
    (s.modifyDelivery f).freeBlocks = s.freeBlocks := rfl
@[simp] theorem modifyDelivery_txns (s : State) (f : Delivery → Delivery) :
    (s.modifyDelivery f).txns = s.txns := rfl
@[simp] theorem modifyDelivery_link (s : State) (f : Delivery → Delivery) :
    (s.modifyDelivery f).link = s.link := rfl
@[simp] theorem modifyDelivery_nextUid (s : State) (f : Delivery → Delivery) :
    (s.modifyDelivery f).nextUid = s.nextUid := rfl
@[simp] theorem modifyDelivery_pending (s : State) (f : Delivery → Delivery) :
    (s.modifyDelivery f).pending = s.pending := rfl

/-! ### The record tables: `updateSub`, `freeSub`, `updateTxn` and `freeTxn` change one table only -/

@[simp] theorem updateSub_line (id uid : Nat) (f : SubRecord → SubRecord) (s : State) (l : LineId) :
    (updateSub id uid f s).line l = s.line l := by cases l <;> rfl
@[simp] theorem freeSub_line (id uid : Nat) (s : State) (l : LineId) :
    (freeSub id uid s).line l = s.line l := by cases l <;> rfl
@[simp] theorem updateTxn_line (reference : Word16) (f : TxnRecord → TxnRecord) (s : State) (l : LineId) :
    (updateTxn reference f s).line l = s.line l := by cases l <;> rfl
@[simp] theorem freeTxn_line (reference : Word16) (s : State) (l : LineId) :
    (freeTxn reference s).line l = s.line l := by cases l <;> rfl

theorem updateSub_eq (id uid : Nat) (f : SubRecord → SubRecord) (s : State) :
    updateSub id uid f s =
      { s with subs := s.subs.map fun r => if r.id = id ∧ r.uid = uid then f r else r } := rfl
theorem freeSub_eq (id uid : Nat) (s : State) :
    freeSub id uid s = { s with subs := s.subs.filter fun r => ¬ (r.id = id ∧ r.uid = uid) } := rfl
theorem updateTxn_eq (reference : Word16) (f : TxnRecord → TxnRecord) (s : State) :
    updateTxn reference f s =
      { s with txns := s.txns.map fun t => if t.reference = reference then f t else t } := rfl
theorem freeTxn_eq (reference : Word16) (s : State) :
    freeTxn reference s = { s with txns := s.txns.filter fun t => t.reference ≠ reference } := rfl

end Sys2Proof.Machine
end

