-- ==== Sys2Proof/Laws/Attempts.lean ====
section
/-! SUPPORT. What the shared operations of an exchange do, said once: the start of a frame or a break, the release
of the driver, the end of an attempt, of SETTLING and of a hold, and the sample periods a command carries. -/

namespace Sys2Proof.Machine

open Sys2Proof

/-! ### Timers -/

/-- A millisecond timer has expired exactly with no time left (R1). -/
theorem hasExpired_iff {t : MsTimer} : t.hasExpired = true ↔ t = .running 0 := by
  cases t with
  | stopped => simp [MsTimer.hasExpired]
  | running left => cases left <;> simp [MsTimer.hasExpired]

/-! ### Driver edges (R132, R133) -/

/-- At an assertion of the driver a low period being measured ends. -/
theorem endLowPeriod_eq (l : LineId) (s : State) : endLowPeriod l s = s.setLine l { s.line l with
    engine := { (s.line l).engine with
      breakSeen := (s.line l).engine.breakSeen || (s.line l).port.inBreak.isSome }
    port := { (s.line l).port with inBreak := none, stuck := false, lowTime := 0, lowPhase := 0 }
    nodes := if (s.line l).port.inBreak.any fun duration => decide (352 ≤ duration) then
        (s.line l).nodes.map fun n => { n with toggle := false }
      else (s.line l).nodes } := by
  unfold endLowPeriod
  cases (s.line l).port.inBreak with
  | none => cases l <;> simp [State.modifyPort, State.modifyLine, State.line, State.setLine]
  | some duration =>
    simp only [breakEnded, Config.twoCharacters, resetToggles]
    by_cases h : 352 ≤ duration
    · cases l <;> simp [h, State.modifyPort, State.modifyEngine, State.modifyLine, State.line, State.setLine]
    · cases l <;> simp [h, State.modifyPort, State.modifyEngine, State.modifyLine, State.line, State.setLine]

theorem sendFrame_begun (l : LineId) (chars : List (BitVec 9)) (s : State) :
    SendingBegun l (.frame chars 0 false) s (sendFrame l chars s) := by
  unfold sendFrame
  rw [endLowPeriod_eq]
  unfold State.modifyLine
  rw [setLine_line_same, setLine_setLine]
  refine ⟨?_, ?_, ?_, ?_, ?_⟩
  all_goals simp only [setLine_line_same]
  · rintro chars' h
    cases h
    cases (s.line l).config.echoCheck <;> cases chars <;>
      simp [clearCharacter, clearedPort, LinePort.withRate, expectedEcho, Config.characterSamples] <;> rfl
  · intro jam left h
    cases h

theorem sendBreak_begun (l : LineId) (jam : Bool) (length : Nat) (s : State) :
    SendingBegun l (.sendingBreak jam length) s (sendBreak l jam length s) := by
  unfold sendBreak
  rw [endLowPeriod_eq]
  unfold State.modifyPort State.modifyLine
  rw [setLine_line_same, setLine_setLine]
  refine ⟨?_, ?_, ?_, ?_, ?_⟩
  all_goals simp only [setLine_line_same]
  · intro chars h
    cases h
  · rintro jam' left h
    cases h
    simp [clearCharacter, clearedPort]

theorem startExchange_begun (l : LineId) (kind : OrderKind) (s : State) :
    ExchangeBegun l kind s (startExchange l kind s) := by
  have h : startExchange l kind s =
      sendFrame l (orderFrame { kind := kind, round := (s.line l).sched.roundNumber } (toggleFor s l kind))
        (beginExchange l kind s) := by
    unfold startExchange beginExchange
    congr 1
  rw [h]
  exact sendFrame_begun _ _ _

theorem releaseDriver_eq (l : LineId) (s : State) : releaseDriver l s = s.modifyLine l fun x => { x with
    port := releasedPort x.port, engine := releasedEngine x.port x.engine } := by
  unfold releaseDriver releasedPort releasedEngine huntHigh startCharacter State.modifyLine
  congr 1
  cases hi : (s.line l).port.input <;> simp [hi, clearCharacter, holdTimers]

/-! ### The end of an attempt (R34, R38) -/

theorem retryFollows_iff {x : Line} {o : Order} {v : Verdict} (hv : isFailure v = true) :
    retryFollows x.config.retryLimit x.engine o v = true ↔ RetryFollows x o := by
  unfold retryFollows RetryFollows
  rw [hv]
  simp only [Bool.true_and, Bool.and_eq_true, decide_eq_true_eq, Bool.not_eq_true', and_assoc]
  simp

/-- An attempt that ends in a failure is counted, and R34 decides. -/
theorem endAttempt_ends {l : LineId} {s : State} {o : Order} {v : Verdict}
    (ho : (s.line l).engine.order = some o) (hv : isFailure v = true) :
    AttemptEnds l o v (s.modifyLine l fun x => { x with counters := countAttempt v x.counters })
      (endAttempt l (plainResult v) s) := by
  have hc : v ≠ .contention := by
    rintro rfl
    cases hv
  have hp : (plainResult v).verdict = v := rfl
  unfold endAttempt
  simp only [ho, hp]
  refine ⟨fun h => ?_, fun h => ?_⟩ <;> rw [modifyLine_line_same] at h
  · have hr : RetryFollows (s.line l) o := h
    rw [if_pos ((retryFollows_iff hv).2 hr)]
    cases l <;> rfl
  · have hr : ¬ RetryFollows (s.line l) o := h
    rw [if_neg fun e => hr ((retryFollows_iff hv).1 e)]
    unfold finishExchange recordAttempt exchangeEnded
    simp only [modifyLine_line_same, ho]
    rw [modifyLine_modifyLine, modifyLine_modifyLine]
    unfold State.modifyLine
    simp [plainResult, countExchange, idleEngine, endedEngine, hc]

/-- The same for a verdict that no line counter counts. -/
theorem endAttempt_uncounted {l : LineId} {s : State} {o : Order} {v : Verdict}
    (ho : (s.line l).engine.order = some o) (hv : isFailure v = true) (hc : ∀ c, countAttempt v c = c) :
    AttemptEnds l o v s (endAttempt l (plainResult v) s) := by
  have h := endAttempt_ends ho hv
  have he : (s.modifyLine l fun x => { x with counters := countAttempt v x.counters }) = s := by
    simp only [hc]
    cases l <;> rfl
  rwa [he] at h

/-! ### The end of SETTLING (R35) and of a hold (R128) -/

theorem endSettling_sendsAgain {l : LineId} {s : State} {o : Order} {v : Verdict}
    (ho : (s.line l).engine.order = some o) (hv : (s.line l).engine.lastVerdict = some v)
    (hw : ¬(isAddressedWrite o.kind = true ∧ (s.line l).engine.breakSeen = true)) :
    SentAgain l o s (endSettling l s) := by
  unfold endSettling
  simp only [ho, hv]
  rw [if_neg hw]
  exact sendFrame_begun _ _ _

theorem endSettling_ends {l : LineId} {s : State} {o : Order} {v : Verdict}
    (ho : (s.line l).engine.order = some o) (hv : (s.line l).engine.lastVerdict = some v)
    (hf : isFailure v = true) (hw : isAddressedWrite o.kind = true ∧ (s.line l).engine.breakSeen = true) :
    endSettling l s = exchangeEnded l o v s := by
  have hc : v ≠ .contention := by
    rintro rfl
    cases hf
  unfold endSettling
  simp only [ho, hv]
  rw [if_pos hw]
  unfold finishExchange exchangeEnded
  simp only [ho]
  congr 1
  unfold State.modifyLine
  simp [plainResult, countExchange, hc, idleEngine, endedEngine, hv]

/-- Without a held timer in the engine's state the end of a hold changes nothing. -/
theorem resumeTimers_unheld {l : LineId} {s : State}
    (hw : ∀ left, (s.line l).engine.state = .awaiting → (s.line l).engine.window ≠ .held left)
    (hg : ∀ left, (s.line l).engine.state = .receiving → (s.line l).engine.gap ≠ .held left)
    (ht : ∀ left, (s.line l).engine.state = .settling → (s.line l).engine.settling ≠ .held left) :
    resumeTimers l s = s := by
  unfold resumeTimers
  rcases hs : (s.line l).engine.state with _ | _ | _ | _ | _
  all_goals simp only [hs]
  · split
    · exact absurd (by assumption) (hw _ hs)
    · exact absurd (by assumption) (hw _ hs)
    all_goals rfl
  · split
    · exact absurd (by assumption) (hg _ hs)
    · exact absurd (by assumption) (hg _ hs)
    all_goals rfl
  · split
    · exact absurd (by assumption) (ht _ hs)
    · exact absurd (by assumption) (ht _ hs)
    all_goals rfl

/-- All the end of a hold can do. -/
theorem resumeTimers_holdEnded (l : LineId) (s : State) : HoldEnded l s (resumeTimers l s) where
  unheld := resumeTimers_unheld
  window left h1 h2 := by
    unfold resumeTimers
    simp only [h1, h2]
    rw [modifyEngine_modifyLine]
  gap left h1 h2 := by
    unfold resumeTimers
    simp only [h1, h2]
    rw [modifyEngine_modifyLine]
  settling left h1 h2 := by
    unfold resumeTimers
    simp only [h1, h2]
    rw [modifyEngine_modifyLine]
  timeout o ho h1 h2 := by
    unfold resumeTimers
    simp only [h1, h2]
    exact endAttempt_ends ho rfl
  gapOut o ho h1 h2 := by
    unfold resumeTimers
    simp only [h1, h2]
    exact endAttempt_ends ho rfl
  settled o v ho hv h1 h2 hw := by
    unfold resumeTimers
    simp only [h1, h2]
    exact endSettling_sendsAgain ho hv hw
  broken o v ho hv h1 h2 hf hw hb := by
    unfold resumeTimers
    simp only [h1, h2]
    exact endSettling_ends ho hv hf ⟨hw, hb⟩

/-! ### The sample periods a command carries (log 2) -/

/-- An event that happens after the periods is the command's effect. -/
theorem afterPeriods_some {l : LineId} {periods : Periods} {event : State → Option State} {s t : State}
    (h : event (playPeriods l periods s) = some t) : afterPeriods l periods event s = t := by
  unfold afterPeriods
  rw [h]
  rfl

/-- Without the event nothing happens. -/
theorem afterPeriods_none {l : LineId} {periods : Periods} {event : State → Option State} {s : State}
    (h : event (playPeriods l periods s) = none) : afterPeriods l periods event s = s := by
  unfold afterPeriods
  rw [h]
  rfl

end Sys2Proof.Machine
end

