-- ==== Sys2Proof/Laws/PortActs.lean ====
section
/-! SUPPORT. The commands that carry sample periods by their parts: the sample periods that pass, the signal that is taken, and
what the other blocks do on it. A property that the parts keep is kept by every such command. -/

namespace Sys2Proof.Machine

open Sys2Proof

/-- What such a command does, once its periods have passed and its signal is taken. -/
inductive PortAct (l : LineId) : State → State → Prop
  | nothing (s : State) : PortAct l s s
  | hold (s : State) : PortAct l s (s.modifyEngine l holdTimers)
  | resume (s : State) : PortAct l s (resumeTimers l s)
  | character (c : ReceivedCharacter) (s : State) : PortAct l s (deliverCharacter l c s)
  | breakDetected (s : State) : PortAct l s (takeBreak l true s)
  | breakEnd (duration : Nat) (s : State) : PortAct l s (breakOver l duration s)
  | stuck (newBreak : Bool) (s : State) : PortAct l s (takeStuck l newBreak s)
  | stuckEnd (duration : Nat) (s : State) : PortAct l s (ensureIdleWait l (breakOver l duration s))
  | frameSent {chars : List (BitVec 9)} {position : Nat} (s : State)
      (h : (s.line l).port.tx = .frame chars position false) : PortAct l s (frameSent l s)
  | lastCharacter {chars : List (BitVec 9)} {position : Nat} (s : State)
      (h : (s.line l).port.tx = .frame chars position true) :
      PortAct l s (restartQuiet l (releaseAfterRestart l s))
  | contention (s : State) (h : mayContend (s.line l).port = true) :
      PortAct l s (sendBreak l true Config.twoCharacters (endAttempt l (plainResult .contention) s))
  | jamBreakEnd {left : Nat} (s : State) (h : (s.line l).port.tx = .sendingBreak true left) :
      PortAct l s (afterJam l (breakSent l s))
  | breakOrderEnd {left : Nat} (s : State) (h : (s.line l).port.tx = .sendingBreak false left) :
      PortAct l s (completeStop l (pendInService l (breakSent l (endOrder l s))))
  | choice (s : State) (h : mayChoose (s.line l) = true) : PortAct l s (choose l s)
  | settlingEnd (s : State) (h : (s.line l).engine.settling ≠ .stopped) : PortAct l s (endSettling l s)

/-- The event of such a command: it acts on the state, or on the state with a signal taken. -/
def PortCommand (l : LineId) (event : State → Option State) : Prop :=
  ∀ s t, event s = some t →
    PortAct l s t ∨ ∃ rest, PortAct l (s.modifyPort l fun p => { p with signals := rest }) t

variable {l : LineId}

theorem takeSignal_some {effect : PortSignal → Option (State → State)} {s t : State}
    (h : takeSignal l effect s = some t) :
    ∃ x rest run, (s.line l).port.signals = x :: rest ∧ effect x = some run ∧
      t = run (s.modifyPort l fun p => { p with signals := rest }) := by
  unfold takeSignal at h
  split at h
  · exact absurd h (by simp)
  · rename_i x rest hs
    cases he : effect x with
    | none => rw [he] at h; exact absurd h (by simp)
    | some run =>
      rw [he] at h
      injection h with h
      exact ⟨x, rest, run, hs, he, h.symm⟩

theorem takeSignal_command {effect : PortSignal → Option (State → State)}
    (h : ∀ x run s, effect x = some run → PortAct l s (run s)) : PortCommand l (takeSignal l effect) := by
  intro s t ht
  obtain ⟨x, rest, run, -, he, rfl⟩ := takeSignal_some ht
  exact .inr ⟨rest, h x run _ he⟩

theorem characterEnd_command : PortCommand l (takeSignal l (characterEnd l)) := by
  refine takeSignal_command fun x run s h => ?_
  cases x <;> simp only [characterEnd, reduceCtorEq, Option.some.injEq] at h
  subst h; exact .character _ s

theorem startBegun_command : PortCommand l (takeSignal l (startBegun l)) := by
  refine takeSignal_command fun x run s h => ?_
  cases x <;> simp only [startBegun, reduceCtorEq, Option.some.injEq] at h
  · subst h; exact .hold s
  · subst h; exact .nothing s

theorem falseStart_command : PortCommand l (takeSignal l (falseStart l)) := by
  refine takeSignal_command fun x run s h => ?_
  cases x <;> simp only [falseStart, reduceCtorEq, Option.some.injEq] at h
  subst h; exact .resume s

theorem breakDetected_command : PortCommand l (takeSignal l (breakDetected l)) := by
  refine takeSignal_command fun x run s h => ?_
  cases x <;> simp only [breakDetected, reduceCtorEq, Option.some.injEq] at h
  subst h; exact .breakDetected s

theorem breakEnd_command : PortCommand l (takeSignal l (breakEnd l)) := by
  refine takeSignal_command fun x run s h => ?_
  cases x <;> simp only [breakEnd, reduceCtorEq, Option.some.injEq] at h
  subst h; exact .breakEnd _ s

theorem stuckInput_command : PortCommand l (takeSignal l (stuckInput l)) := by
  refine takeSignal_command fun x run s h => ?_
  cases x <;> simp only [stuckInput, reduceCtorEq, Option.some.injEq] at h
  subst h; exact .stuck _ s

theorem stuckEnd_command : PortCommand l (takeSignal l (stuckEnd l)) := by
  refine takeSignal_command fun x run s h => ?_
  cases x <;> simp only [stuckEnd, reduceCtorEq, Option.some.injEq] at h
  subst h; exact .stuckEnd _ s

theorem returnHigh_command (signals : List PortSignal) : PortCommand l (returnHighEvent l signals) := by
  intro s t h
  unfold returnHighEvent at h
  split at h
  · rename_i u hu
    injection h with h
    subst h
    refine takeSignal_command (fun x run s h => ?_) s u hu
    cases x <;> simp only [returnHigh, reduceCtorEq, Option.some.injEq] at h
    subst h; exact .nothing s
  · unfold unsignalledHigh at h
    split at h
    · injection h with h
      subst h; exact .inl (.nothing s)
    · exact absurd h (by simp)

theorem transmitEnd_command : PortCommand l (transmitEnd l) := by
  intro s t h
  unfold transmitEnd at h
  split at h
  · rename_i htx
    split at h
    · injection h with h
      subst h; exact .inl (.lastCharacter s htx)
    · exact absurd h (by simp)
  · rename_i htx
    split at h
    · injection h with h
      subst h; exact .inl (.frameSent s htx)
    · exact absurd h (by simp)
  all_goals exact absurd h (by simp)

theorem contention_command : PortCommand l (contention l) := by
  intro s t h
  unfold contention at h
  split at h
  · rename_i hm
    injection h with h
    subst h; exact .inl (.contention s hm)
  · exact absurd h (by simp)

theorem jamBreakEnd_command : PortCommand l (jamBreakEnd l) := by
  intro s t h
  unfold jamBreakEnd at h
  split at h
  · rename_i htx
    injection h with h
    subst h; exact .inl (.jamBreakEnd s htx)
  all_goals exact absurd h (by simp)

theorem breakOrderEnd_command : PortCommand l (breakOrderEnd l) := by
  intro s t h
  unfold breakOrderEnd at h
  split at h
  · rename_i htx
    injection h with h
    subst h; exact .inl (.breakOrderEnd s htx)
  all_goals exact absurd h (by simp)

theorem arbiterChoice_command : PortCommand l (arbiterChoice l) := by
  intro s t h
  unfold arbiterChoice at h
  split at h
  · rename_i hm
    injection h with h
    subst h; exact .inl (.choice s hm)
  · exact absurd h (by simp)

theorem settlingEnd_command : PortCommand l (settlingEnd l) := by
  intro s t h
  unfold settlingEnd at h
  split at h
  · rename_i hw
    injection h with h
    subst h; exact .inl (.settlingEnd s (by simp [hw]))
  all_goals exact absurd h (by simp)

/-! ### The periods a command carries -/

theorem playPeriods_nil (s : State) : playPeriods l [] s = s := setLine_line_self s l

theorem playPeriods_cons (level : PinLevel) (periods : Periods) (s : State) :
    playPeriods l (level :: periods) s = playPeriods l periods (s.modifyLine l (linePeriod level)) := by
  unfold playPeriods
  rw [modifyLine_modifyLine]
  rfl

/-- A property that one sample period of the line keeps is kept by any number of them. -/
theorem playPeriods_keeps {P : State → Prop} (period : ∀ level s, P s → P (s.modifyLine l (linePeriod level)))
    (periods : Periods) {s : State} (h : P s) : P (playPeriods l periods s) := by
  induction periods generalizing s with
  | nil => rwa [playPeriods_nil]
  | cons level rest ih =>
    rw [playPeriods_cons]
    exact ih (period level s h)

/-- A property that the sample period, the taking of a signal and the acts of the port keep is kept by every such
command. -/
theorem afterPeriods_keeps {P : State → Prop} {event : State → Option State} (hc : PortCommand l event)
    (period : ∀ level s, P s → P (s.modifyLine l (linePeriod level)))
    (signals : ∀ rest s, P s → P (s.modifyPort l fun p => { p with signals := rest }))
    (act : ∀ s t, PortAct l s t → P s → P t) (periods : Periods) {s : State} (h : P s) :
    P (afterPeriods l periods event s) := by
  have hp := playPeriods_keeps period periods h
  unfold afterPeriods
  cases he : event (playPeriods l periods s) with
  | none => exact h
  | some t =>
    rcases hc _ _ he with ha | ⟨rest, ha⟩
    · exact act _ _ ha hp
    · exact act _ _ ha (signals rest _ hp)

end Sys2Proof.Machine
end

