-- ==== Sys2Proof/Laws/LineWork.lean ====
section
/-! SUPPORT. What the work of one line can do at all, once for every operation of it: the other line, the
host link, the clock and the line's configuration stay as they are, the line's counters do not go down,
and reports only join the queue at its tail. -/

namespace Sys2Proof.Machine

open Sys2Proof

/-- No counter is lower. -/
structure LineCounters.le (c d : LineCounters) : Prop where
  rounds : c.rounds ≤ d.rounds
  overruns : c.overruns ≤ d.overruns
  exchanges : c.exchanges ≤ d.exchanges
  retries : c.retries ≤ d.retries
  timeouts : c.timeouts ≤ d.timeouts
  crcErrors : c.crcErrors ≤ d.crcErrors
  framingErrors : c.framingErrors ≤ d.framingErrors
  gapErrors : c.gapErrors ≤ d.gapErrors
  noiseFlags : c.noiseFlags ≤ d.noiseFlags
  contentions : c.contentions ≤ d.contentions
  breaksSeen : c.breaksSeen ≤ d.breaksSeen
  strays : c.strays ≤ d.strays

theorem LineCounters.le.refl (c : LineCounters) : c.le c := by
  constructor <;> exact BitVec.le_refl _

theorem LineCounters.le.trans {c d e : LineCounters} (h : c.le d) (k : d.le e) : c.le e := by
  cases h; cases k; constructor <;> (apply BitVec.le_trans <;> assumption)

/-- An increment does not lower a counter (R171). -/
theorem le_satInc (c : Word16) : c ≤ satInc c := by
  unfold satInc
  split
  · exact BitVec.le_refl _
  · rename_i h
    have : c.toNat ≠ 65535 := fun e => h (BitVec.eq_of_toNat_eq (by simpa using e))
    have := c.isLt
    simp only [BitVec.le_def, BitVec.toNat_add]
    simp
    omega

/-- Reports that have joined the tail of the queue, none of them twice (R158). -/
def ReportsJoined (d e : Delivery) : Prop :=
  ∃ added, e = { d with queue := d.queue ++ added } ∧ (d.queue.Nodup → (d.queue ++ added).Nodup)

theorem ReportsJoined.refl (d : Delivery) : ReportsJoined d d := ⟨[], by simp⟩

theorem ReportsJoined.trans {d e f : Delivery} (h : ReportsJoined d e) (k : ReportsJoined e f) :
    ReportsJoined d f := by
  obtain ⟨a, rfl, ha⟩ := h
  obtain ⟨b, rfl, hb⟩ := k
  exact ⟨a ++ b, by simp, fun h => by simpa using hb (ha h)⟩

/-- What the work of line `l` can do. -/
structure LineWork (l : LineId) (s t : State) : Prop where
  resetHeld : t.resetHeld = s.resetHeld
  msClock : t.msClock = s.msClock
  prescaler : t.prescaler = s.prescaler
  link : t.link = s.link
  nextUid : t.nextUid = s.nextUid
  pending : t.pending = s.pending
  other : ∀ k, k ≠ l → t.line k = s.line k
  config : (t.line l).config = (s.line l).config
  counters : (s.line l).counters.le (t.line l).counters
  reports : ReportsJoined s.delivery t.delivery

namespace LineWork

variable {l : LineId}

theorem refl (s : State) : LineWork l s s :=
  ⟨rfl, rfl, rfl, rfl, rfl, rfl, fun _ _ => rfl, rfl, LineCounters.le.refl _, .refl _⟩

theorem trans {s t u : State} (h : LineWork l s t) (k : LineWork l t u) : LineWork l s u where
  resetHeld := k.resetHeld.trans h.resetHeld
  msClock := k.msClock.trans h.msClock
  prescaler := k.prescaler.trans h.prescaler
  link := k.link.trans h.link
  nextUid := k.nextUid.trans h.nextUid
  pending := k.pending.trans h.pending
  other := fun m hm => (k.other m hm).trans (h.other m hm)
  config := k.config.trans h.config
  counters := h.counters.trans k.counters
  reports := h.reports.trans k.reports

/-- Composition read from the outermost operation inwards. -/
theorem after {s t u : State} (k : LineWork l t u) (h : LineWork l s t) : LineWork l s u := h.trans k

theorem foldl {α : Type} {f : State → α → State} (h : ∀ s a, LineWork l s (f s a)) (xs : List α)
    (s : State) : LineWork l s (xs.foldl f s) := by
  induction xs generalizing s with
  | nil => exact refl s
  | cons a rest ih => exact (h s a).trans (ih _)

end LineWork

variable {l : LineId}

/-- An update of the line that keeps its configuration and lowers no counter. -/
theorem modifyLine_work (s : State) (f : Line → Line)
    (hk : ∀ x : Line, x.counters.le (f x).counters)
    (hc : ∀ x, (f x).config = x.config := by intro _; rfl) : LineWork l s (s.modifyLine l f) where
  resetHeld := by simp
  msClock := by simp
  prescaler := by simp
  link := by simp
  nextUid := by simp
  pending := by simp
  other := fun _ h => modifyLine_line_other s f h
  config := by simp [hc]
  counters := by simpa using hk _
  reports := by simpa using ReportsJoined.refl _

/-- An update of the line that touches neither its configuration nor its counters. -/
theorem modifyLine_quiet (s : State) (f : Line → Line)
    (hc : ∀ x, (f x).config = x.config := by intro _; rfl)
    (hk : ∀ x, (f x).counters = x.counters := by intro _; rfl) : LineWork l s (s.modifyLine l f) :=
  modifyLine_work s f (fun x => by rw [hk x]; exact LineCounters.le.refl _) hc

theorem modifyEngine_work (s : State) (f : Engine → Engine) : LineWork l s (s.modifyEngine l f) :=
  modifyLine_quiet s _

theorem modifySched_work (s : State) (f : Scheduler → Scheduler) : LineWork l s (s.modifySched l f) :=
  modifyLine_quiet s _

theorem modifyPort_work (s : State) (f : LinePort → LinePort) : LineWork l s (s.modifyPort l f) :=
  modifyLine_quiet s _

/-- A report request joins the tail once (R158). -/
theorem requestReport_joined (r : ReportRequest) (s : State) :
    ReportsJoined s.delivery (requestReport r s).delivery := by
  unfold requestReport
  split
  · exact .refl _
  · rename_i h
    refine ⟨[r], rfl, fun hd => ?_⟩
    rw [List.nodup_append]
    refine ⟨hd, by simp, fun a ha b hb => ?_⟩
    simp only [List.mem_singleton] at hb
    rintro rfl
    exact h (hb ▸ ha)

theorem requestReport_work (r : ReportRequest) (s : State) : LineWork l s (requestReport r s) := by
  have hj := requestReport_joined r s
  unfold requestReport at *
  split
  · exact .refl _
  · rename_i h
    rw [if_neg h] at hj
    exact ⟨rfl, rfl, rfl, rfl, rfl, rfl, fun _ _ => modifyDelivery_line _ _ _, by simp,
      by simpa using LineCounters.le.refl _, hj⟩

/-- A change of `subs`, `freeBlocks` and `txns` alone. -/
theorem tables_work (s : State) (subs : List SubRecord) (free : Nat) (txns : List TxnRecord) :
    LineWork l s { s with subs := subs, freeBlocks := free, txns := txns } :=
  ⟨rfl, rfl, rfl, rfl, rfl, rfl, fun k _ => by cases k <;> rfl, by cases l <;> rfl,
    by cases l <;> exact LineCounters.le.refl _, .refl _⟩

theorem updateSub_work (id uid : Nat) (f : SubRecord → SubRecord) (s : State) :
    LineWork l s (updateSub id uid f s) := tables_work s _ s.freeBlocks s.txns

theorem freeSub_work (id uid : Nat) (s : State) : LineWork l s (freeSub id uid s) :=
  tables_work s _ s.freeBlocks s.txns

theorem updateTxn_work (reference : Word16) (f : TxnRecord → TxnRecord) (s : State) :
    LineWork l s (updateTxn reference f s) := tables_work s s.subs s.freeBlocks _

theorem updateNode_work (address uid : Nat) (f : NodeRecord → NodeRecord) (s : State) :
    LineWork l s (updateNode l address uid f s) := modifyLine_quiet s _

/-! ### Samples and subscriptions -/

theorem raiseNotice_work (id uid : Nat) (s : State) : LineWork l s (raiseNotice id uid s) := by
  unfold raiseNotice
  split
  · exact .refl _
  · split
    · exact (updateSub_work _ _ _ _).trans (requestReport_work _ _)
    · exact .refl _

theorem offerSample_work (id uid : Nat) (x : Sample) (s : State) : LineWork l s (offerSample id uid x s) := by
  unfold offerSample
  split
  · exact .refl _
  · dsimp only
    split
    · exact (tables_work s _ _ s.txns).trans (raiseNotice_work _ _ _)
    · exact (updateSub_work _ _ _ _).trans (raiseNotice_work _ _ _)
    · exact updateSub_work _ _ _ _

theorem enterFaulted_work (id uid : Nat) (reason : FaultReason) (s : State) :
    LineWork l s (enterFaulted id uid reason s) :=
  (updateSub_work _ _ _ _).trans (requestReport_work _ _)

theorem prunePolls_work (ids : List Nat) (s : State) : LineWork l s (prunePolls l ids s) := modifySched_work _ _

theorem suspendSubs_work (address : Nat) (s : State) : LineWork l s (suspendSubs l address s) :=
  (tables_work s _ s.freeBlocks s.txns).trans (prunePolls_work _ _)

theorem recheckSubs_work (address : Nat) (p : Profile) (s : State) :
    LineWork l s (recheckSubs l address p s) := by
  refine .foldl (fun s r => ?_) _ _
  unfold recheckSub
  split
  · exact enterFaulted_work _ _ _ _
  · split
    · exact enterFaulted_work _ _ _ _
    · exact updateSub_work _ _ _ _

theorem takePollVerdict_work (id uid : Nat) (v : VerdictRecord) (s : State) :
    LineWork l s (takePollVerdict id uid v s) := by
  unfold takePollVerdict
  split
  · exact .refl _
  · dsimp only
    refine LineWork.trans (t := updateSub id uid (fun r => { r with pollInFlight := false }) s)
      (updateSub_work _ _ _ _) ?_
    split
    · exact freeSub_work _ _ _
    · unfold takeActiveVerdict
      split
      · unfold takeOkReply
        split
        · exact (updateSub_work _ _ _ _).trans (offerSample_work _ _ _ _)
        · exact .refl _
      · unfold takeRefusal
        split
        · exact enterFaulted_work _ _ _ _
        · exact enterFaulted_work _ _ _ _
        · exact updateSub_work _ _ _ _
        · exact updateSub_work _ _ _ _
      · exact .refl _
    · exact .refl _
    · exact .refl _

/-! ### Transactions -/

theorem completeTxn_work (reference : Word16) (result : TxnResult) (verdict : Option Verdict)
    (reason : Option RefuseReason) (reply : Option (List Byte)) (s : State) :
    LineWork l s (completeTxn reference result verdict reason reply s) :=
  (updateTxn_work _ _ _).trans (requestReport_work _ _)

theorem purgeLine_work (s : State) : LineWork l s (purgeLine l s) :=
  (modifyLine_quiet s fun x => { x with txnQueue := [] }).trans
    (.foldl (fun s r => completeTxn_work r _ _ _ _ s) _ _)

theorem takeContention_work (t : TxnRecord) (s : State) : LineWork l s (takeContention l t s) := by
  unfold takeContention
  split
  · exact (updateTxn_work _ _ _).trans (modifyLine_quiet _ _)
  · exact completeTxn_work _ _ _ _ _ _

theorem takeTxnVerdict_work (reference : Word16) (v : VerdictRecord) (s : State) :
    LineWork l s (takeTxnVerdict l reference v s) := by
  unfold takeTxnVerdict
  split
  · exact .refl _
  · dsimp only
    refine LineWork.trans
      (t := updateTxn reference (fun t => { t with attempts := t.attempts + v.framesSent }) s)
      (updateTxn_work _ _ _) ?_
    split
    case h_3 => exact (updateTxn_work _ _ _).trans (takeContention_work _ _)
    all_goals exact completeTxn_work _ _ _ _ _ _

/-! ### Nodes -/

theorem nodeToPending_work (n : NodeRecord) (s : State) : LineWork l s (nodeToPending l n s) :=
  ((updateNode_work _ _ _ _).trans (requestReport_work _ _)).trans (suspendSubs_work _ _)

theorem nodesToPending_work (test : NodeRecord → Bool) (s : State) : LineWork l s (nodesToPending l test s) :=
  .foldl (fun s n => nodeToPending_work n s) _ _

theorem resetToggles_work (s : State) : LineWork l s (resetToggles l s) :=
  modifyLine_quiet s _

theorem breakEnded_work (duration : Nat) (s : State) : LineWork l s (breakEnded l duration s) := by
  unfold breakEnded
  split
  · exact resetToggles_work s
  · exact .refl _

theorem nodeAnswered_work (n : NodeRecord) (flip : Bool) (s : State) :
    LineWork l s (nodeAnswered l n flip s) := by
  unfold nodeAnswered
  dsimp only
  split
  · exact (requestReport_work _ _).after (updateNode_work _ _ _ _)
  · exact updateNode_work _ _ _ _

theorem nodeFailed_work (n : NodeRecord) (s : State) : LineWork l s (nodeFailed l n s) := by
  unfold nodeFailed
  split
  · exact ((updateNode_work _ _ _ _).trans (requestReport_work _ _)).trans (suspendSubs_work _ _)
  · dsimp only
    split
    · exact (requestReport_work _ _).after (updateNode_work _ _ _ _)
    · exact updateNode_work _ _ _ _

theorem actOnVerdict_work (n : NodeRecord) (v : VerdictRecord) (s : State) :
    LineWork l s (actOnVerdict l n v s) := by
  unfold actOnVerdict
  split
  · split
    · split
      · exact .refl _
      · exact ((updateNode_work _ _ _ _).trans (requestReport_work _ _)).trans (recheckSubs_work _ _ _)
    · exact .refl _
  all_goals try exact .refl _
  all_goals
    split
    · split <;> first | exact nodeAnswered_work _ _ _ | exact nodeFailed_work _ _ | exact .refl _
    · exact .refl _

theorem takeNodeVerdict_work (v : VerdictRecord) (s : State) : LineWork l s (takeNodeVerdict l v s) := by
  unfold takeNodeVerdict
  split
  · split
    · exact .refl _
    · exact (updateNode_work _ _ _ _).trans (actOnVerdict_work _ _ _)
  · exact .refl _

/-! ### Line Control and rounds -/

theorem changeLineState_work (state : LineState) (cause : Cause) (s : State) :
    LineWork l s (changeLineState l state cause s) :=
  (requestReport_work _ _).after (modifyLine_quiet s _)

theorem enterStopped_work (s : State) : LineWork l s (enterStopped l s) := by
  unfold enterStopped
  dsimp only
  refine (modifyLine_quiet _ _).after ?_
  split
  · exact (purgeLine_work _).after (changeLineState_work _ _ s)
  · exact changeLineState_work _ _ s

theorem enterFault_work (cause : Cause) (s : State) : LineWork l s (enterFault l cause s) :=
  (changeLineState_work _ _ s).trans (modifyLine_quiet _ _)

theorem startIdleWait_work (s : State) : LineWork l s (startIdleWait l s) :=
  modifyLine_quiet s _ (by intro x; split <;> rfl) (by intro x; split <;> rfl)

theorem checkStuck_work (s : State) : LineWork l s (checkStuck l s) := by
  unfold checkStuck
  split
  · exact enterFault_work _ s
  · exact .refl _

theorem startRound_work (s : State) : LineWork l s (startRound l s) := by
  unfold startRound
  refine modifyLine_work s _ fun x => ?_
  exact { LineCounters.le.refl x.counters with rounds := le_satInc _ }

theorem restartQuiet_work (s : State) : LineWork l s (restartQuiet l s) := modifySched_work _ _

theorem lineControlTake_work (v : Verdict) (stuck : Bool) (s : State) :
    LineWork l s (lineControlTake l v stuck s) := by
  unfold lineControlTake
  split
  · split
    · exact .refl _
    · exact enterStopped_work s
  · split
    · split
      · exact changeLineState_work _ _ s
      · exact enterFault_work _ s
    · split
      · exact enterFault_work _ s
      · exact .refl _
  all_goals exact .refl _

/-! ### The driver -/

theorem endLowPeriod_work (s : State) : LineWork l s (endLowPeriod l s) := by
  unfold endLowPeriod
  refine LineWork.trans ?_ (modifyPort_work _ _)
  split
  · exact .refl _
  · exact (breakEnded_work _ s).trans (modifyEngine_work _ _)

theorem sendFrame_work (chars : List (BitVec 9)) (s : State) :
    LineWork l s (sendFrame l chars s) :=
  (endLowPeriod_work s).trans (modifyLine_quiet _ _)

theorem sendBreak_work (jam : Bool) (length : Nat) (s : State) : LineWork l s (sendBreak l jam length s) :=
  (endLowPeriod_work s).trans (modifyPort_work _ _)

theorem releaseDriver_work (s : State) : LineWork l s (releaseDriver l s) := by
  unfold releaseDriver
  refine modifyLine_quiet s _ (fun x => ?_) fun x => ?_ <;> (dsimp only; split <;> rfl)

theorem releaseAfterRestart_work (s : State) : LineWork l s (releaseAfterRestart l s) := by
  unfold releaseAfterRestart
  split
  · exact modifyPort_work s _
  · exact releaseDriver_work s

/-! ### The exchange -/

theorem ownerTake_work (v : VerdictRecord) (s : State) : LineWork l s (ownerTake l v s) := by
  unfold ownerTake
  split
  all_goals first
    | exact takePollVerdict_work _ _ _ _ | exact takeTxnVerdict_work _ _ _ | exact .refl _

theorem schedulerTake_work (v : VerdictRecord) (s : State) : LineWork l s (schedulerTake l v s) := by
  unfold schedulerTake
  split
  · exact modifySched_work _ _
  · exact .refl _

theorem deliverVerdict_work (v : VerdictRecord) (stuck : Bool) (s : State) :
    LineWork l s (deliverVerdict l v stuck s) :=
  (((ownerTake_work v s).trans (takeNodeVerdict_work v _)).trans (schedulerTake_work v _)).trans
    (lineControlTake_work _ _ _)

theorem countExchange_le (v : Verdict) (c : LineCounters) : c.le (countExchange v c) := by
  unfold countExchange
  refine { LineCounters.le.refl c with exchanges := le_satInc _, contentions := ?_ }
  dsimp only
  split
  · exact le_satInc _
  · exact BitVec.le_refl _

theorem countAttempt_le (v : Verdict) (c : LineCounters) : c.le (countAttempt v c) := by
  unfold countAttempt
  split
  · exact { LineCounters.le.refl c with timeouts := le_satInc _ }
  · exact { LineCounters.le.refl c with crcErrors := le_satInc _ }
  · exact { LineCounters.le.refl c with framingErrors := le_satInc _ }
  · exact { LineCounters.le.refl c with gapErrors := le_satInc _ }
  all_goals exact LineCounters.le.refl c

theorem finishExchange_work (r : AttemptResult) (stuck : Bool) (s : State) :
    LineWork l s (finishExchange l r stuck s) := by
  unfold finishExchange
  dsimp only
  split
  · exact .refl _
  · exact (deliverVerdict_work _ _ _).after (modifyLine_work s _ fun x => countExchange_le _ _)

theorem recordAttempt_work (v : Verdict) (s : State) : LineWork l s (recordAttempt l v s) := by
  unfold recordAttempt
  refine modifyLine_work s _ fun x => ?_
  exact countAttempt_le v _

theorem endAttempt_work (r : AttemptResult) (s : State) : LineWork l s (endAttempt l r s) := by
  unfold endAttempt
  dsimp only
  split
  · exact recordAttempt_work _ _
  · split
    · exact (modifyEngine_work _ _).after (recordAttempt_work _ _)
    · exact (finishExchange_work _ _ _).after (recordAttempt_work _ _)

theorem startExchange_work (k : OrderKind) (s : State) :
    LineWork l s (startExchange l k s) :=
  (modifyEngine_work s _).trans (sendFrame_work _ _)

theorem startBreakOrder_work (s : State) : LineWork l s (startBreakOrder l s) :=
  (modifyEngine_work s _).trans (sendBreak_work _ _ _)

theorem endSettling_work (s : State) : LineWork l s (endSettling l s) := by
  unfold endSettling
  dsimp only
  split
  · split
    · exact finishExchange_work _ _ _
    · refine (sendFrame_work _ _).after (modifyLine_work s _ fun x => ?_)
      exact { LineCounters.le.refl x.counters with retries := le_satInc _ }
  · exact .refl _

theorem windowRunsOut_work (s : State) : LineWork l s (windowRunsOut l s) := by
  unfold windowRunsOut
  split
  · exact endAttempt_work _ _
  all_goals exact .refl _

theorem gapRunsOut_work (s : State) : LineWork l s (gapRunsOut l s) := by
  unfold gapRunsOut
  split
  · exact endAttempt_work _ _
  all_goals exact .refl _

theorem resumeTimers_work (s : State) : LineWork l s (resumeTimers l s) := by
  unfold resumeTimers
  dsimp only
  split <;> (try split) <;>
    first | exact .refl _ | exact endAttempt_work _ _ | exact endSettling_work _ | exact modifyEngine_work _ _

theorem countStray_work (s : State) : LineWork l s (countStray l s) := by
  unfold countStray State.countLine
  refine modifyLine_work s _ fun x => ?_
  exact { LineCounters.le.refl x.counters with strays := le_satInc _ }

theorem afterStored_work (s : State) : LineWork l s (afterStored l s) := by
  unfold afterStored
  dsimp only
  split
  · exact .refl _
  · split
    · exact endAttempt_work _ _
    · split
      · exact endAttempt_work _ _
      · exact modifyEngine_work _ _

theorem takeReplyCharacter_work (c : ReceivedCharacter) (s : State) :
    LineWork l s (takeReplyCharacter l c s) :=
  ((modifyEngine_work s _).trans (restartQuiet_work _)).trans (afterStored_work _)

theorem takeCharacter_work (c : ReceivedCharacter) (s : State) : LineWork l s (takeCharacter l c s) := by
  unfold takeCharacter
  split
  · exact countStray_work s
  · exact countStray_work s
  · split
    · exact takeReplyCharacter_work _ _
    · exact (countStray_work s).trans (resumeTimers_work _)
  · split
    · exact (restartQuiet_work s).trans (endAttempt_work _ _)
    · exact takeReplyCharacter_work _ _
  · exact (countStray_work s).trans (resumeTimers_work _)

theorem engineBreakEnd_work (s : State) : LineWork l s (engineBreakEnd l s) := by
  unfold engineBreakEnd
  split
  · exact endAttempt_work _ _
  · exact resumeTimers_work _

theorem engineStuck_work (s : State) : LineWork l s (engineStuck l s) := by
  unfold engineStuck
  dsimp only
  split <;> first | exact finishExchange_work _ _ _ | exact .refl _

/-! ### The commands of a line -/

theorem roundTimerRunsOut_work (s : State) : LineWork l s (roundTimerRunsOut l s) := by
  unfold roundTimerRunsOut
  split
  · refine modifyLine_work s _ fun x => ?_
    dsimp only
    split
    · exact LineCounters.le.refl _
    · exact { LineCounters.le.refl x.counters with overruns := le_satInc _ }
  all_goals exact .refl _

theorem takeRoundStart_work (s : State) : LineWork l s (takeRoundStart l s) := by
  unfold takeRoundStart
  split
  · exact startRound_work s
  · exact .refl _

theorem choosePoll_work (id : Nat) (s : State) : LineWork l s (choosePoll l id s) := by
  unfold choosePoll
  dsimp only
  split
  · exact modifySched_work _ _
  · exact (startExchange_work _ _).after ((updateSub_work _ _ _ _).after (modifySched_work _ _))

theorem sendTxn_work (t : TxnRecord) (s : State) : LineWork l s (sendTxn l t s) :=
  ((updateTxn_work _ _ s).trans (modifySched_work _ _)).trans (startExchange_work _ _)

theorem popTxn_work (s : State) : LineWork l s (popTxn l s) := modifyLine_quiet s _

theorem chooseWork_work (again : Nat) (s : State) :
    LineWork l s (chooseWork l again s) := by
  induction again generalizing s with
  | zero => exact .refl _
  | succ again ih =>
    unfold chooseWork
    split
    · exact .refl _
    · exact choosePoll_work _ _
    · split
      · split
        · exact (ih _).after (popTxn_work _)
        · split
          · exact (sendTxn_work _ _).after (popTxn_work _)
          · exact (ih _).after ((completeTxn_work _ _ _ _ _ _).after (popTxn_work _))
      · split
        · exact .refl _
        · exact choosePoll_work _ _

theorem choose_work (s : State) : LineWork l s (choose l s) := by
  unfold choose
  dsimp only
  split
  · exact (modifySched_work s _).trans (startBreakOrder_work _)
  · split
    · exact (modifySched_work s _).trans (startExchange_work _ _)
    · unfold chooseProbeOrWork
      split
      · exact (modifySched_work s _).trans (startExchange_work _ _)
      · exact chooseWork_work _ _

theorem countFrame_work (s : State) : LineWork l s (countFrame l s) :=
  (restartQuiet_work _).after (modifyEngine_work _ _)

theorem frameSent_work (s : State) : LineWork l s (frameSent l s) := by
  unfold frameSent
  split
  · exact (releaseDriver_work _).after (countFrame_work _)
  · split
    · exact (releaseDriver_work _).after ((modifyEngine_work _ _).after (countFrame_work _))
    · exact (endAttempt_work _ _).after ((releaseDriver_work _).after (countFrame_work _))

theorem deliverCharacter_work (c : ReceivedCharacter) (s : State) : LineWork l s (deliverCharacter l c s) := by
  have h : LineWork l s (s.countLine l (countNoise c)) := by
    refine modifyLine_work s _ fun x => ?_
    dsimp only [countNoise]
    split
    · exact { LineCounters.le.refl x.counters with noiseFlags := le_satInc _ }
    · exact LineCounters.le.refl _
  unfold deliverCharacter
  dsimp only
  split
  · exact h
  · exact (takeCharacter_work _ _).after h

theorem countBreak_le (c : LineCounters) : c.le (countBreak c) :=
  { LineCounters.le.refl c with breaksSeen := le_satInc _ }

theorem takeBreak_work (newBreak : Bool) (s : State) : LineWork l s (takeBreak l newBreak s) := by
  refine modifyLine_work s _ fun x => ?_
  dsimp only
  split
  · exact countBreak_le _
  · exact LineCounters.le.refl _

theorem breakOver_work (duration : Nat) (s : State) : LineWork l s (breakOver l duration s) :=
  (engineBreakEnd_work _).after (breakEnded_work _ _)

theorem takeStuck_work (newBreak : Bool) (s : State) : LineWork l s (takeStuck l newBreak s) := by
  have report : ∀ t, LineWork l t (reportStuck l t) := by
    intro t
    unfold reportStuck stuckToLineControl
    split
    iterate 3 exact engineStuck_work _
    · split <;> first | exact enterFault_work _ _ | exact .refl _
    · exact .refl _
  exact (report _).after (takeBreak_work newBreak s)

theorem ensureIdleWait_work (s : State) : LineWork l s (ensureIdleWait l s) := by
  unfold ensureIdleWait
  split
  · exact startIdleWait_work s
  · exact .refl _

theorem breakSent_work (s : State) : LineWork l s (breakSent l s) :=
  ((releaseDriver_work s).trans (restartQuiet_work _)).trans (resetToggles_work _)

theorem afterJam_work (s : State) : LineWork l s (afterJam l s) := by
  unfold afterJam
  split
  · exact modifyLine_quiet _ _
  · split
    · exact startIdleWait_work s
    · exact .refl _
  · exact enterStopped_work _
  all_goals exact .refl _

theorem pendInService_work (s : State) : LineWork l s (pendInService l s) := nodesToPending_work _ _

theorem completeStop_work (s : State) : LineWork l s (completeStop l s) := by
  unfold completeStop
  split
  · exact enterStopped_work _
  · exact .refl _

theorem endOrder_work (s : State) : LineWork l s (endOrder l s) := modifyEngine_work _ _

/-- The acts are the work of the line. -/
theorem portAct_work {s t : State} (h : PortAct l s t) : LineWork l s t := by
  cases h with
  | nothing => exact .refl _
  | hold => exact modifyEngine_work _ _
  | resume => exact resumeTimers_work _
  | character c => exact deliverCharacter_work c _
  | breakDetected => exact takeBreak_work true _
  | breakEnd duration => exact breakOver_work duration _
  | stuck newBreak => exact takeStuck_work newBreak _
  | stuckEnd duration => exact (ensureIdleWait_work _).after (breakOver_work duration _)
  | frameSent => exact frameSent_work _
  | lastCharacter => exact (restartQuiet_work _).after (releaseAfterRestart_work _)
  | contention => exact (sendBreak_work _ _ _).after (endAttempt_work _ _)
  | jamBreakEnd => exact (afterJam_work _).after (breakSent_work _)
  | breakOrderEnd =>
    exact (completeStop_work _).after ((pendInService_work _).after ((breakSent_work _).after (endOrder_work _)))
  | choice => exact choose_work _
  | settlingEnd => exact endSettling_work _

/-- The commands that carry periods are the work of the line. -/
theorem afterPeriods_work {event : State → Option State} (h : PortCommand l event) (periods : Periods) (s : State) :
    LineWork l s (afterPeriods l periods event s) :=
  afterPeriods_keeps (P := LineWork l s) h (fun _ _ k => k.trans (modifyLine_quiet _ _))
    (fun _ _ k => k.trans (modifyPort_work _ _)) (fun _ _ ha k => k.trans (portAct_work ha)) periods (.refl s)

theorem playPeriods_work (periods : Periods) (s : State) : LineWork l s (playPeriods l periods s) :=
  playPeriods_keeps (P := LineWork l s) (fun _ _ k => k.trans (modifyLine_quiet _ _)) periods (.refl s)

theorem holdoffRunsOut_work (s : State) : LineWork l s (holdoffRunsOut l s) := by
  unfold holdoffRunsOut
  dsimp only
  split
  · exact ((changeLineState_work _ _ s).trans (modifyLine_quiet _ _)).trans
      (checkStuck_work _)
  · exact .refl _

theorem idleWaitRunsOut_work (s : State) : LineWork l s (idleWaitRunsOut l s) := by
  unfold idleWaitRunsOut
  dsimp only
  split
  · exact ((((changeLineState_work _ _ s).trans (modifyLine_quiet _ _)).trans
      (nodesToPending_work _ _)).trans (startRound_work _)).trans (checkStuck_work _)
  · exact .refl _

end Sys2Proof.Machine
end

