-- ==== Sys2Proof/Laws/HostLink.lean ====
section
/-! SUPPORT. What the operations of the host link and of Report Delivery can do: the grants of the
outbound arbiter, acknowledgement, timeout, the messages received and the answered requests. -/

namespace Sys2Proof.Machine

open Sys2Proof

/-! ### The outbound arbiter -/

/-- The four things a grant can be (R151, R152). -/
theorem outbound_cases (s : State) :
    outbound s = s ∨
    (∃ x, s.link.transmitter = none ∧ resendWaits s = some x ∧ outbound s = resendSnapshot x s) ∨
    (s.link.transmitter = none ∧ resendWaits s = none ∧ s.link.responses ≠ [] ∧ outbound s = grantResponse s) ∨
    (s.link.transmitter = none ∧ resendWaits s = none ∧ s.link.responses = [] ∧ reportWaits s = true ∧
      outbound s = composeReport s) := by
  by_cases hT : s.link.transmitter.isSome = true
  · exact Or.inl (by simp [outbound, hT])
  · have hN : s.link.transmitter = none := by simpa using hT
    rcases hR : resendWaits s with _ | x
    · by_cases hP : s.link.responses = []
      · by_cases hW : reportWaits s = true
        · exact Or.inr (Or.inr (Or.inr ⟨hN, rfl, hP, hW, by simp [outbound, hN, hR, hP, hW]⟩))
        · exact Or.inl (by simp [outbound, hN, hR, hP, hW])
      · exact Or.inr (Or.inr (Or.inl ⟨hN, rfl, hP, by simp [outbound, hN, hR, hP]⟩))
    · exact Or.inr (Or.inl ⟨x, hN, rfl, by simp [outbound, hN, hR]⟩)

/-- What the grants and the other operations of Report Delivery leave alone. -/
structure DeliveryWork (s t : State) : Prop where
  resetHeld : t.resetHeld = s.resetHeld
  msClock : t.msClock = s.msClock
  prescaler : t.prescaler = s.prescaler
  lines : ∀ l, t.line l = s.line l
  freeBlocks : t.freeBlocks = s.freeBlocks
  nextUid : t.nextUid = s.nextUid
  pending : t.pending = s.pending

namespace DeliveryWork

theorem refl (s : State) : DeliveryWork s s := ⟨rfl, rfl, rfl, fun _ => rfl, rfl, rfl, rfl⟩

theorem trans {s t u : State} (h : DeliveryWork s t) (k : DeliveryWork t u) : DeliveryWork s u :=
  ⟨k.resetHeld.trans h.resetHeld, k.msClock.trans h.msClock, k.prescaler.trans h.prescaler,
    fun l => (k.lines l).trans (h.lines l), k.freeBlocks.trans h.freeBlocks, k.nextUid.trans h.nextUid,
    k.pending.trans h.pending⟩

theorem after {s t u : State} (k : DeliveryWork t u) (h : DeliveryWork s t) : DeliveryWork s u := h.trans k

theorem foldl {α : Type} {f : State → α → State} (h : ∀ s a, DeliveryWork s (f s a)) (xs : List α)
    (s : State) : DeliveryWork s (xs.foldl f s) := by
  induction xs generalizing s with
  | nil => exact refl s
  | cons a rest ih => exact (h s a).trans (ih _)

end DeliveryWork

theorem modifyLink_deliveryWork (s : State) (f : HostLink → HostLink) : DeliveryWork s (s.modifyLink f) :=
  ⟨rfl, rfl, rfl, fun _ => modifyLink_line _ _ _, rfl, rfl, rfl⟩

theorem modifyDelivery_deliveryWork (s : State) (f : Delivery → Delivery) : DeliveryWork s (s.modifyDelivery f) :=
  ⟨rfl, rfl, rfl, fun _ => modifyDelivery_line _ _ _, rfl, rfl, rfl⟩

theorem updateSub_deliveryWork (id uid : Nat) (f : SubRecord → SubRecord) (s : State) :
    DeliveryWork s (updateSub id uid f s) := ⟨rfl, rfl, rfl, fun _ => updateSub_line _ _ _ _ _, rfl, rfl, rfl⟩

theorem updateTxn_deliveryWork (reference : Word16) (f : TxnRecord → TxnRecord) (s : State) :
    DeliveryWork s (updateTxn reference f s) :=
  ⟨rfl, rfl, rfl, fun _ => updateTxn_line _ _ _ _, rfl, rfl, rfl⟩

theorem freeTxn_deliveryWork (reference : Word16) (s : State) : DeliveryWork s (freeTxn reference s) :=
  ⟨rfl, rfl, rfl, fun _ => freeTxn_line _ _ _, rfl, rfl, rfl⟩

theorem tellOwner_deliveryWork (r : ReportRequest) (s : State) : DeliveryWork s (tellOwner r s) := by
  cases r <;> first
    | exact updateSub_deliveryWork _ _ _ _ | exact updateTxn_deliveryWork _ _ _ | exact .refl _

theorem composeReport_deliveryWork (s : State) : DeliveryWork s (composeReport s) := by
  unfold composeReport
  split
  · exact .refl _
  · dsimp only
    split
    · exact modifyDelivery_deliveryWork _ _
    · exact (modifyLink_deliveryWork _ _).after ((tellOwner_deliveryWork _ _).after
        ((modifyLink_deliveryWork _ _).after ((modifyDelivery_deliveryWork _ _).after
          (modifyDelivery_deliveryWork _ _))))

theorem resendSnapshot_deliveryWork (x : Snapshot) (s : State) : DeliveryWork s (resendSnapshot x s) := by
  unfold resendSnapshot sendMessage State.countLink
  exact (modifyLink_deliveryWork _ _).after ((modifyLink_deliveryWork _ _).after (modifyDelivery_deliveryWork _ _))

theorem grantResponse_deliveryWork (s : State) : DeliveryWork s (grantResponse s) := by
  unfold grantResponse
  split
  · exact .refl _
  · exact (modifyLink_deliveryWork _ _).after (modifyLink_deliveryWork _ _)

theorem outbound_deliveryWork (s : State) : DeliveryWork s (outbound s) := by
  rcases outbound_cases s with h | ⟨x, -, -, h⟩ | ⟨-, -, -, h⟩ | ⟨-, -, -, -, h⟩ <;> rw [h]
  · exact .refl _
  · exact resendSnapshot_deliveryWork _ _
  · exact grantResponse_deliveryWork _
  · exact composeReport_deliveryWork _

theorem acknowledge_deliveryWork (sequence : Byte) (s : State) : DeliveryWork s (acknowledge sequence s) := by
  unfold acknowledge
  split
  · refine DeliveryWork.after (.foldl (fun s x => ?_) _ _) (modifyDelivery_deliveryWork _ _)
    unfold releaseOwner
    split <;> first | exact freeTxn_deliveryWork _ _ | exact .refl _
  · exact modifyLink_deliveryWork _ _

theorem ackTimerExpiry_deliveryWork (s : State) : DeliveryWork s (ackTimerExpiry s) := by
  unfold ackTimerExpiry
  split
  · unfold ackTimerRunsOut
    dsimp only
    split
    · exact (modifyDelivery_deliveryWork _ _).after (modifyDelivery_deliveryWork _ _)
    · exact (modifyDelivery_deliveryWork _ _).after ((modifyLink_deliveryWork _ _).after
        ((modifyLink_deliveryWork _ _).after (modifyDelivery_deliveryWork _ _)))
  · exact .refl _

theorem handBackWindow_deliveryWork (start : Byte) (timeout : Nat) (s : State) :
    DeliveryWork s (handBackWindow start timeout s) := by
  unfold handBackWindow
  refine (modifyDelivery_deliveryWork _ _).after (.foldl (fun s r => ?_) _ _)
  unfold requeueOwner
  split <;> first
    | exact updateSub_deliveryWork _ _ _ _ | exact updateTxn_deliveryWork _ _ _ | exact .refl _

/-! ### Messages received -/

theorem refuseMessage_deliveryWork (m : Message) (s : State) : DeliveryWork s (refuseMessage m s) := by
  unfold refuseMessage
  split
  · exact modifyLink_deliveryWork _ _
  · split
    · exact (modifyLink_deliveryWork _ _).after (modifyLink_deliveryWork _ _)
    · exact modifyLink_deliveryWork _ _

theorem passMessage_deliveryWork (m : Message) (s : State) : DeliveryWork s (passMessage m s) := by
  unfold passMessage
  split
  · exact acknowledge_deliveryWork _ _
  · split
    · exact modifyLink_deliveryWork _ _
    · exact refuseMessage_deliveryWork _ _

theorem judgeMessage_deliveryWork (m : Message) (check : Word16) (s : State) :
    DeliveryWork s (judgeMessage m check s) := by
  unfold judgeMessage
  dsimp only
  split
  · exact (passMessage_deliveryWork _ _).after ((modifyLink_deliveryWork _ _).after (modifyLink_deliveryWork _ _))
  · exact (modifyLink_deliveryWork _ _).after (modifyLink_deliveryWork _ _)

theorem takeByte_deliveryWork (x : Byte) (s : State) : DeliveryWork s (takeByte x s) := by
  unfold takeByte
  split
  · split
    · exact modifyLink_deliveryWork _ _
    · exact .refl _
  · split
    · exact modifyLink_deliveryWork _ _
    · exact (modifyLink_deliveryWork _ _).after (modifyLink_deliveryWork _ _)
  · split <;> exact modifyLink_deliveryWork _ _
  · split
    · exact modifyLink_deliveryWork _ _
    · exact judgeMessage_deliveryWork _ _ _

theorem takeFramingError_deliveryWork (s : State) : DeliveryWork s (takeFramingError s) := by
  unfold takeFramingError
  dsimp only
  split
  · exact (modifyLink_deliveryWork _ _).after (modifyLink_deliveryWork _ _)
  · exact (modifyLink_deliveryWork _ _).after
      ((modifyLink_deliveryWork _ _).after (modifyLink_deliveryWork _ _))

theorem endHighWait_deliveryWork (s : State) : DeliveryWork s (endHighWait s) := modifyLink_deliveryWork _ _

theorem takeSampledByte_deliveryWork (b : SampledByte) (s : State) : DeliveryWork s (takeSampledByte b s) := by
  unfold takeSampledByte
  split
  · exact .refl _
  · dsimp only
    split
    · split
      · exact (takeByte_deliveryWork _ _).after (endHighWait_deliveryWork _)
      · exact (takeFramingError_deliveryWork _).after (endHighWait_deliveryWork _)
    · exact endHighWait_deliveryWork _

theorem takeReceivedMessage_deliveryWork (m : ReceivedMessage) (s : State) :
    DeliveryWork s (takeReceivedMessage m s) := by
  unfold takeReceivedMessage
  split
  · exact (judgeMessage_deliveryWork _ _ _).after (endHighWait_deliveryWork _)
  · exact .refl _

theorem messageGapRunsOut_deliveryWork (s : State) : DeliveryWork s (messageGapRunsOut s) := by
  unfold messageGapRunsOut
  split
  · exact (modifyLink_deliveryWork _ _).after (modifyLink_deliveryWork _ _)
  · exact .refl _

theorem freeTransmitter_deliveryWork (s : State) : DeliveryWork s (freeTransmitter s) :=
  modifyLink_deliveryWork _ _

/-! ### Answers -/

theorem completeRequest_deliveryWork (m : Message) (p : State × List Byte) :
    DeliveryWork p.1 (completeRequest m p) := by
  unfold completeRequest queueResponse
  exact (modifyLink_deliveryWork _ _).after (modifyLink_deliveryWork _ _)

theorem queueResponse_deliveryWork (m : Message) (s : State) : DeliveryWork s (queueResponse m s) :=
  modifyLink_deliveryWork _ _

/-- Any property of the state that an answer's own work keeps, and that the execution keeps, a request
keeps: the one way a request goes (R145 to R147). -/
theorem takeRequest_keeps {P : State → Prop} {accepts : Byte → Bool} {run : Service} {s : State} (h : P s)
    (taken : ∀ m rest, s.link.inbox = m :: rest → s.link.responses.length ≤ 4 →
      P (s.modifyLink fun k => { k with inbox := rest }))
    (served : ∀ m rest, s.link.inbox = m :: rest → s.link.responses.length ≤ 4 → m.kind ∈ requestKinds →
      P (s.modifyLink fun k => { k with inbox := rest }) →
      P (completeRequest m (run m.payload (s.modifyLink fun k => { k with inbox := rest }))))
    (answered : ∀ (m : Message) (t : State), P t → t.link.responses.length ≤ 4 → P (queueResponse m t))
    (counted : ∀ (t : State) (f : LinkCounters → LinkCounters), P t → P (t.countLink f)) :
    P (takeRequest accepts run s) := by
  unfold takeRequest
  split
  · exact h
  · rename_i m rest hi
    split
    · rename_i ha
      have ht := taken m rest hi ha.2
      unfold judgeRequest
      split
      · exact answered _ _ ht ha.2
      · split
        · exact answered _ _ (counted _ _ ht) ha.2
        · split
          · exact answered _ _ ht ha.2
          · split
            · rename_i hk _
              exact served m rest hi ha.2 (by simpa using hk) ht
            · exact answered _ _ ht ha.2
    · exact h

end Sys2Proof.Machine
end

