-- ==== Sys2Proof/Laws/Requests.lean ====
section
/-! SUPPORT. What the execution of a request can do to what it does not own: the receiving and answering
side of the host link, the report window, the clock. -/

namespace Sys2Proof.Machine

open Sys2Proof

/-- What an executed request leaves of the host link and of Report Delivery. The window is kept with its
numbering and timer, or handed back or emptied by HELLO and RESTART. -/
structure RequestWork (s t : State) : Prop where
  resetHeld : t.resetHeld = s.resetHeld
  msClock : t.msClock = s.msClock
  prescaler : t.prescaler = s.prescaler
  pending : t.pending = s.pending
  inbox : t.link.inbox = s.link.inbox
  responses : t.link.responses = s.link.responses
  transmitter : t.link.transmitter = s.link.transmitter
  cache : t.link.cache = s.link.cache ∨ t.link.cache = []
  queue : s.delivery.queue.Nodup → t.delivery.queue.Nodup
  window : (t.delivery.window = s.delivery.window ∧ t.delivery.nextSequence = s.delivery.nextSequence ∧
      t.delivery.ackTimer = s.delivery.ackTimer ∧ t.delivery.timeoutCount = s.delivery.timeoutCount ∧
      t.link.linkState = s.link.linkState) ∨
    (t.delivery.window = [] ∧ t.delivery.ackTimer = .stopped ∧ t.delivery.timeoutCount = 0)

namespace RequestWork

theorem refl (s : State) : RequestWork s s :=
  ⟨rfl, rfl, rfl, rfl, rfl, rfl, rfl, .inl rfl, id, .inl ⟨rfl, rfl, rfl, rfl, rfl⟩⟩

theorem trans {s t u : State} (h : RequestWork s t) (k : RequestWork t u) : RequestWork s u where
  resetHeld := k.resetHeld.trans h.resetHeld
  msClock := k.msClock.trans h.msClock
  prescaler := k.prescaler.trans h.prescaler
  pending := k.pending.trans h.pending
  inbox := k.inbox.trans h.inbox
  responses := k.responses.trans h.responses
  transmitter := k.transmitter.trans h.transmitter
  cache := by
    rcases k.cache with hk | hk
    · exact h.cache.imp hk.trans hk.trans
    · exact .inr hk
  queue := fun hs => k.queue (h.queue hs)
  window := by
    rcases k.window with ⟨a, b, c, d, e⟩ | hk
    · rcases h.window with ⟨a', b', c', d', e'⟩ | ⟨a', c', d'⟩
      · exact .inl ⟨a.trans a', b.trans b', c.trans c', d.trans d', e.trans e'⟩
      · exact .inr ⟨a.trans a', c.trans c', d.trans d'⟩
    · exact .inr hk

theorem after {s t u : State} (k : RequestWork t u) (h : RequestWork s t) : RequestWork s u := h.trans k

end RequestWork

/-- The work of a line, inside a request. -/
theorem LineWork.request {l : LineId} {s t : State} (h : LineWork l s t) : RequestWork s t := by
  obtain ⟨added, hd, hn⟩ := h.reports
  have hl := h.link
  exact ⟨h.resetHeld, h.msClock, h.prescaler, h.pending, by rw [hl], by rw [hl], by rw [hl],
    .inl (by rw [hl]), fun hs => by rw [hd]; exact hn hs, .inl ⟨by rw [hd], by rw [hd], by rw [hd], by rw [hd], by rw [hl]⟩⟩

theorem modifyLine_request (l : LineId) (f : Line → Line) (s : State) : RequestWork s (s.modifyLine l f) :=
  ⟨by simp, by simp, by simp, by simp, by simp, by simp, by simp, .inl (by simp), by simp, .inl (by simp)⟩

theorem withdrawReport_request (r : ReportRequest) (s : State) : RequestWork s (withdrawReport r s) :=
  ⟨rfl, rfl, rfl, rfl, rfl, rfl, rfl, .inl rfl, fun h => h.filter _, .inl ⟨rfl, rfl, rfl, rfl, rfl⟩⟩

/-- A change of the record tables alone. -/
theorem tables_request (s : State) (subs : List SubRecord) (free : Nat) (txns : List TxnRecord) (uid : Nat) :
    RequestWork s { s with subs := subs, freeBlocks := free, txns := txns, nextUid := uid } :=
  ⟨rfl, rfl, rfl, rfl, rfl, rfl, rfl, .inl rfl, id, .inl ⟨rfl, rfl, rfl, rfl, rfl⟩⟩

theorem onLine_request {code : Nat} {run : LineId → State → State × List Byte} {s : State}
    (h : ∀ l, RequestWork s (run l s).1) : RequestWork s (onLine code run s).1 := by
  unfold onLine
  split
  · exact .refl _
  · exact h _

/-! ### Line Control -/

theorem setConfig_request (l : LineId) (c : LineConfig) (s : State) : RequestWork s (setConfig l c s) :=
  (nodesToPending_work _ _).request.after (modifyLine_request _ _ _)

theorem runLineSet_request (p : List Byte) (s : State) : RequestWork s (runLineSet p s).1 := by
  refine onLine_request fun l => ?_
  split
  · exact .refl _
  · split
    · exact .refl _
    · exact setConfig_request _ _ _

theorem startLine_work (l : LineId) (s : State) : LineWork l s (startLine l s) :=
  (checkStuck_work _).after ((startRound_work _).after ((nodesToPending_work _ _).after (changeLineState_work _ _ _)))

theorem runLineStart_request (p : List Byte) (s : State) : RequestWork s (runLineStart p s).1 := by
  refine onLine_request fun l => ?_
  split
  · exact (startLine_work l s).request
  · exact .refl _

theorem enterStopping_work (l : LineId) (purge : Bool) (s : State) : LineWork l s (enterStopping l purge s) :=
  (changeLineState_work _ _ _).after (modifyLine_quiet _ _)

theorem purgeIf_work (l : LineId) (purge : Bool) (s : State) :
    LineWork l s (if purge then purgeLine l s else s) := by
  split
  · exact purgeLine_work _
  · exact .refl _

theorem stopLine_work (l : LineId) (purge : Bool) (s : State) : LineWork l s (stopLine l purge s) := by
  have h := purgeIf_work l purge s
  unfold stopLine
  dsimp only
  generalize (if purge = true then purgeLine l s else s) = t at h ⊢
  split
  · exact h
  · split
    · exact (enterStopped_work _).after h
    · exact (enterStopping_work _ _ _).after h
  · split
    · exact (enterStopping_work _ _ _).after h
    · exact (enterStopped_work _).after h
  · split
    · exact (enterStopping_work _ _ _).after h
    · exact (enterStopped_work _).after h
  · exact (modifyLine_quiet _ _).after h

theorem runLineStop_request (p : List Byte) (s : State) : RequestWork s (runLineStop p s).1 :=
  onLine_request fun _ => (stopLine_work _ _ _).request

theorem runLineResync_request (p : List Byte) (s : State) : RequestWork s (runLineResync p s).1 := by
  refine onLine_request fun l => ?_
  split <;> first | exact (modifySched_work (l := l) s fun c => { c with resyncRequest := true }).request | exact .refl _

theorem runLineQuery_request (p : List Byte) (s : State) : RequestWork s (runLineQuery p s).1 :=
  onLine_request fun _ => .refl _

/-! ### Nodes and statistics -/

theorem onNode_request {p : List Byte} {run : LineId → Nat → State → State × List Byte} {s : State}
    (h : ∀ l n, RequestWork s (run l n s).1) : RequestWork s (onNode p run s).1 := by
  refine onLine_request fun l => ?_
  split
  · exact h _ _
  · exact .refl _

theorem addNode_request (l : LineId) (address : Nat) (s : State) : RequestWork s (addNode l address s) :=
  (tables_request _ _ _ _ _).after (modifyLine_request _ _ _)

theorem runNodeAdd_request (p : List Byte) (s : State) : RequestWork s (runNodeAdd p s).1 := by
  refine onNode_request fun l n => ?_
  split
  · exact .refl _
  · exact addNode_request _ _ _

theorem runNodeRemove_request (p : List Byte) (s : State) : RequestWork s (runNodeRemove p s).1 := by
  refine onNode_request fun l n => ?_
  split
  · exact .refl _
  · split
    · exact (withdrawReport_request _ _).after (modifyLine_request _ _ _)
    · exact .refl _

theorem runNodeQuery_request (p : List Byte) (s : State) : RequestWork s (runNodeQuery p s).1 := by
  refine onNode_request fun l n => ?_
  split <;> exact .refl _

theorem countLink_request (f : LinkCounters → LinkCounters) (s : State) : RequestWork s (s.countLink f) :=
  ⟨rfl, rfl, rfl, rfl, rfl, rfl, rfl, .inl rfl, id, .inl ⟨rfl, rfl, rfl, rfl, rfl⟩⟩

theorem readLineStats_request (clear : Bool) (l : LineId) (s : State) :
    RequestWork s (readLineStats clear l s).1 := by
  unfold readLineStats answerOk
  dsimp only
  split
  · exact modifyLine_request _ _ _
  · exact .refl _

theorem readNodeStats_request (clear : Bool) (l : LineId) (address : Nat) (s : State) :
    RequestWork s (readNodeStats clear l address s).1 := by
  unfold readNodeStats answerOk
  split
  · exact .refl _
  · dsimp only
    split
    · exact modifyLine_request _ _ _
    · exact .refl _

theorem readLinkStats_request (clear : Bool) (s : State) : RequestWork s (readLinkStats clear s).1 := by
  unfold readLinkStats answerOk
  dsimp only
  split
  · exact countLink_request _ _
  · exact .refl _

theorem runStatsRead_request (p : List Byte) (s : State) : RequestWork s (runStatsRead p s).1 := by
  unfold runStatsRead
  dsimp only
  split
  · exact .refl _
  · split
    · exact onLine_request fun l => readLineStats_request _ _ _
    · split
      · refine onLine_request fun l => ?_
        split
        · exact readNodeStats_request _ _ _ _
        · exact .refl _
      · exact readLinkStats_request _ _

/-! ### Subscriptions -/

theorem openSub_request (id : Nat) (f : OpenFields) (n : NodeRecord) (s : State) :
    RequestWork s (openSub id f n s) := tables_request _ _ _ _ _

theorem runSubOpen_request (p : List Byte) (s : State) : RequestWork s (runSubOpen p s).1 := by
  unfold runSubOpen
  split
  · exact .refl _
  · unfold judgeOpen
    split
    · exact .refl _
    · split
      · exact .refl _
      · split
        · exact .refl _
        · split
          · exact .refl _
          · split
            · exact openSub_request _ _ _ _
            · exact .refl _

theorem discardSamples_request (r : SubRecord) (s : State) : RequestWork s (discardSamples r s) :=
  tables_request _ _ _ _ _

theorem updateSub_request (id uid : Nat) (f : SubRecord → SubRecord) (s : State) :
    RequestWork s (updateSub id uid f s) := tables_request _ _ _ _ _

theorem freeSub_request (id uid : Nat) (s : State) : RequestWork s (freeSub id uid s) :=
  tables_request _ _ _ _ _

theorem closeSub_request (r : SubRecord) (s : State) : RequestWork s (closeSub r s) := by
  have h : RequestWork s (prunePolls r.line [r.id] (withdrawReport (.subState r.id r.uid)
      (withdrawReport (.sampleReady r.id r.uid) (discardSamples r s)))) :=
    (prunePolls_work _ _).request.after ((withdrawReport_request _ _).after
      ((withdrawReport_request _ _).after (discardSamples_request _ _)))
  unfold closeSub
  dsimp only
  split
  · exact (updateSub_request _ _ _ _).after h
  · exact (freeSub_request _ _ _).after h

theorem runSubClose_request (p : List Byte) (s : State) : RequestWork s (runSubClose p s).1 := by
  unfold runSubClose
  split
  · exact .refl _
  · split
    · exact closeSub_request _ _
    · exact .refl _

theorem settleNotice_request (r : SubRecord) (left : List Sample) (s : State) :
    RequestWork s (settleNotice r left s) := by
  have h : RequestWork s
      (updateSub r.id r.uid (fun r => { r with notice := .none })
        (if r.notice = .queued then withdrawReport (.sampleReady r.id r.uid) s else s)) := by
    refine (updateSub_request _ _ _ _).after ?_
    split
    · exact withdrawReport_request _ _
    · exact .refl _
  unfold settleNotice
  dsimp only
  split
  · exact h
  · exact (raiseNotice_work (l := .a) _ _ _).request.after h

theorem takeSamples_request (r : SubRecord) (n : Nat) (s : State) : RequestWork s (takeSamples r n s) := by
  unfold takeSamples
  exact (settleNotice_request _ _ _).after (tables_request _ _ _ _ _)

theorem runSubFetch_request (p : List Byte) (s : State) : RequestWork s (runSubFetch p s).1 := by
  unfold runSubFetch
  split
  · exact .refl _
  · split
    · exact .refl _
    · split
      · exact takeSamples_request _ _ _
      · exact .refl _

theorem runSubQuery_request (p : List Byte) (s : State) : RequestWork s (runSubQuery p s).1 := by
  unfold runSubQuery
  split <;> exact .refl _

/-! ### Transactions -/

theorem submitTxn_request (f : SubmitFields) (s : State) : RequestWork s (submitTxn f s) := by
  unfold submitTxn
  exact (tables_request _ _ _ _ _).after (modifyLine_request _ _ _)

theorem runTxnSubmit_request (p : List Byte) (s : State) : RequestWork s (runTxnSubmit p s).1 := by
  unfold runTxnSubmit
  split
  · exact .refl _
  · unfold judgeSubmit
    split
    · exact .refl _
    · split
      · split
        · exact submitTxn_request _ _
        · exact .refl _
      · split
        · exact .refl _
        · split
          · exact .refl _
          · split
            · exact submitTxn_request _ _
            · exact .refl _

theorem cancelTxn_request (t : TxnRecord) (s : State) : RequestWork s (cancelTxn t s) :=
  (completeTxn_work (l := .a) _ _ _ _ _ _).request.after (modifyLine_request _ _ _)

theorem runTxnCancel_request (p : List Byte) (s : State) : RequestWork s (runTxnCancel p s).1 := by
  unfold runTxnCancel
  split
  · exact .refl _
  · split
    · exact .refl _
    · split
      · exact cancelTxn_request _ _
      all_goals exact .refl _

/-! ### HELLO and RESTART -/

theorem keepFirst_mem (r : ReportRequest) (xs : List ReportRequest) : r ∈ keepFirst xs ↔ r ∈ xs := by
  induction xs with
  | nil => simp [keepFirst]
  | cons x rest ih =>
    simp only [keepFirst, List.mem_cons, List.mem_filter, ih]
    by_cases h : r = x <;> simp [h]

theorem keepFirst_nodup (xs : List ReportRequest) : (keepFirst xs).Nodup := by
  induction xs with
  | nil => exact List.nodup_nil
  | cons x rest ih =>
    simp only [keepFirst, List.nodup_cons]
    exact ⟨by simp, ih.filter _⟩

theorem requeueOwner_delivery (s : State) (r : ReportRequest) : (requeueOwner s r).delivery = s.delivery := by
  cases r <;> rfl

theorem requeueOwner_link (s : State) (r : ReportRequest) : (requeueOwner s r).link = s.link := by
  cases r <;> rfl

theorem requeueOwners_delivery (rs : List ReportRequest) (s : State) :
    (rs.foldl requeueOwner s).delivery = s.delivery := by
  induction rs generalizing s with
  | nil => rfl
  | cons r rest ih => exact (ih _).trans (requeueOwner_delivery s r)

theorem requeueOwners_link (rs : List ReportRequest) (s : State) :
    (rs.foldl requeueOwner s).link = s.link := by
  induction rs generalizing s with
  | nil => rfl
  | cons r rest ih => exact (ih _).trans (requeueOwner_link s r)

theorem settledThenQueue_nodup (settled queue : List ReportRequest) (hs : settled.Nodup) (hq : queue.Nodup) :
    (settled ++ queue.filter fun r => r ∉ settled).Nodup := by
  rw [List.nodup_append]
  refine ⟨hs, hq.filter _, fun a ha b hb => ?_⟩
  simp only [List.mem_filter, decide_eq_true_eq] at hb
  rintro rfl
  exact hb.2 ha

theorem attachLink_request (start : Byte) (timeout : Nat) (s : State) :
    RequestWork s (attachLink start timeout s) := by
  have h := handBackWindow_deliveryWork start timeout (s.modifyLink fun k => { k with linkState := .attached })
  have hk : (handBackWindow start timeout (s.modifyLink fun k => { k with linkState := .attached })).link =
      { s.link with linkState := .attached } := by
    unfold handBackWindow
    dsimp only
    rw [modifyDelivery_link, requeueOwners_link]
    rfl
  unfold attachLink
  refine ⟨h.resetHeld, h.msClock, h.prescaler, h.pending, ?_, ?_, ?_, .inr rfl, ?_, .inr ⟨rfl, rfl, rfl⟩⟩
  · simp [hk]
  · simp [hk]
  · simp [hk]
  · intro hq
    simp only [modifyLink_delivery]
    unfold handBackWindow
    dsimp only
    rw [modifyDelivery_delivery]
    dsimp only
    rw [requeueOwners_delivery]
    exact settledThenQueue_nodup _ _ (keepFirst_nodup _) hq

theorem runHello_request (p : List Byte) (s : State) : RequestWork s (runHello p s).1 := by
  unfold runHello
  dsimp only
  split
  · exact attachLink_request _ _ _
  · exact .refl _

theorem endBreak_work (l : LineId) (s : State) : LineWork l s (endBreak l s) := by
  unfold endBreak
  split
  · exact releaseDriver_work _
  all_goals exact .refl _

theorem restartAll_request (s : State) : RequestWork s (restartAll s) := by
  unfold restartAll
  refine (endBreak_work .b _).request.after ((endBreak_work .a _).request.after ?_)
  exact ⟨rfl, rfl, rfl, rfl, rfl, rfl, rfl, .inr rfl, fun _ => List.nodup_nil, .inr ⟨rfl, rfl, rfl⟩⟩

theorem runRestart_request (periodsA periodsB : Periods) (p : List Byte) (s : State) :
    RequestWork s (runRestart periodsA periodsB p s).1 :=
  (restartAll_request _).after
    ((playPeriods_work periodsB (playPeriods .a periodsA s)).request.after (playPeriods_work periodsA s).request)

end Sys2Proof.Machine
end

