-- ==== Sys2Proof/Laws/Steps.lean ====
section
/-! SUPPORT. The commands by what they are, an event of a line, an event of the host link or a request,
and the one way a property of the state is kept by every step. -/

namespace Sys2Proof.Machine

open Sys2Proof

/-- The effects of the commands of one line: those that carry sample periods, and its timers. -/
inductive LineEvent (l : LineId) : (State → State) → Prop
  | port {event : State → Option State} (periods : Periods) (h : PortCommand l event) :
    LineEvent l (afterPeriods l periods event)
  | roundTimer : LineEvent l (roundTimerRunsOut l)
  | roundStart : LineEvent l (takeRoundStart l)
  | quiet : LineEvent l (endQuiet l)
  | window : LineEvent l (windowRunsOut l)
  | gap : LineEvent l (gapRunsOut l)
  | holdoff : LineEvent l (holdoffRunsOut l)
  | idleWait : LineEvent l (idleWaitRunsOut l)

/-- The effects of the events of the host link. -/
inductive HostEvent : (State → State) → Prop
  | byte (b : SampledByte) : HostEvent (takeSampledByte b)
  | message (m : ReceivedMessage) : HostEvent (takeReceivedMessage m)
  | messageGap : HostEvent messageGapRunsOut
  | transmitEnd : HostEvent freeTransmitter
  | ackTimer : HostEvent ackTimerExpiry

/-- What executes a request. -/
inductive RequestService : Service → Prop
  | hello : RequestService runHello
  | restart (periodsA periodsB : Periods) : RequestService (runRestart periodsA periodsB)
  | lineSet : RequestService runLineSet
  | lineStart : RequestService runLineStart
  | lineStop : RequestService runLineStop
  | lineResync : RequestService runLineResync
  | lineQuery : RequestService runLineQuery
  | nodeAdd : RequestService runNodeAdd
  | nodeRemove : RequestService runNodeRemove
  | nodeQuery : RequestService runNodeQuery
  | subOpen : RequestService runSubOpen
  | subClose : RequestService runSubClose
  | subFetch : RequestService runSubFetch
  | subQuery : RequestService runSubQuery
  | txnSubmit : RequestService runTxnSubmit
  | txnCancel : RequestService runTxnCancel
  | statsRead : RequestService runStatsRead
  | unknown : RequestService fun _ s => refuseWith .unknownKind s

/-- Every command is one of these (R139 and the rows of the table). -/
theorem exec_cases (c : Instr) (s : State) :
    (∃ rate1 rate0 levelA levelB, exec c s = .next (pinReset rate1 rate0 levelA levelB s)) ∨
    exec c s = .next (holdInReset s) ∨
    (∃ l f, LineEvent l f ∧ exec c s = perform f s) ∨
    (∃ f, HostEvent f ∧ exec c s = perform f s) ∨
    (∃ accepts run, RequestService run ∧ exec c s = perform (takeRequest accepts run) s) := by
  cases c with
  | pinReset a b c d => exact .inl ⟨a, b, c, d, rfl⟩
  | resetNLow => exact .inr (.inl rfl)
  | messageReceived m => exact .inr (.inr (.inr (.inl ⟨_, .message m, rfl⟩)))
  | messageGapTimeout => exact .inr (.inr (.inr (.inl ⟨_, .messageGap, rfl⟩)))
  | acknowledgement q p k => exact .inr (.inr (.inr (.inl ⟨_, .message ⟨kindAcknowledgement, q, p, k⟩, rfl⟩)))
  | byteReceived b => exact .inr (.inr (.inr (.inl ⟨_, .byte b, rfl⟩)))
  | hostTransmitEnd => exact .inr (.inr (.inr (.inl ⟨_, .transmitEnd, rfl⟩)))
  | ackTimeout => exact .inr (.inr (.inr (.inl ⟨_, .ackTimer, rfl⟩)))
  | hello => exact .inr (.inr (.inr (.inr ⟨_, _, .hello, rfl⟩)))
  | restart pA pB => exact .inr (.inr (.inr (.inr ⟨_, _, .restart pA pB, rfl⟩)))
  | lineSet => exact .inr (.inr (.inr (.inr ⟨_, _, .lineSet, rfl⟩)))
  | lineStart => exact .inr (.inr (.inr (.inr ⟨_, _, .lineStart, rfl⟩)))
  | lineStop => exact .inr (.inr (.inr (.inr ⟨_, _, .lineStop, rfl⟩)))
  | lineResync => exact .inr (.inr (.inr (.inr ⟨_, _, .lineResync, rfl⟩)))
  | lineQuery => exact .inr (.inr (.inr (.inr ⟨_, _, .lineQuery, rfl⟩)))
  | nodeAdd => exact .inr (.inr (.inr (.inr ⟨_, _, .nodeAdd, rfl⟩)))
  | nodeRemove => exact .inr (.inr (.inr (.inr ⟨_, _, .nodeRemove, rfl⟩)))
  | nodeQuery => exact .inr (.inr (.inr (.inr ⟨_, _, .nodeQuery, rfl⟩)))
  | subOpen => exact .inr (.inr (.inr (.inr ⟨_, _, .subOpen, rfl⟩)))
  | subClose => exact .inr (.inr (.inr (.inr ⟨_, _, .subClose, rfl⟩)))
  | subFetch => exact .inr (.inr (.inr (.inr ⟨_, _, .subFetch, rfl⟩)))
  | subQuery => exact .inr (.inr (.inr (.inr ⟨_, _, .subQuery, rfl⟩)))
  | txnSubmit => exact .inr (.inr (.inr (.inr ⟨_, _, .txnSubmit, rfl⟩)))
  | txnCancel => exact .inr (.inr (.inr (.inr ⟨_, _, .txnCancel, rfl⟩)))
  | statsRead => exact .inr (.inr (.inr (.inr ⟨_, _, .statsRead, rfl⟩)))
  | unknownRequest => exact .inr (.inr (.inr (.inr ⟨_, _, .unknown, rfl⟩)))
  | roundTimerExpiry l => exact .inr (.inr (.inl ⟨l, _, .roundTimer, rfl⟩))
  | roundStart l => exact .inr (.inr (.inl ⟨l, _, .roundStart, rfl⟩))
  | quietEnd l => exact .inr (.inr (.inl ⟨l, _, .quiet, rfl⟩))
  | arbiterChoice l ps => exact .inr (.inr (.inl ⟨l, _, .port ps arbiterChoice_command, rfl⟩))
  | transmitEnd l ps => exact .inr (.inr (.inl ⟨l, _, .port ps transmitEnd_command, rfl⟩))
  | responseWindowExpiry l => exact .inr (.inr (.inl ⟨l, _, .window, rfl⟩))
  | characterEnd l ps => exact .inr (.inr (.inl ⟨l, _, .port ps characterEnd_command, rfl⟩))
  | gapTimerExpiry l => exact .inr (.inr (.inl ⟨l, _, .gap, rfl⟩))
  | settlingEnd l ps => exact .inr (.inr (.inl ⟨l, _, .port ps settlingEnd_command, rfl⟩))
  | breakDetected l ps => exact .inr (.inr (.inl ⟨l, _, .port ps breakDetected_command, rfl⟩))
  | breakEnd l ps => exact .inr (.inr (.inl ⟨l, _, .port ps breakEnd_command, rfl⟩))
  | stuck l ps => exact .inr (.inr (.inl ⟨l, _, .port ps stuckInput_command, rfl⟩))
  | stuckEnd l ps => exact .inr (.inr (.inl ⟨l, _, .port ps stuckEnd_command, rfl⟩))
  | contention l ps => exact .inr (.inr (.inl ⟨l, _, .port ps contention_command, rfl⟩))
  | jamBreakEnd l ps => exact .inr (.inr (.inl ⟨l, _, .port ps jamBreakEnd_command, rfl⟩))
  | breakOrderEnd l ps => exact .inr (.inr (.inl ⟨l, _, .port ps breakOrderEnd_command, rfl⟩))
  | holdoffExpiry l => exact .inr (.inr (.inl ⟨l, _, .holdoff, rfl⟩))
  | idleWaitExpiry l => exact .inr (.inr (.inl ⟨l, _, .idleWait, rfl⟩))
  | startBegun l ps => exact .inr (.inr (.inl ⟨l, _, .port ps startBegun_command, rfl⟩))
  | falseStart l ps => exact .inr (.inr (.inl ⟨l, _, .port ps falseStart_command, rfl⟩))
  | returnHigh l ps => exact .inr (.inr (.inl ⟨l, _, .port ps (returnHigh_command _), rfl⟩))

/-- An event of a line is the work of that line. -/
theorem lineEvent_work {l : LineId} {f : State → State} (h : LineEvent l f) (s : State) :
    LineWork l s (f s) := by
  cases h with
  | port periods hc => exact afterPeriods_work hc periods s
  | roundTimer => exact roundTimerRunsOut_work s
  | roundStart => exact takeRoundStart_work s
  | quiet =>
    unfold endQuiet
    split
    · exact modifySched_work s _
    all_goals exact .refl _
  | window => exact windowRunsOut_work s
  | gap => exact gapRunsOut_work s
  | holdoff => exact holdoffRunsOut_work s
  | idleWait => exact idleWaitRunsOut_work s

theorem hostEvent_work {f : State → State} (h : HostEvent f) (s : State) : DeliveryWork s (f s) := by
  cases h with
  | byte b => exact takeSampledByte_deliveryWork b s
  | message m => exact takeReceivedMessage_deliveryWork m s
  | messageGap => exact messageGapRunsOut_deliveryWork s
  | transmitEnd => exact freeTransmitter_deliveryWork s
  | ackTimer => exact ackTimerExpiry_deliveryWork s

theorem service_work {run : Service} (h : RequestService run) (p : List Byte) (s : State) :
    RequestWork s (run p s).1 := by
  cases h with
  | hello => exact runHello_request p s
  | restart pA pB => exact runRestart_request pA pB p s
  | lineSet => exact runLineSet_request p s
  | lineStart => exact runLineStart_request p s
  | lineStop => exact runLineStop_request p s
  | lineResync => exact runLineResync_request p s
  | lineQuery => exact runLineQuery_request p s
  | nodeAdd => exact runNodeAdd_request p s
  | nodeRemove => exact runNodeRemove_request p s
  | nodeQuery => exact runNodeQuery_request p s
  | subOpen => exact runSubOpen_request p s
  | subClose => exact runSubClose_request p s
  | subFetch => exact runSubFetch_request p s
  | subQuery => exact runSubQuery_request p s
  | txnSubmit => exact runTxnSubmit_request p s
  | txnCancel => exact runTxnCancel_request p s
  | statsRead => exact runStatsRead_request p s
  | unknown => exact .refl s

/-- A property that the parts of a step keep is kept by the step. -/
theorem step_keeps {P : State → Prop} {s t : State} (h : P s) (hs : step s = .next t)
    (dequeued : ∀ s rest, P s → P { s with pending := rest })
    (tick : ∀ s, P s → P (clkTick s))
    (reset : ∀ rate1 rate0 levelA levelB s, P s → P (pinReset rate1 rate0 levelA levelB s))
    (held : ∀ s, P s → P (holdInReset s))
    (granted : ∀ s, P s → P (outbound s))
    (line : ∀ l f s, LineEvent l f → s.resetHeld = false → P s → P (f s))
    (host : ∀ f s, HostEvent f → s.resetHeld = false → P s → P (f s))
    (request : ∀ accepts run s, RequestService run → s.resetHeld = false → P s → P (takeRequest accepts run s)) :
    P t := by
  have performed : ∀ {f : State → State} {s t : State}, P s → (s.resetHeld = false → P s → P (f s)) →
      perform f s = .next t → P t := by
    intro f s t hp hf ht
    unfold perform at ht
    injection ht with ht
    subst ht
    split
    · exact hp
    · exact granted _ (hf (by simpa using ‹¬s.resetHeld = true›) hp)
  unfold step at hs
  split at hs
  · injection hs with hs
    exact hs ▸ tick s h
  · rename_i c rest _
    have hq := dequeued s rest h
    rcases exec_cases c { s with pending := rest } with
      ⟨a, b, la, lb, he⟩ | he | ⟨l, f, hf, he⟩ | ⟨f, hf, he⟩ | ⟨accepts, run, hr, he⟩ <;> rw [he] at hs
    · injection hs with hs
      exact hs ▸ reset a b la lb _ hq
    · injection hs with hs
      exact hs ▸ held _ hq
    · exact performed hq (line l f _ hf) hs
    · exact performed hq (host f _ hf) hs
    · exact performed hq (request accepts run _ hr) hs

end Sys2Proof.Machine
end

