-- ==== Sys2Proof/Laws/Link.lean ====
section
/-! SUPPORT. What every part of a step does to the bounds of the host link, to the report queue and to
the report window. -/

namespace Sys2Proof.Machine

open Sys2Proof

/-! ### The bounds of the host link -/

/-- The bounds rest on three fields of the link. -/
theorem LinkBounded.congr {s t : State} (h : LinkBounded s) (hi : t.link.inbox = s.link.inbox)
    (hr : t.link.responses = s.link.responses) (hc : t.link.cache = s.link.cache ∨ t.link.cache = []) :
    LinkBounded t := by
  rcases hc with hc | hc
  · exact ⟨hi ▸ h.inbox, hr ▸ h.responses, hc ▸ h.cacheSize, hc ▸ h.cacheTags, hc ▸ h.cacheNonzero⟩
  · exact ⟨hi ▸ h.inbox, hr ▸ h.responses, by simp [hc], by simp [hc], by simp [hc]⟩

theorem queueResponse_bounded {s : State} (h : LinkBounded s) (m : Message)
    (hr : s.link.responses.length ≤ 5) : LinkBounded (queueResponse m s) :=
  ⟨h.inbox, by simp [queueResponse]; omega, h.cacheSize, h.cacheTags, h.cacheNonzero⟩

/-- An entry of a tag of its own that is not 0 joins the cache (R148). -/
theorem enterCache_bounded (e : CacheEntry) (cache : List CacheEntry) (he : e.tag ≠ 0)
    (hs : cache.length ≤ 8) (ht : (cache.map (·.tag)).Nodup) (hn : ∀ x ∈ cache, x.tag ≠ 0) :
    (enterCache e cache).length ≤ 8 ∧ ((enterCache e cache).map (·.tag)).Nodup ∧
      ∀ x ∈ enterCache e cache, x.tag ≠ 0 := by
  have hsub : ∀ others : List CacheEntry, others.Sublist (cache.filter fun x => x.tag ≠ e.tag) →
      others.length ≤ 7 → (others ++ [e]).length ≤ 8 ∧ ((others ++ [e]).map (·.tag)).Nodup ∧
        ∀ x ∈ others ++ [e], x.tag ≠ 0 := by
    intro others ho hl
    have hmem : ∀ x ∈ others, x ∈ cache ∧ x.tag ≠ e.tag := by
      intro x hx
      simpa using ho.subset hx
    refine ⟨by simp; omega, ?_, ?_⟩
    · rw [List.map_append, List.nodup_append]
      refine ⟨((ho.trans List.filter_sublist).map _).nodup ht, by simp, ?_⟩
      intro a ha b hb
      simp only [List.mem_map] at ha
      obtain ⟨x, hx, rfl⟩ := ha
      simp only [List.map_cons, List.map_nil, List.mem_singleton] at hb
      subst hb
      exact (hmem x hx).2
    · intro x hx
      rcases List.mem_append.1 hx with hx | hx
      · exact hn x (hmem x hx).1
      · simpa [List.mem_singleton.1 hx] using he
  have hl : (cache.filter fun x => x.tag ≠ e.tag).length ≤ 8 := (List.length_filter_le _ _).trans hs
  unfold enterCache
  dsimp only
  split
  · exact hsub _ (List.tail_sublist _) (by simp only [List.length_tail]; omega)
  · rename_i hne
    exact hsub _ (List.Sublist.refl _) (by simp only [Config.cacheSize] at hne; omega)

theorem completeRequest_bounded {m : Message} {p : State × List Byte} (h : LinkBounded p.1)
    (hr : p.1.link.responses.length ≤ 5) : LinkBounded (completeRequest m p) := by
  have hq := queueResponse_bounded h { kind := responseKind m.kind, tag := m.tag, payload := p.2 } hr
  unfold completeRequest
  dsimp only
  refine ⟨?_, ?_, ?_, ?_, ?_⟩
  · simp only [modifyLink_link]; split <;> exact hq.inbox
  · simp only [modifyLink_link]; split <;> exact hq.responses
  all_goals simp only [modifyLink_link]; split
  · exact hq.cacheSize
  · rename_i ht
    exact (enterCache_bounded _ _ ht hq.cacheSize hq.cacheTags hq.cacheNonzero).1
  · exact hq.cacheTags
  · rename_i ht
    exact (enterCache_bounded _ _ ht hq.cacheSize hq.cacheTags hq.cacheNonzero).2.1
  · exact hq.cacheNonzero
  · rename_i ht
    exact (enterCache_bounded _ _ ht hq.cacheSize hq.cacheTags hq.cacheNonzero).2.2

theorem takeRequest_bounded {accepts : Byte → Bool} {run : Service} (hr : RequestService run) {s : State}
    (h : LinkBounded s) : LinkBounded (takeRequest accepts run s) := by
  refine takeRequest_keeps (P := LinkBounded) h ?_ ?_ ?_ ?_
  · intro m rest hi _
    refine ⟨?_, h.responses, h.cacheSize, h.cacheTags, h.cacheNonzero⟩
    have := h.inbox
    rw [hi] at this
    simp only [List.length_cons] at this
    simp only [modifyLink_link]
    omega
  · intro m rest _ hl _ ht
    have hw := service_work hr m.payload (s.modifyLink fun k => { k with inbox := rest })
    refine completeRequest_bounded (ht.congr hw.inbox hw.responses hw.cache) ?_
    rw [hw.responses]
    simp only [modifyLink_link]
    omega
  · exact fun m t ht hl => queueResponse_bounded ht m (by omega)
  · exact fun t f ht => ht.congr rfl rfl (.inl rfl)

theorem outbound_bounded {s : State} (h : LinkBounded s) : LinkBounded (outbound s) := by
  rcases outbound_cases s with he | ⟨x, -, -, he⟩ | ⟨-, -, -, he⟩ | ⟨-, -, -, -, he⟩ <;> rw [he]
  · exact h
  · exact h.congr rfl rfl (.inl rfl)
  · unfold grantResponse
    split
    · exact h
    · rename_i m rest hr
      refine ⟨h.inbox, ?_, h.cacheSize, h.cacheTags, h.cacheNonzero⟩
      have := h.responses
      rw [hr] at this
      simp only [List.length_cons] at this
      simp only [sendMessage, modifyLink_link]
      omega
  · unfold composeReport
    split
    · exact h
    · dsimp only
      split
      · exact h.congr rfl rfl (.inl rfl)
      · have ht : ∀ (r : ReportRequest) (s : State), (tellOwner r s).link = s.link := by
          intro r s; cases r <;> rfl
        exact h.congr (by simp [sendMessage, ht]) (by simp [sendMessage, ht]) (.inl (by simp [sendMessage, ht]))

theorem judgeMessage_bounded (m : Message) (check : Word16) {s : State} (h : LinkBounded s) :
    LinkBounded (judgeMessage m check s) := by
  have hd : ∀ t : State, LinkBounded t → LinkBounded (passMessage m t) := by
    intro t ht
    unfold passMessage
    split
    · have hk : ∀ (xs : List Snapshot) (u : State), (xs.foldl releaseOwner u).link = u.link := by
        intro xs
        induction xs with
        | nil => intro u; rfl
        | cons x rest ih =>
          intro u
          refine (ih _).trans ?_
          unfold releaseOwner
          split <;> rfl
      unfold acknowledge
      split
      · exact ht.congr (by rw [hk]; rfl) (by rw [hk]; rfl) (.inl (by rw [hk]; rfl))
      · exact ht.congr rfl rfl (.inl rfl)
    · split
      · rename_i hl
        refine ⟨?_, ht.responses, ht.cacheSize, ht.cacheTags, ht.cacheNonzero⟩
        simp only [modifyLink_link, List.length_append, List.length_singleton]
        simp only [Config.inboxSize] at hl
        omega
      · unfold refuseMessage
        split
        · exact ht.congr rfl rfl (.inl rfl)
        · split
          · rename_i hl
            refine queueResponse_bounded (s := t.countLink _) (ht.congr rfl rfl (.inl rfl)) _ ?_
            simp only [Config.responseSize] at hl
            simpa using (by omega : t.link.responses.length ≤ 5)
          · exact ht.congr rfl rfl (.inl rfl)
  unfold judgeMessage
  dsimp only
  split
  · exact hd _ (h.congr rfl rfl (.inl rfl))
  · exact h.congr rfl rfl (.inl rfl)

theorem hostEvent_bounded {f : State → State} (hf : HostEvent f) {s : State} (h : LinkBounded s) :
    LinkBounded (f s) := by
  cases hf with
  | byte b =>
    unfold takeSampledByte
    dsimp only
    split
    · exact h
    · split
      · split
        · unfold takeByte
          split
          · split <;> exact h.congr rfl rfl (.inl rfl)
          · split <;> exact h.congr rfl rfl (.inl rfl)
          · split <;> exact h.congr rfl rfl (.inl rfl)
          · split
            · exact h.congr rfl rfl (.inl rfl)
            · exact judgeMessage_bounded _ _ (h.congr rfl rfl (.inl rfl))
        · unfold takeFramingError
          dsimp only
          split <;> exact h.congr rfl rfl (.inl rfl)
      · exact h.congr rfl rfl (.inl rfl)
  | message m =>
    unfold takeReceivedMessage
    split
    · exact judgeMessage_bounded _ _ (h.congr rfl rfl (.inl rfl))
    · exact h
  | messageGap =>
    unfold messageGapRunsOut
    split
    · exact h.congr rfl rfl (.inl rfl)
    · exact h
  | transmitEnd => exact h.congr rfl rfl (.inl rfl)
  | ackTimer =>
    unfold ackTimerExpiry ackTimerRunsOut
    dsimp only
    split
    · split <;> exact h.congr rfl rfl (.inl rfl)
    · exact h

theorem clkTick_link (s : State) :
    (clkTick s).link.inbox = s.link.inbox ∧ (clkTick s).link.responses = s.link.responses ∧
      (clkTick s).link.cache = s.link.cache ∧ (clkTick s).link.linkState = s.link.linkState ∧
      (clkTick s).link.transmitter = s.link.transmitter := by
  unfold clkTick
  dsimp only
  split
  · simp
  · split <;> simp [msTick]

end Sys2Proof.Machine
end

