-- ==== Sys2Proof/Laws/Delivery.lean ====
section
/-! SUPPORT. What every part of a step does to the report queue and to the report window: no duplicates in
the queue, consecutive numbers in the window. -/

namespace Sys2Proof.Machine

open Sys2Proof

/-! ### What the operations leave of the queue and the window -/

theorem requestReport_tables (r : ReportRequest) (s : State) :
    (requestReport r s).subs = s.subs ∧ (requestReport r s).freeBlocks = s.freeBlocks ∧
      (requestReport r s).txns = s.txns := by
  unfold requestReport
  split <;> exact ⟨rfl, rfl, rfl⟩

theorem tellOwner_delivery (r : ReportRequest) (s : State) : (tellOwner r s).delivery = s.delivery := by
  cases r <;> rfl

theorem tellOwner_link (r : ReportRequest) (s : State) : (tellOwner r s).link = s.link := by
  cases r <;> rfl

theorem releaseOwner_delivery (s : State) (x : Snapshot) : (releaseOwner s x).delivery = s.delivery := by
  unfold releaseOwner; split <;> rfl

theorem releaseOwner_link (s : State) (x : Snapshot) : (releaseOwner s x).link = s.link := by
  unfold releaseOwner; split <;> rfl

theorem releaseOwners_delivery (xs : List Snapshot) (s : State) :
    (xs.foldl releaseOwner s).delivery = s.delivery := by
  induction xs generalizing s with
  | nil => rfl
  | cons x rest ih => exact (ih _).trans (releaseOwner_delivery s x)

theorem releaseOwners_link (xs : List Snapshot) (s : State) :
    (xs.foldl releaseOwner s).link = s.link := by
  induction xs generalizing s with
  | nil => rfl
  | cons x rest ih => exact (ih _).trans (releaseOwner_link s x)

/-- The window is split at the snapshot of the number. -/
theorem ackSplit_append {q : Byte} {w : List Snapshot} {removed left : List Snapshot}
    (h : ackSplit q w = some (removed, left)) : w = removed ++ left := by
  induction w generalizing removed with
  | nil => simp [ackSplit] at h
  | cons x rest ih =>
    unfold ackSplit at h
    split at h
    · simp only [Option.some.injEq, Prod.mk.injEq] at h
      obtain ⟨rfl, rfl⟩ := h
      rfl
    · rcases hr : ackSplit q rest with _ | ⟨a, b⟩
      · simp [hr] at h
      · simp only [hr, Option.map_some, Option.some.injEq, Prod.mk.injEq] at h
        obtain ⟨rfl, rfl⟩ := h
        simp [ih hr]

/-- A snapshot is removed with all older ones: the last removed has the number. -/
theorem ackSplit_last {q : Byte} {w : List Snapshot} {removed left : List Snapshot}
    (h : ackSplit q w = some (removed, left)) : ∃ older x, removed = older ++ [x] ∧ x.sequence = q := by
  induction w generalizing removed with
  | nil => simp [ackSplit] at h
  | cons x rest ih =>
    unfold ackSplit at h
    split at h
    · rename_i hx
      simp only [Option.some.injEq, Prod.mk.injEq] at h
      exact ⟨[], x, by simp [h.1], hx⟩
    · rcases hr : ackSplit q rest with _ | ⟨a, b⟩
      · simp [hr] at h
      · simp only [hr, Option.map_some, Option.some.injEq, Prod.mk.injEq] at h
        obtain ⟨rfl, rfl⟩ := h
        obtain ⟨older, y, rfl, hy⟩ := ih hr
        exact ⟨x :: older, y, rfl, hy⟩

/-- Report Delivery, the link state and the record tables are left as they are. -/
structure ReportsKept (s t : State) : Prop where
  delivery : t.delivery = s.delivery
  linkState : t.link.linkState = s.link.linkState
  subs : t.subs = s.subs
  txns : t.txns = s.txns
  lines : ∀ l, t.line l = s.line l

theorem ReportsKept.refl (s : State) : ReportsKept s s := ⟨rfl, rfl, rfl, rfl, fun _ => rfl⟩

theorem modifyLink_kept (s : State) (f : HostLink → HostLink) (hf : (f s.link).linkState = s.link.linkState) :
    ReportsKept s (s.modifyLink f) := ⟨rfl, hf, rfl, rfl, fun l => modifyLink_line s f l⟩

theorem ReportsKept.trans {s t u : State} (h : ReportsKept s t) (k : ReportsKept t u) : ReportsKept s u :=
  ⟨k.delivery.trans h.delivery, k.linkState.trans h.linkState, k.subs.trans h.subs, k.txns.trans h.txns,
    fun l => (k.lines l).trans (h.lines l)⟩

theorem countLink_kept (s : State) (f : LinkCounters → LinkCounters) : ReportsKept s (s.countLink f) :=
  modifyLink_kept s _ rfl

theorem judgeMessage_kept (m : Message) (check : Word16) (s : State) :
    ReportsKept s (judgeMessage m check s) ∨
      ∃ q t, judgeMessage m check s = acknowledge q t ∧ ReportsKept s t := by
  have hh : ReportsKept s (s.modifyLink huntMessage) := modifyLink_kept s _ rfl
  unfold judgeMessage
  dsimp only
  split
  · have hc := hh.trans (countLink_kept _ fun c => { c with received := satInc c.received })
    revert hc
    generalize ((s.modifyLink huntMessage).countLink fun c => { c with received := satInc c.received }) = t
    intro hc
    unfold passMessage
    split
    · exact .inr ⟨_, _, rfl, hc⟩
    · left
      split
      · exact hc.trans (modifyLink_kept t _ rfl)
      · unfold refuseMessage
        split
        · exact hc.trans (countLink_kept _ _)
        · split
          · exact (hc.trans (countLink_kept _ _)).trans (modifyLink_kept _ _ rfl)
          · exact hc.trans (countLink_kept _ _)
  · exact .inl (hh.trans (countLink_kept _ _))

theorem takeByte_kept (x : Byte) (s : State) :
    ReportsKept s (takeByte x s) ∨ ∃ q t, takeByte x s = acknowledge q t ∧ ReportsKept s t := by
  unfold takeByte
  split
  · split
    · exact .inl (modifyLink_kept s _ rfl)
    · exact .inl (.refl s)
  · split
    · exact .inl (modifyLink_kept s _ rfl)
    · exact .inl ((modifyLink_kept s _ rfl).trans (countLink_kept _ _))
  · split <;> exact .inl (modifyLink_kept s _ rfl)
  · split
    · exact .inl (modifyLink_kept s _ rfl)
    · exact judgeMessage_kept _ _ s

theorem takeFramingError_kept (s : State) : ReportsKept s (takeFramingError s) := by
  have h := (countLink_kept s fun c => { c with framingErrors := satInc c.framingErrors }).trans
    (modifyLink_kept _ (fun k => { k with rxWaitHigh := true }) rfl)
  unfold takeFramingError
  dsimp only
  split
  · exact h
  · exact h.trans (modifyLink_kept _ _ rfl)

theorem endHighWait_kept (s : State) : ReportsKept s (endHighWait s) := modifyLink_kept s _ rfl

/-- The events of the host link change the window and its timer only through an acknowledgement and the
acknowledgement timer. -/
theorem hostEvent_kept {f : State → State} (hf : HostEvent f) (s : State) :
    ReportsKept s (f s) ∨ (∃ q t, f s = acknowledge q t ∧ ReportsKept s t) ∨ f s = ackTimerExpiry s := by
  cases hf with
  | byte b =>
    have hw := endHighWait_kept s
    unfold takeSampledByte
    dsimp only
    split
    · exact .inl (.refl s)
    · split
      · split
        · rcases takeByte_kept b.byte (endHighWait s) with k | ⟨q, t, e, k⟩
          · exact .inl (hw.trans k)
          · exact .inr (.inl ⟨q, t, e, hw.trans k⟩)
        · exact .inl (hw.trans (takeFramingError_kept _))
      · exact .inl hw
  | message m =>
    unfold takeReceivedMessage
    split
    · rcases judgeMessage_kept { kind := m.kind, tag := m.tag, payload := m.payload } m.check (endHighWait s) with
        k | ⟨q, t, e, k⟩
      · exact .inl ((endHighWait_kept s).trans k)
      · exact .inr (.inl ⟨q, t, e, (endHighWait_kept s).trans k⟩)
    · exact .inl (.refl s)
  | messageGap =>
    unfold messageGapRunsOut
    split
    · exact .inl ((modifyLink_kept s _ rfl).trans (countLink_kept _ _))
    · exact .inl (.refl s)
  | transmitEnd => exact .inl (modifyLink_kept s _ rfl)
  | ackTimer => exact .inr (.inr rfl)

/-- The clock moves only the acknowledgement timer. -/
theorem clkTick_delivery (s : State) :
    ∃ timer : MsTimer, (clkTick s).delivery = { s.delivery with ackTimer := timer } ∧
      (timer.isRunning = s.delivery.ackTimer.isRunning) ∧
      (s.delivery.ackTimer = .stopped → timer = .stopped) := by
  have hc : ∀ t : MsTimer, t.count.isRunning = t.isRunning ∧ (t = .stopped → t.count = .stopped) := by
    intro t; cases t <;> simp [MsTimer.count, MsTimer.isRunning]
  unfold clkTick
  dsimp only
  split
  · exact ⟨_, rfl, rfl, id⟩
  · split
    · exact ⟨_, rfl, rfl, id⟩
    · exact ⟨_, rfl, hc _⟩

/-! ### The report queue (R158) -/

theorem outbound_distinct {s : State} (h : QueueDistinct s) : QueueDistinct (outbound s) := by
  unfold QueueDistinct at *
  rcases outbound_cases s with he | ⟨x, -, -, he⟩ | ⟨-, -, -, he⟩ | ⟨-, -, -, -, he⟩ <;> rw [he]
  · exact h
  · exact h
  · unfold grantResponse
    split <;> exact h
  · unfold composeReport
    split
    · exact h
    · rename_i r rest hq
      rw [hq] at h
      dsimp only
      split
      · exact h.of_cons
      · simp only [sendMessage, modifyLink_delivery, tellOwner_delivery]
        exact h.of_cons

theorem acknowledge_queue (q : Byte) (s : State) : (acknowledge q s).delivery.queue = s.delivery.queue := by
  unfold acknowledge
  split
  · rw [releaseOwners_delivery]; rfl
  · rfl

theorem ackTimerExpiry_queue (s : State) : (ackTimerExpiry s).delivery.queue = s.delivery.queue := by
  unfold ackTimerExpiry ackTimerRunsOut
  dsimp only
  split
  · split <;> rfl
  · rfl

theorem hostEvent_queue {f : State → State} (hf : HostEvent f) (s : State) :
    (f s).delivery.queue = s.delivery.queue := by
  rcases hostEvent_kept hf s with h | ⟨q, t, h, hk⟩ | h
  · rw [h.delivery]
  · rw [h, acknowledge_queue, hk.delivery]
  · rw [h, ackTimerExpiry_queue]

theorem takeRequest_distinct {accepts : Byte → Bool} {run : Service} (hr : RequestService run) {s : State}
    (h : QueueDistinct s) : QueueDistinct (takeRequest accepts run s) := by
  refine takeRequest_keeps (P := QueueDistinct) h (fun m rest _ _ => h) ?_ (fun m t ht _ => ht)
    (fun t f ht => ht)
  intro m rest _ _ _ ht
  have hw := service_work hr m.payload (s.modifyLink fun k => { k with inbox := rest })
  exact hw.queue ht

/-! ### The report window (R161, R163 to R168) -/

/-- What the window's order rests on. -/
theorem WindowOrdered.congr {s t : State} (h : WindowOrdered s)
    (hw : t.delivery.window = s.delivery.window) (hn : t.delivery.nextSequence = s.delivery.nextSequence)
    (hr : t.delivery.ackTimer.isRunning = s.delivery.ackTimer.isRunning)
    (hs : s.delivery.ackTimer = .stopped → t.delivery.ackTimer = .stopped)
    (hc : t.delivery.timeoutCount = s.delivery.timeoutCount) (hl : t.link.linkState = s.link.linkState) :
    WindowOrdered t :=
  ⟨hw ▸ h.size, by rw [hw, hn]; exact h.consecutive, by rw [hr, hw]; exact h.timer, hc ▸ h.count,
    by rw [hl, hc]; exact h.attached, fun hd => hs (h.detachedTimer (hl ▸ hd)),
    by rw [hl, hw]; exact h.detachedMarks⟩

/-- An empty window with its timer stopped and its count 0 is in order. -/
theorem WindowOrdered.empty {t : State} (hw : t.delivery.window = []) (hs : t.delivery.ackTimer = .stopped)
    (hc : t.delivery.timeoutCount = 0) : WindowOrdered t :=
  ⟨by simp [hw], by simp [hw], by simp [hs, MsTimer.isRunning], by simp [hc], by simp [hc], fun _ => hs,
    by simp [hw]⟩

/-- The last snapshot joins with the next number; the numbers stay consecutive (R161). -/
theorem consecutive_append {w : List Snapshot} {next : Byte} {y : Snapshot} (hy : y.sequence = next)
    (h : ∀ older x newer, w = older ++ x :: newer → x.sequence + BitVec.ofNat 8 (newer.length + 1) = next) :
    ∀ older x newer, w ++ [y] = older ++ x :: newer →
      x.sequence + BitVec.ofNat 8 (newer.length + 1) = next + 1 := by
  intro older x newer he
  rcases List.eq_nil_or_concat newer with rfl | ⟨front, z, rfl⟩
  · have := List.append_inj_right' he rfl
    simp only [List.cons.injEq, and_true] at this
    subst this
    simp [hy]
  · have he' : w ++ [y] = (older ++ x :: front) ++ [z] := by simpa using he
    obtain ⟨hw, -⟩ := List.append_inj' he' rfl
    have := h older x front hw
    rw [← this]
    simp only [List.concat_eq_append, List.length_append, List.length_singleton]
    apply BitVec.eq_of_toNat_eq
    simp
    omega

/-- The resend marks do not enter into the order. -/
theorem consecutive_map {w : List Snapshot} {next : Byte} (g : Snapshot → Snapshot)
    (hg : ∀ x, (g x).sequence = x.sequence)
    (h : ∀ older x newer, w = older ++ x :: newer → x.sequence + BitVec.ofNat 8 (newer.length + 1) = next) :
    ∀ older x newer, w.map g = older ++ x :: newer → x.sequence + BitVec.ofNat 8 (newer.length + 1) = next := by
  intro older x newer he
  obtain ⟨o, r, rfl, rfl, hr⟩ := List.map_eq_append_iff.1 he
  obtain ⟨y, n, rfl, rfl, rfl⟩ := List.map_eq_cons_iff.1 hr
  simpa [hg] using h o y n rfl

theorem clearOldestMark_sequences (w : List Snapshot) :
    (clearOldestMark w).map (·.sequence) = w.map (·.sequence) ∧
      (clearOldestMark w).map (·.request) = w.map (·.request) ∧
      (clearOldestMark w).map (·.content) = w.map (·.content) := by
  induction w with
  | nil => simp [clearOldestMark]
  | cons x rest ih =>
    unfold clearOldestMark
    split <;> simp [ih]

/-- Consecutive numbers are a property of the numbers alone. -/
theorem consecutive_congr {w v : List Snapshot} {next : Byte}
    (hv : v.map (·.sequence) = w.map (·.sequence))
    (h : ∀ older x newer, w = older ++ x :: newer → x.sequence + BitVec.ofNat 8 (newer.length + 1) = next) :
    ∀ older x newer, v = older ++ x :: newer → x.sequence + BitVec.ofNat 8 (newer.length + 1) = next := by
  intro older x newer he
  subst he
  rw [List.map_append, List.map_cons] at hv
  obtain ⟨o, r, rfl, -, hr⟩ := List.map_eq_append_iff.1 hv.symm
  obtain ⟨y, n, rfl, hy, hn⟩ := List.map_eq_cons_iff.1 hr
  have := h o y n rfl
  rw [hy] at this
  have hl : n.length = newer.length := by simpa using congrArg List.length hn
  rwa [hl] at this

theorem outbound_ordered {s : State} (h : WindowOrdered s) : WindowOrdered (outbound s) := by
  rcases outbound_cases s with he | ⟨x, -, hx, he⟩ | ⟨-, -, -, he⟩ | ⟨-, -, -, hr, he⟩ <;> rw [he]
  · exact h
  · have ha : s.link.linkState = .attached := by
      unfold resendWaits at hx
      split at hx
      · assumption
      · simp at hx
    have hm := clearOldestMark_sequences s.delivery.window
    have hlen : (clearOldestMark s.delivery.window).length = s.delivery.window.length := by
      simpa using congrArg List.length hm.1
    have hne : s.delivery.window ≠ [] := by
      intro hw
      simp [resendWaits, ha, hw, oldestMarked] at hx
    have hne' : clearOldestMark s.delivery.window ≠ [] := by
      intro hw
      rw [hw] at hlen
      exact hne (List.length_eq_zero_iff.1 hlen.symm)
    unfold resendSnapshot
    refine ⟨?_, ?_, ?_, h.count, h.attached, ?_, ?_⟩
    · simpa [sendMessage, hlen] using h.size
    · simpa [sendMessage] using consecutive_congr hm.1 h.consecutive
    · intro _
      simpa [sendMessage] using hne'
    · intro hd
      simp [sendMessage, ha] at hd
    · intro hd
      simp [sendMessage, ha] at hd
  · unfold grantResponse
    split
    · exact h
    · exact h.congr rfl rfl rfl id rfl rfl
  · have ha : s.link.linkState = .attached := by
      simp only [reportWaits, Bool.and_eq_true, beq_iff_eq] at hr
      exact hr.1.1
    have hl : s.delivery.window.length < 4 := by
      simp only [reportWaits, Bool.and_eq_true, decide_eq_true_eq, Config.windowSize] at hr
      exact hr.1.2
    unfold composeReport
    split
    · exact h
    · dsimp only
      split
      · exact h.congr rfl rfl rfl id rfl rfl
      · refine ⟨?_, ?_, ?_, ?_, ?_, ?_, ?_⟩
        · simp [sendMessage, tellOwner_delivery, joinWindow]; omega
        · simpa [sendMessage, tellOwner_delivery, joinWindow] using
            consecutive_append (y := ⟨_, _, _, _⟩) rfl h.consecutive
        · intro _
          simp [sendMessage, tellOwner_delivery, joinWindow]
        · simpa [sendMessage, tellOwner_delivery, joinWindow] using h.count
        · simpa [sendMessage, tellOwner_delivery, tellOwner_link, joinWindow] using h.attached
        · intro hd; simp [sendMessage, tellOwner_link, ha] at hd
        · intro hd; simp [sendMessage, tellOwner_link, ha] at hd

theorem acknowledge_ordered (q : Byte) {s : State} (h : WindowOrdered s) : WindowOrdered (acknowledge q s) := by
  unfold acknowledge
  split
  · rename_i removed left hx
    have ha : s.link.linkState = .attached := by
      split at hx
      · assumption
      · simp at hx
    rw [if_pos ha] at hx
    have hw := ackSplit_append hx
    have hsize := h.size
    have hcons := h.consecutive
    rw [hw] at hsize hcons
    have hd : ∀ u : State, (removed.foldl releaseOwner u).delivery = u.delivery :=
      releaseOwners_delivery removed
    have hk : ∀ u : State, (removed.foldl releaseOwner u).link = u.link := releaseOwners_link removed
    refine ⟨?_, ?_, ?_, ?_, ?_, ?_, ?_⟩
    · rw [hd]; simp only [modifyDelivery_delivery, List.length_append] at *; omega
    · rw [hd]
      intro older x newer he
      simp only [modifyDelivery_delivery] at he ⊢
      exact hcons (removed ++ older) x newer (by rw [he]; simp)
    · rw [hd]
      simp only [modifyDelivery_delivery]
      split
      · simp [MsTimer.isRunning]
      · intro _; assumption
    · rw [hd]; simp
    · rw [hd]; simp
    · rw [hk]; intro hdet; simp [ha] at hdet
    · rw [hk]; intro hdet; simp [ha] at hdet
  · exact h.congr rfl rfl rfl id rfl rfl

theorem ackTimerExpiry_ordered {s : State} (h : WindowOrdered s) : WindowOrdered (ackTimerExpiry s) := by
  unfold ackTimerExpiry
  split
  · rename_i hrun
    have hat : s.link.linkState = .attached := by
      rcases hl : s.link.linkState with _ | _
      · rw [h.detachedTimer hl] at hrun
        simp [MsTimer.hasExpired] at hrun
      · rfl
    have hc := h.attached hat
    unfold ackTimerRunsOut
    dsimp only
    split
    · rename_i hlt
      simp only [modifyDelivery_delivery, Config.timeoutLimit] at hlt
      refine ⟨by simpa using h.size, ?_, by simp [MsTimer.isRunning], by simp; omega, by simp; omega, ?_, ?_⟩
      · simpa using consecutive_map (fun x => { x with resendMark := true }) (fun _ => rfl) h.consecutive
      · intro hd; simp [hat] at hd
      · intro hd; simp [hat] at hd
    · unfold detach
      refine ⟨by simpa using h.size, ?_, by simp [MsTimer.isRunning], by simp; omega, by simp, by simp, ?_⟩
      · simpa using consecutive_map (fun x => { x with resendMark := false }) (fun _ => rfl) h.consecutive
      · simp
  · exact h

theorem hostEvent_ordered {f : State → State} (hf : HostEvent f) {s : State} (h : WindowOrdered s) :
    WindowOrdered (f s) := by
  rcases hostEvent_kept hf s with ⟨hd, hl, -⟩ | ⟨q, t, he, hd, hl, -⟩ | he
  · exact h.congr (by rw [hd]) (by rw [hd]) (by rw [hd]) (by rw [hd]; exact id) (by rw [hd]) hl
  · rw [he]
    exact acknowledge_ordered q
      (h.congr (by rw [hd]) (by rw [hd]) (by rw [hd]) (by rw [hd]; exact id) (by rw [hd]) hl)
  · rw [he]
    exact ackTimerExpiry_ordered h

theorem takeRequest_ordered {accepts : Byte → Bool} {run : Service} (hr : RequestService run) {s : State}
    (h : WindowOrdered s) : WindowOrdered (takeRequest accepts run s) := by
  refine takeRequest_keeps (P := WindowOrdered) h (fun m rest _ _ => h.congr rfl rfl rfl id rfl rfl) ?_
    (fun m t ht _ => ht.congr rfl rfl rfl id rfl rfl) (fun t f ht => ht.congr rfl rfl rfl id rfl rfl)
  intro m rest _ _ _ ht
  have hw := service_work hr m.payload (s.modifyLink fun k => { k with inbox := rest })
  have hc : (completeRequest m (run m.payload (s.modifyLink fun k => { k with inbox := rest }))).link.linkState =
      (run m.payload (s.modifyLink fun k => { k with inbox := rest })).1.link.linkState := by
    unfold completeRequest
    simp only [modifyLink_link]
    split <;> rfl
  rcases hw.window with ⟨a, b, c, d, e⟩ | ⟨a, b, c⟩
  · exact ht.congr a b (congrArg MsTimer.isRunning c) (fun hs => c.trans hs) d (hc.trans e)
  · exact .empty a b c

end Sys2Proof.Machine
end

