-- ==== Sys2Proof/Laws/Entered.lean ====
section
/-! SUPPORT. What the operations over several records do at once: nodes that enter PENDING, a purge, and a
report request as a change of the queue. -/

namespace Sys2Proof.Machine

open Sys2Proof

/-- A report request changes the report queue alone (R158). -/
theorem requestReport_eq (r : ReportRequest) (s : State) :
    requestReport r s = { s with delivery := { s.delivery with queue := joined s.delivery.queue r } } := by
  unfold requestReport joined
  split <;> rfl

/-- Two states with the same fields, the lines among them. -/
theorem state_ext {s t : State} (hl : ∀ k, s.line k = t.line k)
    (h : s = { t with lineA := s.lineA, lineB := s.lineB }) : s = t := by
  have ha : s.lineA = t.lineA := hl .a
  have hb : s.lineB = t.lineB := hl .b
  rw [h, ha, hb]

/-- Some node of the list has this address. -/
def addressIn (ns : List NodeRecord) (address : Nat) : Bool := ns.any fun k => k.address == address

/-- The subscription is ACTIVE on a node of the list. -/
def leavesWith (l : LineId) (ns : List NodeRecord) (r : SubRecord) : Bool :=
  r.line == l && r.state == .active && addressIn ns r.node

/-- The nodes of the list have entered PENDING, written as one change. -/
def pendingAll (l : LineId) (ns : List NodeRecord) (s : State) : State :=
  { s.modifyLine l (fun x => { x with
      nodes := x.nodes.map fun n =>
        if ns.any (fun k => k.address == n.address && k.uid == n.uid) then
          { n with state := .pending, failures := 0 } else n
      sched := { x.sched with
        pollList := x.sched.pollList.filter fun id => !s.subs.any fun r => r.id == id && leavesWith l ns r } }) with
    subs := s.subs.map fun r =>
      if leavesWith l ns r then { r with state := .waiting, referencePayload := none } else r
    delivery := { s.delivery with queue :=
      (ns.map fun n => ReportRequest.nodeState l n.address n.uid).foldl joined s.delivery.queue } }

theorem notListed_eq (subs : List SubRecord) (p : SubRecord → Bool) (id : Nat) :
    decide (id ∉ (subs.filter p).map (·.id)) = !subs.any fun r => r.id == id && p r := by
  rw [Bool.eq_iff_iff]
  simp only [List.mem_map, List.mem_filter, decide_eq_true_eq, Bool.not_eq_true', ← Bool.not_eq_true,
    List.any_eq_true, Bool.and_eq_true, beq_iff_eq]
  constructor
  · rintro h ⟨r, hr, he, hp⟩
    exact h ⟨r, ⟨hr, hp⟩, he⟩
  · rintro h ⟨r, ⟨hr, hp⟩, he⟩
    exact h ⟨r, hr, he, hp⟩

theorem leavesWith_one (l : LineId) (n : NodeRecord) (r : SubRecord) :
    (r.line == l && r.node == n.address && r.state == .active) = leavesWith l [n] r := by
  unfold leavesWith addressIn
  simp only [List.any_cons, List.any_nil, Bool.or_false]
  rw [show (n.address == r.node) = (r.node == n.address) from Bool.beq_comm]
  cases (r.line == l) <;> cases (r.node == n.address) <;> cases (r.state == .active) <;> rfl

theorem sameRecord_iff (n k : NodeRecord) : (k.address = n.address ∧ k.uid = n.uid) =
    ([n].any (fun j => j.address == k.address && j.uid == k.uid) = true) := by
  simp only [List.any_cons, List.any_nil, Bool.or_false, Bool.and_eq_true, beq_iff_eq, eq_iff_iff]
  exact ⟨fun h => ⟨h.1.symm, h.2.symm⟩, fun h => ⟨h.1.symm, h.2.symm⟩⟩

theorem nodeToPending_eq (l : LineId) (n : NodeRecord) (s : State) : nodeToPending l n s = pendingAll l [n] s := by
  unfold nodeToPending suspendSubs prunePolls pendingAll
  rw [requestReport_eq]
  simp only [leavesWith_one, notListed_eq, updateNode, sameRecord_iff]
  cases l <;> rfl

theorem leavesWith_cons (l : LineId) (n : NodeRecord) (ns : List NodeRecord) (r : SubRecord) :
    leavesWith l (n :: ns) r = (leavesWith l [n] r || leavesWith l ns r) := by
  unfold leavesWith addressIn
  simp only [List.any_cons, List.any_nil, Bool.or_false, Bool.and_or_distrib_left]

theorem noneOf_eq (p q r : SubRecord → Bool) (h : ∀ x, (p x || q x) = r x) (xs : List SubRecord) :
    (!xs.any p && !xs.any q) = !xs.any r := by
  induction xs with
  | nil => rfl
  | cons x rest ih =>
    simp only [List.any_cons, ← h x, Bool.not_or, ← ih]
    cases p x <;> cases q x <;> simp

theorem pendingAll_cons (l : LineId) (n : NodeRecord) (ns : List NodeRecord) (s : State) :
    pendingAll l ns (pendingAll l [n] s) = pendingAll l (n :: ns) s := by
  have hsub : ∀ r : SubRecord,
      (if leavesWith l ns (if leavesWith l [n] r then { r with state := .waiting, referencePayload := none } else r)
        then { (if leavesWith l [n] r then { r with state := SubState.waiting, referencePayload := none } else r) with
          state := .waiting, referencePayload := none }
        else (if leavesWith l [n] r then { r with state := .waiting, referencePayload := none } else r)) =
      if leavesWith l (n :: ns) r then { r with state := .waiting, referencePayload := none } else r := by
    intro r
    rw [leavesWith_cons l n ns]
    cases h : leavesWith l [n] r
    · simp
    · have : leavesWith l ns { r with state := .waiting, referencePayload := none } = false := by
        simp [leavesWith]
      simp [this]
  have hany : ∀ (subs : List SubRecord) (id : Nat),
      ((!subs.any fun r => r.id == id && leavesWith l [n] r) &&
        !(subs.map fun r => if leavesWith l [n] r then
          { r with state := SubState.waiting, referencePayload := none } else r).any fun r =>
            r.id == id && leavesWith l ns r) =
      !subs.any fun r => r.id == id && leavesWith l (n :: ns) r := by
    intro subs id
    rw [List.any_map]
    refine noneOf_eq _ _ _ (fun r => ?_) subs
    simp only [Function.comp, leavesWith_cons l n ns]
    cases h : leavesWith l [n] r
    · simp
    · have : leavesWith l ns { r with state := .waiting, referencePayload := none } = false := by
        simp [leavesWith]
      simp [this]
  have hnode : ∀ k : NodeRecord,
      (if ns.any (fun j => j.address ==
            (if [n].any (fun j => j.address == k.address && j.uid == k.uid) then
              { k with state := .pending, failures := 0 } else k).address && j.uid ==
            (if [n].any (fun j => j.address == k.address && j.uid == k.uid) then
              { k with state := .pending, failures := 0 } else k).uid)
        then { (if [n].any (fun j => j.address == k.address && j.uid == k.uid) then
            { k with state := NodeState.pending, failures := 0 } else k) with
          state := .pending, failures := 0 }
        else if [n].any (fun j => j.address == k.address && j.uid == k.uid) then
          { k with state := .pending, failures := 0 } else k) =
      if (n :: ns).any (fun j => j.address == k.address && j.uid == k.uid) then
        { k with state := .pending, failures := 0 } else k := by
    intro k
    simp only [List.any_cons, List.any_nil, Bool.or_false]
    by_cases h : (n.address == k.address && n.uid == k.uid) = true
    · simp [h]
    · simp only [h, Bool.false_or, if_false, Bool.false_eq_true]
  unfold pendingAll
  cases l <;>
  · simp only [State.modifyLine, State.setLine, State.line, List.map_map, List.filter_filter, List.map_cons, List.map_nil,
      List.foldl_cons, List.foldl_nil]
    congr 1
    · congr 1
      · congr 1
        apply List.filter_congr
        intro id _
        rw [← hany, Bool.and_comm]
      · exact List.map_congr_left fun k _ => hnode k
    · exact List.map_congr_left fun r _ => hsub r

/-- Several nodes enter PENDING one after the other (R57). -/
theorem foldPending_eq (l : LineId) (ns : List NodeRecord) (s : State) :
    ns.foldl (fun s n => nodeToPending l n s) s = pendingAll l ns s := by
  induction ns generalizing s with
  | nil =>
    have hno : ∀ subs : List SubRecord, (subs.any fun _ => false) = false := by simp
    simp only [List.foldl_nil, pendingAll, leavesWith, addressIn, List.any_nil, Bool.and_false, hno, List.map_nil]
    cases l <;> simp [State.modifyLine, State.setLine, State.line]
  | cons n rest ih => rw [List.foldl_cons, ih, nodeToPending_eq, pendingAll_cons]

/-- With addresses of their own, the records that satisfy the test enter PENDING and no other (R57). -/
theorem nodesToPending_entered (l : LineId) (test : NodeRecord → Bool) (s : State)
    (h : ((s.line l).nodes.map (·.address)).Nodup) : EnteredPending l test s (nodesToPending l test s) := by
  have hin : ∀ n ∈ (s.line l).nodes, ((s.line l).nodes.filter test).any
      (fun k => k.address == n.address && k.uid == n.uid) = test n := by
    intro n hn
    rw [Bool.eq_iff_iff, List.any_eq_true]
    constructor
    · rintro ⟨k, hk, he⟩
      simp only [Bool.and_eq_true, beq_iff_eq] at he
      have := List.inj_on_of_nodup_map h (List.mem_of_mem_filter hk) hn he.1
      exact this ▸ (List.mem_filter.mp hk).2
    · exact fun ht => ⟨n, List.mem_filter.mpr ⟨hn, ht⟩, by simp⟩
  have hleave : ∀ r, leavesWith l ((s.line l).nodes.filter test) r = true ↔
      r.line = l ∧ r.state = .active ∧ ∃ n ∈ (s.line l).nodes, n.address = r.node ∧ test n = true := by
    intro r
    simp only [leavesWith, addressIn, Bool.and_eq_true, beq_iff_eq, List.any_eq_true, List.mem_filter]
    constructor
    · rintro ⟨⟨a, b⟩, n, ⟨hn, ht⟩, he⟩
      exact ⟨a, b, n, hn, he, ht⟩
    · rintro ⟨a, b, n, hn, he, ht⟩
      exact ⟨⟨a, b⟩, n, ⟨hn, ht⟩, he⟩
  unfold nodesToPending
  rw [foldPending_eq]
  have hl : ((pendingAll l ((s.line l).nodes.filter test) s).line l) = { s.line l with
      nodes := (s.line l).nodes.map fun n => if test n then { n with state := .pending, failures := 0 } else n
      sched := { (s.line l).sched with
        pollList := (s.line l).sched.pollList.filter fun id =>
          !s.subs.any fun r => r.id == id && leavesWith l ((s.line l).nodes.filter test) r } } := by
    have : ((pendingAll l ((s.line l).nodes.filter test) s).line l) =
        ((s.modifyLine l (fun x => { x with
          nodes := x.nodes.map fun n =>
            if ((s.line l).nodes.filter test).any (fun k => k.address == n.address && k.uid == n.uid) then
              { n with state := .pending, failures := 0 } else n
          sched := { x.sched with
            pollList := x.sched.pollList.filter fun id =>
              !s.subs.any fun r => r.id == id && leavesWith l ((s.line l).nodes.filter test) r } })).line l) := by
      cases l <;> rfl
    rw [this, modifyLine_line_same]
    congr 1
    exact List.map_congr_left fun n hn => by rw [hin n hn]
  refine ⟨by rw [hl], ?_, ?_, ?_, by rw [hl], ?_, ?_⟩
  · exact List.map_congr_left fun r _ => if_congr (hleave r) rfl rfl
  · rw [hl]
    apply List.filter_congr
    intro id _
    rw [Bool.eq_iff_iff]
    simp only [Bool.not_eq_true', ← Bool.not_eq_true, List.any_eq_true, Bool.and_eq_true, beq_iff_eq, hleave,
      decide_eq_true_eq]
  · rfl
  · intro k hk
    have : (pendingAll l ((s.line l).nodes.filter test) s).line k = (s.modifyLine l (fun x => { x with
          nodes := x.nodes.map fun n =>
            if ((s.line l).nodes.filter test).any (fun k => k.address == n.address && k.uid == n.uid) then
              { n with state := .pending, failures := 0 } else n
          sched := { x.sched with
            pollList := x.sched.pollList.filter fun id =>
              !s.subs.any fun r => r.id == id && leavesWith l ((s.line l).nodes.filter test) r } })).line k := by
      cases k <;> rfl
    rw [this, modifyLine_line_other _ _ hk]
  · unfold pendingAll
    cases l <;> rfl

/-! ### The purge (R107) -/

theorem purgeFold_eq (references : List Word16) (s : State) :
    references.foldl (fun s reference => completeTxn reference .cancelled none none none s) s =
      { s with
        txns := s.txns.map fun t => if t.reference ∈ references then
          { t with
            state := .done, result := some .cancelled, lastVerdict := none, refuseReason := none, reply := none }
          else t
        delivery := { s.delivery with queue := (references.map .txnDone).foldl joined s.delivery.queue } } := by
  induction references generalizing s with
  | nil => simp
  | cons reference rest ih =>
    rw [List.foldl_cons, ih]
    unfold completeTxn
    rw [requestReport_eq]
    simp only [updateTxn, List.map_map, List.map_cons, List.foldl_cons]
    congr 1
    apply List.map_congr_left
    intro t _
    by_cases h : t.reference = reference
    · simp [h]
    · simp [h]

/-- A purge cancels the QUEUED records of the line, head first (R107). -/
theorem purgeLine_eq (l : LineId) (s : State) : purgeLine l s = purged l s := by
  unfold purgeLine purged
  rw [purgeFold_eq]
  cases l <;> rfl

/-! ### The poll list (R10) -/

/-- One subscription does not come after the other in poll lists. -/
def pollOrdered (p q : SubRecord) : Prop := p.node < q.node ∨ (p.node = q.node ∧ p.channel ≤ q.channel)

theorem insertByPoll_perm (r : SubRecord) (rs : List SubRecord) : (insertByPoll r rs).Perm (r :: rs) := by
  induction rs with
  | nil => exact .refl _
  | cons q rest ih =>
    unfold insertByPoll
    split
    · exact .refl _
    · exact ((ih.cons q).trans (.swap r q rest))

theorem pollBefore_ordered {p q : SubRecord} : (pollBefore p q = true → pollOrdered p q) ∧
    (pollBefore p q = false → pollOrdered q p) := by
  unfold pollBefore pollOrdered
  constructor <;> intro h <;> simp at h <;> omega

theorem insertByPoll_ordered (r : SubRecord) (rs : List SubRecord) (h : rs.Pairwise pollOrdered) :
    (insertByPoll r rs).Pairwise pollOrdered := by
  induction rs with
  | nil => simp [insertByPoll]
  | cons q rest ih =>
    rw [List.pairwise_cons] at h
    unfold insertByPoll
    split
    · rename_i hb
      have hrq := pollBefore_ordered.1 hb
      refine List.pairwise_cons.mpr ⟨fun x hx => ?_, List.pairwise_cons.mpr h⟩
      rcases List.mem_cons.mp hx with rfl | hx
      · exact hrq
      · have := h.1 x hx
        unfold pollOrdered at *
        omega
    · rename_i hb
      refine List.pairwise_cons.mpr ⟨fun x hx => ?_, ih h.2⟩
      rcases List.mem_cons.mp ((insertByPoll_perm r rest).mem_iff.mp hx) with rfl | hx
      · exact pollBefore_ordered.2 (by simpa using hb)
      · exact h.1 x hx

theorem sortByPoll_perm (rs : List SubRecord) : (sortByPoll rs).Perm rs := by
  induction rs with
  | nil => exact .refl _
  | cons r rest ih => exact (insertByPoll_perm r _).trans (ih.cons r)

theorem sortByPoll_ordered (rs : List SubRecord) : (sortByPoll rs).Pairwise pollOrdered := by
  induction rs with
  | nil => exact .nil
  | cons r rest ih => exact insertByPoll_ordered r _ ih

/-- The list a round start builds (R10). -/
theorem buildPollList_spec (l : LineId) (round : Word16) (s : State) :
    PollListFor s l round (buildPollList l round s) := by
  refine ⟨_, rfl, (sortByPoll_perm _).trans ?_, sortByPoll_ordered _⟩
  rw [List.filter_congr]
  intro r _
  rw [Bool.eq_iff_iff]
  simp [isDue, and_assoc]

end Sys2Proof.Machine
end

