-- ==== Sys2Proof/Laws/LineKeeps.lean ====
section
/-! SUPPORT. A property of the record tables goes through an event of a line: what the few operations that
touch a table keep, every event keeps. -/

namespace Sys2Proof.Machine

open Sys2Proof

/-- The Node Table, the configuration and the transaction queue of a line are left as they are. -/
structure SameTables (x y : Line) : Prop where
  nodes : y.nodes = x.nodes
  config : y.config = x.config
  txnQueue : y.txnQueue = x.txnQueue

/-- A profile taken from a SYNC_ACK is in R42's ranges. -/
def ResultSound (r : AttemptResult) : Prop :=
  ∀ p, r.profile = some p → 1 ≤ p.channels ∧ p.channels ≤ 8 ∧ p.maxPayload ≤ 24

theorem plainResult_sound (v : Verdict) : ResultSound (plainResult v) := by
  intro p h
  simp [plainResult] at h

/-- R33 accepts a SYNC_ACK only within the ranges. -/
theorem judgeFit_sound (k : OrderKind) (toggle : Bool) (b : ReceiveBuffer) (clock : Word32) :
    ResultSound (judgeFit k toggle b clock) := by
  intro p h
  unfold judgeFit at h
  dsimp only at h
  split at h
  · split at h
    · split at h
      · simp at h
      · exact plainResult_sound _ p h
    · exact plainResult_sound _ p h
  · split at h
    · simp at h
    · exact plainResult_sound _ p h
  · split at h
    · split at h
      · rename_i hc
        simp only [Option.some.injEq] at h
        subst h
        exact ⟨hc.2.1, hc.2.2.1, hc.2.2.2⟩
      · exact plainResult_sound _ p h
    all_goals exact plainResult_sound _ p h
  · split at h
    · split at h
      · simp [plainResult] at h
      · exact plainResult_sound _ p h
    · exact plainResult_sound _ p h
  · exact plainResult_sound _ p h

theorem judgeReply_sound (k : OrderKind) (toggle : Bool) (b : ReceiveBuffer) (clock : Word32) :
    ResultSound (judgeReply k toggle b clock) := by
  unfold judgeReply
  dsimp only
  split
  · exact plainResult_sound _
  · split
    · exact plainResult_sound _
    · split
      · exact plainResult_sound _
      · exact judgeFit_sound _ _ _ _

/-- What a property must go through to go through every event of the line. -/
structure LineKeeps (l : LineId) (P : State → Prop) : Prop where
  line : ∀ {s : State} (f : Line → Line), (∀ x, SameTables x (f x)) → P s → P (s.modifyLine l f)
  report : ∀ {s : State} (r : ReportRequest), P s → P (requestReport r s)
  toggles : ∀ {s : State}, P s → P (resetToggles l s)
  owner : ∀ {s : State} (v : VerdictRecord), P s → P (ownerTake l v s)
  node : ∀ {s : State} (v : VerdictRecord), ResultSound v.result → P s → P (takeNodeVerdict l v s)
  pending : ∀ {s : State} (test : NodeRecord → Bool), P s → P (nodesToPending l test s)
  purge : ∀ {s : State}, P s → P (purgeLine l s)
  poll : ∀ {s : State} (id uid : Nat), P s → P (updateSub id uid (fun r => { r with pollInFlight := true }) s)
  txn : ∀ {s : State} (reference : Word16) (f : TxnRecord → TxnRecord), P s → P (updateTxn reference f s)
  pop : ∀ {s : State}, P s → P (popTxn l s)

namespace LineKeeps

variable {l : LineId} {P : State → Prop} (k : LineKeeps l P) {s : State} (h : P s)
include k h

theorem quiet (f : Line → Line) (hf : ∀ x, SameTables x (f x) := by intro _; exact ⟨rfl, rfl, rfl⟩) :
    P (s.modifyLine l f) := k.line f hf h

theorem engine (f : Engine → Engine) : P (s.modifyEngine l f) := k.quiet h _
theorem sched (f : Scheduler → Scheduler) : P (s.modifySched l f) := k.quiet h _
theorem port (f : LinePort → LinePort) : P (s.modifyPort l f) := k.quiet h _

theorem changeLineState (state : LineState) (cause : Cause) : P (changeLineState l state cause s) :=
  k.report _ (k.quiet h _)

theorem enterStopped : P (enterStopped l s) := by
  unfold Sys2Proof.Machine.enterStopped
  dsimp only
  refine k.quiet (s := _) ?_ _
  split
  · exact k.purge (k.changeLineState h _ _)
  · exact k.changeLineState h _ _

theorem enterFault (cause : Cause) : P (enterFault l cause s) := k.quiet (k.changeLineState h _ _) _

theorem startIdleWait : P (startIdleWait l s) :=
  k.quiet h _ (by intro x; split <;> exact ⟨rfl, rfl, rfl⟩)

theorem checkStuck : P (checkStuck l s) := by
  unfold Sys2Proof.Machine.checkStuck
  split
  · exact k.enterFault h _
  · exact h

theorem startRound : P (startRound l s) := by
  unfold Sys2Proof.Machine.startRound
  exact k.quiet h _

theorem restartQuiet : P (restartQuiet l s) := k.sched h _

theorem breakEnded (duration : Nat) : P (breakEnded l duration s) := by
  unfold Sys2Proof.Machine.breakEnded
  split
  · exact k.toggles h
  · exact h

theorem endLowPeriod : P (endLowPeriod l s) := by
  unfold Sys2Proof.Machine.endLowPeriod
  refine k.port (s := _) ?_ _
  split
  · exact h
  · exact k.engine (k.breakEnded h _) _

theorem sendFrame (chars : List (BitVec 9)) : P (sendFrame l chars s) :=
  k.quiet (k.endLowPeriod h) _

theorem sendBreak (jam : Bool) (length : Nat) : P (sendBreak l jam length s) := k.port (k.endLowPeriod h) _

theorem releaseDriver : P (releaseDriver l s) := by
  unfold Sys2Proof.Machine.releaseDriver
  refine k.quiet h _ fun x => ?_
  dsimp only
  split <;> exact ⟨rfl, rfl, rfl⟩

theorem releaseAfterRestart : P (releaseAfterRestart l s) := by
  unfold Sys2Proof.Machine.releaseAfterRestart
  split
  · exact k.port h _
  · exact k.releaseDriver h

theorem lineControlTake (v : Verdict) (stuck : Bool) : P (lineControlTake l v stuck s) := by
  unfold Sys2Proof.Machine.lineControlTake
  split
  · split
    · exact h
    · exact k.enterStopped h
  · split
    · split
      · exact k.changeLineState h _ _
      · exact k.enterFault h _
    · split
      · exact k.enterFault h _
      · exact h
  all_goals exact h

theorem schedulerTake (v : VerdictRecord) : P (schedulerTake l v s) := by
  unfold Sys2Proof.Machine.schedulerTake
  split
  · exact k.sched h _
  · exact h

theorem deliverVerdict {v : VerdictRecord} (hv : ResultSound v.result) (stuck : Bool) :
    P (deliverVerdict l v stuck s) :=
  k.lineControlTake (k.schedulerTake (k.node v hv (k.owner v h)) _) _ _

theorem finishExchange {r : AttemptResult} (hr : ResultSound r) (stuck : Bool) :
    P (finishExchange l r stuck s) := by
  unfold Sys2Proof.Machine.finishExchange
  dsimp only
  split
  · exact h
  · exact k.deliverVerdict (k.quiet h _) hr _

theorem recordAttempt (v : Verdict) : P (recordAttempt l v s) := k.quiet h _

theorem endAttempt {r : AttemptResult} (hr : ResultSound r) : P (endAttempt l r s) := by
  unfold Sys2Proof.Machine.endAttempt
  dsimp only
  split
  · exact k.recordAttempt h _
  · split
    · exact k.engine (k.recordAttempt h _) _
    · exact k.finishExchange (k.recordAttempt h _) hr _

theorem startExchange (o : OrderKind) : P (startExchange l o s) :=
  k.sendFrame (k.engine h _) _

theorem startBreakOrder : P (startBreakOrder l s) := k.sendBreak (k.engine h _) _ _

theorem endSettling : P (endSettling l s) := by
  unfold Sys2Proof.Machine.endSettling
  dsimp only
  split
  · split
    · exact k.finishExchange h (plainResult_sound _) _
    · exact k.sendFrame (k.quiet h _) _
  · exact h

theorem windowRunsOut : P (windowRunsOut l s) := by
  unfold Sys2Proof.Machine.windowRunsOut
  split
  · exact k.endAttempt h (plainResult_sound _)
  all_goals exact h

theorem gapRunsOut : P (gapRunsOut l s) := by
  unfold Sys2Proof.Machine.gapRunsOut
  split
  · exact k.endAttempt h (plainResult_sound _)
  all_goals exact h

theorem resumeTimers : P (resumeTimers l s) := by
  unfold Sys2Proof.Machine.resumeTimers
  dsimp only
  split <;> (try split) <;>
    first
    | exact h | exact k.endAttempt h (plainResult_sound _) | exact k.endSettling h | exact k.engine h _

theorem countStray : P (countStray l s) := by
  unfold Sys2Proof.Machine.countStray State.countLine
  exact k.quiet h _

theorem afterStored : P (afterStored l s) := by
  unfold Sys2Proof.Machine.afterStored
  dsimp only
  split
  · exact h
  · split
    · exact k.endAttempt h (plainResult_sound _)
    · split
      · exact k.endAttempt h (judgeReply_sound _ _ _ _)
      · exact k.engine h _

theorem takeReplyCharacter (c : ReceivedCharacter) : P (takeReplyCharacter l c s) :=
  k.afterStored (k.restartQuiet (k.engine h _))

theorem takeCharacter (c : ReceivedCharacter) : P (takeCharacter l c s) := by
  unfold Sys2Proof.Machine.takeCharacter
  split
  · exact k.countStray h
  · exact k.countStray h
  · split
    · exact k.takeReplyCharacter h _
    · exact k.resumeTimers (k.countStray h)
  · split
    · exact k.endAttempt (k.restartQuiet h) (plainResult_sound _)
    · exact k.takeReplyCharacter h _
  · exact k.resumeTimers (k.countStray h)

theorem engineBreakEnd : P (engineBreakEnd l s) := by
  unfold Sys2Proof.Machine.engineBreakEnd
  split
  · exact k.endAttempt h (plainResult_sound _)
  · exact k.resumeTimers h

theorem engineStuck : P (engineStuck l s) := by
  unfold Sys2Proof.Machine.engineStuck
  dsimp only
  split <;> first | exact k.finishExchange h (plainResult_sound _) _ | exact h

theorem choosePoll (id : Nat) : P (choosePoll l id s) := by
  unfold Sys2Proof.Machine.choosePoll
  dsimp only
  split
  · exact k.sched h _
  · exact k.startExchange (k.poll _ _ (k.sched h _)) _

theorem sendTxn (t : TxnRecord) : P (sendTxn l t s) :=
  k.startExchange (k.sched (k.txn _ _ h) _) _

theorem completeTxn (reference : Word16) (result : TxnResult) (verdict : Option Verdict)
    (reason : Option RefuseReason) (reply : Option (List Byte)) :
    P (completeTxn reference result verdict reason reply s) := k.report _ (k.txn _ _ h)

theorem chooseWork (again : Nat) : P (chooseWork l again s) := by
  induction again generalizing s with
  | zero => exact h
  | succ again ih =>
    unfold Sys2Proof.Machine.chooseWork
    split
    · exact h
    · exact k.choosePoll h _
    · split
      · split
        · exact ih (k.pop h)
        · split
          · exact k.sendTxn (k.pop h) _
          · exact ih (k.completeTxn (k.pop h) _ _ _ _ _)
      · split
        · exact h
        · exact k.choosePoll h _

theorem choose : P (choose l s) := by
  unfold Sys2Proof.Machine.choose
  dsimp only
  split
  · exact k.startBreakOrder (k.sched h _)
  · split
    · exact k.startExchange (k.sched h _) _
    · unfold Sys2Proof.Machine.chooseProbeOrWork
      split
      · exact k.startExchange (k.sched h _) _
      · exact k.chooseWork h _

theorem countFrame : P (countFrame l s) := k.restartQuiet (k.engine h _)

theorem frameSent : P (frameSent l s) := by
  unfold Sys2Proof.Machine.frameSent
  split
  · exact k.releaseDriver (k.countFrame h)
  · split
    · exact k.releaseDriver (k.engine (k.countFrame h) _)
    · exact k.endAttempt (k.releaseDriver (k.countFrame h)) (plainResult_sound _)

theorem deliverCharacter (c : ReceivedCharacter) : P (deliverCharacter l c s) := by
  have hn : P (s.countLine l (countNoise c)) := k.quiet h _
  unfold Sys2Proof.Machine.deliverCharacter
  dsimp only
  split
  · exact hn
  · exact k.takeCharacter hn _

theorem breakOver (duration : Nat) : P (breakOver l duration s) := k.engineBreakEnd (k.breakEnded h _)

theorem reportStuck : P (reportStuck l s) := by
  unfold Sys2Proof.Machine.reportStuck stuckToLineControl
  split
  iterate 3 exact k.engineStuck h
  · split <;> first | exact k.enterFault h _ | exact h
  · exact h

theorem takeStuck (newBreak : Bool) : P (takeStuck l newBreak s) := k.reportStuck (k.quiet h _)

theorem ensureIdleWait : P (ensureIdleWait l s) := by
  unfold Sys2Proof.Machine.ensureIdleWait
  split
  · exact k.startIdleWait h
  · exact h

theorem breakSent : P (breakSent l s) :=
  k.toggles (k.restartQuiet (k.releaseDriver h))

theorem afterJam : P (afterJam l s) := by
  unfold Sys2Proof.Machine.afterJam
  split
  · exact k.quiet h _
  · split
    · exact k.startIdleWait h
    · exact h
  · exact k.enterStopped h
  all_goals exact h

theorem completeStop : P (completeStop l s) := by
  unfold Sys2Proof.Machine.completeStop
  split
  · exact k.enterStopped h
  · exact h

/-- Every act of the port keeps the property. -/
theorem act {t : State} (ha : PortAct l s t) : P t := by
  cases ha with
  | nothing => exact h
  | hold => exact k.engine h _
  | resume => exact k.resumeTimers h
  | character c => exact k.deliverCharacter h c
  | breakDetected => exact k.quiet h _
  | breakEnd duration => exact k.breakOver h duration
  | stuck newBreak => exact k.takeStuck h newBreak
  | stuckEnd duration => exact k.ensureIdleWait (k.breakOver h duration)
  | frameSent => exact k.frameSent h
  | lastCharacter => exact k.restartQuiet (k.releaseAfterRestart h)
  | contention => exact k.sendBreak (k.endAttempt h (plainResult_sound _)) _ _
  | jamBreakEnd => exact k.afterJam (k.breakSent h)
  | breakOrderEnd => exact k.completeStop (k.pending _ (k.breakSent (k.engine h _)))
  | choice => exact k.choose h
  | settlingEnd => exact k.endSettling h

/-- Every event of the line keeps the property. -/
theorem event {f : State → State} (hf : LineEvent l f) : P (f s) := by
  cases hf with
  | port periods hc =>
    exact afterPeriods_keeps hc (fun _ _ h => k.quiet h _) (fun _ _ h => k.port h _)
      (fun _ _ ha h => k.act h ha) periods h
  | roundTimer =>
    unfold roundTimerRunsOut
    split
    · exact k.quiet h _
    all_goals exact h
  | roundStart =>
    unfold takeRoundStart
    split
    · exact k.startRound h
    · exact h
  | quiet =>
    unfold endQuiet
    split
    · exact k.sched h _
    all_goals exact h
  | window => exact k.windowRunsOut h
  | gap => exact k.gapRunsOut h
  | holdoff =>
    unfold holdoffRunsOut
    dsimp only
    split
    · exact k.checkStuck (k.quiet (k.changeLineState h _ _) _)
    · exact h
  | idleWait =>
    unfold idleWaitRunsOut recoverLine pendInService
    dsimp only
    split
    · exact k.checkStuck (k.startRound (k.pending _ (k.quiet (k.changeLineState h _ _) _)))
    · exact h

end LineKeeps

end Sys2Proof.Machine
end

