-- ==== Sys2Proof/Laws/NodeTable.lean ====
section
/-! SUPPORT. What every operation does to the Node Table of a line: the failure counts of R43, the
addresses and the profiles. -/

namespace Sys2Proof.Machine

open Sys2Proof

theorem NodesSound.congr {x y : Line} (h : NodesSound x) (hn : y.nodes = x.nodes)
    (hc : y.config = x.config) : NodesSound y :=
  ⟨hc ▸ h.threshold, hn ▸ h.addresses, hn ▸ h.range, by rw [hn, hc]; exact h.counts, hn ▸ h.profiles⟩

/-- What one record owes to the table. -/
structure NodeFits (threshold : Nat) (n : NodeRecord) : Prop where
  range : 1 ≤ n.address ∧ n.address ≤ 30
  count : countFits threshold n
  profile : ∀ p, n.profile = some p → 1 ≤ p.channels ∧ p.channels ≤ 8 ∧ p.maxPayload ≤ 24

theorem NodesSound.fits {x : Line} (h : NodesSound x) {n : NodeRecord} (hn : n ∈ x.nodes) :
    NodeFits x.config.failureThreshold n := ⟨h.range n hn, h.counts n hn, h.profiles n hn⟩

theorem NodesSound.of_fits {x : Line} (ht : 1 ≤ x.config.failureThreshold ∧ x.config.failureThreshold ≤ 15)
    (ha : (x.nodes.map (·.address)).Nodup) (hf : ∀ n ∈ x.nodes, NodeFits x.config.failureThreshold n) :
    NodesSound x :=
  ⟨ht, ha, fun n h => (hf n h).range, fun n h => (hf n h).count, fun n h => (hf n h).profile⟩

/-- Records change one by one and keep their addresses. -/
theorem NodesSound.map {x y : Line} (h : NodesSound x) (g : NodeRecord → NodeRecord)
    (hn : y.nodes = x.nodes.map g) (hc : y.config = x.config) (ha : ∀ n, (g n).address = n.address)
    (hg : ∀ n ∈ x.nodes, NodeFits x.config.failureThreshold (g n)) : NodesSound y := by
  refine .of_fits (hc ▸ h.threshold) ?_ ?_
  · rw [hn, List.map_map]
    rw [show ((·.address) ∘ g) = (·.address) from funext ha]
    exact h.addresses
  · rw [hn, hc]
    intro n hm
    obtain ⟨m, hmem, rfl⟩ := List.mem_map.1 hm
    exact hg m hmem

theorem updateNode_nodes (l : LineId) (address uid : Nat) (f : NodeRecord → NodeRecord) (s : State) :
    ((updateNode l address uid f s).line l).nodes =
      (s.line l).nodes.map fun n => if n.address = address ∧ n.uid = uid then f n else n := by
  simp [updateNode]

theorem updateNode_config (l : LineId) (address uid : Nat) (f : NodeRecord → NodeRecord) (s : State) :
    ((updateNode l address uid f s).line l).config = (s.line l).config := by
  simp [updateNode]

/-- One record is updated. -/
theorem NodesSound.update {l : LineId} {s : State} (h : NodesSound (s.line l)) (address uid : Nat)
    (f : NodeRecord → NodeRecord) (ha : ∀ n, (f n).address = n.address)
    (hf : ∀ n ∈ (s.line l).nodes, n.address = address → n.uid = uid →
      NodeFits (s.line l).config.failureThreshold (f n)) :
    NodesSound ((updateNode l address uid f s).line l) := by
  refine h.map (fun n => if n.address = address ∧ n.uid = uid then f n else n) (updateNode_nodes l address uid f s)
    (updateNode_config l address uid f s) ?_ ?_
  · intro n
    split
    · exact ha n
    · rfl
  · intro n hn
    split
    · rename_i hc
      exact hf n hn hc.1 hc.2
    · exact h.fits hn

theorem requestReport_line (r : ReportRequest) (s : State) (l : LineId) :
    (requestReport r s).line l = s.line l := by
  unfold requestReport
  split
  · rfl
  · exact modifyDelivery_line _ _ _

theorem findNodeRecord_mem {s : State} {l : LineId} {address uid : Nat} {n : NodeRecord}
    (h : findNodeRecord s l address uid = some n) :
    n ∈ (s.line l).nodes ∧ n.address = address ∧ n.uid = uid := by
  refine ⟨List.mem_of_find?_eq_some h, ?_⟩
  have := List.find?_some h
  simpa using this

theorem findNode_mem {s : State} {l : LineId} {address : Nat} {n : NodeRecord}
    (h : findNode s l address = some n) : n ∈ (s.line l).nodes ∧ n.address = address := by
  refine ⟨List.mem_of_find?_eq_some h, ?_⟩
  have := List.find?_some h
  simpa using this

/-! ### Operations that leave the Node Table alone -/

/-- Nodes, configuration and transaction queue of a line are kept. -/
theorem suspendSubs_tables (l : LineId) (address : Nat) (s : State) :
    SameTables (s.line l) ((suspendSubs l address s).line l) := by
  unfold suspendSubs
  dsimp only
  have : ∀ (t : State) (f : Scheduler → Scheduler), SameTables (t.line l) ((t.modifySched l f).line l) := by
    intro t f
    simp only [modifySched_modifyLine, modifyLine_line_same]
    exact ⟨rfl, rfl, rfl⟩
  have h := this { s with subs := s.subs.map fun r =>
      if (r.line == l && r.node == address && r.state == .active) = true then
        { r with state := .waiting, referencePayload := none } else r }
    (fun c => { c with pollList := c.pollList.filter fun id =>
      id ∉ (s.subs.filter fun r => r.line == l && r.node == address && r.state == .active).map (·.id) })
  cases l <;> exact h

theorem recheckSubs_line (l : LineId) (address : Nat) (p : Profile) (s : State) (k : LineId) :
    (recheckSubs l address p s).line k = s.line k := by
  unfold recheckSubs
  generalize sortByPoll _ = xs
  induction xs generalizing s with
  | nil => rfl
  | cons r rest ih =>
    refine (ih _).trans ?_
    show (recheckSub _ p r s).line k = _
    unfold recheckSub enterFaulted
    split
    · rw [requestReport_line, updateSub_line]
    · split
      · rw [requestReport_line, updateSub_line]
      · rw [updateSub_line]

/-! ### The verdicts -/

theorem pendingNode_fits {threshold : Nat} {n : NodeRecord} (h : NodeFits threshold n) :
    NodeFits threshold { n with state := .pending, failures := 0 } := ⟨h.range, rfl, h.profile⟩

theorem nodeToPending_sound {l : LineId} (n : NodeRecord) {s : State} (h : NodesSound (s.line l)) :
    NodesSound ((nodeToPending l n s).line l) := by
  unfold nodeToPending
  have hs := suspendSubs_tables l n.address (requestReport (.nodeState l n.address n.uid)
      (updateNode l n.address n.uid (fun n => { n with state := .pending, failures := 0 }) s))
  refine NodesSound.congr (x := (updateNode l n.address n.uid
    (fun n => { n with state := .pending, failures := 0 }) s).line l) ?_ ?_ ?_
  · exact h.update n.address n.uid _ (fun _ => rfl) fun m hm _ _ => pendingNode_fits (h.fits hm)
  · rw [hs.nodes, requestReport_line]
  · rw [hs.config, requestReport_line]

theorem nodesToPending_sound {l : LineId} (test : NodeRecord → Bool) {s : State}
    (h : NodesSound (s.line l)) : NodesSound ((nodesToPending l test s).line l) := by
  unfold nodesToPending
  generalize (s.line l).nodes.filter test = ns
  induction ns generalizing s with
  | nil => exact h
  | cons n rest ih => exact ih (nodeToPending_sound n h)

theorem nodeFailed_sound {l : LineId} {n : NodeRecord} {s : State} (h : NodesSound (s.line l))
    (hn : n.state.inService = true) (hc : countFits (s.line l).config.failureThreshold n)
    (hm : ∀ m ∈ (s.line l).nodes, m.address = n.address → m.uid = n.uid → m.failures = n.failures) :
    NodesSound ((nodeFailed l n s).line l) := by
  have hf : n.failures < (s.line l).config.failureThreshold := by
    have ht := h.threshold
    unfold countFits at hc
    rcases hst : n.state <;> simp only [hst] at hc <;> simp [hst, NodeState.inService] at hn
    · omega
    · omega
  unfold nodeFailed
  split
  · unfold nodeLost
    have hs := suspendSubs_tables l n.address (requestReport (.nodeState l n.address n.uid)
      (updateNode l n.address n.uid (fun n => { n with
        state := .lost, failures := n.failures + 1
        counters := { n.counters with losses := satInc n.counters.losses } }) s))
    refine NodesSound.congr (x := (updateNode l n.address n.uid (fun n => { n with
        state := .lost, failures := n.failures + 1
        counters := { n.counters with losses := satInc n.counters.losses } }) s).line l) ?_ ?_ ?_
    · refine h.update n.address n.uid _ (fun _ => rfl) fun m hmem ha hu => ?_
      have hmf := h.fits hmem
      have := hm m hmem ha hu
      have ht := h.threshold
      refine ⟨hmf.range, ?_, hmf.profile⟩
      show 1 ≤ m.failures + 1 ∧ m.failures + 1 ≤ 15
      omega
    · rw [hs.nodes, requestReport_line]
    · rw [hs.config, requestReport_line]
  · rename_i hlt
    have hu : NodesSound ((updateNode l n.address n.uid
        (fun n => { n with state := .suspect, failures := n.failures + 1 }) s).line l) := by
      refine h.update n.address n.uid _ (fun _ => rfl) fun m hmem ha hu => ?_
      have hmf := h.fits hmem
      have := hm m hmem ha hu
      refine ⟨hmf.range, ?_, hmf.profile⟩
      show 1 ≤ m.failures + 1 ∧ m.failures + 1 < _
      omega
    dsimp only
    split
    · rw [requestReport_line]; exact hu
    · exact hu

theorem nodeAnswered_sound {l : LineId} (n : NodeRecord) (flip : Bool) {s : State}
    (h : NodesSound (s.line l)) : NodesSound ((nodeAnswered l n flip s).line l) := by
  have hu : NodesSound ((updateNode l n.address n.uid (fun m => { m with
      state := .online, failures := 0, toggle := if flip then !m.toggle else m.toggle }) s).line l) :=
    h.update n.address n.uid _ (fun _ => rfl) fun m hm _ _ => ⟨(h.fits hm).range, rfl, (h.fits hm).profile⟩
  unfold nodeAnswered
  dsimp only
  split
  · rw [requestReport_line]; exact hu
  · exact hu

theorem nodeOnline_sound {l : LineId} (n : NodeRecord) {p : Profile}
    (hp : 1 ≤ p.channels ∧ p.channels ≤ 8 ∧ p.maxPayload ≤ 24) {s : State} (h : NodesSound (s.line l)) :
    NodesSound ((nodeOnline l n p s).line l) := by
  unfold nodeOnline
  rw [recheckSubs_line, requestReport_line]
  refine h.update n.address n.uid _ (fun _ => rfl) fun m hm _ _ => ⟨(h.fits hm).range, rfl, ?_⟩
  intro q hq
  simp only [Option.some.injEq] at hq
  exact hq ▸ hp

theorem takeNodeVerdict_sound {l : LineId} {v : VerdictRecord} (hv : ResultSound v.result) {s : State}
    (h : NodesSound (s.line l)) : NodesSound ((takeNodeVerdict l v s).line l) := by
  unfold takeNodeVerdict
  split
  · split
    · exact h
    · rename_i n hn
      obtain ⟨hmem, ha, hu⟩ := findNodeRecord_mem hn
      have hcount := (h.fits hmem).count
      have hupd : NodesSound ((updateNode l n.address n.uid (fun n => { n with
          lastVerdict := some v.result.verdict, lastRound := some v.order.round
          counters := countNode v n.counters }) s).line l) :=
        h.update n.address n.uid _ (fun _ => rfl) fun m hm _ _ =>
          ⟨(h.fits hm).range, (h.fits hm).count, (h.fits hm).profile⟩
      have hconf := updateNode_config l n.address n.uid (fun n => { n with
          lastVerdict := some v.result.verdict, lastRound := some v.order.round
          counters := countNode v n.counters }) s
      have hall : ∀ m ∈ ((updateNode l n.address n.uid (fun n => { n with
          lastVerdict := some v.result.verdict, lastRound := some v.order.round
          counters := countNode v n.counters }) s).line l).nodes,
          m.address = n.address → m.uid = n.uid → m.failures = n.failures := by
        intro m hm hma _
        rw [updateNode_nodes] at hm
        obtain ⟨q, hq, rfl⟩ := List.mem_map.1 hm
        have hqa : q.address = n.address := by
          split at hma <;> exact hma
        have : q = n := List.inj_on_of_nodup_map h.addresses hq hmem hqa
        subst this
        split <;> rfl
      revert hupd hconf hall
      generalize updateNode l n.address n.uid (fun n => { n with
          lastVerdict := some v.result.verdict, lastRound := some v.order.round
          counters := countNode v n.counters }) s = t
      intro hupd hconf hall
      unfold actOnVerdict
      split
      · split
        · rename_i hp
          split
          · exact hupd
          · exact nodeOnline_sound n (hv _ hp) hupd
        · exact hupd
      all_goals try exact hupd
      all_goals
        split
        · rename_i hin
          split <;> first
            | exact nodeAnswered_sound _ _ hupd
            | exact hupd
            | exact nodeFailed_sound hupd hin (by rw [hconf]; exact hcount) hall
        · exact hupd
  · exact h

/-! ### Other operations on the records of a line -/

theorem takePollVerdict_line (id uid : Nat) (v : VerdictRecord) (s : State) (l : LineId) :
    (takePollVerdict id uid v s).line l = s.line l := by
  have raised : ∀ (t : State) (i u : Nat), (raiseNotice i u t).line l = t.line l := by
    intro t i u
    unfold raiseNotice
    split
    · rfl
    · split
      · rw [requestReport_line, updateSub_line]
      · rfl
  have offered : ∀ (t : State) (i u : Nat) (x : Sample), (offerSample i u x t).line l = t.line l := by
    intro t i u x
    unfold offerSample
    split
    · rfl
    · dsimp only
      split
      · rw [raised]
        cases l <;> rfl
      · rw [raised, updateSub_line]
      · rw [updateSub_line]
  unfold takePollVerdict
  split
  · rfl
  · dsimp only
    split
    · rw [freeSub_line, updateSub_line]
    · unfold takeActiveVerdict
      split
      · unfold takeOkReply
        split
        · rw [offered, updateSub_line, updateSub_line]
        · rw [updateSub_line]
      · unfold takeRefusal enterFaulted
        split
        · rw [requestReport_line, updateSub_line, updateSub_line]
        · rw [requestReport_line, updateSub_line, updateSub_line]
        · rw [updateSub_line, updateSub_line]
        · rw [updateSub_line, updateSub_line]
      · rw [updateSub_line]
    · rw [updateSub_line]
    · rw [updateSub_line]

theorem completeTxn_line (reference : Word16) (result : TxnResult) (verdict : Option Verdict)
    (reason : Option RefuseReason) (reply : Option (List Byte)) (s : State) (l : LineId) :
    (completeTxn reference result verdict reason reply s).line l = s.line l := by
  unfold completeTxn
  rw [requestReport_line, updateTxn_line]

/-- A transaction's verdict changes nothing of the line but its transaction queue. -/
theorem takeTxnVerdict_line (l : LineId) (reference : Word16) (v : VerdictRecord) (s : State) :
    ∃ queue, (takeTxnVerdict l reference v s).line l = { s.line l with txnQueue := queue } := by
  unfold takeTxnVerdict
  split
  · exact ⟨_, rfl⟩
  · dsimp only
    split
    · rw [completeTxn_line, updateTxn_line]; exact ⟨_, rfl⟩
    · rw [completeTxn_line, updateTxn_line]; exact ⟨_, rfl⟩
    · unfold takeContention
      split
      · rw [modifyLine_line_same, updateTxn_line, updateTxn_line, updateTxn_line]; exact ⟨_, rfl⟩
      · rw [completeTxn_line, updateTxn_line, updateTxn_line]; exact ⟨_, rfl⟩
    all_goals rw [completeTxn_line, updateTxn_line]; exact ⟨_, rfl⟩

/-- A purge changes nothing of the line but its transaction queue, which it empties (R107). -/
theorem purgeLine_line (l : LineId) (s : State) :
    (purgeLine l s).line l = { s.line l with txnQueue := [] } := by
  have hfold : ∀ (rs : List Word16) (t : State),
      (rs.foldl (fun s reference => completeTxn reference .cancelled none none none s) t).line l = t.line l := by
    intro rs
    induction rs with
    | nil => exact fun _ => rfl
    | cons r rest ih => exact fun t => (ih _).trans (completeTxn_line _ _ _ _ _ _ _)
  unfold purgeLine
  rw [hfold, modifyLine_line_same]

theorem ownerTake_line (l : LineId) (v : VerdictRecord) (s : State) :
    ∃ queue, (ownerTake l v s).line l = { s.line l with txnQueue := queue } := by
  unfold ownerTake
  split
  · rw [takePollVerdict_line]; exact ⟨_, rfl⟩
  · exact takeTxnVerdict_line _ _ _ _
  · exact takeTxnVerdict_line _ _ _ _
  all_goals exact ⟨_, rfl⟩

theorem resetToggles_sound {l : LineId} {s : State} (h : NodesSound (s.line l)) :
    NodesSound ((resetToggles l s).line l) := by
  unfold resetToggles
  rw [modifyLine_line_same]
  exact h.map (fun n => { n with toggle := false }) rfl rfl (fun _ => rfl) fun n hn =>
    ⟨(h.fits hn).range, (h.fits hn).count, (h.fits hn).profile⟩

/-- The Node Table of a line goes through every event of the line. -/
theorem nodesKeep (l : LineId) : LineKeeps l (fun s => NodesSound (s.line l)) where
  line := by
    intro s f hf h
    rw [modifyLine_line_same]
    exact h.congr (hf _).nodes (hf _).config
  report := fun r h => by rw [requestReport_line]; exact h
  toggles := fun h => resetToggles_sound h
  owner := by
    intro s v h
    obtain ⟨queue, hq⟩ := ownerTake_line l v s
    rw [hq]
    exact h.congr rfl rfl
  node := fun v hv h => takeNodeVerdict_sound hv h
  pending := fun test h => nodesToPending_sound test h
  purge := fun h => by rw [purgeLine_line]; exact h.congr rfl rfl
  poll := fun id uid h => by rw [updateSub_line]; exact h
  txn := fun reference f h => by rw [updateTxn_line]; exact h
  pop := fun h => by unfold popTxn; rw [modifyLine_line_same]; exact h.congr rfl rfl

/-! ### Requests -/

theorem insertNode_perm (n : NodeRecord) (ns : List NodeRecord) : (insertNode n ns).Perm (n :: ns) := by
  induction ns with
  | nil => exact List.Perm.refl _
  | cons m rest ih =>
    unfold insertNode
    split
    · exact List.Perm.refl _
    · exact (List.Perm.cons m ih).trans (List.Perm.swap _ _ _)

theorem addNode_sound {l : LineId} {address : Nat} {s : State} (h : NodesSound (s.line l))
    (ha : isNodeAddress address = true) (hfree : findNode s l address = none) :
    NodesSound ((addNode l address s).line l) := by
  have hl : (addNode l address s).line l =
      { s.line l with nodes := insertNode (newNode address s.nextUid) (s.line l).nodes } := by
    unfold addNode
    cases l <;> rfl
  rw [hl]
  have hp := insertNode_perm (newNode address s.nextUid) (s.line l).nodes
  refine .of_fits h.threshold ?_ ?_
  · show ((insertNode _ _).map (·.address)).Nodup
    rw [(hp.map _).nodup_iff, List.map_cons, List.nodup_cons]
    refine ⟨fun hm => ?_, h.addresses⟩
    obtain ⟨q, hq, he⟩ := List.mem_map.1 hm
    have := List.find?_eq_none.1 hfree q hq
    simp [he, newNode] at this
  · intro n hn
    rcases List.mem_cons.1 (hp.mem_iff.1 hn) with rfl | hn
    · simp only [isNodeAddress, Bool.and_eq_true, decide_eq_true_eq] at ha
      exact ⟨ha, rfl, by simp [newNode]⟩
    · exact h.fits hn

theorem removeNode_sound {l : LineId} {n : NodeRecord} {s : State} (h : NodesSound (s.line l)) :
    NodesSound ((removeNode l n s).line l) := by
  have hl : (removeNode l n s).line l =
      { s.line l with nodes := (s.line l).nodes.filter fun m => m.address ≠ n.address } := by
    unfold removeNode withdrawReport
    rw [modifyDelivery_line, modifyLine_line_same]
  rw [hl]
  exact .of_fits h.threshold ((List.filter_sublist.map _).nodup h.addresses)
    fun m hm => h.fits (List.mem_of_mem_filter hm)

/-- R113's check leaves a failure threshold of R112's range. -/
theorem configOf_threshold {p : List Byte} {c : LineConfig} (h : configOf p = some c) :
    1 ≤ c.failureThreshold ∧ c.failureThreshold ≤ 15 := by
  unfold configOf at h
  split at h
  · simp at h
  · dsimp only at h
    split at h
    · rename_i hc
      simp only [Option.some.injEq] at h
      subst h
      exact ⟨hc.2.2.1, hc.2.2.2.1⟩
    · simp at h

/-- What the entries to PENDING leave of a record (R57). -/
theorem nodeToPending_nodes (l : LineId) (n : NodeRecord) (s : State) :
    ((nodeToPending l n s).line l).nodes = (s.line l).nodes.map fun m =>
        if m.address = n.address ∧ m.uid = n.uid then { m with state := .pending, failures := 0 } else m := by
  unfold nodeToPending
  rw [(suspendSubs_tables l n.address _).nodes, requestReport_line, updateNode_nodes]

theorem nodeToPending_config (l : LineId) (n : NodeRecord) (s : State) :
    ((nodeToPending l n s).line l).config = (s.line l).config := by
  unfold nodeToPending
  rw [(suspendSubs_tables l n.address _).config, requestReport_line, updateNode_config]

theorem setConfig_sound {l : LineId} {c : LineConfig} {s : State} (h : NodesSound (s.line l))
    (hc : 1 ≤ c.failureThreshold ∧ c.failureThreshold ≤ 15) : NodesSound ((setConfig l c s).line l) := by
  unfold setConfig nodesToPending
  rw [modifyLine_line_same]
  have fold : ∀ (ns : List NodeRecord) (t : State), (t.line l).config.failureThreshold = c.failureThreshold →
      ((t.line l).nodes.map (·.address)).Nodup →
      (∀ m ∈ (t.line l).nodes, NodeFits c.failureThreshold m ∨
        (∃ n ∈ ns, m.address = n.address ∧ m.uid = n.uid) ∧
          (1 ≤ m.address ∧ m.address ≤ 30) ∧
          ∀ p, m.profile = some p → 1 ≤ p.channels ∧ p.channels ≤ 8 ∧ p.maxPayload ≤ 24) →
      NodesSound ((ns.foldl (fun s n => nodeToPending l n s) t).line l) := by
    intro ns
    induction ns with
    | nil =>
      intro t ht ha hm
      refine .of_fits (by rw [List.foldl_nil, ht]; exact hc) ha fun m hmem => ?_
      rw [List.foldl_nil, ht]
      rcases hm m hmem with hm | ⟨⟨n, hn, -⟩, -⟩
      · exact hm
      · simp at hn
    | cons n rest ih =>
      intro t ht ha hm
      refine ih _ (by rw [nodeToPending_config]; exact ht) ?_ ?_
      · rw [nodeToPending_nodes, List.map_map]
        rw [show ((·.address) ∘ fun m : NodeRecord => if m.address = n.address ∧ m.uid = n.uid then
            { m with state := .pending, failures := 0 } else m) = (·.address) from funext fun m => by
          simp only [Function.comp]; split <;> rfl]
        exact ha
      · intro m hmem
        rw [nodeToPending_nodes] at hmem
        obtain ⟨q, hq, rfl⟩ := List.mem_map.1 hmem
        split
        · left
          rcases hm q hq with hq | ⟨-, hr, hp⟩
          · exact pendingNode_fits hq
          · exact ⟨hr, rfl, hp⟩
        · rename_i hne
          rcases hm q hq with hq | ⟨⟨k, hk, hka⟩, hr⟩
          · exact .inl hq
          · rcases List.mem_cons.1 hk with rfl | hk
            · exact absurd hka hne
            · exact .inr ⟨⟨k, hk, hka⟩, hr⟩
  refine fold _ _ (by simp) (by simpa using h.addresses) ?_
  intro m hm
  simp only [modifyLine_line_same] at hm
  have hf := h.fits hm
  by_cases hs : m.state = .suspect ∧ c.failureThreshold ≤ m.failures
  · exact .inr ⟨⟨m, by simp [hm, hs.1, hs.2], rfl, rfl⟩, hf.range, hf.profile⟩
  · refine .inl ⟨hf.range, ?_, hf.profile⟩
    have hcount := hf.count
    unfold countFits at hcount ⊢
    rcases hst : m.state <;> simp only [hst] at hcount ⊢
    · exact hcount
    · exact hcount
    · simp only [hst, true_and, not_le] at hs
      exact ⟨hcount.1, hs⟩
    · exact hcount

/-- A property of both lines that the work of one line keeps for that line. -/
theorem bothLines {Q : Line → Prop} {l : LineId} {s t : State} (h : ∀ k, Q (s.line k)) (hw : LineWork l s t)
    (hl : Q (t.line l)) : ∀ k, Q (t.line k) := by
  intro k
  by_cases hk : k = l
  · exact hk ▸ hl
  · rw [hw.other k hk]
    exact h k

theorem bothLines_modify {Q : Line → Prop} {l : LineId} {s t : State} (h : ∀ k, Q (s.line k))
    (ho : ∀ k, k ≠ l → t.line k = s.line k) (hl : Q (t.line l)) : ∀ k, Q (t.line k) := by
  intro k
  by_cases hk : k = l
  · exact hk ▸ hl
  · rw [ho k hk]
    exact h k

theorem onLine_keeps {P : State → Prop} {code : Nat} {run : LineId → State → State × List Byte} {s : State}
    (h : P s) (hr : ∀ l, P (run l s).1) : P (onLine code run s).1 := by
  unfold onLine
  split
  · exact h
  · exact hr _

theorem onNode_keeps {P : State → Prop} {p : List Byte} {run : LineId → Nat → State → State × List Byte}
    {s : State} (h : P s) (hr : ∀ l n, isNodeAddress n = true → P (run l n s).1) : P (onNode p run s).1 := by
  refine onLine_keeps h fun l => ?_
  split
  · rename_i hn
    exact hr _ _ hn
  · exact h

/-- The record of a subscription or a transaction, its queue apart, is no part of a line. -/
theorem closeSub_line (r : SubRecord) (s : State) (k : LineId) : SameTables (s.line k) ((closeSub r s).line k) := by
  have hd : ∀ t : State, (discardSamples r t).line k = t.line k := by
    intro t; cases k <;> rfl
  have hp : SameTables (s.line k) ((prunePolls r.line [r.id]
      (withdrawReport (.subState r.id r.uid) (withdrawReport (.sampleReady r.id r.uid)
        (discardSamples r s)))).line k) := by
    unfold prunePolls withdrawReport
    by_cases hk : k = r.line
    · subst hk
      simp only [modifySched_modifyLine, modifyLine_line_same, modifyDelivery_line, hd]
      exact ⟨rfl, rfl, rfl⟩
    · simp only [modifySched_modifyLine, modifyLine_line_other _ _ hk, modifyDelivery_line, hd]
      exact ⟨rfl, rfl, rfl⟩
  unfold closeSub
  dsimp only
  split
  · rw [updateSub_line]; exact hp
  · rw [freeSub_line]; exact hp

theorem takeSamples_line (r : SubRecord) (n : Nat) (s : State) (k : LineId) :
    (takeSamples r n s).line k = s.line k := by
  have raised : ∀ (t : State) (i u : Nat), (raiseNotice i u t).line k = t.line k := by
    intro t i u
    unfold raiseNotice
    split
    · rfl
    · split
      · rw [requestReport_line, updateSub_line]
      · rfl
  have settled : ∀ (t : State) (left : List Sample), (settleNotice r left t).line k = t.line k := by
    intro t left
    have : ∀ u : State, u = t ∨ u = withdrawReport (.sampleReady r.id r.uid) t → u.line k = t.line k := by
      rintro u (rfl | rfl)
      · rfl
      · exact modifyDelivery_line _ _ _
    unfold settleNotice
    dsimp only
    split
    · rw [updateSub_line]
      split
      · exact modifyDelivery_line _ _ _
      · rfl
    · rw [raised, updateSub_line]
      split
      · exact modifyDelivery_line _ _ _
      · rfl
  unfold takeSamples
  rw [settled]
  cases k <;> rfl

theorem requeueOwner_line (s : State) (r : ReportRequest) (k : LineId) :
    (requeueOwner s r).line k = s.line k := by
  unfold requeueOwner
  split <;> first | exact updateTxn_line _ _ _ _ | exact updateSub_line _ _ _ _ _ | rfl

theorem attachLink_line (start : Byte) (timeout : Nat) (s : State) (k : LineId) :
    (attachLink start timeout s).line k = s.line k := by
  have hfold : ∀ (xs : List ReportRequest) (t : State), (xs.foldl requeueOwner t).line k = t.line k := by
    intro xs
    induction xs with
    | nil => exact fun _ => rfl
    | cons r rest ih => exact fun t => (ih _).trans (requeueOwner_line _ _ _)
  unfold attachLink handBackWindow
  dsimp only
  rw [modifyLink_line, modifyDelivery_line, hfold, modifyLink_line]

theorem addNode_line (l : LineId) (address : Nat) (s : State) (k : LineId) :
    (addNode l address s).line k =
      (s.modifyLine l fun x => { x with nodes := insertNode (newNode address s.nextUid) x.nodes }).line k :=
  line_eq rfl rfl k

theorem submitTxn_line (f : SubmitFields) (s : State) (k : LineId) :
    (submitTxn f s).line k =
      (s.modifyLine f.line fun x => { x with txnQueue := x.txnQueue ++ [f.reference] }).line k :=
  line_eq rfl rfl k

theorem service_nodes {run : Service} (hr : RequestService run) {s : State}
    (h : ∀ k, NodesSound (s.line k)) (p : List Byte) : ∀ k, NodesSound ((run p s).1.line k) := by
  have quiet : ∀ {t : State}, (∀ k, SameTables (s.line k) (t.line k)) → ∀ k, NodesSound (t.line k) :=
    fun ht k => (h k).congr (ht k).nodes (ht k).config
  have initial : ∀ x : Line, x.nodes = [] → x.config = Config.defaultLine → NodesSound x := by
    intro x hn hc
    exact ⟨by rw [hc]; decide, by simp [hn], by simp [hn], by simp [hn], by simp [hn]⟩
  cases hr with
  | hello =>
    unfold runHello
    dsimp only
    split
    · intro k
      show NodesSound ((attachLink _ _ s).line k)
      rw [attachLink_line]
      exact h k
    · exact h
  | restart periodsA periodsB =>
    unfold runRestart answerOk restartAll
    have hk : ∀ l (t : State), (∀ k, NodesSound (t.line k)) → ∀ k, NodesSound ((endBreak l t).line k) := by
      intro l t ht
      refine bothLines ht (endBreak_work l t) ?_
      unfold endBreak
      split
      · exact (nodesKeep l).releaseDriver (ht l)
      all_goals exact ht l
    refine hk _ _ (hk _ _ ?_)
    intro k
    cases k <;> exact initial _ rfl rfl
  | lineSet =>
    refine onLine_keeps (P := fun t => ∀ k, NodesSound (t.line k)) h fun l => ?_
    split
    · exact h
    · split
      · exact h
      · rename_i c hc
        have hw : ∀ k, k ≠ l → (setConfig l c s).line k = s.line k := by
          intro k hk
          unfold setConfig
          rw [(nodesToPending_work (l := l) _ _).other k hk, modifyLine_line_other _ _ hk]
        exact bothLines_modify h hw (setConfig_sound (h l) (configOf_threshold hc))
  | lineStart =>
    refine onLine_keeps (P := fun t => ∀ k, NodesSound (t.line k)) h fun l => ?_
    split
    · exact bothLines h (startLine_work l s) ((nodesKeep l).checkStuck ((nodesKeep l).startRound
        ((nodesKeep l).pending _ ((nodesKeep l).changeLineState (h l) _ _))))
    · exact h
  | lineStop =>
    refine onLine_keeps (P := fun t => ∀ k, NodesSound (t.line k)) h fun l => ?_
    refine bothLines h (stopLine_work l _ s) ?_
    have k := nodesKeep l
    unfold stopLine
    have hs : NodesSound ((if (field p 1 != 0) = true then purgeLine l s else s).line l) := by
      split
      · exact k.purge (h l)
      · exact h l
    dsimp only
    revert hs
    generalize (if (field p 1 != 0) = true then purgeLine l s else s) = t
    intro hs
    have stopping : ∀ t : State, NodesSound (t.line l) → NodesSound ((enterStopping l (field p 1 != 0) t).line l) :=
      fun t ht => k.changeLineState (k.quiet ht _) _ _
    split
    · exact hs
    · split
      · exact k.enterStopped hs
      · exact stopping _ hs
    · split
      · exact stopping _ hs
      · exact k.enterStopped hs
    · split
      · exact stopping _ hs
      · exact k.enterStopped hs
    · exact k.quiet hs _
  | lineResync =>
    refine onLine_keeps (P := fun t => ∀ k, NodesSound (t.line k)) h fun l => ?_
    have hr : ∀ k, NodesSound ((requestResync l s).line k) :=
      bothLines h (modifySched_work s _) ((nodesKeep l).sched (h l) _)
    split <;> first | exact hr | exact h
  | lineQuery => exact onLine_keeps (P := fun t => ∀ k, NodesSound (t.line k)) h fun l => h
  | nodeAdd =>
    refine onNode_keeps (P := fun t => ∀ k, NodesSound (t.line k)) h fun l n hn => ?_
    split
    · exact h
    · rename_i hf
      have hw : ∀ k, k ≠ l → (addNode l n s).line k = s.line k := by
        intro k hk
        rw [addNode_line, modifyLine_line_other _ _ hk]
      exact bothLines_modify h hw (addNode_sound (h l) hn (by simpa using hf))
  | nodeRemove =>
    refine onNode_keeps (P := fun t => ∀ k, NodesSound (t.line k)) h fun l n hn => ?_
    split
    · exact h
    · rename_i m _
      split
      · have hw : ∀ k, k ≠ l → (removeNode l m s).line k = s.line k := by
          intro k hk
          unfold removeNode withdrawReport
          rw [modifyDelivery_line, modifyLine_line_other _ _ hk]
        exact bothLines_modify h hw (removeNode_sound (h l))
      · exact h
  | nodeQuery =>
    refine onNode_keeps (P := fun t => ∀ k, NodesSound (t.line k)) h fun l n _ => ?_
    split <;> exact h
  | subOpen =>
    unfold runSubOpen
    split
    · exact h
    · unfold judgeOpen
      split
      · exact h
      · split
        · exact h
        · split
          · exact h
          · split
            · exact h
            · split
              · intro k
                rw [line_eq (s := s) (by rfl) (by rfl) k]
                exact h k
              · exact h
  | subClose =>
    unfold runSubClose
    split
    · exact h
    · split
      · exact quiet fun k => closeSub_line _ _ k
      · exact h
  | subFetch =>
    unfold runSubFetch
    split
    · exact h
    · split
      · exact h
      · split
        · intro k
          show NodesSound ((takeSamples _ _ s).line k)
          rw [takeSamples_line]
          exact h k
        · exact h
  | subQuery =>
    unfold runSubQuery
    split <;> exact h
  | txnSubmit =>
    have hsub : ∀ f, ∀ k, NodesSound ((submitTxn f s).line k) := by
      intro f
      have hw : ∀ k, k ≠ f.line → (submitTxn f s).line k = s.line k := by
        intro k hk
        rw [submitTxn_line, modifyLine_line_other _ _ hk]
      refine bothLines_modify h hw ?_
      rw [submitTxn_line, modifyLine_line_same]
      exact (h f.line).congr rfl rfl
    unfold runTxnSubmit
    split
    · exact h
    · unfold judgeSubmit
      split
      · exact h
      · split
        · split
          · exact hsub _
          · exact h
        · split
          · exact h
          · split
            · exact h
            · split
              · exact hsub _
              · exact h
  | txnCancel =>
    unfold runTxnCancel
    split
    · exact h
    · split
      · exact h
      · split
        · intro k
          show NodesSound ((cancelTxn _ s).line k)
          unfold cancelTxn leaveQueue
          rw [completeTxn_line]
          exact bothLines h (modifyLine_quiet s _) (by rw [modifyLine_line_same]; exact (h _).congr rfl rfl) k
        all_goals exact h
  | statsRead =>
    have hcount : ∀ (l : LineId) (k : LineId), NodesSound ((s.countLine l fun _ => LineCounters.zero).line k) := by
      intro l k
      by_cases hk : k = l
      · subst hk; simp only [countLine_modifyLine, modifyLine_line_same]; exact (h k).congr rfl rfl
      · simp only [countLine_modifyLine, modifyLine_line_other _ _ hk]; exact h k
    have hnode : ∀ (l : LineId) (a u k), NodesSound
        ((updateNode l a u (fun n => { n with counters := NodeCounters.zero }) s).line k) := by
      intro l a u k
      by_cases hk : k = l
      · subst hk
        exact (h k).update a u _ (fun _ => rfl) fun m hm _ _ =>
          ⟨((h k).fits hm).range, ((h k).fits hm).count, ((h k).fits hm).profile⟩
      · unfold updateNode
        rw [modifyLine_line_other _ _ hk]
        exact h k
    unfold runStatsRead
    dsimp only
    split
    · exact h
    · split
      · refine onLine_keeps (P := fun t => ∀ k, NodesSound (t.line k)) h fun l => ?_
        unfold readLineStats answerOk
        dsimp only
        split
        · exact hcount l
        · exact h
      · split
        · refine onLine_keeps (P := fun t => ∀ k, NodesSound (t.line k)) h fun l => ?_
          split
          · unfold readNodeStats
            split
            · exact h
            · unfold answerOk
              dsimp only
              split
              · exact hnode l _ _
              · exact h
          · exact h
        · unfold readLinkStats answerOk
          dsimp only
          split
          · intro k; rw [countLink_modifyLink, modifyLink_line]; exact h k
          · exact h
  | unknown => exact h

theorem takeRequest_nodes {accepts : Byte → Bool} {run : Service} (hr : RequestService run) {s : State}
    (h : ∀ k, NodesSound (s.line k)) : ∀ k, NodesSound ((takeRequest accepts run s).line k) := by
  refine takeRequest_keeps (P := fun t => ∀ k, NodesSound (t.line k)) h
    (fun m rest _ _ k => by rw [modifyLink_line]; exact h k) ?_
    (fun m t ht _ k => by rw [(queueResponse_deliveryWork m t).lines]; exact ht k)
    (fun t f ht k => by rw [countLink_modifyLink, modifyLink_line]; exact ht k)
  intro m rest _ _ _ ht k
  rw [(completeRequest_deliveryWork m _).lines]
  exact service_nodes hr ht m.payload k

/-- The clock leaves the nodes, the configuration, the transaction queue, the engine's state and order
and the driver alone. -/
theorem clkTick_line (s : State) (k : LineId) :
    SameTables (s.line k) ((clkTick s).line k) ∧
      ((clkTick s).line k).engine.order = (s.line k).engine.order := by
  have ht : ∀ x : Line, SameTables x (clkTickLine x) ∧ (clkTickLine x).engine.order = x.engine.order := by
    intro x
    unfold clkTickLine
    dsimp only
    split <;> exact ⟨⟨rfl, rfl, rfl⟩, rfl⟩
  unfold clkTick
  dsimp only
  split
  · exact ⟨⟨rfl, rfl, rfl⟩, rfl⟩
  · split
    · cases k <;> exact ht _
    · cases k
      · exact ⟨⟨(ht s.lineA).1.nodes, (ht s.lineA).1.config, (ht s.lineA).1.txnQueue⟩, (ht s.lineA).2⟩
      · exact ⟨⟨(ht s.lineB).1.nodes, (ht s.lineB).1.config, (ht s.lineB).1.txnQueue⟩, (ht s.lineB).2⟩

end Sys2Proof.Machine
end

