-- ==== Sys2Proof/Laws/LineState.lean ====
section
/-! SUPPORT. What the operations of one line do to the line as a value: the changes of line state, the
verdicts and the entries to PENDING. -/

namespace Sys2Proof.Machine

open Sys2Proof

/-- Node records and poll list may change; an empty poll list stays empty. -/
def TableChange (x y : Line) : Prop :=
  ∃ nodes polls, y = { x with nodes := nodes, sched := { x.sched with pollList := polls } } ∧
    (x.sched.pollList = [] → polls = [])

theorem TableChange.refl (x : Line) : TableChange x x := ⟨x.nodes, x.sched.pollList, rfl, id⟩

theorem TableChange.trans {x y z : Line} (h : TableChange x y) (k : TableChange y z) : TableChange x z := by
  obtain ⟨n, p, rfl, hp⟩ := h
  obtain ⟨m, q, rfl, hq⟩ := k
  exact ⟨m, q, rfl, fun h => hq (hp h)⟩

theorem requestReport_change (r : ReportRequest) (s : State) (l : LineId) :
    TableChange (s.line l) ((requestReport r s).line l) := by
  rw [requestReport_line]; exact .refl _

theorem updateNode_change (l : LineId) (address uid : Nat) (f : NodeRecord → NodeRecord) (s : State) :
    TableChange (s.line l) ((updateNode l address uid f s).line l) := by
  unfold updateNode
  rw [modifyLine_line_same]
  exact ⟨_, (s.line l).sched.pollList, rfl, id⟩

theorem suspendSubs_change (l : LineId) (address : Nat) (s : State) :
    TableChange (s.line l) ((suspendSubs l address s).line l) := by
  unfold suspendSubs prunePolls
  dsimp only
  rw [modifySched_modifyLine, modifyLine_line_same]
  have hl : ∀ subs, ({ s with subs := subs } : State).line l = s.line l := fun _ => line_eq rfl rfl l
  simp only [hl]
  exact ⟨(s.line l).nodes, _, rfl, fun h => by rw [h]; rfl⟩

theorem nodeToPending_change (l : LineId) (n : NodeRecord) (s : State) :
    TableChange (s.line l) ((nodeToPending l n s).line l) :=
  ((updateNode_change _ _ _ _ s).trans (requestReport_change _ _ _)).trans (suspendSubs_change _ _ _)

theorem nodesToPending_change (l : LineId) (test : NodeRecord → Bool) (s : State) :
    TableChange (s.line l) ((nodesToPending l test s).line l) := by
  unfold nodesToPending
  generalize (s.line l).nodes.filter test = ns
  induction ns generalizing s with
  | nil => exact .refl _
  | cons n rest ih => exact (nodeToPending_change l n s).trans (ih _)

theorem takeNodeVerdict_change (l : LineId) (v : VerdictRecord) (s : State) :
    TableChange (s.line l) ((takeNodeVerdict l v s).line l) := by
  have answered : ∀ (n : NodeRecord) (flip : Bool) (t : State),
      TableChange (t.line l) ((nodeAnswered l n flip t).line l) := by
    intro n flip t
    unfold nodeAnswered
    dsimp only
    split
    · exact (updateNode_change _ _ _ _ t).trans (requestReport_change _ _ _)
    · exact updateNode_change _ _ _ _ t
  have failed : ∀ (n : NodeRecord) (t : State), TableChange (t.line l) ((nodeFailed l n t).line l) := by
    intro n t
    unfold nodeFailed
    dsimp only
    split
    · exact ((updateNode_change _ _ _ _ t).trans (requestReport_change _ _ _)).trans (suspendSubs_change _ _ _)
    · split
      · exact (updateNode_change _ _ _ _ t).trans (requestReport_change _ _ _)
      · exact updateNode_change _ _ _ _ t
  unfold takeNodeVerdict
  split
  · split
    · exact .refl _
    · rename_i n _
      refine (updateNode_change l n.address n.uid (fun n => { n with
        lastVerdict := some v.result.verdict, lastRound := some v.order.round
        counters := countNode v n.counters }) s).trans ?_
      generalize updateNode l n.address n.uid _ s = t
      unfold actOnVerdict
      split
      · split
        · split
          · exact .refl _
          · unfold nodeOnline
            rw [recheckSubs_line]
            exact (updateNode_change _ _ _ _ t).trans (requestReport_change _ _ _)
        · exact .refl _
      all_goals try exact .refl _
      all_goals
        split
        · split <;> first
            | exact answered _ _ _ | exact failed _ _ | exact .refl _
        · exact .refl _
  · exact .refl _

theorem changeLineState_line (l : LineId) (state : LineState) (cause : Cause) (s : State) :
    (changeLineState l state cause s).line l = { s.line l with lineState := state, cause := cause } := by
  unfold changeLineState
  rw [requestReport_line, modifyLine_line_same]

/-- A line that has entered STOPPED. -/
def stoppedLine (x : Line) : Line :=
  { x with
    lineState := .stopped, cause := .request, purgePending := false, holdoffTimer := .stopped
    idleWait := .stopped, sched := stopScheduler x.sched
    txnQueue := if x.purgePending then [] else x.txnQueue }

theorem enterStopped_line (l : LineId) (s : State) : (enterStopped l s).line l = stoppedLine (s.line l) := by
  unfold enterStopped
  dsimp only
  rw [modifyLine_line_same]
  split
  · rename_i h
    rw [purgeLine_line, changeLineState_line]
    rw [changeLineState_line] at h
    have h : (s.line l).purgePending = true := h
    simp only [stoppedLine, h, if_true]
  · rename_i h
    rw [changeLineState_line] at h ⊢
    have h : ¬ (s.line l).purgePending = true := h
    simp only [stoppedLine, h]
    simp

/-- A line that has entered FAULT. -/
def faultLine (cause : Cause) (x : Line) : Line :=
  { x with
    lineState := .fault, cause := cause, holdoffTimer := .stopped
    sched := { x.sched with roundTimer := .stopped } }

theorem enterFault_line (l : LineId) (cause : Cause) (s : State) :
    (enterFault l cause s).line l = faultLine cause (s.line l) := by
  unfold enterFault
  rw [modifyLine_line_same, changeLineState_line]
  rfl

theorem schedulerTake_line (l : LineId) (v : VerdictRecord) (s : State) :
    ∃ count, (schedulerTake l v s).line l =
      { s.line l with sched := { (s.line l).sched with contentionCount := count } } := by
  unfold schedulerTake
  split
  · rw [modifySched_modifyLine, modifyLine_line_same]; exact ⟨_, rfl⟩
  · exact ⟨_, rfl⟩

/-- What the last step of a delivery makes of the line. -/
theorem lineControlTake_line (l : LineId) (v : Verdict) (stuck : Bool) (s : State) :
    (lineControlTake l v stuck s).line l = s.line l ∨
    ((s.line l).lineState = .stopping ∧ (lineControlTake l v stuck s).line l = stoppedLine (s.line l)) ∨
    ((s.line l).lineState = .running ∧
      ((lineControlTake l v stuck s).line l = { s.line l with lineState := .holdoff, cause := .contention } ∨
        ∃ cause, (lineControlTake l v stuck s).line l = faultLine cause (s.line l))) := by
  unfold lineControlTake
  split
  · rename_i hl
    split
    · exact .inl rfl
    · exact .inr (.inl ⟨hl, enterStopped_line l s⟩)
  · rename_i hl
    split
    · split
      · exact .inr (.inr ⟨hl, .inl (changeLineState_line _ _ _ _)⟩)
      · exact .inr (.inr ⟨hl, .inr ⟨_, enterFault_line _ _ _⟩⟩)
    · split
      · exact .inr (.inr ⟨hl, .inr ⟨_, enterFault_line _ _ _⟩⟩)
      · exact .inl rfl
  all_goals exact .inl rfl

theorem breakEnded_change (l : LineId) (duration : Nat) (s : State) :
    TableChange (s.line l) ((breakEnded l duration s).line l) := by
  unfold breakEnded resetToggles
  split
  · rw [modifyLine_line_same]
    exact ⟨_, (s.line l).sched.pollList, rfl, id⟩
  · exact .refl _

/-- A low period ended at an assertion of the driver (R133). -/
theorem endLowPeriod_line (l : LineId) (s : State) :
    ∃ nodes seen, (endLowPeriod l s).line l =
      { s.line l with
        nodes := nodes, engine := { (s.line l).engine with breakSeen := seen }
        port := { (s.line l).port with inBreak := none, stuck := false, lowTime := 0, lowPhase := 0 } } := by
  unfold endLowPeriod
  dsimp only
  rw [modifyPort_modifyLine, modifyLine_line_same]
  split
  · exact ⟨(s.line l).nodes, (s.line l).engine.breakSeen, rfl⟩
  · rw [modifyEngine_modifyLine, modifyLine_line_same]
    unfold breakEnded resetToggles
    split
    · rw [modifyLine_line_same]
      exact ⟨_, _, rfl⟩
    · exact ⟨(s.line l).nodes, _, rfl⟩

end Sys2Proof.Machine
end

