-- ==== Sys2Proof/Laws/Receiver.lean ====
section
/-! SUPPORT. What a sample period can do to a Line Port: the receiver leaves the transmitter, the driver, the input
alone, and the divider but for a new start at a change of rate (R126), and the transmitter goes on with what it was sending. -/

namespace Sys2Proof.Machine

open Sys2Proof

/-- What the receiver never touches, but for a new start of the divider. -/
structure ReceiverWork (p q : LinePort) : Prop where
  input : q.input = p.input
  tx : q.tx = p.tx
  driverEnable : q.driverEnable = p.driverEnable
  divider : q.divider = p.divider ∨ q.divider = 0

namespace ReceiverWork

theorem refl (p : LinePort) : ReceiverWork p p := ⟨rfl, rfl, rfl, .inl rfl⟩

theorem trans {p q r : LinePort} (h : ReceiverWork p q) (k : ReceiverWork q r) : ReceiverWork p r :=
  ⟨k.input.trans h.input, k.tx.trans h.tx, k.driverEnable.trans h.driverEnable,
    k.divider.elim (fun e => h.divider.imp e.trans e.trans) .inr⟩

theorem after {p q r : LinePort} (k : ReceiverWork q r) (h : ReceiverWork p q) : ReceiverWork p r := h.trans k

end ReceiverWork

theorem beginCharacter_work (echo : Bool) (p : LinePort) : ReceiverWork p (beginCharacter echo p) := by
  unfold beginCharacter
  dsimp only
  split <;> exact ⟨rfl, rfl, rfl, .inl rfl⟩

theorem endCharacter_work (echo : Bool) (p : LinePort) : ReceiverWork p (endCharacter echo p) := by
  unfold endCharacter
  split
  · exact .refl _
  · split
    · dsimp only
      split <;> exact ⟨rfl, rfl, rfl, .inl rfl⟩
    · exact ⟨rfl, rfl, rfl, .inl rfl⟩

theorem reachDeadline_work (p : LinePort) : ReceiverWork p (reachDeadline p) := by
  unfold reachDeadline
  split <;> exact ⟨rfl, rfl, rfl, .inl rfl⟩

theorem countLow_work (level : PinLevel) (p : LinePort) : ReceiverWork p (countLow level p) := by
  unfold countLow
  split
  · exact ⟨rfl, rfl, rfl, .inl rfl⟩
  · split <;> exact ⟨rfl, rfl, rfl, .inl rfl⟩

theorem detectBreak_work (p : LinePort) : ReceiverWork p (detectBreak p) := by
  unfold detectBreak
  dsimp only
  split <;> exact ⟨rfl, rfl, rfl, .inl rfl⟩

theorem decideCharacter_work (echo : Bool) (p : LinePort) : ReceiverWork p (decideCharacter echo p) := by
  unfold decideCharacter
  split
  · exact detectBreak_work p
  · exact ⟨rfl, rfl, rfl, .inl rfl⟩

theorem withRate_work (rate : BitRate) (p : LinePort) : ReceiverWork p (p.withRate rate) := by
  refine ⟨rfl, rfl, rfl, ?_⟩
  unfold LinePort.withRate
  dsimp only
  split
  · exact .inl rfl
  · exact .inr rfl

theorem qualifyStart_work (configured : BitRate) (noisy : Bool) (p : LinePort) :
    ReceiverWork p (qualifyStart configured noisy p) :=
  have h := withRate_work (if p.tx = .idle then configured else p.rate) p
  ⟨rfl, rfl, rfl, h.divider⟩

theorem decideBit_work (configured : BitRate) (echo : Bool) (votes : List PinLevel) (p : LinePort) :
    ReceiverWork p (decideBit configured echo votes p) := by
  unfold decideBit
  split
  · split
    · exact ⟨rfl, rfl, rfl, .inl rfl⟩
    · exact qualifyStart_work _ _ _
  · dsimp only
    split
    · exact (decideCharacter_work _ _).after ⟨rfl, rfl, rfl, .inl rfl⟩
    · exact ⟨rfl, rfl, rfl, .inl rfl⟩

theorem bitSample_work (configured : BitRate) (echo : Bool) (level : PinLevel) (p : LinePort) :
    ReceiverWork p (bitSample configured echo level p) := by
  unfold bitSample
  dsimp only
  split
  · exact ⟨rfl, rfl, rfl, .inl rfl⟩
  · split
    · exact (decideBit_work _ _ _ _).after ⟨rfl, rfl, rfl, .inl rfl⟩
    · exact ⟨rfl, rfl, rfl, .inl rfl⟩

theorem endMeasuredBreak_work (level : PinLevel) (p : LinePort) : ReceiverWork p (endMeasuredBreak level p) := by
  unfold endMeasuredBreak
  split <;> exact ⟨rfl, rfl, rfl, .inl rfl⟩

theorem receive_work (configured : BitRate) (echo : Bool) (level : PinLevel) (edge : Bool) (p : LinePort) :
    ReceiverWork p (receive configured echo level edge p) := by
  unfold receive
  split
  · split
    · exact beginCharacter_work _ _
    · exact .refl _
  · exact (bitSample_work _ _ _ _).after (endMeasuredBreak_work _ _)
  · exact (bitSample_work _ _ _ _).after (endMeasuredBreak_work _ _)
  · split
    · exact ⟨rfl, rfl, rfl, .inl rfl⟩
    · exact .refl _
  · exact .refl _

theorem findStuck_work (p : LinePort) : ReceiverWork p (findStuck p) := by
  unfold findStuck
  split <;> exact ⟨rfl, rfl, rfl, .inl rfl⟩

theorem restartForEcho_work (p : LinePort) : ReceiverWork p (restartForEcho p) := by
  unfold restartForEcho
  split <;> exact ⟨rfl, rfl, rfl, .inl rfl⟩

theorem takeSample_work (configured : BitRate) (echoCheck : Bool) (level : PinLevel) (p : LinePort) :
    ReceiverWork p (takeSample configured echoCheck level p) := by
  refine (findStuck_work _).after ((receive_work _ _ _ _ _).after ((countLow_work _ _).after ?_))
  split
  · exact restartForEcho_work p
  · exact .refl _

/-- The transmitter goes on with what it was sending. -/
inductive TransmitGoesOn : Transmitter → Transmitter → Prop
  | idle : TransmitGoesOn .idle .idle
  | frame (chars : List (BitVec 9)) (position : Nat) (more : List (BitVec 9)) (next : Nat) (finishing : Bool) :
    TransmitGoesOn (.frame chars position finishing) (.frame more next finishing)
  | sendingBreak (jam : Bool) (left next : Nat) : TransmitGoesOn (.sendingBreak jam left) (.sendingBreak jam next)

theorem sendPeriod_goesOn (p : LinePort) :
    TransmitGoesOn p.tx (sendPeriod p).tx ∧ (sendPeriod p).driverEnable = p.driverEnable := by
  unfold sendPeriod
  split
  · rename_i h
    rw [h]
    exact ⟨.frame _ _ _ _ _, rfl⟩
  · rename_i h
    dsimp only
    rw [h]
    exact ⟨.idle, rfl⟩
  · rename_i h
    dsimp only
    rw [h]
    exact ⟨.sendingBreak _ _ _, rfl⟩

/-- One sample period of the port leaves the kind of what it sends, and the driver. -/
theorem samplePort_goesOn (configured : BitRate) (echoCheck : Bool) (level : PinLevel) (p : LinePort) :
    TransmitGoesOn p.tx (samplePort configured echoCheck level p).tx ∧
      (samplePort configured echoCheck level p).driverEnable = p.driverEnable := by
  have h : ∀ q, ReceiverWork { p with input := level } q →
      TransmitGoesOn p.tx (sendPeriod q).tx ∧ (sendPeriod q).driverEnable = p.driverEnable := by
    intro q hq
    have hs := sendPeriod_goesOn q
    rwa [hq.tx, hq.driverEnable] at hs
  unfold samplePort
  dsimp only
  apply h
  have hq := (reachDeadline_work _).after (endCharacter_work (echoing echoCheck p) { p with input := level })
  split
  · exact hq
  · exact (takeSample_work _ _ _ _).after hq

end Sys2Proof.Machine
end

