-- ==== Sys2Proof/Laws/Exchange.lean ====
section
/-! SUPPORT. What every event of a line does to the relation between the line's state, its exchange and
its transmitter. -/

namespace Sys2Proof.Machine

open Sys2Proof

/-- `LineSound` without its two clauses on the transmitter and the driver. -/
structure ExchangeSound (x : Line) : Prop where
  order : x.engine.order = none ↔ x.engine.state = .idle
  exchange : x.engine.state ≠ .idle → x.lineState = .running ∨ x.lineState = .stopping
  reply : x.engine.state ≠ .idle → x.engine.state ≠ .sending →
    ∀ o, x.engine.order = some o → isAddressed o.kind = true
  window : x.engine.window ≠ .stopped → x.engine.state = .awaiting
  gap : x.engine.gap ≠ .stopped → x.engine.state = .receiving
  settling : x.engine.settling ≠ .stopped → x.engine.state = .settling
  breakHold : x.engine.breakHold = true → x.engine.state = .awaiting ∨ x.engine.state = .receiving
  holdoff : x.holdoffTimer ≠ .stopped → x.lineState = .holdoff
  idleWait : x.idleWait ≠ .stopped → x.lineState = .fault
  purge : x.purgePending = true → x.lineState = .stopping
  stopped : x.lineState = .stopped →
    x.sched.roundTimer = .stopped ∧ x.sched.pollList = [] ∧ x.sched.resyncRequest = false
  fault : x.lineState = .fault → x.sched.roundTimer = .stopped

/-- The two clauses on the transmitter and the driver. -/
structure PortFits (x : Line) : Prop where
  transmit : transmitFits x.engine x.port.tx
  driver : x.port.driverEnable = true ↔ x.port.tx ≠ .idle

theorem LineSound.exchangeSound {x : Line} (h : LineSound x) : ExchangeSound x :=
  ⟨h.order, h.exchange, h.reply, h.window, h.gap, h.settling, h.breakHold, h.holdoff, h.idleWait, h.purge, h.stopped,
    h.fault⟩

theorem LineSound.portFits {x : Line} (h : LineSound x) : PortFits x := ⟨h.transmit, h.driver⟩

theorem LineSound.of_parts {x : Line} (h : ExchangeSound x) (k : PortFits x) : LineSound x :=
  ⟨h.order, h.exchange, h.reply, h.window, h.gap, h.settling, h.breakHold, k.transmit, k.driver, h.holdoff,
    h.idleWait, h.purge, h.stopped, h.fault⟩

/-- What the transmitter does rests on the engine's state and order alone. -/
theorem transmitFits_congr {e f : Engine} {tx : Transmitter} (h : transmitFits e tx) (hs : f.state = e.state)
    (ho : f.order = e.order) : transmitFits f tx := by
  unfold transmitFits at *
  split <;> simp_all

theorem PortFits.congr {x y : Line} (h : PortFits x) (hs : y.engine.state = x.engine.state)
    (ho : y.engine.order = x.engine.order) (ht : y.port.tx = x.port.tx)
    (hd : y.port.driverEnable = x.port.driverEnable) : PortFits y :=
  ⟨ht ▸ transmitFits_congr h.transmit hs ho, by rw [hd, ht]; exact h.driver⟩

/-- A part that transmits nothing and is not SENDING. -/
theorem PortFits.quiet {x : Line} (hs : x.engine.state ≠ .sending) (ht : x.port.tx = .idle)
    (hd : x.port.driverEnable = false) : PortFits x := by
  refine ⟨?_, by simp [ht, hd]⟩
  rw [ht]
  exact hs

/-- Outside SENDING and IDLE nothing is transmitted. -/
theorem PortFits.silent {x : Line} (h : PortFits x) (h1 : x.engine.state ≠ .sending)
    (h2 : x.engine.state ≠ .idle) : x.port.tx = .idle ∧ x.port.driverEnable = false := by
  have ht := h.transmit
  have htx : x.port.tx = .idle := by
    unfold transmitFits at ht
    split at ht <;> simp_all
  refine ⟨htx, ?_⟩
  rcases hd : x.port.driverEnable with _ | _
  · rfl
  · exact absurd htx (h.driver.1 hd)

theorem ExchangeSound.congr {x y : Line} (h : ExchangeSound x)
    (h1 : y.lineState = x.lineState := by rfl)
    (h2 : y.engine.order = x.engine.order := by rfl)
    (h3 : y.engine.state = x.engine.state := by rfl)
    (h4 : y.engine.window ≠ .stopped → x.engine.window ≠ .stopped := by exact id)
    (h5 : y.engine.gap ≠ .stopped → x.engine.gap ≠ .stopped := by exact id)
    (h6 : y.engine.settling ≠ .stopped → x.engine.settling ≠ .stopped := by exact id)
    (h7 : y.engine.breakHold = true → x.engine.breakHold = true := by exact id)
    (h8 : y.holdoffTimer ≠ .stopped → x.holdoffTimer ≠ .stopped := by exact id)
    (h9 : y.idleWait ≠ .stopped → x.idleWait ≠ .stopped := by exact id)
    (h10 : y.purgePending = true → x.purgePending = true := by exact id)
    (h11 : x.sched.roundTimer = .stopped → y.sched.roundTimer = .stopped := by exact id)
    (h12 : x.sched.pollList = [] → y.sched.pollList = [] := by exact id)
    (h13 : x.sched.resyncRequest = false → y.sched.resyncRequest = false := by exact id) :
    ExchangeSound y where
  order := by rw [h2, h3]; exact h.order
  exchange := by rw [h3, h1]; exact h.exchange
  reply := by rw [h2, h3]; exact h.reply
  window := fun hw => h3 ▸ h.window (h4 hw)
  gap := fun hw => h3 ▸ h.gap (h5 hw)
  settling := fun hw => h3 ▸ h.settling (h6 hw)
  breakHold := fun hw => by rw [h3]; exact h.breakHold (h7 hw)
  holdoff := fun hw => h1 ▸ h.holdoff (h8 hw)
  idleWait := fun hw => h1 ▸ h.idleWait (h9 hw)
  purge := fun hw => h1 ▸ h.purge (h10 hw)
  stopped := fun hw => by
    obtain ⟨a, b, c⟩ := h.stopped (h1 ▸ hw)
    exact ⟨h11 a, h12 b, h13 c⟩
  fault := fun hw => h11 (h.fault (h1 ▸ hw))

theorem ExchangeSound.change {x y : Line} (h : ExchangeSound x) (hc : TableChange x y) : ExchangeSound y := by
  obtain ⟨n, p, rfl, hp⟩ := hc
  exact h.congr (h12 := hp)

theorem PortFits.change {x y : Line} (h : PortFits x) (hc : TableChange x y) : PortFits y := by
  obtain ⟨n, p, rfl, -⟩ := hc
  exact h.congr rfl rfl rfl rfl

/-- In RUNNING only the engine's clauses and the absence of the timers of Line Control are left. -/
theorem ExchangeSound.atRunning {x y : Line} (h : ExchangeSound x) (hy : y.lineState = .running)
    (he : y.engine = x.engine) (hh : y.holdoffTimer = .stopped) (hi : y.idleWait = .stopped)
    (hp : y.purgePending = false) : ExchangeSound y where
  order := he ▸ h.order
  exchange := fun _ => .inl hy
  reply := he ▸ h.reply
  window := he ▸ h.window
  gap := he ▸ h.gap
  settling := he ▸ h.settling
  breakHold := he ▸ h.breakHold
  holdoff := by simp [hh]
  idleWait := by simp [hi]
  purge := by simp [hp]
  stopped := by simp [hy]
  fault := by simp [hy]

/-- STOPPED is entered with the engine IDLE. -/
theorem stoppedLine_sound {x : Line} (h : ExchangeSound x) (hi : x.engine.state = .idle) :
    ExchangeSound (stoppedLine x) where
  order := h.order
  exchange := fun hs => absurd hi hs
  reply := h.reply
  window := h.window
  gap := h.gap
  settling := h.settling
  breakHold := h.breakHold
  holdoff := fun hs => absurd rfl hs
  idleWait := fun hs => absurd rfl hs
  purge := fun hs => by simp [stoppedLine] at hs
  stopped := fun _ => ⟨rfl, rfl, rfl⟩
  fault := fun hs => by simp [stoppedLine] at hs

/-- FAULT is entered from RUNNING or HOLDOFF with the engine IDLE. -/
theorem faultLine_sound {x : Line} (h : ExchangeSound x) (cause : Cause) (hi : x.engine.state = .idle)
    (hl : x.lineState = .running ∨ x.lineState = .holdoff) : ExchangeSound (faultLine cause x) where
  order := h.order
  exchange := fun hs => absurd hi hs
  reply := h.reply
  window := h.window
  gap := h.gap
  settling := h.settling
  breakHold := h.breakHold
  holdoff := fun hs => absurd rfl hs
  idleWait := fun _ => rfl
  purge := fun hs => by
    have := h.purge hs
    rcases hl with hl | hl <;> simp [hl] at this
  stopped := fun hs => by simp [faultLine] at hs
  fault := fun _ => rfl

/-- HOLDOFF is entered from RUNNING with the engine IDLE. -/
theorem holdoffLine_sound {x : Line} (h : ExchangeSound x) (hi : x.engine.state = .idle)
    (hl : x.lineState = .running) :
    ExchangeSound { x with lineState := .holdoff, cause := .contention } where
  order := h.order
  exchange := fun hs => absurd hi hs
  reply := h.reply
  window := h.window
  gap := h.gap
  settling := h.settling
  breakHold := h.breakHold
  holdoff := fun _ => rfl
  idleWait := fun hs => by have := h.idleWait hs; simp [hl] at this
  purge := fun hs => by have := h.purge hs; simp [hl] at this
  stopped := fun hs => by simp at hs
  fault := fun hs => by simp at hs

/-! ### Deliveries -/

/-- Line Control leaves the engine and the port alone. -/
theorem lineControlTake_exchange {l : LineId} (v : Verdict) (stuck : Bool) {s : State}
    (h : ExchangeSound (s.line l)) (hi : (s.line l).engine.state = .idle) :
    ExchangeSound ((lineControlTake l v stuck s).line l) := by
  rcases lineControlTake_line l v stuck s with he | ⟨-, he⟩ | ⟨hl, he | ⟨cause, he⟩⟩ <;> rw [he]
  · exact h
  · exact stoppedLine_sound h hi
  · exact holdoffLine_sound h hi hl
  · exact faultLine_sound h cause hi (.inl hl)

theorem lineControlTake_parts (l : LineId) (v : Verdict) (stuck : Bool) (s : State) :
    ((lineControlTake l v stuck s).line l).engine = (s.line l).engine ∧
      ((lineControlTake l v stuck s).line l).port = (s.line l).port := by
  rcases lineControlTake_line l v stuck s with he | ⟨-, he⟩ | ⟨hl, he | ⟨cause, he⟩⟩ <;> rw [he] <;>
    exact ⟨rfl, rfl⟩

theorem deliverVerdict_exchange {l : LineId} (v : VerdictRecord) (stuck : Bool) {s : State}
    (h : ExchangeSound (s.line l)) (hi : (s.line l).engine.state = .idle) :
    ExchangeSound ((deliverVerdict l v stuck s).line l) ∧
      ((deliverVerdict l v stuck s).line l).engine = (s.line l).engine ∧
      ((deliverVerdict l v stuck s).line l).port = (s.line l).port := by
  unfold deliverVerdict
  obtain ⟨queue, ho⟩ := ownerTake_line l v s
  obtain ⟨n, p, hn, hp⟩ := takeNodeVerdict_change l v (ownerTake l v s)
  obtain ⟨count, hc⟩ := schedulerTake_line l v (takeNodeVerdict l v (ownerTake l v s))
  rw [ho] at hn hp
  rw [hn] at hc
  have hx : ExchangeSound ((schedulerTake l v (takeNodeVerdict l v (ownerTake l v s))).line l) := by
    rw [hc]
    exact h.congr (h12 := hp)
  have hparts := lineControlTake_parts l v.result.verdict stuck
    (schedulerTake l v (takeNodeVerdict l v (ownerTake l v s)))
  refine ⟨lineControlTake_exchange _ _ hx (by rw [hc]; exact hi), ?_, ?_⟩
  · rw [hparts.1, hc]
  · rw [hparts.2, hc]

/-- The end of an exchange: the engine is IDLE and the port is as it was. -/
theorem finishExchange_exchange {l : LineId} (r : AttemptResult) (stuck : Bool) {s : State}
    (h : ExchangeSound (s.line l)) :
    ExchangeSound ((finishExchange l r stuck s).line l) ∧
      ((finishExchange l r stuck s).line l).engine.state = .idle ∧
      ((finishExchange l r stuck s).line l).engine.order = none ∧
      ((finishExchange l r stuck s).line l).port = (s.line l).port := by
  unfold finishExchange
  dsimp only
  split
  · rename_i ho
    exact ⟨h, h.order.1 ho, ho, rfl⟩
  · have hi : ExchangeSound ((s.modifyLine l fun x =>
        { x with engine := idleEngine x.engine, counters := countExchange r.verdict x.counters }).line l) := by
      rw [modifyLine_line_same]
      exact ⟨by simp [idleEngine], by simp [idleEngine], by simp [idleEngine], by simp [idleEngine],
        by simp [idleEngine], by simp [idleEngine], by simp [idleEngine], h.holdoff, h.idleWait, h.purge, h.stopped, h.fault⟩
    have he : ((s.modifyLine l fun x =>
        { x with engine := idleEngine x.engine, counters := countExchange r.verdict x.counters }).line l).engine =
        idleEngine (s.line l).engine := by rw [modifyLine_line_same]
    have hp : ((s.modifyLine l fun x =>
        { x with engine := idleEngine x.engine, counters := countExchange r.verdict x.counters }).line l).port =
        (s.line l).port := by rw [modifyLine_line_same]
    generalize (s.modifyLine l fun x =>
      { x with engine := idleEngine x.engine, counters := countExchange r.verdict x.counters }) = t at *
    rename_i o _
    obtain ⟨a, b, c⟩ := deliverVerdict_exchange (l := l)
      { order := o, result := r, framesSent := (s.line l).engine.framesSent
        retries := (s.line l).engine.attempt - startAttempt o.kind } stuck hi (by rw [he]; rfl)
    exact ⟨a, by rw [b, he]; rfl, by rw [b, he]; rfl, by rw [c, hp]⟩

theorem recordAttempt_exchange {l : LineId} (v : Verdict) {s : State} (h : ExchangeSound (s.line l)) :
    ExchangeSound ((recordAttempt l v s).line l) ∧
      ((recordAttempt l v s).line l).engine.state = (s.line l).engine.state ∧
      ((recordAttempt l v s).line l).engine.order = (s.line l).engine.order ∧
      ((recordAttempt l v s).line l).port = (s.line l).port := by
  unfold recordAttempt
  rw [modifyLine_line_same]
  exact ⟨h.congr (h4 := by simp) (h5 := by simp) (h7 := by simp), rfl, rfl, rfl⟩

/-- Only addressed frames are sent again (R34). -/
theorem mayRetry_addressed {k : OrderKind} (h : mayRetry k = true) : isAddressed k = true := by
  cases k <;> simp_all [mayRetry, isAddressed]

/-- The end of an attempt: IDLE, or SETTLING with the same order after a failure; the port is as it was. -/
theorem endAttempt_exchange {l : LineId} (r : AttemptResult) {s : State} (h : ExchangeSound (s.line l)) :
    ExchangeSound ((endAttempt l r s).line l) ∧
      ((endAttempt l r s).line l).port = (s.line l).port ∧
      ((((endAttempt l r s).line l).engine.state = .idle ∧ ((endAttempt l r s).line l).engine.order = none) ∨
        (isFailure r.verdict = true ∧ ((endAttempt l r s).line l).engine.state = .settling ∧
          ((endAttempt l r s).line l).engine.order = (s.line l).engine.order)) := by
  obtain ⟨a, b, c, d⟩ := recordAttempt_exchange r.verdict h
  unfold endAttempt
  dsimp only
  split
  · rename_i ho
    exact ⟨a, d, .inl ⟨by rw [b]; exact h.order.1 ho, by rw [c, ho]⟩⟩
  · rename_i o ho
    split
    · rename_i hr
      have hx : (startSettling l (recordAttempt l r.verdict s)).line l =
          { (recordAttempt l r.verdict s).line l with
            engine := { ((recordAttempt l r.verdict s).line l).engine with
              state := .settling, settling := .running Config.twoCharacters } } := by
        unfold startSettling
        rw [modifyEngine_modifyLine, modifyLine_line_same]
      rw [hx]
      have hne : (s.line l).engine.state ≠ .idle := by
        intro hi
        have := h.order.2 hi
        simp [ho] at this
      have hl := h.exchange hne
      have hrl : (recordAttempt l r.verdict s).line l =
          { s.line l with
            engine := { (s.line l).engine with
              lastVerdict := some r.verdict, window := .stopped, gap := .stopped, breakHold := false }
            counters := countAttempt r.verdict (s.line l).counters } := by
        unfold recordAttempt; rw [modifyLine_line_same]
      rw [hrl]
      have hrep : ∀ (h1 : ExchangeState.settling ≠ .idle) (h2 : ExchangeState.settling ≠ .sending),
          ∀ o', (s.line l).engine.order = some o' → isAddressed o'.kind = true := by
        intro _ _ o' ho'
        rw [ho] at ho'
        injection ho' with ho'
        subst ho'
        simp only [retryFollows, Bool.and_eq_true] at hr
        exact mayRetry_addressed hr.1.1.2
      refine ⟨?_, rfl, .inr ⟨?_, rfl, rfl⟩⟩
      · exact ⟨by simp [ho], fun _ => hl, hrep, by simp, by simp, by simp, by simp, h.holdoff, h.idleWait, h.purge,
          h.stopped, h.fault⟩
      · simp only [retryFollows, Bool.and_eq_true] at hr
        exact hr.1.1.1
    · obtain ⟨e, f, g, i⟩ := finishExchange_exchange r false a
      exact ⟨e, i.trans d, .inl ⟨f, g⟩⟩

/-- An attempt that ends while nothing is sent. -/
theorem endAttempt_sound {l : LineId} (r : AttemptResult) {s : State} (h : ExchangeSound (s.line l))
    (ht : (s.line l).port.tx = .idle) (hd : (s.line l).port.driverEnable = false) :
    LineSound ((endAttempt l r s).line l) := by
  obtain ⟨a, b, c⟩ := endAttempt_exchange r h
  refine .of_parts a (.quiet ?_ (by rw [b]; exact ht) (by rw [b]; exact hd))
  rcases c with ⟨c, -⟩ | ⟨-, c, -⟩ <;> simp [c]

theorem finishExchange_sound {l : LineId} (r : AttemptResult) (stuck : Bool) {s : State}
    (h : ExchangeSound (s.line l)) (ht : (s.line l).port.tx = .idle)
    (hd : (s.line l).port.driverEnable = false) : LineSound ((finishExchange l r stuck s).line l) := by
  obtain ⟨a, b, -, d⟩ := finishExchange_exchange r stuck h
  exact .of_parts a (.quiet (by simp [b]) (by rw [d]; exact ht) (by rw [d]; exact hd))

/-! ### The driver -/

theorem endLowPeriod_exchange {l : LineId} {s : State} (h : ExchangeSound (s.line l)) :
    ExchangeSound ((endLowPeriod l s).line l) := by
  obtain ⟨n, b, he⟩ := endLowPeriod_line l s
  rw [he]
  exact h.congr

theorem sendFrame_line (l : LineId) (chars : List (BitVec 9)) (s : State) :
    ((sendFrame l chars s).line l).port.tx = .frame chars 0 false ∧
      ((sendFrame l chars s).line l).port.driverEnable = true := by
  unfold sendFrame
  rw [modifyLine_line_same]
  exact ⟨rfl, rfl⟩

/-- A frame is sent while SENDING an order that is no break order. -/
theorem sendFrame_sound {l : LineId} (chars : List (BitVec 9)) {s : State}
    (h : ExchangeSound (s.line l)) (hs : (s.line l).engine.state = .sending) {o : Order}
    (ho : (s.line l).engine.order = some o) (hk : o.kind ≠ .breakOrder) :
    LineSound ((sendFrame l chars s).line l) := by
  have he := endLowPeriod_exchange h
  obtain ⟨n, b, hl⟩ := endLowPeriod_line l s
  obtain ⟨htx, hdr⟩ := sendFrame_line l chars s
  have hx : ExchangeSound ((sendFrame l chars s).line l) := by
    unfold sendFrame
    rw [modifyLine_line_same]
    exact he.congr
  have hst : ((sendFrame l chars s).line l).engine = ((endLowPeriod l s).line l).engine := by
    unfold sendFrame
    rw [modifyLine_line_same]
  refine .of_parts hx ⟨?_, by simp [htx, hdr]⟩
  rw [htx]
  refine ⟨?_, o, ?_, hk⟩
  · rw [hst, hl]; exact hs
  · rw [hst, hl]; exact ho

theorem sendBreak_line (l : LineId) (jam : Bool) (length : Nat) (s : State) :
    ∃ n b, (sendBreak l jam length s).line l =
      { s.line l with
        nodes := n, engine := { (s.line l).engine with breakSeen := b }
        port := ((sendBreak l jam length s).line l).port } ∧
      ((sendBreak l jam length s).line l).port.tx = .sendingBreak jam length ∧
      ((sendBreak l jam length s).line l).port.driverEnable = true := by
  obtain ⟨n, b, hl⟩ := endLowPeriod_line l s
  unfold sendBreak
  rw [modifyPort_modifyLine, modifyLine_line_same]
  refine ⟨n, b, ?_, rfl, rfl⟩
  rw [hl]

theorem sendBreak_sound {l : LineId} (jam : Bool) (length : Nat) {s : State} (h : ExchangeSound (s.line l))
    (hf : transmitFits (s.line l).engine (.sendingBreak jam length)) :
    LineSound ((sendBreak l jam length s).line l) := by
  obtain ⟨n, b, he, htx, hdr⟩ := sendBreak_line l jam length s
  refine .of_parts ?_ ⟨?_, by simp [htx, hdr]⟩
  · rw [he]; exact h.congr
  · rw [htx]
    refine transmitFits_congr hf ?_ ?_
    · rw [he]
    · rw [he]

theorem holdTimers_stopped (t : CharTimer) : t.hold ≠ .stopped → t ≠ .stopped := by
  cases t <;> simp [CharTimer.hold]

/-- The driver is released: nothing is sent, and what else the line is stays. -/
theorem releaseDriver_exchange {l : LineId} {s : State} (h : ExchangeSound (s.line l)) :
    ExchangeSound ((releaseDriver l s).line l) ∧
      ((releaseDriver l s).line l).port.tx = .idle ∧
      ((releaseDriver l s).line l).port.driverEnable = false ∧
      ((releaseDriver l s).line l).engine.state = (s.line l).engine.state ∧
      ((releaseDriver l s).line l).engine.order = (s.line l).engine.order ∧
      ((releaseDriver l s).line l).lineState = (s.line l).lineState := by
  unfold releaseDriver
  rw [modifyLine_line_same]
  dsimp only
  split
  · exact ⟨h.congr, rfl, rfl, rfl, rfl, rfl⟩
  · exact ⟨h.congr (h4 := holdTimers_stopped _) (h5 := holdTimers_stopped _) (h6 := holdTimers_stopped _),
      rfl, rfl, rfl, rfl, rfl⟩

theorem modifySched_exchange {l : LineId} {s : State} (h : ExchangeSound (s.line l)) (f : Scheduler → Scheduler)
    (h1 : (f (s.line l).sched).roundTimer = (s.line l).sched.roundTimer)
    (h2 : (f (s.line l).sched).pollList = (s.line l).sched.pollList)
    (h3 : (f (s.line l).sched).resyncRequest = (s.line l).sched.resyncRequest) :
    ExchangeSound ((s.modifySched l f).line l) := by
  rw [modifySched_modifyLine, modifyLine_line_same]
  exact h.congr (h11 := fun a => h1.trans a) (h12 := fun a => h2.trans a) (h13 := fun a => h3.trans a)

/-! ### Orders -/

theorem startExchange_sound {l : LineId} (k : OrderKind) {s : State}
    (h : ExchangeSound (s.line l)) (hl : (s.line l).lineState = .running) (hi : (s.line l).engine.state = .idle)
    (hk : k ≠ .breakOrder) : LineSound ((startExchange l k s).line l) := by
  unfold startExchange
  dsimp only
  refine sendFrame_sound (o := { kind := k, round := (s.line l).sched.roundNumber }) _ ?_ ?_ ?_ hk
  · rw [modifyEngine_modifyLine, modifyLine_line_same]
    have noTimer : ∀ {P : Prop}, (P → (s.line l).engine.state = .awaiting ∨ (s.line l).engine.state = .receiving ∨
        (s.line l).engine.state = .settling) → ¬ P := by
      intro P hp hP
      rcases hp hP with hp | hp | hp <;> simp [hi] at hp
    refine ⟨by simp, fun _ => .inl hl, by simp, fun hw => absurd hw (noTimer fun hw => .inl (h.window hw)),
      fun hw => absurd hw (noTimer fun hw => .inr (.inl (h.gap hw))),
      fun hw => absurd hw (noTimer fun hw => .inr (.inr (h.settling hw))),
      fun hw => absurd hw (noTimer fun hw => (h.breakHold hw).imp_right .inl), h.holdoff, h.idleWait, h.purge,
      h.stopped, h.fault⟩
  · rw [modifyEngine_modifyLine, modifyLine_line_same]
  · rw [modifyEngine_modifyLine, modifyLine_line_same]

theorem startBreakOrder_sound {l : LineId} {s : State} (h : ExchangeSound (s.line l))
    (hl : (s.line l).lineState = .running) (hi : (s.line l).engine.state = .idle) :
    LineSound ((startBreakOrder l s).line l) := by
  unfold startBreakOrder
  dsimp only
  refine sendBreak_sound false _ ?_ ?_
  · rw [modifyEngine_modifyLine, modifyLine_line_same]
    have noTimer : ∀ {P : Prop}, (P → (s.line l).engine.state = .awaiting ∨ (s.line l).engine.state = .receiving ∨
        (s.line l).engine.state = .settling) → ¬ P := by
      intro P hp hP
      rcases hp hP with hp | hp | hp <;> simp [hi] at hp
    refine ⟨by simp, fun _ => .inl hl, by simp, fun hw => absurd hw (noTimer fun hw => .inl (h.window hw)),
      fun hw => absurd hw (noTimer fun hw => .inr (.inl (h.gap hw))),
      fun hw => absurd hw (noTimer fun hw => .inr (.inr (h.settling hw))),
      fun hw => absurd hw (noTimer fun hw => (h.breakHold hw).imp_right .inl), h.holdoff, h.idleWait, h.purge,
      h.stopped, h.fault⟩
  · rw [modifyEngine_modifyLine, modifyLine_line_same]
    exact ⟨rfl, _, rfl, rfl⟩

theorem endSettling_sound {l : LineId} {s : State} (h : LineSound (s.line l))
    (hs : (s.line l).engine.state = .settling) : LineSound ((endSettling l s).line l) := by
  have hx := h.exchangeSound
  obtain ⟨ht, hd⟩ := h.portFits.silent (by simp [hs]) (by simp [hs])
  unfold endSettling
  dsimp only
  split
  · rename_i o v ho hv
    split
    · exact finishExchange_sound _ _ hx ht hd
    · have hk : isAddressed o.kind = true := hx.reply (by simp [hs]) (by simp [hs]) o ho
      refine sendFrame_sound (o := o) _ ?_ ?_ ?_ ?_
      · rw [modifyLine_line_same]
        exact ⟨by simp [ho], fun _ => hx.exchange (by simp [hs]), by simp,
          fun hw => by have := hx.window hw; simp [hs] at this,
          fun hw => by have := hx.gap hw; simp [hs] at this, by simp,
          fun hw => by have := hx.breakHold hw; simp [hs] at this, hx.holdoff, hx.idleWait, hx.purge, hx.stopped,
          hx.fault⟩
      · rw [modifyLine_line_same]
      · rw [modifyLine_line_same]; exact ho
      · intro hb; simp [hb, isAddressed] at hk
  · exact h

/-! ### Timers, characters and breaks -/

theorem LineSound.change {x y : Line} (h : LineSound x) (hc : TableChange x y) : LineSound y :=
  .of_parts (h.exchangeSound.change hc) (h.portFits.change hc)

/-- What nothing of the exchange rests on may change. -/
theorem LineSound.quiet {x y : Line} (h : LineSound x) (h1 : y.lineState = x.lineState := by rfl)
    (h2 : y.engine = x.engine := by rfl) (h3 : y.port.tx = x.port.tx := by rfl)
    (h4 : y.port.driverEnable = x.port.driverEnable := by rfl)
    (h5 : y.holdoffTimer = x.holdoffTimer := by rfl) (h6 : y.idleWait = x.idleWait := by rfl)
    (h7 : y.purgePending = x.purgePending := by rfl) (h8 : y.sched.roundTimer = x.sched.roundTimer := by rfl)
    (h9 : y.sched.pollList = x.sched.pollList := by rfl)
    (h10 : y.sched.resyncRequest = x.sched.resyncRequest := by rfl) : LineSound y := by
  refine .of_parts (h.exchangeSound.congr h1 (by rw [h2]) (by rw [h2]) (by rw [h2]; exact id) (by rw [h2]; exact id)
    (by rw [h2]; exact id) (by rw [h2]; exact id) (by rw [h5]; exact id) (by rw [h6]; exact id)
    (by rw [h7]; exact id) (fun a => h8.trans a) (fun a => h9.trans a) (fun a => h10.trans a))
    (h.portFits.congr (by rw [h2]) (by rw [h2]) h3 h4)

theorem modifyEngine_sound {l : LineId} {s : State} (h : LineSound (s.line l)) (f : Engine → Engine)
    (h1 : (f (s.line l).engine).state = (s.line l).engine.state := by rfl)
    (h2 : (f (s.line l).engine).order = (s.line l).engine.order := by rfl)
    (h3 : (f (s.line l).engine).window ≠ .stopped → (s.line l).engine.state = .awaiting)
    (h4 : (f (s.line l).engine).gap ≠ .stopped → (s.line l).engine.state = .receiving)
    (h5 : (f (s.line l).engine).settling ≠ .stopped → (s.line l).engine.state = .settling)
    (h6 : (f (s.line l).engine).breakHold = true →
      (s.line l).engine.state = .awaiting ∨ (s.line l).engine.state = .receiving) :
    LineSound ((s.modifyEngine l f).line l) := by
  have hx := h.exchangeSound
  rw [modifyEngine_modifyLine, modifyLine_line_same]
  refine .of_parts ⟨?_, ?_, ?_, ?_, ?_, ?_, ?_, hx.holdoff, hx.idleWait, hx.purge, hx.stopped, hx.fault⟩
    (h.portFits.congr h1 h2 rfl rfl)
  · simp only [h1, h2]; exact hx.order
  · simp only [h1]; exact hx.exchange
  · simp only [h1, h2]; exact hx.reply
  · simp only [h1]; exact h3
  · simp only [h1]; exact h4
  · simp only [h1]; exact h5
  · simp only [h1]; exact h6

theorem windowRunsOut_sound {l : LineId} {s : State} (h : LineSound (s.line l)) :
    LineSound ((windowRunsOut l s).line l) := by
  have hx := h.exchangeSound
  unfold windowRunsOut
  split
  · rename_i hw
    have hs := hx.window (by simp [hw])
    obtain ⟨ht, hd⟩ := h.portFits.silent (by simp [hs]) (by simp [hs])
    exact endAttempt_sound _ hx ht hd
  all_goals exact h

theorem gapRunsOut_sound {l : LineId} {s : State} (h : LineSound (s.line l)) :
    LineSound ((gapRunsOut l s).line l) := by
  have hx := h.exchangeSound
  unfold gapRunsOut
  split
  · rename_i hw
    have hs := hx.gap (by simp [hw])
    obtain ⟨ht, hd⟩ := h.portFits.silent (by simp [hs]) (by simp [hs])
    exact endAttempt_sound _ hx ht hd
  all_goals exact h

theorem resumeTimers_sound {l : LineId} {s : State} (h : LineSound (s.line l)) :
    LineSound ((resumeTimers l s).line l) := by
  have hx := h.exchangeSound
  unfold resumeTimers
  dsimp only
  split
  · rename_i hs
    obtain ⟨ht, hd⟩ := h.portFits.silent (by simp [hs]) (by simp [hs])
    split
    · exact endAttempt_sound _ hx ht hd
    · exact modifyEngine_sound h _ (h3 := fun _ => hs) (h4 := hx.gap) (h5 := hx.settling) (h6 := hx.breakHold)
    · exact h
    · exact h
  · rename_i hs
    obtain ⟨ht, hd⟩ := h.portFits.silent (by simp [hs]) (by simp [hs])
    split
    · exact endAttempt_sound _ hx ht hd
    · exact modifyEngine_sound h _ (h3 := hx.window) (h4 := fun _ => hs) (h5 := hx.settling) (h6 := hx.breakHold)
    · exact h
    · exact h
  · rename_i hs
    split
    · exact endSettling_sound h hs
    · exact modifyEngine_sound h _ (h3 := hx.window) (h4 := hx.gap) (h5 := fun _ => hs) (h6 := hx.breakHold)
    · exact h
    · exact h
  · exact h
  · exact h

theorem countStray_sound {l : LineId} {s : State} (h : LineSound (s.line l)) :
    LineSound ((countStray l s).line l) := by
  unfold countStray
  rw [countLine_modifyLine, modifyLine_line_same]
  exact h.quiet

theorem restartQuiet_sound {l : LineId} {s : State} (h : LineSound (s.line l)) :
    LineSound ((restartQuiet l s).line l) := by
  unfold restartQuiet
  rw [modifySched_modifyLine, modifyLine_line_same]
  exact h.quiet

theorem afterStored_sound {l : LineId} {s : State} (h : LineSound (s.line l))
    (hs : (s.line l).engine.state = .receiving) : LineSound ((afterStored l s).line l) := by
  have hx := h.exchangeSound
  obtain ⟨ht, hd⟩ := h.portFits.silent (by simp [hs]) (by simp [hs])
  unfold afterStored
  dsimp only
  split
  · exact h
  · split
    · exact endAttempt_sound _ hx ht hd
    · split
      · exact endAttempt_sound _ hx ht hd
      · exact modifyEngine_sound h _ (h3 := hx.window) (h4 := fun _ => hs) (h5 := hx.settling) (h6 := hx.breakHold)

theorem takeReplyCharacter_sound {l : LineId} (c : ReceivedCharacter) {s : State} (h : LineSound (s.line l))
    (hs : (s.line l).engine.state = .awaiting ∨ (s.line l).engine.state = .receiving) :
    LineSound ((takeReplyCharacter l c s).line l) := by
  have hx := h.exchangeSound
  have hne : (s.line l).engine.state ≠ .idle ∧ (s.line l).engine.state ≠ .sending := by
    rcases hs with hs | hs <;> simp [hs]
  obtain ⟨ht, hd⟩ := h.portFits.silent hne.2 hne.1
  unfold takeReplyCharacter
  refine afterStored_sound (restartQuiet_sound ?_) ?_
  · rw [modifyEngine_modifyLine, modifyLine_line_same]
    refine .of_parts ⟨?_, fun _ => hx.exchange hne.1, fun _ _ => hx.reply hne.1 hne.2, by simp, fun _ => rfl, ?_,
      fun _ => .inr rfl, hx.holdoff, hx.idleWait, hx.purge, hx.stopped, hx.fault⟩ (.quiet (by simp) ht hd)
    · have : (s.line l).engine.order ≠ none := fun ho => hne.1 (hx.order.1 ho)
      simp [this]
    · intro hw
      have := hx.settling hw
      rcases hs with hs | hs <;> simp [hs] at this
  · simp [restartQuiet]

theorem takeCharacter_sound {l : LineId} (c : ReceivedCharacter) {s : State} (h : LineSound (s.line l)) :
    LineSound ((takeCharacter l c s).line l) := by
  unfold takeCharacter
  split
  · exact countStray_sound h
  · exact countStray_sound h
  · rename_i hs
    split
    · exact takeReplyCharacter_sound c h (.inl hs)
    · exact resumeTimers_sound (countStray_sound h)
  · rename_i hs
    split
    · obtain ⟨ht, hd⟩ := h.portFits.silent (by simp [hs]) (by simp [hs])
      have hr := restartQuiet_sound h
      refine endAttempt_sound _ hr.exchangeSound ?_ ?_
      · simpa [restartQuiet] using ht
      · simpa [restartQuiet] using hd
    · exact takeReplyCharacter_sound c h (.inr hs)
  · exact resumeTimers_sound (countStray_sound h)

theorem startIdleWait_sound {l : LineId} {s : State} (h : LineSound (s.line l)) :
    LineSound ((startIdleWait l s).line l) := by
  have hx := h.exchangeSound
  unfold startIdleWait
  rw [modifyLine_line_same]
  split
  · rename_i hf
    exact .of_parts ⟨hx.order, hx.exchange, hx.reply, hx.window, hx.gap, hx.settling, hx.breakHold, hx.holdoff,
      fun _ => hf, hx.purge, hx.stopped, hx.fault⟩ (h.portFits.congr rfl rfl rfl rfl)
  · exact h

theorem modifyPort_sound {l : LineId} {s : State} (h : LineSound (s.line l)) (f : LinePort → LinePort)
    (h1 : ∀ p, (f p).tx = p.tx := by intro _; rfl) (h2 : ∀ p, (f p).driverEnable = p.driverEnable := by intro _; rfl) :
    LineSound ((s.modifyPort l f).line l) := by
  rw [modifyPort_modifyLine, modifyLine_line_same]
  exact h.quiet (h3 := h1 _) (h4 := h2 _)

theorem deliverCharacter_sound {l : LineId} (c : ReceivedCharacter) {s : State} (h : LineSound (s.line l)) :
    LineSound ((deliverCharacter l c s).line l) := by
  have hn : LineSound ((s.countLine l (countNoise c)).line l) := by
    rw [countLine_modifyLine, modifyLine_line_same]
    exact h.quiet
  unfold deliverCharacter
  dsimp only
  split
  · exact hn
  · exact takeCharacter_sound c hn

/-- A start bit holds timers; none starts or stops (R128). -/
theorem holdTimers_sound {l : LineId} {s : State} (h : LineSound (s.line l)) :
    LineSound ((s.modifyEngine l holdTimers).line l) := by
  have hx := h.exchangeSound
  exact modifyEngine_sound h _ (h3 := fun hw => hx.window (holdTimers_stopped _ hw))
    (h4 := fun hw => hx.gap (holdTimers_stopped _ hw)) (h5 := fun hw => hx.settling (holdTimers_stopped _ hw))
    (h6 := hx.breakHold)

/-- A break ends an attempt in AWAITING or RECEIVING until it is over (R31). -/
theorem engineBreak_sound {x y : Line} (h : LineSound x) (he : y.engine = engineBreak x.engine)
    (h1 : y.lineState = x.lineState) (h3 : y.port.tx = x.port.tx) (h4 : y.port.driverEnable = x.port.driverEnable)
    (h5 : y.holdoffTimer = x.holdoffTimer) (h6 : y.idleWait = x.idleWait) (h7 : y.purgePending = x.purgePending)
    (h8 : y.sched = x.sched) : LineSound y := by
  have hx := h.exchangeSound
  have hst : (engineBreak x.engine).state = x.engine.state := by unfold engineBreak; split <;> rfl
  have hor : (engineBreak x.engine).order = x.engine.order := by unfold engineBreak; split <;> rfl
  have hwin : (engineBreak x.engine).window ≠ .stopped → x.engine.window ≠ .stopped := by
    unfold engineBreak; split <;> simp
  have hgap : (engineBreak x.engine).gap ≠ .stopped → x.engine.gap ≠ .stopped := by
    unfold engineBreak; split <;> simp
  have hset : (engineBreak x.engine).settling = x.engine.settling := by unfold engineBreak; split <;> rfl
  refine .of_parts ⟨?_, ?_, ?_, ?_, ?_, ?_, ?_, ?_, ?_, ?_, ?_, ?_⟩
    (h.portFits.congr (by rw [he, hst]) (by rw [he, hor]) h3 h4)
  · rw [he, hst, hor]; exact hx.order
  · rw [he, hst, h1]; exact hx.exchange
  · rw [he, hst, hor]; exact hx.reply
  · rw [he, hst]; exact fun hw => hx.window (hwin hw)
  · rw [he, hst]; exact fun hw => hx.gap (hgap hw)
  · rw [he, hst, hset]; exact hx.settling
  · rw [he, hst]
    intro hb
    rcases hs : x.engine.state with _ | _ | _ | _ | _
    · simp only [engineBreak, hs] at hb; have := hx.breakHold hb; simp [hs] at this
    · simp only [engineBreak, hs] at hb; have := hx.breakHold hb; simp [hs] at this
    · simp
    · simp
    · simp only [engineBreak, hs] at hb; have := hx.breakHold hb; simp [hs] at this
  · rw [h5, h1]; exact hx.holdoff
  · rw [h6, h1]; exact hx.idleWait
  · rw [h7, h1]; exact hx.purge
  · rw [h8, h1]; exact hx.stopped
  · rw [h8, h1]; exact hx.fault

theorem takeBreak_sound {l : LineId} (newBreak : Bool) {s : State} (h : LineSound (s.line l)) :
    LineSound ((takeBreak l newBreak s).line l) := by
  unfold takeBreak
  rw [modifyLine_line_same]
  exact engineBreak_sound h rfl rfl rfl rfl rfl rfl rfl rfl

theorem engineBreakEnd_sound {l : LineId} {s : State} (h : LineSound (s.line l)) :
    LineSound ((engineBreakEnd l s).line l) := by
  unfold engineBreakEnd
  split
  · rename_i hb
    have hs := h.exchangeSound.breakHold hb
    obtain ⟨ht, hd⟩ := h.portFits.silent (by rcases hs with hs | hs <;> simp [hs])
      (by rcases hs with hs | hs <;> simp [hs])
    exact endAttempt_sound _ h.exchangeSound ht hd
  · exact resumeTimers_sound h

theorem breakOver_sound {l : LineId} (duration : Nat) {s : State} (h : LineSound (s.line l)) :
    LineSound ((breakOver l duration s).line l) :=
  engineBreakEnd_sound (h.change (breakEnded_change _ _ _))

theorem engineStuck_sound {l : LineId} {s : State} (h : LineSound (s.line l)) :
    LineSound ((engineStuck l s).line l) := by
  unfold engineStuck
  dsimp only
  split
  · rename_i hs
    obtain ⟨ht, hd⟩ := h.portFits.silent (by simp [hs]) (by simp [hs])
    exact finishExchange_sound _ _ h.exchangeSound ht hd
  · rename_i hs
    obtain ⟨ht, hd⟩ := h.portFits.silent (by simp [hs]) (by simp [hs])
    exact finishExchange_sound _ _ h.exchangeSound ht hd
  · rename_i hs
    obtain ⟨ht, hd⟩ := h.portFits.silent (by simp [hs]) (by simp [hs])
    exact finishExchange_sound _ _ h.exchangeSound ht hd
  · exact h
  · exact h

theorem enterFault_sound {l : LineId} (cause : Cause) {s : State} (h : LineSound (s.line l))
    (hi : (s.line l).engine.state = .idle) (hl : (s.line l).lineState = .running ∨ (s.line l).lineState = .holdoff) :
    LineSound ((enterFault l cause s).line l) := by
  rw [enterFault_line]
  exact .of_parts (faultLine_sound h.exchangeSound cause hi hl) (h.portFits.congr rfl rfl rfl rfl)

theorem reportStuck_sound {l : LineId} {s : State} (h : LineSound (s.line l)) :
    LineSound ((reportStuck l s).line l) := by
  unfold reportStuck
  split
  iterate 3 exact engineStuck_sound h
  · rename_i hi
    unfold stuckToLineControl
    split
    · rename_i hr; exact enterFault_sound _ h hi (.inl hr)
    · rename_i hr; exact enterFault_sound _ h hi (.inr hr)
    all_goals exact h
  · exact h

theorem takeStuck_sound {l : LineId} (newBreak : Bool) {s : State} (h : LineSound (s.line l)) :
    LineSound ((takeStuck l newBreak s).line l) := reportStuck_sound (takeBreak_sound newBreak h)

theorem ensureIdleWait_sound {l : LineId} {s : State} (h : LineSound (s.line l)) :
    LineSound ((ensureIdleWait l s).line l) := by
  unfold ensureIdleWait
  split
  · exact startIdleWait_sound h
  · exact h

/-! ### Frames and breaks sent -/

theorem countFrame_sound {l : LineId} {s : State} (h : LineSound (s.line l)) :
    LineSound ((countFrame l s).line l) := by
  have hx := h.exchangeSound
  exact restartQuiet_sound (modifyEngine_sound h _ (h3 := hx.window) (h4 := hx.gap) (h5 := hx.settling)
    (h6 := hx.breakHold))

theorem countFrame_parts (l : LineId) (s : State) :
    ((countFrame l s).line l).engine.state = (s.line l).engine.state ∧
      ((countFrame l s).line l).engine.order = (s.line l).engine.order ∧
      ((countFrame l s).line l).port = (s.line l).port ∧
      ((countFrame l s).line l).engine.breakHold = (s.line l).engine.breakHold := by
  unfold countFrame restartQuiet
  simp

/-- The driver is released after RESTART (R138): nothing is sent, and what else the line is stays. -/
theorem releaseAfterRestart_exchange {l : LineId} {s : State} (h : ExchangeSound (s.line l)) :
    ExchangeSound ((releaseAfterRestart l s).line l) ∧
      ((releaseAfterRestart l s).line l).port.tx = .idle ∧
      ((releaseAfterRestart l s).line l).port.driverEnable = false ∧
      ((releaseAfterRestart l s).line l).engine.state = (s.line l).engine.state := by
  unfold releaseAfterRestart
  split
  · rw [modifyPort_modifyLine, modifyLine_line_same]
    exact ⟨h.congr, rfl, rfl, rfl⟩
  · obtain ⟨a, b, c, d, -⟩ := releaseDriver_exchange h
    exact ⟨a, b, c, d⟩

theorem lastCharacter_sound {l : LineId} {s : State} (h : LineSound (s.line l))
    (hi : (s.line l).engine.state = .idle) :
    LineSound ((restartQuiet l (releaseAfterRestart l s)).line l) := by
  obtain ⟨a, b, c, d⟩ := releaseAfterRestart_exchange h.exchangeSound
  exact restartQuiet_sound (.of_parts a (.quiet (by rw [d, hi]; simp) b c))

theorem frameSent_sound {l : LineId} {chars : List (BitVec 9)} {position : Nat} {s : State} (h : LineSound (s.line l))
    (hf : (s.line l).port.tx = .frame chars position false) : LineSound ((frameSent l s).line l) := by
  have ht := h.portFits.transmit
  rw [hf] at ht
  obtain ⟨hs, o, ho, hk⟩ := ht
  have hc := (countFrame_sound h).exchangeSound
  obtain ⟨p1, p2, p3, p4⟩ := countFrame_parts l s
  unfold frameSent
  rw [ho]
  dsimp only
  split
  · rename_i ha
    have hw : ExchangeSound (((countFrame l s).modifyEngine l
        (awaitReply (s.line l).config.responseWindow)).line l) := by
      rw [modifyEngine_modifyLine, modifyLine_line_same]
      have hne : ((countFrame l s).line l).engine.state = .sending := p1.trans hs
      refine ⟨?_, fun _ => hc.exchange (by simp [hne]), ?_, fun _ => rfl, ?_, ?_, fun _ => .inl rfl, hc.holdoff,
        hc.idleWait, hc.purge, hc.stopped, hc.fault⟩
      · simp [awaitReply, p2, ho]
      · intro _ _ o' ho'
        have ho' : ((countFrame l s).line l).engine.order = some o' := ho'
        rw [p2, ho] at ho'
        injection ho' with ho'
        exact ho' ▸ ha
      · intro hg; have := hc.gap hg; simp [hne] at this
      · intro hg; have := hc.settling hg; simp [hne] at this
    obtain ⟨a, b, c, d, -⟩ := releaseDriver_exchange hw
    exact .of_parts a (.quiet (by rw [d, modifyEngine_modifyLine, modifyLine_line_same]; simp [awaitReply]) b c)
  · obtain ⟨a, b, c, -⟩ := releaseDriver_exchange hc
    exact endAttempt_sound _ a b c

theorem contention_sound {l : LineId} {s : State} (h : LineSound (s.line l)) :
    LineSound ((sendBreak l true Config.twoCharacters (endAttempt l (plainResult .contention) s)).line l) := by
  obtain ⟨a, -, c⟩ := endAttempt_exchange (plainResult .contention) h.exchangeSound
  refine sendBreak_sound true _ a ?_
  rcases c with ⟨c, -⟩ | ⟨c, -⟩
  · exact c
  · simp [plainResult, isFailure] at c

theorem resetToggles_change (l : LineId) (s : State) : TableChange (s.line l) ((resetToggles l s).line l) := by
  unfold resetToggles
  rw [modifyLine_line_same]
  exact ⟨_, (s.line l).sched.pollList, rfl, id⟩

/-- After a break has been sent by an engine that is IDLE nothing is sent. -/
theorem breakSent_sound {l : LineId} {s : State} (h : ExchangeSound (s.line l))
    (hi : (s.line l).engine.state = .idle) :
    LineSound ((breakSent l s).line l) ∧ ((breakSent l s).line l).engine.state = .idle ∧
      ((breakSent l s).line l).lineState = (s.line l).lineState := by
  obtain ⟨a, b, c, d, -, e⟩ := releaseDriver_exchange h
  have hr : LineSound ((releaseDriver l s).line l) := .of_parts a (.quiet (by rw [d, hi]; simp) b c)
  unfold breakSent
  refine ⟨(restartQuiet_sound hr).change (resetToggles_change _ _), ?_, ?_⟩
  · unfold resetToggles restartQuiet
    simp [d, hi]
  · unfold resetToggles restartQuiet
    simp [e]

theorem enterStopped_sound {l : LineId} {s : State} (h : LineSound (s.line l))
    (hi : (s.line l).engine.state = .idle) : LineSound ((enterStopped l s).line l) := by
  rw [enterStopped_line]
  exact .of_parts (stoppedLine_sound h.exchangeSound hi) (h.portFits.congr rfl rfl rfl rfl)

theorem afterJam_sound {l : LineId} {s : State} (a : LineSound (s.line l)) (b : (s.line l).engine.state = .idle) :
    LineSound ((afterJam l s).line l) := by
  unfold afterJam
  split
  · rename_i hl
    have hx := a.exchangeSound
    rw [modifyLine_line_same]
    exact .of_parts ⟨hx.order, hx.exchange, hx.reply, hx.window, hx.gap, hx.settling, hx.breakHold, fun _ => hl,
      hx.idleWait, hx.purge, hx.stopped, hx.fault⟩ (a.portFits.congr rfl rfl rfl rfl)
  · split
    · exact startIdleWait_sound a
    · exact a
  · exact enterStopped_sound a b
  all_goals exact a

theorem jamBreakEnd_sound {l : LineId} {left : Nat} {s : State} (h : LineSound (s.line l))
    (hf : (s.line l).port.tx = .sendingBreak true left) : LineSound ((afterJam l (breakSent l s)).line l) := by
  have ht := h.portFits.transmit
  rw [hf] at ht
  obtain ⟨a, b, -⟩ := breakSent_sound h.exchangeSound ht
  exact afterJam_sound a b

theorem nodesToPending_lineSound {l : LineId} (test : NodeRecord → Bool) {s : State} (h : LineSound (s.line l)) :
    LineSound ((nodesToPending l test s).line l) ∧
      ((nodesToPending l test s).line l).engine = (s.line l).engine ∧
      ((nodesToPending l test s).line l).lineState = (s.line l).lineState := by
  have hc := nodesToPending_change l test s
  refine ⟨h.change hc, ?_, ?_⟩ <;> obtain ⟨n, p, he, -⟩ := hc <;> rw [he]

theorem breakOrderEnd_sound {l : LineId} {left : Nat} {s : State} (h : LineSound (s.line l))
    (hf : (s.line l).port.tx = .sendingBreak false left) :
    LineSound ((completeStop l (pendInService l (breakSent l (endOrder l s)))).line l) := by
  have ht := h.portFits.transmit
  have hx := h.exchangeSound
  rw [hf] at ht
  obtain ⟨hs, o, ho, hk⟩ := ht
  have he : ExchangeSound ((endOrder l s).line l) := by
    unfold endOrder
    rw [modifyEngine_modifyLine, modifyLine_line_same]
    exact ⟨by simp, by simp, by simp, fun hw => by have := hx.window hw; simp [hs] at this,
      fun hw => by have := hx.gap hw; simp [hs] at this, fun hw => by have := hx.settling hw; simp [hs] at this,
      fun hw => by have := hx.breakHold hw; simp [hs] at this, hx.holdoff, hx.idleWait, hx.purge, hx.stopped,
      hx.fault⟩
  obtain ⟨a, b, c⟩ := breakSent_sound he (by unfold endOrder; simp)
  obtain ⟨d, e, f⟩ := nodesToPending_lineSound (fun n => n.state.inService) a
  unfold completeStop
  split
  · exact enterStopped_sound d (by unfold pendInService; rw [e]; exact b)
  · exact d

/-! ### The port -/

theorem CharTimer.count_stopped (t : CharTimer) : t.count ≠ .stopped → t ≠ .stopped := by
  cases t <;> simp [CharTimer.count]

/-- A sample period of a line (R126). -/
theorem linePeriod_sound (level : PinLevel) {x : Line} (h : LineSound x) : LineSound (linePeriod level x) := by
  have hx := h.exchangeSound
  obtain ⟨ht, hd⟩ := samplePort_goesOn x.config.bitRate x.config.echoCheck level x.port
  have hi : idleWaitSample level x ≠ .stopped → x.lineState = .fault := by
    unfold idleWaitSample
    split
    · rename_i hf
      exact fun _ => hf.1
    · exact hx.idleWait
  refine .of_parts ⟨hx.order, hx.exchange, hx.reply, fun hw => hx.window (CharTimer.count_stopped _ hw),
    fun hw => hx.gap (CharTimer.count_stopped _ hw), fun hw => hx.settling (CharTimer.count_stopped _ hw), hx.breakHold,
    hx.holdoff, hi, hx.purge, hx.stopped, hx.fault⟩ ⟨?_, ?_⟩
  · have hf : transmitFits x.engine x.port.tx := h.portFits.transmit
    show transmitFits _ (samplePort x.config.bitRate x.config.echoCheck level x.port).tx
    generalize (samplePort x.config.bitRate x.config.echoCheck level x.port).tx = tx at ht ⊢
    refine transmitFits_congr (e := x.engine) ?_ rfl rfl
    generalize x.port.tx = old at ht hf
    cases ht with
    | idle => exact hf
    | frame chars position more next finishing => cases finishing <;> exact hf
    | sendingBreak jam left next => cases jam <;> exact hf
  · show (samplePort x.config.bitRate x.config.echoCheck level x.port).driverEnable = true ↔
      (samplePort x.config.bitRate x.config.echoCheck level x.port).tx ≠ .idle
    rw [hd, h.portFits.driver]
    generalize (samplePort x.config.bitRate x.config.echoCheck level x.port).tx = tx at ht
    generalize x.port.tx = old at ht
    cases ht <;> simp

/-! ### Rounds and Line Control -/

theorem runningTimers {x : Line} (h : ExchangeSound x) (hl : x.lineState = .running) :
    x.holdoffTimer = .stopped ∧ x.idleWait = .stopped ∧ x.purgePending = false := by
  refine ⟨?_, ?_, ?_⟩
  · by_contra hc; have := h.holdoff hc; simp [hl] at this
  · by_contra hc; have := h.idleWait hc; simp [hl] at this
  · by_contra hc; have := h.purge (by simpa using hc); simp [hl] at this

theorem roundTimerRunsOut_sound {l : LineId} {s : State} (h : LineSound (s.line l)) :
    LineSound ((roundTimerRunsOut l s).line l) := by
  unfold roundTimerRunsOut
  split
  · rename_i hr
    rw [modifyLine_line_same]
    refine .of_parts (h.exchangeSound.congr (h11 := ?_)) (h.portFits.congr rfl rfl rfl rfl)
    intro hs; rw [hs] at hr; simp at hr
  all_goals exact h

theorem startRound_sound {l : LineId} {s : State} (h : LineSound (s.line l))
    (hl : (s.line l).lineState = .running) :
    LineSound ((startRound l s).line l) ∧ ((startRound l s).line l).engine = (s.line l).engine ∧
      ((startRound l s).line l).lineState = .running := by
  obtain ⟨a, b, c⟩ := runningTimers h.exchangeSound hl
  unfold startRound
  dsimp only
  rw [modifyLine_line_same]
  exact ⟨.of_parts (h.exchangeSound.atRunning hl rfl a b c) (h.portFits.congr rfl rfl rfl rfl), rfl, hl⟩

theorem takeRoundStart_sound {l : LineId} {s : State} (h : LineSound (s.line l)) :
    LineSound ((takeRoundStart l s).line l) := by
  unfold takeRoundStart
  split
  · rename_i hd
    simp only [roundStartDue, Bool.and_eq_true, beq_iff_eq] at hd
    exact (startRound_sound h hd.1.1.1).1
  · exact h

theorem checkStuck_sound {l : LineId} {s : State} (h : LineSound (s.line l)) :
    LineSound ((checkStuck l s).line l) := by
  unfold checkStuck
  split
  · rename_i hc
    exact enterFault_sound _ h hc.2.2 (.inl hc.1)
  · exact h

theorem holdoffRunsOut_sound {l : LineId} {s : State} (h : LineSound (s.line l)) :
    LineSound ((holdoffRunsOut l s).line l) := by
  have hx := h.exchangeSound
  unfold holdoffRunsOut
  dsimp only
  split
  · rename_i hc
    have hi : (s.line l).idleWait = .stopped := by
      by_contra hn; have := hx.idleWait hn; simp [hc.1] at this
    have hp : (s.line l).purgePending = false := by
      by_contra hn; have := hx.purge (by simpa using hn); simp [hc.1] at this
    refine checkStuck_sound ?_
    rw [modifyLine_line_same, changeLineState_line]
    exact .of_parts (hx.atRunning rfl rfl rfl hi hp) (h.portFits.congr rfl rfl rfl rfl)
  · exact h

theorem idleWaitRunsOut_sound {l : LineId} {s : State} (h : LineSound (s.line l)) :
    LineSound ((idleWaitRunsOut l s).line l) := by
  have hx := h.exchangeSound
  unfold idleWaitRunsOut
  dsimp only
  split
  · rename_i hc
    have hh : (s.line l).holdoffTimer = .stopped := by
      by_contra hn; have := hx.holdoff hn; simp [hc.1] at this
    have hp : (s.line l).purgePending = false := by
      by_contra hn; have := hx.purge (by simpa using hn); simp [hc.1] at this
    have hr : LineSound (((changeLineState l .running .recovered s).modifyLine l fun x =>
        { x with idleWait := .stopped }).line l) := by
      rw [modifyLine_line_same, changeLineState_line]
      exact .of_parts (hx.atRunning rfl rfl hh rfl hp) (h.portFits.congr rfl rfl rfl rfl)
    have hl : (((changeLineState l .running .recovered s).modifyLine l fun x =>
        { x with idleWait := .stopped }).line l).lineState = .running := by
      rw [modifyLine_line_same, changeLineState_line]
    obtain ⟨a, -, c⟩ := nodesToPending_lineSound (fun n => n.state.inService) hr
    exact checkStuck_sound (startRound_sound a (c.trans hl)).1
  · exact h

/-! ### The arbiter -/

/-- What the arbiter's choices rest on. -/
structure Choosing (x : Line) : Prop where
  exchange : ExchangeSound x
  running : x.lineState = .running
  idle : x.engine.state = .idle
  silent : x.port.tx = .idle
  released : x.port.driverEnable = false

theorem Choosing.sound {x : Line} (h : Choosing x) : LineSound x :=
  .of_parts h.exchange (.quiet (by simp [h.idle]) h.silent h.released)

theorem Choosing.sched {l : LineId} {s : State} (h : Choosing (s.line l)) (f : Scheduler → Scheduler) :
    Choosing ((s.modifySched l f).line l) := by
  rw [modifySched_modifyLine, modifyLine_line_same]
  obtain ⟨a, b, c⟩ := runningTimers h.exchange h.running
  exact ⟨h.exchange.atRunning h.running rfl a b c, h.running, h.idle, h.silent, h.released⟩

theorem Choosing.eq {l : LineId} {s t : State} (h : Choosing (s.line l)) (he : t.line l = s.line l) :
    Choosing (t.line l) := he ▸ h

theorem choosePoll_sound {l : LineId} (id : Nat) {s : State} (h : Choosing (s.line l)) :
    LineSound ((choosePoll l id s).line l) := by
  have hc := h.sched fun c => { c with pollList := c.pollList.tail, alternation := .poll }
  unfold choosePoll
  dsimp only
  split
  · exact hc.sound
  · rename_i r _
    have hu := hc.eq (updateSub_line r.id r.uid (fun r => { r with pollInFlight := true }) _ l)
    exact startExchange_sound _ hu.exchange hu.running hu.idle (by simp)

theorem txnOrder_kind (t : TxnRecord) (uid : Nat) : txnOrder t uid ≠ .breakOrder := by
  unfold txnOrder
  split <;> simp

theorem sendTxn_sound {l : LineId} (t : TxnRecord) {s : State} (h : Choosing (s.line l)) :
    LineSound ((sendTxn l t s).line l) := by
  unfold sendTxn
  have hu := h.eq (updateTxn_line t.reference (fun t => { t with state := .inFlight }) s l)
  have hc := hu.sched fun c => { c with
      alternation := .transaction
      allowanceUsed := if c.pollList = [] then c.allowanceUsed else c.allowanceUsed + 1 }
  exact startExchange_sound _ hc.exchange hc.running hc.idle (txnOrder_kind _ _)

theorem popTxn_choosing {l : LineId} {s : State} (h : Choosing (s.line l)) : Choosing ((popTxn l s).line l) := by
  unfold popTxn
  rw [modifyLine_line_same]
  exact ⟨h.exchange.congr, h.running, h.idle, h.silent, h.released⟩

theorem chooseWork_sound {l : LineId} (again : Nat) {s : State} (h : Choosing (s.line l)) :
    LineSound ((chooseWork l again s).line l) := by
  induction again generalizing s with
  | zero => exact h.sound
  | succ again ih =>
    unfold chooseWork
    split
    · exact h.sound
    · exact choosePoll_sound _ h
    · split
      · split
        · exact ih (popTxn_choosing h)
        · split
          · exact sendTxn_sound _ (popTxn_choosing h)
          · exact ih ((popTxn_choosing h).eq (completeTxn_line _ _ _ _ _ _ _))
      · split
        · exact h.sound
        · exact choosePoll_sound _ h

theorem choose_sound {l : LineId} {s : State} (h : LineSound (s.line l)) (hm : mayChoose (s.line l) = true) :
    LineSound ((choose l s).line l) := by
  simp only [mayChoose, Bool.and_eq_true, beq_iff_eq] at hm
  have hc : Choosing (s.line l) := by
    refine ⟨h.exchangeSound, hm.1.1.1.1, hm.1.1.1.2, hm.2, ?_⟩
    rcases hd : (s.line l).port.driverEnable with _ | _
    · rfl
    · exact absurd hm.2 (h.driver.1 hd)
  unfold choose
  dsimp only
  split
  · have := hc.sched fun c => { c with resyncRequest := false }
    exact startBreakOrder_sound this.exchange this.running this.idle
  · split
    · have := hc.sched fun c => { c with broadcastSent := true }
      exact startExchange_sound _ this.exchange this.running this.idle (by simp)
    · unfold chooseProbeOrWork
      split
      · rename_i n _
        have := hc.sched fun c => { c with probePointer := n.address, probeDone := true }
        exact startExchange_sound _ this.exchange this.running this.idle (by simp)
      · exact chooseWork_sound _ hc

theorem portAct_sound {l : LineId} {s t : State} (ha : PortAct l s t) (h : LineSound (s.line l)) :
    LineSound (t.line l) := by
  cases ha with
  | nothing => exact h
  | hold => exact holdTimers_sound h
  | resume => exact resumeTimers_sound h
  | character c => exact deliverCharacter_sound c h
  | breakDetected => exact takeBreak_sound true h
  | breakEnd duration => exact breakOver_sound duration h
  | stuck newBreak => exact takeStuck_sound newBreak h
  | stuckEnd duration => exact ensureIdleWait_sound (breakOver_sound duration h)
  | frameSent _ hf => exact frameSent_sound h hf
  | lastCharacter _ hf =>
    refine lastCharacter_sound h ?_
    have ht := h.portFits.transmit
    rw [hf] at ht
    exact ht
  | contention => exact contention_sound h
  | jamBreakEnd _ hf => exact jamBreakEnd_sound h hf
  | breakOrderEnd _ hf => exact breakOrderEnd_sound h hf
  | choice _ hm => exact choose_sound h hm
  | settlingEnd _ hs => exact endSettling_sound h (h.exchangeSound.settling hs)

/-- Every event of a line keeps the line sound. -/
theorem lineEvent_sound {l : LineId} {f : State → State} (hf : LineEvent l f) {s : State}
    (h : LineSound (s.line l)) : LineSound ((f s).line l) := by
  cases hf with
  | port periods hc =>
    refine afterPeriods_keeps (P := fun s => LineSound (s.line l)) hc (fun level s h => ?_)
      (fun rest s h => modifyPort_sound h _) (fun s t ha h => portAct_sound ha h) periods h
    rw [modifyLine_line_same]
    exact linePeriod_sound level h
  | roundTimer => exact roundTimerRunsOut_sound h
  | roundStart => exact takeRoundStart_sound h
  | quiet =>
    unfold endQuiet
    split
    · rw [modifySched_modifyLine, modifyLine_line_same]
      exact h.quiet
    all_goals exact h
  | window => exact windowRunsOut_sound h
  | gap => exact gapRunsOut_sound h
  | holdoff => exact holdoffRunsOut_sound h
  | idleWait => exact idleWaitRunsOut_sound h

/-- The sample periods that pass on a line keep both lines sound. -/
theorem playPeriods_sound (l : LineId) (periods : Periods) {s : State} (h : ∀ k, LineSound (s.line k)) :
    ∀ k, LineSound ((playPeriods l periods s).line k) := by
  refine bothLines h (playPeriods_work periods s) ?_
  refine playPeriods_keeps (P := fun t => LineSound (t.line l)) (fun level t ht => ?_) periods (h l)
  rw [modifyLine_line_same]
  exact linePeriod_sound level ht

/-! ### Requests -/

theorem LineSound.initial {x : Line} (h2 : x.engine = Engine.initial)
    (h3 : x.holdoffTimer = .stopped) (h4 : x.idleWait = .stopped) (h5 : x.purgePending = false)
    (h6 : x.sched = Scheduler.initial) (hp : PortFits x) : LineSound x := by
  refine .of_parts ⟨?_, ?_, ?_, ?_, ?_, ?_, ?_, ?_, ?_, ?_, ?_, ?_⟩ hp
  · simp [h2, Engine.initial]
  · simp [h2, Engine.initial]
  · simp [h2, Engine.initial]
  · simp [h2, Engine.initial]
  · simp [h2, Engine.initial]
  · simp [h2, Engine.initial]
  · simp [h2, Engine.initial]
  · simp [h3]
  · simp [h4]
  · simp [h5]
  · simp [h6, Scheduler.initial]
  · simp [h6, Scheduler.initial]

/-- RESTART leaves a line in its reset values; a character or break being sent ends by itself (R41, R138). -/
theorem restart_sound {s : State} (h : ∀ k, LineSound (s.line k)) (k : LineId) :
    LineSound ((restartAll s).line k) := by
  have hport : ∀ x : Line, LineSound x → (restartLine x).port.tx ≠ .idle ∧ (∃ j n, x.port.tx = .sendingBreak j n) ∨
      PortFits (restartLine x) := by
    intro x hx
    have ht := hx.portFits
    rcases htx : x.port.tx with _ | ⟨chars, position, finishing⟩ | ⟨jam, left⟩
    · right
      have hp : restartPort x.port = x.port := by unfold restartPort; rw [htx]
      refine ⟨?_, ?_⟩
      · show transmitFits Engine.initial (restartPort x.port).tx
        rw [hp, htx]; simp [transmitFits, Engine.initial]
      · show (restartPort x.port).driverEnable = true ↔ (restartPort x.port).tx ≠ .idle
        rw [hp]; exact ht.driver
    · right
      have hd : x.port.driverEnable = true := ht.driver.2 (by simp [htx])
      have hp : ∃ cs pos, (restartPort x.port).tx = .frame cs pos true ∧ (restartPort x.port).driverEnable = true := by
        unfold restartPort
        rw [htx]
        cases finishing
        · exact ⟨_, _, rfl, hd⟩
        · exact ⟨chars, position, htx, hd⟩
      obtain ⟨cs, pos, hp, hpd⟩ := hp
      refine ⟨?_, ?_⟩
      · show transmitFits Engine.initial (restartPort x.port).tx
        rw [hp]; simp [transmitFits, Engine.initial]
      · show (restartPort x.port).driverEnable = true ↔ (restartPort x.port).tx ≠ .idle
        simp [hp, hpd]
    · left
      have hp : restartPort x.port = x.port := by unfold restartPort; rw [htx]
      refine ⟨?_, jam, left, rfl⟩
      show (restartPort x.port).tx ≠ .idle
      rw [hp, htx]; simp
  have hend : ∀ (l : LineId) (t : State), (∃ x, LineSound x ∧ t.line l = restartLine x) →
      LineSound ((endBreak l t).line l) := by
    rintro l t ⟨x, hx, ht⟩
    unfold endBreak
    have init : ∀ y : Line, y = restartLine x → PortFits y → LineSound y := by
      rintro y rfl hp
      exact .initial rfl rfl rfl rfl rfl hp
    split
    · have hex : ExchangeSound (t.line l) := by
        rw [ht]
        have := LineSound.initial (x := { restartLine x with port := LinePort.initial }) rfl rfl rfl rfl rfl
          ⟨by simp [transmitFits, LinePort.initial, restartLine, Line.initial, Engine.initial], by simp [LinePort.initial]⟩
        exact this.exchangeSound.congr
      obtain ⟨a, b, c, d, -⟩ := releaseDriver_exchange hex
      exact .of_parts a (.quiet (by rw [d, ht]; simp [restartLine, Line.initial, Engine.initial]) b c)
    · rename_i htx
      rcases hport x hx with ⟨hne, -⟩ | hp
      · rw [ht] at htx
        exact absurd htx hne
      · rw [ht]; exact init _ rfl hp
    · rename_i htx
      rcases hport x hx with ⟨-, j, n, hb⟩ | hp
      · rw [ht] at htx
        have : restartPort x.port = x.port := by unfold restartPort; rw [hb]
        have htx : (restartPort x.port).tx = _ := htx
        rw [this, hb] at htx
        simp at htx
      · rw [ht]; exact init _ rfl hp
  unfold restartAll
  cases k
  · rw [(endBreak_work .b _).other .a (by simp)]
    exact hend .a _ ⟨s.lineA, h .a, rfl⟩
  · refine hend .b _ ⟨s.lineB, h .b, ?_⟩
    rw [(endBreak_work .a _).other .b (by simp)]
    rfl

theorem stopLine_sound {l : LineId} (purge : Bool) {s : State} (h : LineSound (s.line l)) :
    LineSound ((stopLine l purge s).line l) := by
  have hs : LineSound ((if purge = true then purgeLine l s else s).line l) := by
    split
    · rw [purgeLine_line]; exact h.quiet
    · exact h
  have hst : ∀ t : State, LineSound (t.line l) → (t.line l).lineState ≠ .stopped →
      (t.line l).lineState ≠ .stopping → LineSound ((enterStopping l purge t).line l) := by
    intro t ht _ _
    have hx := ht.exchangeSound
    unfold enterStopping
    rw [changeLineState_line, modifyLine_line_same]
    exact .of_parts ⟨hx.order, fun _ => .inr rfl, hx.reply, hx.window, hx.gap, hx.settling, hx.breakHold,
      fun hc => absurd rfl hc, fun hc => absurd rfl hc, fun _ => rfl, fun hc => by simp at hc,
      fun hc => by simp at hc⟩ (ht.portFits.congr rfl rfl rfl rfl)
  have idle : ∀ t : State, LineSound (t.line l) → (t.line l).lineState ≠ .running →
      (t.line l).lineState ≠ .stopping → (t.line l).engine.state = .idle := by
    intro t ht h1 h2
    by_contra hc
    rcases ht.exchange hc with hc | hc
    · exact h1 hc
    · exact h2 hc
  unfold stopLine
  dsimp only
  revert hs
  generalize (if purge = true then purgeLine l s else s) = t
  intro hs
  split
  · exact hs
  · rename_i hl
    split
    · rename_i hc; exact enterStopped_sound hs hc.1
    · exact hst t hs (by simp [hl]) (by simp [hl])
  · rename_i hl
    split
    · exact hst t hs (by simp [hl]) (by simp [hl])
    · exact enterStopped_sound hs (idle t hs (by simp [hl]) (by simp [hl]))
  · rename_i hl
    split
    · exact hst t hs (by simp [hl]) (by simp [hl])
    · exact enterStopped_sound hs (idle t hs (by simp [hl]) (by simp [hl]))
  · rename_i hl
    have hx := hs.exchangeSound
    rw [modifyLine_line_same]
    exact .of_parts ⟨hx.order, hx.exchange, hx.reply, hx.window, hx.gap, hx.settling, hx.breakHold, hx.holdoff,
      hx.idleWait, fun _ => hl, hx.stopped, hx.fault⟩ (hs.portFits.congr rfl rfl rfl rfl)

theorem startLine_sound {l : LineId} {s : State} (h : LineSound (s.line l))
    (hl : (s.line l).lineState = .stopped) : LineSound ((startLine l s).line l) := by
  have hx := h.exchangeSound
  have hh : (s.line l).holdoffTimer = .stopped := by
    by_contra hn; have := hx.holdoff hn; simp [hl] at this
  have hi : (s.line l).idleWait = .stopped := by
    by_contra hn; have := hx.idleWait hn; simp [hl] at this
  have hp : (s.line l).purgePending = false := by
    by_contra hn; have := hx.purge (by simpa using hn); simp [hl] at this
  have hr : LineSound ((changeLineState l .running .request s).line l) := by
    rw [changeLineState_line]
    exact .of_parts (hx.atRunning rfl rfl hh hi hp) (h.portFits.congr rfl rfl rfl rfl)
  obtain ⟨a, -, c⟩ := nodesToPending_lineSound (fun n => n.state != .pending) hr
  exact checkStuck_sound (startRound_sound a (c.trans (by rw [changeLineState_line]))).1

theorem closeSub_change (r : SubRecord) (s : State) (k : LineId) :
    TableChange (s.line k) ((closeSub r s).line k) := by
  have hd : ∀ t : State, (discardSamples r t).line k = t.line k := fun t => line_eq rfl rfl k
  have hp : TableChange (s.line k) ((prunePolls r.line [r.id]
      (withdrawReport (.subState r.id r.uid) (withdrawReport (.sampleReady r.id r.uid)
        (discardSamples r s)))).line k) := by
    unfold prunePolls withdrawReport
    by_cases hk : k = r.line
    · subst hk
      simp only [modifySched_modifyLine, modifyLine_line_same, modifyDelivery_line, hd]
      exact ⟨(s.line r.line).nodes, _, rfl, fun hp => by rw [hp]; rfl⟩
    · simp only [modifySched_modifyLine, modifyLine_line_other _ _ hk, modifyDelivery_line, hd]
      exact .refl _
  unfold closeSub
  dsimp only
  split
  · rw [updateSub_line]; exact hp
  · rw [freeSub_line]; exact hp

theorem service_sound {run : Service} (hr : RequestService run) {s : State}
    (h : ∀ k, LineSound (s.line k)) (p : List Byte) : ∀ k, LineSound ((run p s).1.line k) := by
  have one : ∀ {t : State} (l : LineId), (∀ k, k ≠ l → t.line k = s.line k) → LineSound (t.line l) →
      ∀ k, LineSound (t.line k) := fun l ho hl => bothLines_modify h ho hl
  cases hr with
  | hello =>
    unfold runHello
    dsimp only
    split
    · intro k
      show LineSound ((attachLink _ _ s).line k)
      rw [attachLink_line]
      exact h k
    · exact h
  | restart periodsA periodsB => exact restart_sound (playPeriods_sound .b periodsB (playPeriods_sound .a periodsA h))
  | lineSet =>
    refine onLine_keeps (P := fun t => ∀ k, LineSound (t.line k)) h fun l => ?_
    split
    · exact h
    · split
      · exact h
      · rename_i c _
        refine one (t := setConfig l c s) l ?_ ?_
        · intro k hk
          unfold setConfig
          rw [(nodesToPending_work (l := l) _ _).other k hk, modifyLine_line_other _ _ hk]
        · unfold setConfig
          refine (nodesToPending_lineSound _ ?_).1
          rw [modifyLine_line_same]
          exact (h l).quiet
  | lineStart =>
    refine onLine_keeps (P := fun t => ∀ k, LineSound (t.line k)) h fun l => ?_
    split
    · rename_i hl
      exact one l (startLine_work l s).other (startLine_sound (h l) hl)
    · exact h
  | lineStop =>
    exact onLine_keeps (P := fun t => ∀ k, LineSound (t.line k)) h fun l =>
      one l (stopLine_work l _ s).other (stopLine_sound _ (h l))
  | lineResync =>
    refine onLine_keeps (P := fun t => ∀ k, LineSound (t.line k)) h fun l => ?_
    have hr : (s.line l).lineState = .running ∨ (s.line l).lineState = .holdoff →
        ∀ k, LineSound ((requestResync l s).line k) := by
      intro hl
      refine one l (modifySched_work s _).other ?_
      have hx := (h l).exchangeSound
      unfold requestResync
      rw [modifySched_modifyLine, modifyLine_line_same]
      refine .of_parts ⟨hx.order, hx.exchange, hx.reply, hx.window, hx.gap, hx.settling, hx.breakHold, hx.holdoff,
        hx.idleWait, hx.purge, fun hs => ?_, fun hs => ?_⟩ ((h l).portFits.congr rfl rfl rfl rfl)
      · have hs : (s.line l).lineState = .stopped := hs
        rcases hl with hl | hl <;> simp [hl] at hs
      · have hs : (s.line l).lineState = .fault := hs
        rcases hl with hl | hl <;> simp [hl] at hs
    split
    · rename_i hl; exact hr (.inl hl)
    · rename_i hl; exact hr (.inr hl)
    all_goals exact h
  | lineQuery => exact onLine_keeps (P := fun t => ∀ k, LineSound (t.line k)) h fun l => h
  | nodeAdd =>
    refine onNode_keeps (P := fun t => ∀ k, LineSound (t.line k)) h fun l n hn => ?_
    split
    · exact h
    · refine one (t := addNode l n s) l ?_ ?_
      · intro k hk
        rw [addNode_line, modifyLine_line_other _ _ hk]
      · rw [addNode_line, modifyLine_line_same]
        exact (h l).quiet
  | nodeRemove =>
    refine onNode_keeps (P := fun t => ∀ k, LineSound (t.line k)) h fun l n hn => ?_
    split
    · exact h
    · rename_i m _
      split
      · refine one (t := removeNode l m s) l ?_ ?_
        · intro k hk
          unfold removeNode withdrawReport
          rw [modifyDelivery_line, modifyLine_line_other _ _ hk]
        · unfold removeNode withdrawReport
          rw [modifyDelivery_line, modifyLine_line_same]
          exact (h l).quiet
      · exact h
  | nodeQuery =>
    refine onNode_keeps (P := fun t => ∀ k, LineSound (t.line k)) h fun l n _ => ?_
    split <;> exact h
  | subOpen =>
    unfold runSubOpen
    split
    · exact h
    · unfold judgeOpen
      split
      · exact h
      · split
        · exact h
        · split
          · exact h
          · split
            · exact h
            · split
              · intro k
                rw [line_eq (s := s) (by rfl) (by rfl) k]
                exact h k
              · exact h
  | subClose =>
    unfold runSubClose
    split
    · exact h
    · split
      · exact fun k => (h k).change (closeSub_change _ s k)
      · exact h
  | subFetch =>
    unfold runSubFetch
    split
    · exact h
    · split
      · exact h
      · split
        · intro k
          show LineSound ((takeSamples _ _ s).line k)
          rw [takeSamples_line]
          exact h k
        · exact h
  | subQuery =>
    unfold runSubQuery
    split <;> exact h
  | txnSubmit =>
    have hsub : ∀ f, ∀ k, LineSound ((submitTxn f s).line k) := by
      intro f
      refine one f.line ?_ ?_
      · intro k hk
        rw [submitTxn_line, modifyLine_line_other _ _ hk]
      · rw [submitTxn_line, modifyLine_line_same]
        exact (h f.line).quiet
    unfold runTxnSubmit
    split
    · exact h
    · unfold judgeSubmit
      split
      · exact h
      · split
        · split
          · exact hsub _
          · exact h
        · split
          · exact h
          · split
            · exact h
            · split
              · exact hsub _
              · exact h
  | txnCancel =>
    unfold runTxnCancel
    split
    · exact h
    · split
      · exact h
      · split
        · rename_i t _ _ _
          refine one (t := cancelTxn t s) t.line ?_ ?_
          · intro k hk
            unfold cancelTxn leaveQueue
            rw [completeTxn_line, modifyLine_line_other _ _ hk]
          · unfold cancelTxn leaveQueue
            rw [completeTxn_line, modifyLine_line_same]
            exact (h _).quiet
        all_goals exact h
  | statsRead =>
    have hmod : ∀ (l : LineId) (f : Line → Line), LineSound (f (s.line l)) →
        ∀ k, LineSound ((s.modifyLine l f).line k) := fun l f hf =>
      one l (fun k hk => modifyLine_line_other s f hk) (by rw [modifyLine_line_same]; exact hf)
    unfold runStatsRead
    dsimp only
    split
    · exact h
    · split
      · refine onLine_keeps (P := fun t => ∀ k, LineSound (t.line k)) h fun l => ?_
        unfold readLineStats answerOk
        dsimp only
        split
        · exact hmod l _ (h l).quiet
        · exact h
      · split
        · refine onLine_keeps (P := fun t => ∀ k, LineSound (t.line k)) h fun l => ?_
          split
          · unfold readNodeStats
            split
            · exact h
            · unfold answerOk
              dsimp only
              split
              · exact hmod l _ (h l).quiet
              · exact h
          · exact h
        · unfold readLinkStats answerOk
          dsimp only
          split
          · intro k; rw [countLink_modifyLink, modifyLink_line]; exact h k
          · exact h
  | unknown => exact h

theorem takeRequest_sound {accepts : Byte → Bool} {run : Service} (hr : RequestService run) {s : State}
    (h : ∀ k, LineSound (s.line k)) : ∀ k, LineSound ((takeRequest accepts run s).line k) := by
  refine takeRequest_keeps (P := fun t => ∀ k, LineSound (t.line k)) h
    (fun m rest _ _ k => by rw [modifyLink_line]; exact h k) ?_
    (fun m t ht _ k => by rw [(queueResponse_deliveryWork m t).lines]; exact ht k)
    (fun t f ht k => by rw [countLink_modifyLink, modifyLink_line]; exact ht k)
  intro m rest _ _ _ ht k
  rw [(completeRequest_deliveryWork m _).lines]
  exact service_sound hr ht m.payload k

/-! ### The clock -/

theorem clkTickLine_sound {x : Line} (h : LineSound x) : LineSound (clkTickLine x) := by
  unfold clkTickLine
  dsimp only
  split
  · exact linePeriod_sound _ h.quiet
  · exact h.quiet

theorem msTickLine_sound {x : Line} (h : LineSound x) : LineSound (msTickLine x) := by
  have hm : ∀ t : MsTimer, t.count ≠ .stopped → t ≠ .stopped := by
    intro t; cases t <;> simp [MsTimer.count]
  have hr : ∀ t : RoundTimer, t = .stopped → t.count = .stopped := by
    rintro t rfl; rfl
  exact .of_parts (h.exchangeSound.congr (h8 := hm _) (h9 := hm _) (h11 := hr _)) (h.portFits.congr rfl rfl rfl rfl)

theorem clkTick_sound {s : State} (h : ∀ k, LineSound (s.line k)) : ∀ k, LineSound ((clkTick s).line k) := by
  intro k
  unfold clkTick
  dsimp only
  split
  · exact h k
  · split
    · cases k
      · exact clkTickLine_sound (h .a)
      · exact clkTickLine_sound (h .b)
    · cases k
      · exact msTickLine_sound (clkTickLine_sound (h .a))
      · exact msTickLine_sound (clkTickLine_sound (h .b))

theorem clkTick_resetHeld (s : State) : (clkTick s).resetHeld = s.resetHeld := by
  unfold clkTick
  dsimp only
  split
  · rfl
  · split <;> rfl

/-- Every service keeps the state of the pins' hold. -/
theorem takeRequest_resetHeld {accepts : Byte → Bool} {run : Service} (hr : RequestService run) (s : State) :
    (takeRequest accepts run s).resetHeld = s.resetHeld := by
  refine takeRequest_keeps (P := fun t => t.resetHeld = s.resetHeld) rfl (fun _ _ _ _ => rfl) ?_
    (fun _ _ ht _ => ht) (fun _ _ ht => ht)
  intro m rest _ _ _ _
  rw [(completeRequest_deliveryWork m _).resetHeld, (service_work hr m.payload _).resetHeld]
  rfl

end Sys2Proof.Machine
end

