-- ==== Sys2Proof/Laws/PerInstr.lean ====
section
/-! SUPPORT. Statements made once per command: the two lines are alike in what may be commanded of them
(1.2), command by command. -/

namespace Sys2Proof.Laws.LineOfCommand

open Sys2Proof Sys2Proof.Machine

/-- The other line. -/
def otherLine : LineId → LineId
  | .a => .b
  | .b => .a

/-- The command with the two lines exchanged. -/
def mirror : Instr → Instr
  | .pinReset rate1 rate0 levelA levelB => .pinReset rate1 rate0 levelB levelA
  | .messageReceived m => .messageReceived m
  | .messageGapTimeout => .messageGapTimeout
  | .acknowledgement sequence payload check => .acknowledgement sequence payload check
  | .hello => .hello
  | .restart periodsA periodsB => .restart periodsB periodsA
  | .lineSet => .lineSet
  | .lineStart => .lineStart
  | .lineStop => .lineStop
  | .lineResync => .lineResync
  | .lineQuery => .lineQuery
  | .nodeAdd => .nodeAdd
  | .nodeRemove => .nodeRemove
  | .nodeQuery => .nodeQuery
  | .subOpen => .subOpen
  | .subClose => .subClose
  | .subFetch => .subFetch
  | .subQuery => .subQuery
  | .txnSubmit => .txnSubmit
  | .txnCancel => .txnCancel
  | .statsRead => .statsRead
  | .unknownRequest => .unknownRequest
  | .hostTransmitEnd => .hostTransmitEnd
  | .ackTimeout => .ackTimeout
  | .roundTimerExpiry l => .roundTimerExpiry (otherLine l)
  | .roundStart l => .roundStart (otherLine l)
  | .quietEnd l => .quietEnd (otherLine l)
  | .arbiterChoice l periods => .arbiterChoice (otherLine l) periods
  | .transmitEnd l periods => .transmitEnd (otherLine l) periods
  | .responseWindowExpiry l => .responseWindowExpiry (otherLine l)
  | .characterEnd l periods => .characterEnd (otherLine l) periods
  | .gapTimerExpiry l => .gapTimerExpiry (otherLine l)
  | .settlingEnd l periods => .settlingEnd (otherLine l) periods
  | .breakDetected l periods => .breakDetected (otherLine l) periods
  | .breakEnd l periods => .breakEnd (otherLine l) periods
  | .stuck l periods => .stuck (otherLine l) periods
  | .stuckEnd l periods => .stuckEnd (otherLine l) periods
  | .contention l periods => .contention (otherLine l) periods
  | .jamBreakEnd l periods => .jamBreakEnd (otherLine l) periods
  | .breakOrderEnd l periods => .breakOrderEnd (otherLine l) periods
  | .holdoffExpiry l => .holdoffExpiry (otherLine l)
  | .idleWaitExpiry l => .idleWaitExpiry (otherLine l)
  | .startBegun l periods => .startBegun (otherLine l) periods
  | .falseStart l periods => .falseStart (otherLine l) periods
  | .returnHigh l periods => .returnHigh (otherLine l) periods
  | .byteReceived b => .byteReceived b
  | .resetNLow => .resetNLow

/-- The mirrored command is of the other line if it is of a line, is well formed exactly when the command
is, and mirrors back to the command. -/
def Statement (c : Instr) : Prop :=
  lineOf (mirror c) = (lineOf c).map otherLine ∧ (mirror c).wellFormed = c.wellFormed ∧ mirror (mirror c) = c

theorem otherLine_otherLine (l : LineId) : otherLine (otherLine l) = l := by cases l <;> rfl

theorem pinReset (rate1 rate0 levelA levelB : PinLevel) : Statement (.pinReset rate1 rate0 levelA levelB) := ⟨rfl, rfl, rfl⟩
theorem messageReceived (m : ReceivedMessage) : Statement (.messageReceived m) := ⟨rfl, rfl, rfl⟩
theorem messageGapTimeout : Statement (.messageGapTimeout) := ⟨rfl, rfl, rfl⟩
theorem acknowledgement (sequence : Byte) (payload : List Byte) (check : Word16) : Statement (.acknowledgement sequence payload check) := ⟨rfl, rfl, rfl⟩
theorem hello : Statement (.hello) := ⟨rfl, rfl, rfl⟩
theorem restart (periodsA periodsB : Periods) : Statement (.restart periodsA periodsB) := ⟨rfl, rfl, rfl⟩
theorem lineSet : Statement (.lineSet) := ⟨rfl, rfl, rfl⟩
theorem lineStart : Statement (.lineStart) := ⟨rfl, rfl, rfl⟩
theorem lineStop : Statement (.lineStop) := ⟨rfl, rfl, rfl⟩
theorem lineResync : Statement (.lineResync) := ⟨rfl, rfl, rfl⟩
theorem lineQuery : Statement (.lineQuery) := ⟨rfl, rfl, rfl⟩
theorem nodeAdd : Statement (.nodeAdd) := ⟨rfl, rfl, rfl⟩
theorem nodeRemove : Statement (.nodeRemove) := ⟨rfl, rfl, rfl⟩
theorem nodeQuery : Statement (.nodeQuery) := ⟨rfl, rfl, rfl⟩
theorem subOpen : Statement (.subOpen) := ⟨rfl, rfl, rfl⟩
theorem subClose : Statement (.subClose) := ⟨rfl, rfl, rfl⟩
theorem subFetch : Statement (.subFetch) := ⟨rfl, rfl, rfl⟩
theorem subQuery : Statement (.subQuery) := ⟨rfl, rfl, rfl⟩
theorem txnSubmit : Statement (.txnSubmit) := ⟨rfl, rfl, rfl⟩
theorem txnCancel : Statement (.txnCancel) := ⟨rfl, rfl, rfl⟩
theorem statsRead : Statement (.statsRead) := ⟨rfl, rfl, rfl⟩
theorem unknownRequest : Statement (.unknownRequest) := ⟨rfl, rfl, rfl⟩
theorem hostTransmitEnd : Statement (.hostTransmitEnd) := ⟨rfl, rfl, rfl⟩
theorem ackTimeout : Statement (.ackTimeout) := ⟨rfl, rfl, rfl⟩
theorem roundTimerExpiry (l : LineId) : Statement (.roundTimerExpiry l) :=
  ⟨rfl, rfl, congrArg (fun k => Instr.roundTimerExpiry k) (otherLine_otherLine l)⟩
theorem roundStart (l : LineId) : Statement (.roundStart l) :=
  ⟨rfl, rfl, congrArg (fun k => Instr.roundStart k) (otherLine_otherLine l)⟩
theorem quietEnd (l : LineId) : Statement (.quietEnd l) :=
  ⟨rfl, rfl, congrArg (fun k => Instr.quietEnd k) (otherLine_otherLine l)⟩
theorem arbiterChoice (l : LineId) (periods : Periods) : Statement (.arbiterChoice l periods) :=
  ⟨rfl, rfl, congrArg (fun k => Instr.arbiterChoice k periods) (otherLine_otherLine l)⟩
theorem transmitEnd (l : LineId) (periods : Periods) : Statement (.transmitEnd l periods) :=
  ⟨rfl, rfl, congrArg (fun k => Instr.transmitEnd k periods) (otherLine_otherLine l)⟩
theorem responseWindowExpiry (l : LineId) : Statement (.responseWindowExpiry l) :=
  ⟨rfl, rfl, congrArg (fun k => Instr.responseWindowExpiry k) (otherLine_otherLine l)⟩
theorem characterEnd (l : LineId) (periods : Periods) : Statement (.characterEnd l periods) :=
  ⟨rfl, rfl, congrArg (fun k => Instr.characterEnd k periods) (otherLine_otherLine l)⟩
theorem gapTimerExpiry (l : LineId) : Statement (.gapTimerExpiry l) :=
  ⟨rfl, rfl, congrArg (fun k => Instr.gapTimerExpiry k) (otherLine_otherLine l)⟩
theorem settlingEnd (l : LineId) (periods : Periods) : Statement (.settlingEnd l periods) :=
  ⟨rfl, rfl, congrArg (fun k => Instr.settlingEnd k periods) (otherLine_otherLine l)⟩
theorem breakDetected (l : LineId) (periods : Periods) : Statement (.breakDetected l periods) :=
  ⟨rfl, rfl, congrArg (fun k => Instr.breakDetected k periods) (otherLine_otherLine l)⟩
theorem breakEnd (l : LineId) (periods : Periods) : Statement (.breakEnd l periods) :=
  ⟨rfl, rfl, congrArg (fun k => Instr.breakEnd k periods) (otherLine_otherLine l)⟩
theorem stuck (l : LineId) (periods : Periods) : Statement (.stuck l periods) :=
  ⟨rfl, rfl, congrArg (fun k => Instr.stuck k periods) (otherLine_otherLine l)⟩
theorem stuckEnd (l : LineId) (periods : Periods) : Statement (.stuckEnd l periods) :=
  ⟨rfl, rfl, congrArg (fun k => Instr.stuckEnd k periods) (otherLine_otherLine l)⟩
theorem contention (l : LineId) (periods : Periods) : Statement (.contention l periods) :=
  ⟨rfl, rfl, congrArg (fun k => Instr.contention k periods) (otherLine_otherLine l)⟩
theorem jamBreakEnd (l : LineId) (periods : Periods) : Statement (.jamBreakEnd l periods) :=
  ⟨rfl, rfl, congrArg (fun k => Instr.jamBreakEnd k periods) (otherLine_otherLine l)⟩
theorem breakOrderEnd (l : LineId) (periods : Periods) : Statement (.breakOrderEnd l periods) :=
  ⟨rfl, rfl, congrArg (fun k => Instr.breakOrderEnd k periods) (otherLine_otherLine l)⟩
theorem holdoffExpiry (l : LineId) : Statement (.holdoffExpiry l) :=
  ⟨rfl, rfl, congrArg (fun k => Instr.holdoffExpiry k) (otherLine_otherLine l)⟩
theorem idleWaitExpiry (l : LineId) : Statement (.idleWaitExpiry l) :=
  ⟨rfl, rfl, congrArg (fun k => Instr.idleWaitExpiry k) (otherLine_otherLine l)⟩
theorem startBegun (l : LineId) (periods : Periods) : Statement (.startBegun l periods) :=
  ⟨rfl, rfl, congrArg (fun k => Instr.startBegun k periods) (otherLine_otherLine l)⟩
theorem falseStart (l : LineId) (periods : Periods) : Statement (.falseStart l periods) :=
  ⟨rfl, rfl, congrArg (fun k => Instr.falseStart k periods) (otherLine_otherLine l)⟩
theorem returnHigh (l : LineId) (periods : Periods) : Statement (.returnHigh l periods) :=
  ⟨rfl, rfl, congrArg (fun k => Instr.returnHigh k periods) (otherLine_otherLine l)⟩
theorem byteReceived (b : SampledByte) : Statement (.byteReceived b) := ⟨rfl, rfl, rfl⟩
theorem resetNLow : Statement (.resetNLow) := ⟨rfl, rfl, rfl⟩

end Sys2Proof.Laws.LineOfCommand
end

