-- ==== Sys2Proof/Laws/Pool.lean ====
section
/-! SUPPORT. What every operation does to the sample pool and the subscription records. -/

namespace Sys2Proof.Machine

open Sys2Proof

/-! ### One record of a list replaced -/

/-- The map of `updateSub`. -/
def replaceSub (id uid : Nat) (f : SubRecord → SubRecord) (subs : List SubRecord) : List SubRecord :=
  subs.map fun r => if r.id = id ∧ r.uid = uid then f r else r

theorem updateSub_subs (id uid : Nat) (f : SubRecord → SubRecord) (s : State) :
    (updateSub id uid f s).subs = replaceSub id uid f s.subs := rfl

/-- A sum over the records changes by the one replaced. -/
theorem replaceSub_sum {subs : List SubRecord} (hn : (subs.map (·.id)).Nodup) {r : SubRecord}
    (hr : r ∈ subs) (f : SubRecord → SubRecord) (w : SubRecord → Nat) :
    ((replaceSub r.id r.uid f subs).map w).sum + w r = (subs.map w).sum + w (f r) := by
  induction subs with
  | nil => simp at hr
  | cons q rest ih =>
    simp only [List.map_cons, List.nodup_cons] at hn
    have untouched : (∀ q ∈ rest, q.id ≠ r.id) → replaceSub r.id r.uid f rest = rest := by
      intro h
      unfold replaceSub
      conv_rhs => rw [← List.map_id rest]
      apply List.map_congr_left
      intro q hq
      simp [h q hq]
    rcases List.mem_cons.1 hr with rfl | hr
    · have := untouched fun q hq he => hn.1 (List.mem_map.2 ⟨q, hq, he⟩)
      simp only [replaceSub] at this
      simp only [replaceSub, List.map_cons, and_self, if_true, List.sum_cons, this]
      omega
    · have hne : q.id ≠ r.id := fun he => hn.1 (List.mem_map.2 ⟨r, hr, he.symm⟩)
      have := ih hn.2 hr
      simp only [replaceSub] at this
      simp only [replaceSub, List.map_cons, hne, false_and, if_false, List.sum_cons]
      omega

/-- A record of the result is the replaced one or another of the list. -/
theorem replaceSub_mem {subs : List SubRecord} (hn : (subs.map (·.id)).Nodup) {r : SubRecord}
    (hr : r ∈ subs) (f : SubRecord → SubRecord) {q : SubRecord} (hq : q ∈ replaceSub r.id r.uid f subs) :
    q = f r ∨ (q ∈ subs ∧ q ≠ r) := by
  unfold replaceSub at hq
  obtain ⟨p, hp, rfl⟩ := List.mem_map.1 hq
  split
  · rename_i he
    have : p = r := List.inj_on_of_nodup_map hn hp hr he.1
    exact .inl (by rw [this])
  · rename_i he
    refine .inr ⟨hp, ?_⟩
    rintro rfl
    exact he ⟨rfl, rfl⟩

theorem replaceSub_ids (subs : List SubRecord) (id uid : Nat) (f : SubRecord → SubRecord)
    (hf : ∀ r, (f r).id = r.id) : (replaceSub id uid f subs).map (·.id) = subs.map (·.id) := by
  unfold replaceSub
  rw [List.map_map]
  apply List.map_congr_left
  intro r _
  simp only [Function.comp]
  split
  · exact hf r
  · rfl

theorem findSubRecord_mem {s : State} {id uid : Nat} {r : SubRecord} (h : findSubRecord s id uid = some r) :
    r ∈ s.subs ∧ r.id = id ∧ r.uid = uid := by
  refine ⟨List.mem_of_find?_eq_some h, ?_⟩
  have := List.find?_some h
  simpa using this

theorem findSub_mem {s : State} {id : Nat} {r : SubRecord} (h : findSub s id = some r) :
    r ∈ s.subs ∧ r.id = id := by
  refine ⟨List.mem_of_find?_eq_some h, ?_⟩
  have := List.find?_some h
  simpa using this

/-- The weight of an open subscription without samples: its reservation (R79). -/
def reservation (r : SubRecord) : Nat := if r.isOpen && r.queue.isEmpty then 1 else 0

theorem reservation_le_one (r : SubRecord) : reservation r ≤ 1 := by
  unfold reservation
  split <;> omega

theorem emptyOpen_sum (s : State) : emptyOpen s = (s.subs.map reservation).sum := by
  unfold emptyOpen
  induction s.subs with
  | nil => rfl
  | cons r rest ih =>
    by_cases h : (r.isOpen && r.queue.isEmpty) = true
    · simp only [List.filter_cons, h, if_true, List.length_cons, ih, List.map_cons, List.sum_cons, reservation]
      omega
    · simp only [List.filter_cons, h, List.map_cons, List.sum_cons, reservation]
      simpa [h] using ih

/-! ### The pool -/

/-- What of a record the pool's bookkeeping allows: one of R62, R82, R86 and R94. -/
structure SubSound (r : SubRecord) : Prop where
  idRange : 1 ≤ r.id ∧ r.id ≤ 48
  depth : 1 ≤ r.depth ∧ r.depth ≤ 8 ∧ r.queue.length ≤ r.depth
  closing : r.state = .closing → r.queue = []
  notice : r.notice = .none ↔ r.queue = []

theorem PoolConserved.sound {s : State} (h : PoolConserved s) {r : SubRecord} (hr : r ∈ s.subs) : SubSound r :=
  ⟨h.idRange r hr, h.depth r hr, h.closing r hr, h.notice r hr⟩

theorem PoolConserved.of_sound {s : State} (blocks : s.freeBlocks + heldBlocks s = 96)
    (reserved : emptyOpen s ≤ s.freeBlocks) (ids : (s.subs.map (·.id)).Nodup)
    (sound : ∀ r ∈ s.subs, SubSound r) : PoolConserved s :=
  ⟨blocks, reserved, ids, fun r h => (sound r h).idRange, fun r h => (sound r h).depth,
    fun r h => (sound r h).closing, fun r h => (sound r h).notice⟩

theorem PoolConserved.congr {s t : State} (h : PoolConserved s) (hs : t.subs = s.subs)
    (hf : t.freeBlocks = s.freeBlocks) : PoolConserved t := by
  have hh : heldBlocks t = heldBlocks s := by unfold heldBlocks; rw [hs]
  have he : emptyOpen t = emptyOpen s := by unfold emptyOpen; rw [hs]
  exact .of_sound (by rw [hf, hh]; exact h.blocks) (by rw [hf, he]; exact h.reserved) (hs ▸ h.ids)
    (by rw [hs]; exact fun r hr => h.sound hr)

/-- One record is replaced, and the free blocks follow. -/
theorem PoolConserved.replace {s t : State} (h : PoolConserved s) {r : SubRecord} (hr : r ∈ s.subs)
    (f : SubRecord → SubRecord) (ht : t.subs = replaceSub r.id r.uid f s.subs) (hid : ∀ r, (f r).id = r.id)
    (sound : SubSound (f r))
    (blocks : t.freeBlocks + (f r).queue.length = s.freeBlocks + r.queue.length)
    (reserved : reservation (f r) + s.freeBlocks ≤ t.freeBlocks + reservation r ∨
      emptyOpen s + reservation (f r) ≤ t.freeBlocks + reservation r) : PoolConserved t := by
  have hw := replaceSub_sum h.ids hr f fun q => q.queue.length
  have he := replaceSub_sum h.ids hr f reservation
  have hb := h.blocks
  have hres := h.reserved
  rw [emptyOpen_sum] at hres
  refine .of_sound ?_ ?_ ?_ ?_
  · unfold heldBlocks at *
    rw [ht]
    omega
  · rw [emptyOpen_sum, ht]
    rcases reserved with hr | hr
    · omega
    · rw [emptyOpen_sum] at hr; omega
  · rw [ht, replaceSub_ids _ _ _ _ hid]
    exact h.ids
  · rw [ht]
    intro q hq
    rcases replaceSub_mem h.ids hr f hq with rfl | ⟨hq, -⟩
    · exact sound
    · exact h.sound hq

/-- An update of a record that its bookkeeping does not see. -/
theorem PoolConserved.update {s : State} (h : PoolConserved s) (id uid : Nat) (f : SubRecord → SubRecord)
    (hid : ∀ r, (f r).id = r.id) (hd : ∀ r, (f r).depth = r.depth) (hq : ∀ r, (f r).queue = r.queue)
    (hn : ∀ r, (f r).notice = .none ↔ r.notice = .none)
    (ho : ∀ r ∈ s.subs, r.id = id → r.uid = uid → (f r).isOpen = r.isOpen) :
    PoolConserved (updateSub id uid f s) := by
  by_cases hex : ∃ r ∈ s.subs, r.id = id ∧ r.uid = uid
  · obtain ⟨r, hr, rfl, rfl⟩ := hex
    have hopen := ho r hr rfl rfl
    have hs := h.sound hr
    have hres : reservation (f r) = reservation r := by unfold reservation; rw [hopen, hq]
    refine h.replace hr f rfl hid ⟨by rw [hid]; exact hs.idRange, by rw [hd, hq]; exact hs.depth, ?_,
      by rw [hn, hq]; exact hs.notice⟩ ?_ (.inl ?_)
    · intro hc
      rw [hq]
      apply hs.closing
      have : (f r).isOpen = false := by simp [SubRecord.isOpen, hc]
      rw [hopen] at this
      simpa [SubRecord.isOpen] using this
    · rw [hq]; rfl
    · rw [hres]
      show reservation r + s.freeBlocks ≤ s.freeBlocks + reservation r
      omega
  · refine h.congr ?_ rfl
    show replaceSub id uid f s.subs = s.subs
    unfold replaceSub
    conv_rhs => rw [← List.map_id s.subs]
    apply List.map_congr_left
    intro r hr
    rw [if_neg fun he => hex ⟨r, hr, he.1, he.2⟩]
    rfl

/-- Records without samples are freed. -/
theorem PoolConserved.filter {s t : State} (h : PoolConserved s) (keep : SubRecord → Bool)
    (ht : t.subs = s.subs.filter keep) (hf : t.freeBlocks = s.freeBlocks)
    (hq : ∀ r ∈ s.subs, keep r = false → r.queue = []) : PoolConserved t := by
  have hsum : ((s.subs.filter keep).map fun r => r.queue.length).sum = (s.subs.map fun r => r.queue.length).sum ∧
      ((s.subs.filter keep).map reservation).sum ≤ (s.subs.map reservation).sum := by
    clear ht hf
    have hb : ∀ r ∈ s.subs, keep r = false → r.queue = [] := hq
    generalize s.subs = subs at hb
    induction subs with
    | nil => simp
    | cons r rest ih =>
      have ih := ih fun r hr => hb r (List.mem_cons_of_mem _ hr)
      by_cases hk : keep r = true
      · simp only [List.filter_cons, hk, if_true, List.map_cons, List.sum_cons]
        omega
      · have := hb r List.mem_cons_self (by simpa using hk)
        simp only [List.filter_cons, hk, List.map_cons, List.sum_cons, this, List.length_nil]
        simp only [Bool.false_eq_true, if_false]
        omega
  have hblocks := h.blocks
  have hres := h.reserved
  unfold heldBlocks at hblocks
  rw [emptyOpen_sum] at hres
  refine .of_sound ?_ ?_ ?_ ?_
  · unfold heldBlocks; rw [ht, hf]; omega
  · rw [emptyOpen_sum, ht, hf]; omega
  · rw [ht]; exact (List.filter_sublist.map _).nodup h.ids
  · rw [ht]; exact fun r hr => h.sound (List.mem_of_mem_filter hr)

/-! ### The operations of the Sample Store -/

/-- The notice of the record a store has touched. -/
def noticeRaised (r : SubRecord) : SubRecord :=
  { r with notice := if r.notice = .none then .queued else r.notice }

theorem raiseNotice_subs {s : State} (hn : (s.subs.map (·.id)).Nodup) (id uid : Nat) :
    (raiseNotice id uid s).subs = replaceSub id uid noticeRaised s.subs ∧
      (raiseNotice id uid s).freeBlocks = s.freeBlocks := by
  have same : (∀ q ∈ s.subs, q.id = id → q.uid = uid → noticeRaised q = q) →
      s.subs = replaceSub id uid noticeRaised s.subs := by
    intro h
    unfold replaceSub
    conv_lhs => rw [← List.map_id s.subs]
    apply List.map_congr_left
    intro q hq
    split
    · rename_i he
      exact (h q hq he.1 he.2).symm
    · rfl
  unfold raiseNotice
  split
  · rename_i hf
    refine ⟨same fun q hq hi hu => ?_, rfl⟩
    have := List.find?_eq_none.1 hf q hq
    simp [hi, hu] at this
  · rename_i r hf
    obtain ⟨hr, rfl, rfl⟩ := findSubRecord_mem hf
    split
    · rename_i hnone
      refine ⟨?_, (requestReport_tables _ _).2.1⟩
      rw [(requestReport_tables _ _).1, updateSub_subs]
      unfold replaceSub
      apply List.map_congr_left
      intro q hq
      split
      · rename_i he
        have : q = r := List.inj_on_of_nodup_map hn hq hr he.1
        simp [noticeRaised, this, hnone]
      · rfl
    · rename_i hnone
      refine ⟨same fun q hq hi _ => ?_, rfl⟩
      have : q = r := List.inj_on_of_nodup_map hn hq hr hi
      simp [noticeRaised, this, hnone]

theorem replaceSub_replaceSub (subs : List SubRecord) (id uid : Nat) (f g : SubRecord → SubRecord)
    (hf : ∀ r, (f r).id = r.id) (hu : ∀ r, (f r).uid = r.uid) :
    replaceSub id uid g (replaceSub id uid f subs) = replaceSub id uid (fun r => g (f r)) subs := by
  unfold replaceSub
  rw [List.map_map]
  apply List.map_congr_left
  intro r _
  simp only [Function.comp]
  split
  · rename_i h
    simp [hf, hu, h.1, h.2]
  · simp

/-- The offer of a sample keeps the pool's account (R82 to R87). -/
theorem offerSample_pool {s : State} (h : PoolConserved s) (id uid : Nat) (x : Sample)
    (open_ : ∀ r, findSubRecord s id uid = some r → r.isOpen = true) :
    PoolConserved (offerSample id uid x s) := by
  unfold offerSample
  split
  · exact h
  · rename_i r hf
    have hopen := open_ r hf
    obtain ⟨hr, rfl, rfl⟩ := findSubRecord_mem hf
    have hs := h.sound hr
    have hnc : r.state ≠ .closing := by simpa [SubRecord.isOpen] using hopen
    have hres := h.reserved
    have raised : ∀ (g : SubRecord → SubRecord), (∀ q, (g q).id = q.id) → (∀ q, (g q).uid = q.uid) →
        ∀ t : State, t.subs = replaceSub r.id r.uid g s.subs → (g r).state ≠ .closing →
        (1 ≤ (g r).depth ∧ (g r).depth ≤ 8 ∧ (g r).queue.length ≤ (g r).depth ∧ (g r).queue ≠ []) →
        t.freeBlocks + (g r).queue.length = s.freeBlocks + r.queue.length →
        (s.freeBlocks ≤ t.freeBlocks + reservation r ∨ emptyOpen s ≤ t.freeBlocks + reservation r) →
        PoolConserved (raiseNotice r.id r.uid t) := by
      intro g hgid hguid t ht hgs hgd hgb hgr
      obtain ⟨hsub, hfree⟩ := raiseNotice_subs (s := t)
        (by rw [ht, replaceSub_ids _ _ _ _ hgid]; exact h.ids) r.id r.uid
      rw [ht, replaceSub_replaceSub _ _ _ _ _ hgid hguid] at hsub
      have hne : (noticeRaised (g r)).notice ≠ .none := by
        unfold noticeRaised
        dsimp only
        split
        · simp
        · assumption
      have hzero : reservation (noticeRaised (g r)) = 0 := by
        simp [reservation, noticeRaised, hgd.2.2.2]
      refine h.replace hr (fun q => noticeRaised (g q)) hsub hgid
        ⟨by rw [show (noticeRaised (g r)).id = (g r).id from rfl, hgid]; exact hs.idRange,
          ⟨hgd.1, hgd.2.1, hgd.2.2.1⟩, fun hc => absurd hc hgs,
          ⟨fun hc => absurd hc hne, fun hc => absurd hc hgd.2.2.2⟩⟩ (by rw [hfree]; exact hgb) ?_
      rw [hfree, hzero]
      rcases hgr with hgr | hgr
      · exact .inl (by omega)
      · exact .inr (by omega)
    dsimp only
    split
    · rename_i hout
      have hcond : r.queue = [] ∨ (r.queue.length < r.depth ∧ 1 ≤ spareBlocks s) := by
        unfold offerOutcome at hout
        split at hout
        · left; assumption
        · split at hout
          · right; assumption
          · split at hout <;> simp at hout
      have hone : 1 ≤ s.freeBlocks := by
        rcases hcond with hq | ⟨-, hsp⟩
        · have hin : r ∈ s.subs.filter fun r => r.isOpen && r.queue.isEmpty := by
            simp [hr, hopen, hq]
          have : 1 ≤ emptyOpen s := List.length_pos_of_mem hin
          omega
        · unfold spareBlocks at hsp; omega
      refine raised (fun q => { q with
          queue := q.queue ++ [{ x with sequence := r.nextSequence }], nextSequence := q.nextSequence + 1 })
        (fun _ => rfl) (fun _ => rfl) _ rfl ?_ ?_ ?_ ?_
      · show r.state ≠ .closing
        exact hnc
      · refine ⟨hs.depth.1, hs.depth.2.1, ?_, by simp⟩
        rcases hcond with hq | ⟨hq, -⟩
        · simpa [hq] using hs.depth.1
        · simp; omega
      · simp only [List.length_append, List.length_singleton]
        omega
      · rcases hcond with hq | ⟨-, hsp⟩
        · left
          have : reservation r = 1 := by simp [reservation, hopen, hq]
          simp only [this]
          omega
        · right
          unfold spareBlocks at hsp
          simp only
          omega
    · rename_i hout
      have hq : r.queue ≠ [] := by
        unfold offerOutcome at hout
        split at hout
        · simp at hout
        · assumption
      have hlen : (r.queue.tail).length + 1 = r.queue.length := by
        have := List.length_pos_iff.2 hq
        simp only [List.length_tail]
        omega
      refine raised (fun q => { q with
          queue := q.queue.tail ++ [{ x with sequence := r.nextSequence }]
          nextSequence := q.nextSequence + 1, dropped := satInc q.dropped })
        (fun _ => rfl) (fun _ => rfl) _ rfl hnc ⟨hs.depth.1, hs.depth.2.1, ?_, by simp⟩ ?_ ?_
      · have := hs.depth.2.2
        simp only [List.length_append, List.length_singleton]
        omega
      · simp only [List.length_append, List.length_singleton]
        show s.freeBlocks + _ = _
        omega
      · left
        show s.freeBlocks ≤ s.freeBlocks + reservation r
        omega
    · exact h.update _ _ _ (fun _ => rfl) (fun _ => rfl) (fun _ => rfl) (fun _ => Iff.rfl) fun _ _ _ _ => rfl

/-! ### Subscriptions -/

theorem requestReport_pool {s : State} (h : PoolConserved s) (r : ReportRequest) :
    PoolConserved (requestReport r s) :=
  h.congr (requestReport_tables r s).1 (requestReport_tables r s).2.1

theorem enterFaulted_pool {s : State} (h : PoolConserved s) (id uid : Nat) (reason : FaultReason)
    (open_ : ∀ r ∈ s.subs, r.id = id → r.uid = uid → r.isOpen = true) :
    PoolConserved (enterFaulted id uid reason s) := by
  refine requestReport_pool (h.update id uid _ ?_ ?_ ?_ ?_ ?_) _
  · exact fun _ => rfl
  · exact fun _ => rfl
  · exact fun _ => rfl
  · exact fun _ => Iff.rfl
  · intro r hr hi hu
    rw [open_ r hr hi hu]
    rfl

theorem takeOkReply_pool {s : State} (h : PoolConserved s) {r : SubRecord} (hr : r ∈ s.subs)
    (hopen : r.isOpen = true) (round : Word16) (noisy : Bool) (reply : Reply) :
    PoolConserved (takeOkReply r round noisy reply s) := by
  unfold takeOkReply
  split
  · refine offerSample_pool (h.update r.id r.uid _ ?_ ?_ ?_ ?_ ?_) _ _ _ ?_
    · exact fun _ => rfl
    · exact fun _ => rfl
    · exact fun _ => rfl
    · exact fun _ => Iff.rfl
    · exact fun _ _ _ _ => rfl
    · intro q hq
      obtain ⟨hq, hi, -⟩ := findSubRecord_mem hq
      rw [updateSub_subs] at hq
      rcases replaceSub_mem h.ids hr _ hq with rfl | ⟨hm, hne⟩
      · exact hopen
      · exact absurd (List.inj_on_of_nodup_map h.ids hm hr hi) hne
  · exact h

theorem takePollVerdict_pool {s : State} (h : PoolConserved s) (id uid : Nat) (v : VerdictRecord) :
    PoolConserved (takePollVerdict id uid v s) := by
  unfold takePollVerdict
  split
  · exact h
  · rename_i r hf
    obtain ⟨hr, rfl, rfl⟩ := findSubRecord_mem hf
    have hu : PoolConserved (updateSub r.id r.uid (fun r => { r with pollInFlight := false }) s) := by
      refine h.update r.id r.uid _ ?_ ?_ ?_ ?_ ?_
      · exact fun _ => rfl
      · exact fun _ => rfl
      · exact fun _ => rfl
      · exact fun _ => Iff.rfl
      · exact fun _ _ _ _ => rfl
    have hin : { r with pollInFlight := false } ∈
        (updateSub r.id r.uid (fun r => { r with pollInFlight := false }) s).subs :=
      List.mem_map.2 ⟨r, hr, by simp⟩
    have hall : ∀ q ∈ (updateSub r.id r.uid (fun r => { r with pollInFlight := false }) s).subs,
        q.id = r.id → q.uid = r.uid → q.state = r.state ∧ q.queue = r.queue := by
      intro q hq hi _
      have : q = { r with pollInFlight := false } :=
        List.inj_on_of_nodup_map hu.ids hq hin (by simpa using hi)
      subst this
      exact ⟨rfl, rfl⟩
    dsimp only
    split
    · rename_i hc
      refine hu.filter (fun q => decide (¬ (q.id = r.id ∧ q.uid = r.uid))) rfl rfl ?_
      intro q hq hk
      simp only [decide_eq_false_iff_not, not_not] at hk
      rw [(hall q hq hk.1 hk.2).2]
      exact h.closing r hr hc
    · rename_i ha
      have hopen : ∀ q ∈ (updateSub r.id r.uid (fun r => { r with pollInFlight := false }) s).subs,
          q.id = r.id → q.uid = r.uid → q.isOpen = true := by
        intro q hq hi hq'
        simp [SubRecord.isOpen, (hall q hq hi hq').1, ha]
      unfold takeActiveVerdict
      split
      · have hro : r.isOpen = true := by simp [SubRecord.isOpen, ha]
        unfold takeOkReply
        split
        · refine offerSample_pool (hu.update r.id r.uid _ ?_ ?_ ?_ ?_ ?_) _ _ _ ?_
          · exact fun _ => rfl
          · exact fun _ => rfl
          · exact fun _ => rfl
          · exact fun _ => Iff.rfl
          · exact fun _ _ _ _ => rfl
          · intro q hq
            obtain ⟨hq, hi, hu'⟩ := findSubRecord_mem hq
            obtain ⟨p, hp, rfl⟩ := List.mem_map.1 hq
            split at hi <;> rename_i hc
            · rw [if_pos hc]
              exact hopen p hp hc.1 hc.2
            · rw [if_neg hc] at hu'
              exact absurd ⟨hi, hu'⟩ hc
        · exact hu
      · unfold takeRefusal
        split
        · exact enterFaulted_pool hu _ _ _ hopen
        · exact enterFaulted_pool hu _ _ _ hopen
        all_goals
          refine hu.update r.id r.uid _ ?_ ?_ ?_ ?_ ?_
          · exact fun _ => rfl
          · exact fun _ => rfl
          · exact fun _ => rfl
          · exact fun _ => Iff.rfl
          · exact fun _ _ _ _ => rfl
      · exact hu
    · exact hu
    · exact hu

/-- Records change state between open states only. -/
theorem PoolConserved.mapOpen {s t : State} (h : PoolConserved s) (g : SubRecord → SubRecord)
    (ht : t.subs = s.subs.map g) (hf : t.freeBlocks = s.freeBlocks)
    (hg : ∀ r, (g r).id = r.id ∧ (g r).depth = r.depth ∧ (g r).queue = r.queue ∧
      (g r).notice = r.notice ∧ (g r).isOpen = r.isOpen) : PoolConserved t := by
  have hq : ((s.subs.map g).map fun r => r.queue.length) = s.subs.map fun r => r.queue.length := by
    rw [List.map_map]; exact List.map_congr_left fun r _ => by simp [(hg r).2.2.1]
  have he : (s.subs.map g).map reservation = s.subs.map reservation := by
    rw [List.map_map]
    exact List.map_congr_left fun r _ => by simp [reservation, (hg r).2.2.1, (hg r).2.2.2.2]
  have hi : (s.subs.map g).map (·.id) = s.subs.map (·.id) := by
    rw [List.map_map]; exact List.map_congr_left fun r _ => by simp [(hg r).1]
  have hb := h.blocks
  have hr := h.reserved
  unfold heldBlocks at hb
  rw [emptyOpen_sum] at hr
  refine .of_sound ?_ ?_ ?_ ?_
  · unfold heldBlocks; rw [ht, hq, hf]; exact hb
  · rw [emptyOpen_sum, ht, he, hf]; exact hr
  · rw [ht, hi]; exact h.ids
  · rw [ht]
    intro q hq
    obtain ⟨r, hr, rfl⟩ := List.mem_map.1 hq
    have hs := h.sound hr
    obtain ⟨a, b, c, d, e⟩ := hg r
    refine ⟨a ▸ hs.idRange, by rw [b, c]; exact hs.depth, ?_, by rw [d, c]; exact hs.notice⟩
    intro hc
    rw [c]
    apply hs.closing
    have : (g r).isOpen = false := by simp [SubRecord.isOpen, hc]
    rw [e] at this
    simpa [SubRecord.isOpen] using this

theorem modifyLine_pool {s : State} (h : PoolConserved s) (l : LineId) (f : Line → Line) :
    PoolConserved (s.modifyLine l f) := h.congr (by simp) (by simp)

theorem suspendSubs_pool {s : State} (h : PoolConserved s) (l : LineId) (address : Nat) :
    PoolConserved (suspendSubs l address s) := by
  unfold suspendSubs
  dsimp only
  refine h.mapOpen (fun r => if (r.line == l && r.node == address && r.state == .active) = true then
    { r with state := .waiting, referencePayload := none } else r) ?_ ?_ ?_
  · simp [prunePolls]
  · simp [prunePolls]
  · intro r
    split
    · rename_i hc
      simp only [Bool.and_eq_true, beq_iff_eq] at hc
      simp only [SubRecord.isOpen, hc.2, true_and]
      rfl
    · simp

/-- What the re-check of one record does to the records (R73). -/
theorem recheckSub_subs (round : Word16) (p : Profile) (r : SubRecord) (s : State) :
    ∃ g : SubRecord → SubRecord, (recheckSub round p r s).subs = replaceSub r.id r.uid g s.subs ∧
      (recheckSub round p r s).freeBlocks = s.freeBlocks ∧
      ∀ q, (g q).id = q.id ∧ (g q).uid = q.uid ∧ (g q).depth = q.depth ∧ (g q).queue = q.queue ∧
        (g q).notice = q.notice ∧ (g q).isOpen = true := by
  unfold recheckSub
  split
  · exact ⟨_, (requestReport_tables _ _).1, (requestReport_tables _ _).2.1, fun q => ⟨rfl, rfl, rfl, rfl, rfl, rfl⟩⟩
  · split
    · exact ⟨_, (requestReport_tables _ _).1, (requestReport_tables _ _).2.1,
        fun q => ⟨rfl, rfl, rfl, rfl, rfl, rfl⟩⟩
    · exact ⟨_, rfl, rfl, fun q => ⟨rfl, rfl, rfl, rfl, rfl, rfl⟩⟩

theorem recheckSubs_pool {s : State} (h : PoolConserved s) (l : LineId) (address : Nat) (p : Profile) :
    PoolConserved (recheckSubs l address p s) := by
  have hsort : ∀ xs : List SubRecord, ∀ r, r ∈ sortByPoll xs → r ∈ xs := by
    intro xs
    induction xs with
    | nil => intro r hr; simp [sortByPoll] at hr
    | cons x rest ih =>
      have hins : ∀ (ys : List SubRecord) (r : SubRecord), r ∈ insertByPoll x ys → r = x ∨ r ∈ ys := by
        intro ys
        induction ys with
        | nil => intro r hr; simpa [insertByPoll] using hr
        | cons y ys ihy =>
          intro r hr
          unfold insertByPoll at hr
          split at hr
          · simpa using hr
          · rcases List.mem_cons.1 hr with rfl | hr
            · exact .inr List.mem_cons_self
            · rcases ihy r hr with rfl | hr
              · exact .inl rfl
              · exact .inr (List.mem_cons_of_mem _ hr)
      intro r hr
      rcases hins _ _ hr with rfl | hr
      · exact List.mem_cons_self
      · exact List.mem_cons_of_mem _ (ih r hr)
  have fold : ∀ (xs : List SubRecord) (t : State), PoolConserved t →
      (∀ r ∈ xs, ∀ q ∈ t.subs, q.id = r.id → q.uid = r.uid → q.isOpen = true) →
      PoolConserved (xs.foldl (fun s r => recheckSub (s.line l).sched.roundNumber p r s) t) := by
    intro xs
    induction xs with
    | nil => intro t ht _; exact ht
    | cons r rest ih =>
      intro t ht ho
      obtain ⟨g, hg, hfree, hkeep⟩ := recheckSub_subs (t.line l).sched.roundNumber p r t
      refine ih _ ?_ ?_
      · by_cases hex : ∃ q ∈ t.subs, q.id = r.id ∧ q.uid = r.uid
        · obtain ⟨q, hq, hi, hu⟩ := hex
          have hopen := ho r List.mem_cons_self q hq hi hu
          have hs := ht.sound hq
          obtain ⟨a, b, c, d, e, f⟩ := hkeep q
          have hres : reservation (g q) = reservation q := by unfold reservation; rw [f, d, hopen]
          refine ht.replace hq g (by rw [hg, hi, hu]) (fun q => (hkeep q).1)
            ⟨a ▸ hs.idRange, by rw [c, d]; exact hs.depth, ?_, by rw [e, d]; exact hs.notice⟩
            (by rw [hfree, d]) (.inl (by rw [hres, hfree]; omega))
          intro hc
          simp [SubRecord.isOpen, hc] at f
        · refine ht.congr ?_ hfree
          rw [hg]
          unfold replaceSub
          conv_rhs => rw [← List.map_id t.subs]
          apply List.map_congr_left
          intro q hq
          rw [if_neg fun he => hex ⟨q, hq, he.1, he.2⟩]
          rfl
      · intro q hq p' hp' hi hu
        rw [hg] at hp'
        obtain ⟨p₀, hp₀, rfl⟩ := List.mem_map.1 hp'
        split at hi <;> rename_i hc
        · rw [if_pos hc]
          exact (hkeep p₀).2.2.2.2.2
        · rw [if_neg hc] at hu ⊢
          exact ho q (List.mem_cons_of_mem _ hq) p₀ hp₀ hi hu
  refine fold _ s h ?_
  intro r hr q hq hi _
  have hr := hsort _ _ hr
  simp only [List.mem_filter, Bool.and_eq_true, beq_iff_eq] at hr
  have : q = r := List.inj_on_of_nodup_map h.ids hq hr.1 hi
  simp [this, SubRecord.isOpen, hr.2.2]

/-! ### Nodes and transactions -/

theorem nodesToPending_pool {s : State} (h : PoolConserved s) (l : LineId) (test : NodeRecord → Bool) :
    PoolConserved (nodesToPending l test s) := by
  unfold nodesToPending
  generalize (s.line l).nodes.filter test = ns
  induction ns generalizing s with
  | nil => exact h
  | cons n rest ih =>
    exact ih (suspendSubs_pool (requestReport_pool (modifyLine_pool h _ _) _) _ _)

theorem takeNodeVerdict_pool {s : State} (h : PoolConserved s) (l : LineId) (v : VerdictRecord) :
    PoolConserved (takeNodeVerdict l v s) := by
  have hup : ∀ (t : State), PoolConserved t → ∀ (n : NodeRecord), PoolConserved (actOnVerdict l n v t) := by
    intro t ht n
    have answered : ∀ flip, PoolConserved (nodeAnswered l n flip t) := by
      intro flip
      unfold nodeAnswered
      dsimp only
      split
      · exact requestReport_pool (modifyLine_pool ht _ _) _
      · exact modifyLine_pool ht _ _
    unfold actOnVerdict
    split
    · split
      · split
        · exact ht
        · exact recheckSubs_pool (requestReport_pool (modifyLine_pool ht _ _) _) _ _ _
      · exact ht
    all_goals try exact ht
    all_goals
      split
      · split <;> first
          | exact answered _
          | exact ht
          | (unfold nodeFailed
             dsimp only
             split
             · exact suspendSubs_pool (requestReport_pool (modifyLine_pool ht _ _) _) _ _
             · split
               · exact requestReport_pool (modifyLine_pool ht _ _) _
               · exact modifyLine_pool ht _ _)
      · exact ht
  unfold takeNodeVerdict
  split
  · split
    · exact h
    · exact hup _ (modifyLine_pool h _ _) _
  · exact h

theorem completeTxn_pool {s : State} (h : PoolConserved s) (reference : Word16) (result : TxnResult)
    (verdict : Option Verdict) (reason : Option RefuseReason) (reply : Option (List Byte)) :
    PoolConserved (completeTxn reference result verdict reason reply s) :=
  requestReport_pool (h.congr (t := updateTxn _ _ s) rfl rfl) _

theorem takeTxnVerdict_pool {s : State} (h : PoolConserved s) (l : LineId) (reference : Word16)
    (v : VerdictRecord) : PoolConserved (takeTxnVerdict l reference v s) := by
  have hu : ∀ (t : State), PoolConserved t → ∀ q f, PoolConserved (updateTxn q f t) :=
    fun t ht q f => ht.congr rfl rfl
  unfold takeTxnVerdict
  split
  · exact h
  · dsimp only
    split
    · exact completeTxn_pool (hu _ h _ _) _ _ _ _ _
    · exact completeTxn_pool (hu _ h _ _) _ _ _ _ _
    · unfold takeContention
      split
      · exact modifyLine_pool (hu _ (hu _ (hu _ h _ _) _ _) _ _) _ _
      · exact completeTxn_pool (hu _ (hu _ h _ _) _ _) _ _ _ _ _
    all_goals exact completeTxn_pool (hu _ h _ _) _ _ _ _ _

theorem purgeLine_pool {s : State} (h : PoolConserved s) (l : LineId) : PoolConserved (purgeLine l s) := by
  unfold purgeLine
  generalize (s.line l).txnQueue = rs
  have h := modifyLine_pool h l fun x => { x with txnQueue := [] }
  revert h
  generalize (s.modifyLine l fun x => { x with txnQueue := [] }) = t
  intro h
  induction rs generalizing t with
  | nil => exact h
  | cons r rest ih => exact ih _ (completeTxn_pool h _ _ _ _ _)

/-- The pool goes through every event of a line. -/
theorem poolKeeps (l : LineId) : LineKeeps l PoolConserved where
  line := fun f _ h => modifyLine_pool h l f
  report := fun r h => requestReport_pool h r
  toggles := fun h => modifyLine_pool h l _
  owner := by
    intro s v h
    unfold ownerTake
    split
    all_goals first
      | exact takePollVerdict_pool h _ _ _ | exact takeTxnVerdict_pool h _ _ _ | exact h
  node := fun v _ h => takeNodeVerdict_pool h l v
  pending := fun test h => nodesToPending_pool h l test
  purge := fun h => purgeLine_pool h l
  poll := fun id uid h => h.update id uid _ (fun _ => rfl) (fun _ => rfl) (fun _ => rfl) (fun _ => Iff.rfl)
    fun _ _ _ _ => rfl
  txn := fun reference f h => h.congr rfl rfl
  pop := fun h => modifyLine_pool h l _

/-! ### Requests and the host link -/

theorem settleNotice_pool {s : State} {r : SubRecord} (hn : (s.subs.map (·.id)).Nodup)
    (left : List Sample) :
    (settleNotice r left s).subs = replaceSub r.id r.uid (fun q =>
        { q with notice := if left = [] then .none else .queued }) s.subs ∧
      (settleNotice r left s).freeBlocks = s.freeBlocks := by
  have hw : ∀ t : State, t = s ∨ t = withdrawReport (.sampleReady r.id r.uid) s →
      t.subs = s.subs ∧ t.freeBlocks = s.freeBlocks := by
    rintro t (rfl | rfl) <;> exact ⟨rfl, rfl⟩
  have ht : (if r.notice = .queued then withdrawReport (.sampleReady r.id r.uid) s else s) = s ∨
      (if r.notice = .queued then withdrawReport (.sampleReady r.id r.uid) s else s) =
        withdrawReport (.sampleReady r.id r.uid) s := by
    split
    · exact .inr rfl
    · exact .inl rfl
  obtain ⟨hs, hf⟩ := hw _ ht
  unfold settleNotice
  dsimp only
  split
  · refine ⟨?_, hf⟩
    rw [updateSub_subs, hs]
  · obtain ⟨hr, hrf⟩ := raiseNotice_subs (s := updateSub r.id r.uid (fun r => { r with notice := .none })
      (if r.notice = .queued then withdrawReport (.sampleReady r.id r.uid) s else s))
      (by rw [updateSub_subs, hs, replaceSub_ids]; exacts [hn, fun _ => rfl]) r.id r.uid
    refine ⟨?_, hrf.trans hf⟩
    rw [hr, updateSub_subs, hs, replaceSub_replaceSub]
    exacts [by simp only [noticeRaised]; rfl, fun _ => rfl, fun _ => rfl]

theorem takeSamples_pool {s : State} (h : PoolConserved s) {r : SubRecord} (hr : r ∈ s.subs)
    (hopen : r.isOpen = true) (n : Nat) : PoolConserved (takeSamples r n s) := by
  unfold takeSamples
  obtain ⟨hs, hf⟩ := settleNotice_pool (r := r) (left := r.queue.drop n)
    (s := { updateSub r.id r.uid (fun r => { r with queue := r.queue.drop n }) s with
      freeBlocks := s.freeBlocks + (r.queue.take n).length })
    (by
      show ((replaceSub r.id r.uid _ s.subs).map (·.id)).Nodup
      rw [replaceSub_ids]
      exacts [h.ids, fun _ => rfl])
  have hsound := h.sound hr
  have hlen : (r.queue.take n).length + (r.queue.drop n).length = r.queue.length := by
    rw [← List.length_append, List.take_append_drop]
  refine h.replace hr (fun q => { q with
      queue := q.queue.drop n, notice := if r.queue.drop n = [] then .none else .queued }) ?_ (fun _ => rfl)
    ⟨hsound.idRange, ⟨hsound.depth.1, hsound.depth.2.1, ?_⟩, ?_, ?_⟩ ?_ (.inl ?_)
  · rw [hs]
    show replaceSub _ _ _ (replaceSub _ _ _ _) = _
    rw [replaceSub_replaceSub]
    exacts [fun _ => rfl, fun _ => rfl]
  · have := hsound.depth.2.2
    show (r.queue.drop n).length ≤ r.depth
    omega
  · intro hc
    show r.queue.drop n = []
    rw [hsound.closing hc]
    exact List.drop_nil
  · dsimp only
    split <;> simp_all
  · rw [hf]
    show s.freeBlocks + (r.queue.take n).length + (r.queue.drop n).length = _
    omega
  · rw [hf]
    show _ ≤ s.freeBlocks + (r.queue.take n).length + _
    by_cases hd : r.queue.drop n = []
    · by_cases hq : r.queue = []
      · have : reservation r = 1 := by simp [reservation, hopen, hq]
        have := reservation_le_one { r with queue := r.queue.drop n, notice := if r.queue.drop n = [] then .none else .queued }
        omega
      · have : 1 ≤ r.queue.length := List.length_pos_iff.2 hq
        have := reservation_le_one { r with queue := r.queue.drop n, notice := if r.queue.drop n = [] then .none else .queued }
        have : (r.queue.drop n).length = 0 := by rw [hd]; rfl
        omega
    · have : reservation { r with queue := r.queue.drop n, notice := if r.queue.drop n = [] then .none else .queued } = 0 := by
        simp [reservation, hd]
      omega

theorem closeSub_pool {s : State} (h : PoolConserved s) {r : SubRecord} (hr : r ∈ s.subs) :
    PoolConserved (closeSub r s) := by
  have hsound := h.sound hr
  have hdis : PoolConserved (discardSamples r s) := by
    refine h.replace hr (fun q => { q with queue := [], notice := .none }) rfl (fun _ => rfl)
      ⟨hsound.idRange, ⟨hsound.depth.1, hsound.depth.2.1, Nat.zero_le _⟩, fun _ => rfl, by simp⟩ rfl (.inl ?_)
    show _ ≤ s.freeBlocks + r.queue.length + reservation r
    by_cases hq : r.queue = []
    · unfold reservation
      rw [hq]
      show (if r.isOpen && true then 1 else 0) + _ ≤ _ + _ + (if r.isOpen && true then 1 else 0)
      omega
    · have : 1 ≤ r.queue.length := List.length_pos_iff.2 hq
      have := reservation_le_one { r with queue := [], notice := .none }
      omega
  have hpr : PoolConserved (prunePolls r.line [r.id]
      (withdrawReport (.subState r.id r.uid) (withdrawReport (.sampleReady r.id r.uid) (discardSamples r s)))) :=
    hdis.congr (by simp [prunePolls]; rfl) (by simp [prunePolls]; rfl)
  have hsubs : (prunePolls r.line [r.id]
      (withdrawReport (.subState r.id r.uid) (withdrawReport (.sampleReady r.id r.uid) (discardSamples r s)))).subs =
      (discardSamples r s).subs := by simp [prunePolls]; rfl
  have hin : { r with queue := [], notice := .none } ∈ (discardSamples r s).subs :=
    List.mem_map.2 ⟨r, hr, by simp⟩
  have hempty : ∀ q ∈ (discardSamples r s).subs, q.id = r.id → q.queue = [] ∧ q.notice = .none := by
    intro q hq hi
    have : q = { r with queue := [], notice := .none } := List.inj_on_of_nodup_map hdis.ids hq hin (by simpa using hi)
    subst this
    exact ⟨rfl, rfl⟩
  unfold closeSub
  dsimp only
  split
  · have hin' := hsubs ▸ hin
    refine hpr.replace hin' (fun q => { q with state := .closing, faultReason := none }) rfl (fun _ => rfl)
      ⟨hsound.idRange, ⟨hsound.depth.1, hsound.depth.2.1, Nat.zero_le _⟩, fun _ => rfl, by simp⟩ rfl (.inl ?_)
    have : reservation { { r with queue := [], notice := .none } with state := .closing, faultReason := none } = 0 := by
      simp [reservation, SubRecord.isOpen]
    rw [this]
    show 0 + (prunePolls _ _ _).freeBlocks ≤ (prunePolls _ _ _).freeBlocks + _
    omega
  · refine hpr.filter (fun q => decide (¬ (q.id = r.id ∧ q.uid = r.uid))) rfl rfl ?_
    intro q hq hk
    simp only [decide_eq_false_iff_not, not_not] at hk
    rw [hsubs] at hq
    exact (hempty q hq hk.1).1

theorem insertSub_perm (r : SubRecord) (subs : List SubRecord) : (insertSub r subs).Perm (r :: subs) := by
  induction subs with
  | nil => exact List.Perm.refl _
  | cons q rest ih =>
    unfold insertSub
    split
    · exact List.Perm.refl _
    · exact (List.Perm.cons q ih).trans (List.Perm.swap _ _ _)

theorem openSub_pool {s : State} (h : PoolConserved s) {id : Nat} {f : OpenFields} (n : NodeRecord)
    (hfree : findSub s id = none) (hid : 1 ≤ id ∧ id ≤ 48) (hd : 1 ≤ f.depth ∧ f.depth ≤ 8)
    (hroom : emptyOpen s < s.freeBlocks) : PoolConserved (openSub id f n s) := by
  unfold openSub
  dsimp only
  have hnew : ∀ r : SubRecord,
      r = (if n.state.inService = true then enterActive (s.line f.line).sched.roundNumber (newSub id s.nextUid f)
        else newSub id s.nextUid f) →
      r.id = id ∧ r.depth = f.depth ∧ r.queue = [] ∧ r.notice = .none ∧ r.isOpen = true := by
    rintro r rfl
    split <;> exact ⟨rfl, rfl, rfl, rfl, rfl⟩
  generalize (if n.state.inService = true then
    enterActive (s.line f.line).sched.roundNumber (newSub id s.nextUid f) else newSub id s.nextUid f) = r at hnew ⊢
  obtain ⟨hi, hdep, hq, hnot, hop⟩ := hnew r rfl
  have hp := insertSub_perm r s.subs
  have hb := h.blocks
  have hres : reservation r = 1 := by simp [reservation, hq, hop]
  rw [emptyOpen_sum] at hroom
  unfold heldBlocks at hb
  refine .of_sound ?_ ?_ ?_ ?_
  · unfold heldBlocks
    show s.freeBlocks + ((insertSub r s.subs).map _).sum = 96
    rw [(hp.map _).sum_eq, List.map_cons, List.sum_cons, hq]
    simpa using hb
  · rw [emptyOpen_sum]
    show ((insertSub r s.subs).map reservation).sum ≤ s.freeBlocks
    rw [(hp.map _).sum_eq, List.map_cons, List.sum_cons, hres]
    omega
  · show ((insertSub r s.subs).map (·.id)).Nodup
    rw [(hp.map _).nodup_iff, List.map_cons, List.nodup_cons]
    refine ⟨?_, h.ids⟩
    intro hm
    obtain ⟨q, hq, he⟩ := List.mem_map.1 hm
    have := List.find?_eq_none.1 hfree q hq
    simp only [he, hi, beq_self_eq_true, not_true_eq_false] at this
  · intro q hq'
    rcases List.mem_cons.1 (hp.mem_iff.1 hq') with rfl | hq'
    · exact ⟨hi ▸ hid, by rw [hdep, hq]; exact ⟨hd.1, hd.2, Nat.zero_le _⟩, fun _ => hq, by simp [hq, hnot]⟩
    · exact h.sound hq'

theorem runSubOpen_pool {s : State} (h : PoolConserved s) (p : List Byte) : PoolConserved (runSubOpen p s).1 := by
  unfold runSubOpen
  split
  · exact h
  · rename_i f hf
    have hd : 1 ≤ f.depth ∧ f.depth ≤ 8 := by
      unfold openFieldsOf at hf
      split at hf
      · dsimp only at hf
        split at hf
        · rename_i hc
          simp only [Option.some.injEq] at hf
          subst hf
          exact ⟨hc.2.2.2.2.1, hc.2.2.2.2.2.1⟩
        · simp at hf
      · simp at hf
    unfold judgeOpen
    split
    · exact h
    · split
      · exact h
      · split
        · exact h
        · split
          · exact h
          · rename_i id hid
            split
            · rename_i hroom
              have hm := List.mem_of_find?_eq_some hid
              have hfree := List.find?_some hid
              simp only [List.mem_map, List.mem_range] at hm
              obtain ⟨k, hk, rfl⟩ := hm
              refine openSub_pool h _ (by simpa using hfree) ?_ hd hroom
              simp only [Config.subSlots] at hk
              omega
            · exact h

theorem onLine_pool {code : Nat} {run : LineId → State → State × List Byte} {s : State} (h : PoolConserved s)
    (hr : ∀ l, PoolConserved (run l s).1) : PoolConserved (onLine code run s).1 := by
  unfold onLine
  split
  · exact h
  · exact hr _

theorem onNode_pool {p : List Byte} {run : LineId → Nat → State → State × List Byte} {s : State}
    (h : PoolConserved s) (hr : ∀ l n, PoolConserved (run l n s).1) : PoolConserved (onNode p run s).1 := by
  refine onLine_pool h fun l => ?_
  split
  · exact hr _ _
  · exact h

theorem startLine_pool {s : State} (h : PoolConserved s) (l : LineId) : PoolConserved (startLine l s) :=
  (poolKeeps l).checkStuck ((poolKeeps l).startRound
    ((poolKeeps l).pending _ ((poolKeeps l).changeLineState h _ _)))

theorem stopLine_pool {s : State} (h : PoolConserved s) (l : LineId) (purge : Bool) :
    PoolConserved (stopLine l purge s) := by
  have hs : PoolConserved (if purge = true then purgeLine l s else s) := by
    split
    · exact purgeLine_pool h l
    · exact h
  have stopping : ∀ t, PoolConserved t → PoolConserved (enterStopping l purge t) := fun t ht =>
    (poolKeeps l).changeLineState (modifyLine_pool ht _ _) _ _
  unfold stopLine
  dsimp only
  generalize (if purge = true then purgeLine l s else s) = t at hs ⊢
  split
  · exact hs
  · split
    · exact (poolKeeps l).enterStopped hs
    · exact stopping _ hs
  · split
    · exact stopping _ hs
    · exact (poolKeeps l).enterStopped hs
  · split
    · exact stopping _ hs
    · exact (poolKeeps l).enterStopped hs
  · exact modifyLine_pool hs _ _

theorem requeueOwner_pool {s : State} (h : PoolConserved s) (r : ReportRequest) :
    PoolConserved (requeueOwner s r) := by
  unfold requeueOwner
  split
  · exact h.congr rfl rfl
  · refine h.update _ _ _ (fun _ => rfl) (fun _ => rfl) (fun _ => rfl) (fun r => ?_) fun _ _ _ _ => rfl
    dsimp only
    split <;> simp_all
  · exact h
  · exact h
  · exact h

theorem service_pool {run : Service} (hr : RequestService run) {s : State} (h : PoolConserved s)
    (p : List Byte) : PoolConserved (run p s).1 := by
  cases hr with
  | hello =>
    unfold runHello
    dsimp only
    split
    · unfold answerOk attachLink handBackWindow
      dsimp only
      generalize settledRequests _ = rs
      have h : PoolConserved (s.modifyLink fun k => { k with linkState := .attached }) := h.congr rfl rfl
      revert h
      generalize (s.modifyLink fun k => { k with linkState := .attached }) = t
      intro h
      have hfold : ∀ (xs : List ReportRequest) (t : State), PoolConserved t →
          PoolConserved (xs.foldl requeueOwner t) := by
        intro xs
        induction xs with
        | nil => exact fun _ ht => ht
        | cons r rest ih => exact fun t ht => ih _ (requeueOwner_pool ht r)
      exact (hfold rs t h).congr rfl rfl
    · exact h
  | restart periodsA periodsB =>
    unfold runRestart answerOk restartAll
    have hk : ∀ l (t : State), PoolConserved t → PoolConserved (endBreak l t) := by
      intro l t ht
      unfold endBreak
      split
      · exact (poolKeeps l).releaseDriver ht
      all_goals exact ht
    refine hk _ _ (hk _ _ ?_)
    exact ⟨rfl, Nat.zero_le _, List.nodup_nil, by simp, by simp, by simp, by simp⟩
  | lineSet =>
    refine onLine_pool h fun l => ?_
    split
    · exact h
    · split
      · exact h
      · exact nodesToPending_pool (modifyLine_pool h _ _) _ _
  | lineStart =>
    refine onLine_pool h fun l => ?_
    split
    · exact startLine_pool h l
    · exact h
  | lineStop => exact onLine_pool h fun l => stopLine_pool h l _
  | lineResync =>
    refine onLine_pool h fun l => ?_
    split <;> first | exact modifyLine_pool (l := l) h _ | exact modifyLine_pool h l (fun x => { x with sched := { x.sched with resyncRequest := true } }) | exact h
  | lineQuery => exact onLine_pool h fun l => h
  | nodeAdd =>
    refine onNode_pool h fun l n => ?_
    split
    · exact h
    · exact (modifyLine_pool h l _).congr (t := addNode l n s) rfl rfl
  | nodeRemove =>
    refine onNode_pool h fun l n => ?_
    split
    · exact h
    · split
      · exact (modifyLine_pool h l _).congr (t := removeNode l _ s) rfl rfl
      · exact h
  | nodeQuery =>
    refine onNode_pool h fun l n => ?_
    split <;> exact h
  | subOpen => exact runSubOpen_pool h p
  | subClose =>
    unfold runSubClose
    split
    · exact h
    · rename_i r hf
      split
      · exact closeSub_pool h (findSub_mem hf).1
      · exact h
  | subFetch =>
    unfold runSubFetch
    split
    · exact h
    · split
      · exact h
      · rename_i r hf
        split
        · rename_i ho
          exact takeSamples_pool h (findSub_mem hf).1 ho _
        · exact h
  | subQuery =>
    unfold runSubQuery
    split <;> exact h
  | txnSubmit =>
    have hsub : ∀ f, PoolConserved (submitTxn f s) := fun f =>
      (modifyLine_pool h f.line _).congr (t := submitTxn f s) rfl rfl
    unfold runTxnSubmit
    split
    · exact h
    · unfold judgeSubmit
      split
      · exact h
      · split
        · split
          · exact hsub _
          · exact h
        · split
          · exact h
          · split
            · exact h
            · split
              · exact hsub _
              · exact h
  | txnCancel =>
    unfold runTxnCancel
    split
    · exact h
    · split
      · exact h
      · split
        · exact completeTxn_pool (modifyLine_pool h _ _) _ _ _ _ _
        all_goals exact h
  | statsRead =>
    have hclear : ∀ (c : Bool) (l : LineId) (f : Line → Line),
        PoolConserved (if c = true then s.modifyLine l f else s) := by
      intro c l f
      split
      · exact modifyLine_pool h _ _
      · exact h
    unfold runStatsRead
    dsimp only
    split
    · exact h
    · split
      · exact onLine_pool h fun l => hclear _ l _
      · split
        · refine onLine_pool h fun l => ?_
          split
          · unfold readNodeStats
            split
            · exact h
            · exact hclear _ l _
          · exact h
        · unfold readLinkStats answerOk
          dsimp only
          split
          · exact h.congr rfl rfl
          · exact h
  | unknown => exact h

theorem takeRequest_pool {accepts : Byte → Bool} {run : Service} (hr : RequestService run) {s : State}
    (h : PoolConserved s) : PoolConserved (takeRequest accepts run s) := by
  refine takeRequest_keeps (P := PoolConserved) h (fun m rest _ _ => h.congr rfl rfl) ?_
    (fun m t ht _ => ht.congr rfl rfl) (fun t f ht => ht.congr rfl rfl)
  intro m rest _ _ _ ht
  exact (service_pool hr ht m.payload).congr (t := completeRequest m _) rfl rfl

theorem tellOwner_pool {s : State} (h : PoolConserved s) (r : ReportRequest) : PoolConserved (tellOwner r s) := by
  unfold tellOwner
  split
  · refine h.update _ _ _ (fun _ => rfl) (fun _ => rfl) (fun _ => rfl) (fun r => ?_) fun _ _ _ _ => rfl
    dsimp only
    split <;> simp_all
  · exact h.congr rfl rfl
  · exact h
  · exact h
  · exact h

theorem outbound_pool {s : State} (h : PoolConserved s) : PoolConserved (outbound s) := by
  rcases outbound_cases s with he | ⟨x, -, -, he⟩ | ⟨-, -, -, he⟩ | ⟨-, -, -, -, he⟩ <;> rw [he]
  · exact h
  · exact h.congr rfl rfl
  · unfold grantResponse
    split
    · exact h
    · exact h.congr rfl rfl
  · unfold composeReport
    split
    · exact h
    · dsimp only
      split
      · exact h.congr rfl rfl
      · refine PoolConserved.congr (tellOwner_pool (s := _) ?_ _) rfl rfl
        exact h.congr rfl rfl

theorem acknowledge_subs (q : Byte) (s : State) :
    (acknowledge q s).subs = s.subs ∧ (acknowledge q s).freeBlocks = s.freeBlocks := by
  have hfold : ∀ (xs : List Snapshot) (t : State),
      (xs.foldl releaseOwner t).subs = t.subs ∧ (xs.foldl releaseOwner t).freeBlocks = t.freeBlocks := by
    intro xs
    induction xs with
    | nil => exact fun _ => ⟨rfl, rfl⟩
    | cons x rest ih =>
      intro t
      have h1 : (releaseOwner t x).subs = t.subs ∧ (releaseOwner t x).freeBlocks = t.freeBlocks := by
        unfold releaseOwner; split <;> exact ⟨rfl, rfl⟩
      exact ⟨(ih _).1.trans h1.1, (ih _).2.trans h1.2⟩
  unfold acknowledge
  split
  · exact hfold _ _
  · exact ⟨rfl, rfl⟩

theorem hostEvent_pool {f : State → State} (hf : HostEvent f) {s : State} (h : PoolConserved s) :
    PoolConserved (f s) := by
  refine h.congr ?_ (hostEvent_work hf s).freeBlocks
  rcases hostEvent_kept hf s with hk | ⟨q, t, he, hk⟩ | he
  · exact hk.subs
  · rw [he, (acknowledge_subs q t).1, hk.subs]
  · rw [he]
    unfold ackTimerExpiry ackTimerRunsOut
    dsimp only
    split
    · split <;> rfl
    · rfl

end Sys2Proof.Machine
end

