-- ==== Sys2Proof/Laws/Served.lean ====
section
/-! SUPPORT. How a command is carried out: its effect and then the grant of the outbound arbiter; and a
request whose message the processor can take is executed and answered. -/

namespace Sys2Proof.Machine

open Sys2Proof

/-- Out of reset a command is its effect, and then a grant. -/
theorem perform_running {f : State → State} {s : State} (h : s.resetHeld = false) :
    perform f s = .next (outbound (f s)) := by
  unfold perform
  rw [h]
  rfl

/-- The cache holds no answer of this tag and kind. -/
theorem cacheHit_none {m : Message} {cache : List CacheEntry}
    (h : m.tag = 0 ∨ ∀ e ∈ cache, ¬ (e.tag = m.tag ∧ e.kind = m.kind)) : cacheHit m cache = none := by
  unfold cacheHit
  split
  · rfl
  · rcases h with h | h
    · exact absurd h (by assumption)
    · simpa using h

/-- A message that passes the first two checks is judged by its kind and length. -/
theorem takeRequest_ready {accepts : Byte → Bool} {run : Service} {s : State} {m : Message} {rest : List Message}
    (h : Ready s m rest) (hk : accepts m.kind = true) :
    takeRequest accepts run s =
      if m.kind ∉ requestKinds then queueResponse (statusOnly m .unknownKind) (headTaken s rest)
      else if lengthAllowed m.kind m.payload then completeRequest m (run m.payload (headTaken s rest))
      else queueResponse (statusOnly m .badLength) (headTaken s rest) := by
  have hr : s.link.responses.length ≤ Config.processorLimit := h.room
  have ha : ¬ (s.link.linkState = .detached ∧ m.kind ≠ kindHello) := by
    rintro ⟨a, b⟩
    rcases h.attached with h | h
    · rw [a] at h
      exact LinkState.noConfusion h
    · exact b h
  unfold takeRequest
  rw [h.head]
  simp only [hk, hr, and_self, if_true]
  unfold judgeRequest
  simp only [State.modifyLink, ha, if_false, cacheHit_none h.fresh, headTaken]

/-- A request of the length its kind asks for is executed and answered. -/
theorem takeKind_ready {kind : Byte} {run : Service} {s : State} {m : Message} {rest : List Message}
    (h : Ready s m rest) (hk : m.kind = kind) (hin : kind ∈ requestKinds)
    (hl : lengthAllowed kind m.payload = true) :
    perform (takeKind kind run) s =
      .next (outbound (completeRequest m (run m.payload (headTaken s rest)))) := by
  subst hk
  rw [perform_running h.running]
  unfold takeKind
  rw [takeRequest_ready h (by simp), if_neg (by simpa using hin), if_pos hl]

end Sys2Proof.Machine
end

