-- ==== Sys2Proof/Laws/TxnLife.lean ====
section
/-! SUPPORT. The life of a transaction record, QUEUED, IN_FLIGHT, DONE, REPORTED and freed, through every
operation: `TxnsSound` with the order of each line's engine and each line's queue as arguments. -/

namespace Sys2Proof.Machine

open Sys2Proof

/-! ### Where a reference stands -/

/-- The line and state of the record that carries a reference. -/
def txnStatus (s : State) (reference : Word16) : Option (LineId × TxnState) :=
  (findTxn s reference).map fun t => (t.line, t.state)

theorem findTxn_mem {s : State} {reference : Word16} {t : TxnRecord} (h : findTxn s reference = some t) :
    t ∈ s.txns ∧ t.reference = reference :=
  ⟨List.mem_of_find?_eq_some h, by simpa using List.find?_some h⟩

theorem findTxn_of_mem {s : State} (hn : (s.txns.map (·.reference)).Nodup) {t : TxnRecord} (ht : t ∈ s.txns) :
    findTxn s t.reference = some t := by
  rcases h : findTxn s t.reference with _ | u
  · have := List.find?_eq_none.1 h t ht
    simp at this
  · obtain ⟨hu, hr⟩ := findTxn_mem h
    rw [List.inj_on_of_nodup_map hn hu ht hr]

/-- A record of a reference, a line and a state is what `txnStatus` says. -/
theorem status_iff {s : State} (hn : (s.txns.map (·.reference)).Nodup) (reference : Word16) (l : LineId)
    (st : TxnState) :
    txnStatus s reference = some (l, st) ↔
      ∃ t ∈ s.txns, t.reference = reference ∧ t.line = l ∧ t.state = st := by
  unfold txnStatus
  constructor
  · intro h
    rcases hf : findTxn s reference with _ | t
    · simp [hf] at h
    · obtain ⟨ht, hr⟩ := findTxn_mem hf
      simp only [hf, Option.map_some, Option.some.injEq, Prod.mk.injEq] at h
      exact ⟨t, ht, hr, h.1, h.2⟩
  · rintro ⟨t, ht, rfl, rfl, rfl⟩
    rw [findTxn_of_mem hn ht]
    rfl

theorem updateTxn_references {s : State} (reference : Word16) (f : TxnRecord → TxnRecord)
    (hf : ∀ t, (f t).reference = t.reference) :
    (updateTxn reference f s).txns.map (·.reference) = s.txns.map (·.reference) := by
  show (s.txns.map _).map _ = _
  rw [List.map_map]
  apply List.map_congr_left
  intro t _
  simp only [Function.comp]
  split
  · exact hf t
  · rfl

/-- One record is updated, and only its own reference sees it. -/
theorem updateTxn_find {s : State} (reference : Word16) (f : TxnRecord → TxnRecord)
    (hf : ∀ t, (f t).reference = t.reference) (r : Word16) :
    findTxn (updateTxn reference f s) r = if r = reference then (findTxn s r).map f else findTxn s r := by
  unfold findTxn updateTxn
  dsimp only
  induction s.txns with
  | nil => simp
  | cons t rest ih =>
    by_cases htr : t.reference = r
    · by_cases hrr : r = reference
      · subst hrr
        simp [htr, hf]
      · have : t.reference ≠ reference := htr ▸ hrr
        simp [htr, hrr]
    · have h1 : ((if t.reference = reference then f t else t).reference == r) = false := by
        split <;> simp [hf, htr]
      have h2 : (t.reference == r) = false := by simpa using htr
      simp only [List.map_cons, List.find?_cons, h1, h2]
      exact ih

theorem updateTxn_status {s : State} (reference : Word16) (f : TxnRecord → TxnRecord)
    (hf : ∀ t, (f t).reference = t.reference) (hl : ∀ t, (f t).line = t.line) (st : TxnState → TxnState)
    (hs : ∀ t, (f t).state = st t.state) (r : Word16) :
    txnStatus (updateTxn reference f s) r =
      if r = reference then (txnStatus s r).map fun p => (p.1, st p.2) else txnStatus s r := by
  unfold txnStatus
  rw [updateTxn_find reference f hf]
  split
  · rw [Option.map_map, Option.map_map]
    refine Option.map_congr fun t _ => ?_
    simp [hl, hs]
  · rfl

/-! ### The life of the records -/

/-- `TxnsSound` with the transaction in flight and the queue of each line as arguments. -/
structure TxnsHold (flight : LineId → Option Word16) (queue : LineId → List Word16) (s : State) : Prop where
  count : s.txns.length ≤ 16
  references : (s.txns.map (·.reference)).Nodup
  results : ∀ t ∈ s.txns, t.result.isSome = true ↔ t.state = .done ∨ t.state = .reported
  queues : ∀ l, (queue l).Nodup
  entries : s.delivery.queue.Nodup
  snapshots : (s.delivery.window.filterMap fun x => doneReference x.request).Nodup
  queued : ∀ l r, r ∈ queue l ↔ txnStatus s r = some (l, .queued)
  inFlight : ∀ l r, flight l = some r ↔ txnStatus s r = some (l, .inFlight)
  done : ∀ r, .txnDone r ∈ s.delivery.queue ↔ ∃ l, txnStatus s r = some (l, .done)
  reported : ∀ r, r ∈ (s.delivery.window.filterMap fun x => doneReference x.request) ↔
    ∃ l, txnStatus s r = some (l, .reported)
  room : ∀ l, (queue l).length + (if (flight l).isSome then 1 else 0) ≤ 8

theorem mem_doneReferences (w : List Snapshot) (r : Word16) :
    r ∈ (w.filterMap fun x => doneReference x.request) ↔ ∃ x ∈ w, x.request = .txnDone r := by
  simp only [List.mem_filterMap]
  constructor
  · rintro ⟨x, hx, hr⟩
    refine ⟨x, hx, ?_⟩
    cases hq : x.request <;> simp [hq, doneReference] at hr
    rw [hr]
  · rintro ⟨x, hx, hr⟩
    exact ⟨x, hx, by simp [hr, doneReference]⟩

/-- The records of a line in flight are at most one, and one exactly while its engine holds one. -/
theorem inFlightCount_eq {s : State} (hn : (s.txns.map (·.reference)).Nodup) (l : LineId)
    {flight : Option Word16} (h : ∀ r, flight = some r ↔ txnStatus s r = some (l, .inFlight)) :
    inFlightCount s l = if flight.isSome then 1 else 0 := by
  unfold inFlightCount
  have hnod : (s.txns.filter fun t => t.line == l && t.state == .inFlight).Nodup :=
    (List.Nodup.of_map _ hn).filter _
  have hall : ∀ t ∈ s.txns.filter (fun t => t.line == l && t.state == .inFlight), flight = some t.reference := by
    intro t ht
    simp only [List.mem_filter, Bool.and_eq_true, beq_iff_eq] at ht
    exact (h _).2 ((status_iff hn _ _ _).2 ⟨t, ht.1, rfl, ht.2.1, ht.2.2⟩)
  rcases flight with _ | r
  · have : s.txns.filter (fun t => t.line == l && t.state == .inFlight) = [] := by
      apply List.eq_nil_iff_forall_not_mem.2
      intro t ht
      have := hall t ht
      simp at this
    simp [this]
  · obtain ⟨t, ht, hr, hl, hst⟩ := (status_iff hn _ _ _).1 ((h r).1 rfl)
    have hmem : t ∈ s.txns.filter (fun t => t.line == l && t.state == .inFlight) := by simp [ht, hl, hst]
    have hsub : ∀ u ∈ s.txns.filter (fun t => t.line == l && t.state == .inFlight), u = t := by
      intro u hu
      have := hall u hu
      simp only [Option.some.injEq] at this
      simp only [List.mem_filter] at hu
      exact List.inj_on_of_nodup_map hn hu.1 ht (by rw [← this, hr])
    have : s.txns.filter (fun t => t.line == l && t.state == .inFlight) = [t] := by
      generalize s.txns.filter (fun t => t.line == l && t.state == .inFlight) = xs at *
      match xs, hnod, hmem, hsub with
      | [a], _, _, hs => rw [hs a (by simp)]
      | a :: b :: rest, hn, _, hs =>
        have ha := hs a (by simp)
        have hb := hs b (by simp)
        simp [ha, hb] at hn
    simp [this]

theorem txnsHold_iff (s : State) :
    TxnsSound s ↔ TxnsHold (fun l => inFlightReference (s.line l)) (fun l => (s.line l).txnQueue) s := by
  constructor
  · intro h
    have hn := h.references
    have hf : ∀ l r, inFlightReference (s.line l) = some r ↔ txnStatus s r = some (l, .inFlight) := fun l r => by
      rw [status_iff hn]; exact h.inFlight l r
    refine ⟨h.count, hn, h.results, h.queues, h.entries, h.snapshots, fun l r => ?_, hf, fun r => ?_, fun r => ?_,
      fun l => ?_⟩
    · rw [status_iff hn]; exact h.queued l r
    · rw [h.done r]
      constructor
      · rintro ⟨t, ht, hr, hs⟩; exact ⟨t.line, (status_iff hn _ _ _).2 ⟨t, ht, hr, rfl, hs⟩⟩
      · rintro ⟨l, hl⟩
        obtain ⟨t, ht, hr, -, hs⟩ := (status_iff hn _ _ _).1 hl
        exact ⟨t, ht, hr, hs⟩
    · rw [mem_doneReferences, h.reported r]
      constructor
      · rintro ⟨t, ht, hr, hs⟩; exact ⟨t.line, (status_iff hn _ _ _).2 ⟨t, ht, hr, rfl, hs⟩⟩
      · rintro ⟨l, hl⟩
        obtain ⟨t, ht, hr, -, hs⟩ := (status_iff hn _ _ _).1 hl
        exact ⟨t, ht, hr, hs⟩
    · have := h.room l
      rwa [inFlightCount_eq hn l (hf l)] at this
  · intro h
    have hn := h.references
    refine ⟨h.count, hn, h.queues, fun l r => ?_, fun l r => ?_, fun r => ?_, h.entries, h.snapshots, fun r => ?_,
      h.results, fun l => ?_⟩
    · rw [← status_iff hn]; exact h.queued l r
    · rw [← status_iff hn]; exact h.inFlight l r
    · rw [h.done r]
      constructor
      · rintro ⟨l, hl⟩
        obtain ⟨t, ht, hr, -, hs⟩ := (status_iff hn _ _ _).1 hl
        exact ⟨t, ht, hr, hs⟩
      · rintro ⟨t, ht, hr, hs⟩; exact ⟨t.line, (status_iff hn _ _ _).2 ⟨t, ht, hr, rfl, hs⟩⟩
    · rw [← mem_doneReferences, h.reported r]
      constructor
      · rintro ⟨l, hl⟩
        obtain ⟨t, ht, hr, -, hs⟩ := (status_iff hn _ _ _).1 hl
        exact ⟨t, ht, hr, hs⟩
      · rintro ⟨t, ht, hr, hs⟩; exact ⟨t.line, (status_iff hn _ _ _).2 ⟨t, ht, hr, rfl, hs⟩⟩
    · have := h.room l
      rwa [← inFlightCount_eq hn l (h.inFlight l)] at this

/-! ### Operations that no record sees -/

/-- Records, TXN_DONE entries and snapshots are left as they are. -/
structure TxnsQuiet (s t : State) : Prop where
  txns : t.txns = s.txns
  window : (t.delivery.window.filterMap fun x => doneReference x.request) =
    s.delivery.window.filterMap fun x => doneReference x.request
  entries : s.delivery.queue.Nodup → t.delivery.queue.Nodup
  done : ∀ r, .txnDone r ∈ t.delivery.queue ↔ .txnDone r ∈ s.delivery.queue

theorem TxnsQuiet.refl (s : State) : TxnsQuiet s s := ⟨rfl, rfl, id, fun _ => Iff.rfl⟩

theorem TxnsQuiet.trans {s t u : State} (h : TxnsQuiet s t) (k : TxnsQuiet t u) : TxnsQuiet s u :=
  ⟨k.txns.trans h.txns, k.window.trans h.window, fun hs => k.entries (h.entries hs),
    fun r => (k.done r).trans (h.done r)⟩

theorem TxnsQuiet.after {s t u : State} (k : TxnsQuiet t u) (h : TxnsQuiet s t) : TxnsQuiet s u := h.trans k

theorem TxnsQuiet.foldl {α : Type} {f : State → α → State} (h : ∀ s a, TxnsQuiet s (f s a)) (xs : List α)
    (s : State) : TxnsQuiet s (xs.foldl f s) := by
  induction xs generalizing s with
  | nil => exact .refl s
  | cons a rest ih => exact (h s a).trans (ih _)

/-- Transactions and Report Delivery untouched. -/
theorem TxnsQuiet.same {s t : State} (ht : t.txns = s.txns) (hd : t.delivery = s.delivery) : TxnsQuiet s t :=
  ⟨ht, by rw [hd], by rw [hd]; exact id, fun r => by rw [hd]⟩

theorem status_congr {s t : State} (h : t.txns = s.txns) (r : Word16) : txnStatus t r = txnStatus s r := by
  unfold txnStatus findTxn; rw [h]

/-- Snapshots of the same requests are snapshots of the same transactions. -/
theorem filterMap_done_congr {w v : List Snapshot} (h : v.map (·.request) = w.map (·.request)) :
    (v.filterMap fun x => doneReference x.request) = w.filterMap fun x => doneReference x.request := by
  have : ∀ u : List Snapshot, (u.filterMap fun x => doneReference x.request) =
      (u.map (·.request)).filterMap doneReference := by
    intro u; rw [List.filterMap_map]; rfl
  rw [this, this, h]

theorem TxnsHold.quiet {flight : LineId → Option Word16} {queue : LineId → List Word16} {s t : State}
    (h : TxnsHold flight queue s) (k : TxnsQuiet s t) : TxnsHold flight queue t := by
  have hs := status_congr k.txns
  have hw := k.window
  exact ⟨k.txns ▸ h.count, k.txns ▸ h.references, k.txns ▸ h.results, h.queues, k.entries h.entries,
    hw ▸ h.snapshots, fun l r => by rw [hs]; exact h.queued l r, fun l r => by rw [hs]; exact h.inFlight l r,
    fun r => by rw [k.done, hs]; exact h.done r, fun r => by rw [hw, hs]; exact h.reported r, h.room⟩

theorem requestReport_txnsQuiet {r : ReportRequest} (hr : doneReference r = none) (s : State) :
    TxnsQuiet s (requestReport r s) := by
  obtain ⟨added, hd, hn⟩ := requestReport_joined r s
  refine ⟨(requestReport_tables r s).2.2, by rw [hd], fun h => by rw [hd]; exact hn h, fun q => ?_⟩
  unfold requestReport
  split
  · exact Iff.rfl
  · show ReportRequest.txnDone q ∈ s.delivery.queue ++ [r] ↔ _
    have : ReportRequest.txnDone q ≠ r := by rintro rfl; simp [doneReference] at hr
    simp [this]

theorem withdrawReport_txnsQuiet {r : ReportRequest} (hr : doneReference r = none) (s : State) :
    TxnsQuiet s (withdrawReport r s) := by
  refine ⟨rfl, rfl, fun h => h.filter _, fun q => ?_⟩
  show ReportRequest.txnDone q ∈ s.delivery.queue.filter (· ≠ r) ↔ _
  have : ReportRequest.txnDone q ≠ r := by rintro rfl; simp [doneReference] at hr
  simp [this]

theorem modifyLine_txnsQuiet (l : LineId) (f : Line → Line) (s : State) : TxnsQuiet s (s.modifyLine l f) :=
  .same (by simp) (by simp)

theorem updateSub_txnsQuiet (id uid : Nat) (f : SubRecord → SubRecord) (s : State) :
    TxnsQuiet s (updateSub id uid f s) := .same rfl rfl

theorem raiseNotice_txnsQuiet (id uid : Nat) (s : State) : TxnsQuiet s (raiseNotice id uid s) := by
  unfold raiseNotice
  split
  · exact .refl _
  · split
    · exact (requestReport_txnsQuiet rfl _).after (updateSub_txnsQuiet _ _ _ _)
    · exact .refl _

theorem takePollVerdict_txnsQuiet (id uid : Nat) (v : VerdictRecord) (s : State) :
    TxnsQuiet s (takePollVerdict id uid v s) := by
  have offered : ∀ (t : State) (i u : Nat) (x : Sample), TxnsQuiet t (offerSample i u x t) := by
    intro t i u x
    unfold offerSample
    split
    · exact .refl _
    · dsimp only
      split
      · exact (raiseNotice_txnsQuiet _ _ _).after (.same rfl rfl)
      · exact (raiseNotice_txnsQuiet _ _ _).after (.same rfl rfl)
      · exact .same rfl rfl
  unfold takePollVerdict
  split
  · exact .refl _
  · dsimp only
    split
    · exact .same rfl rfl
    · refine TxnsQuiet.trans (updateSub_txnsQuiet id uid (fun r => { r with pollInFlight := false }) s) ?_
      unfold takeActiveVerdict
      split
      · unfold takeOkReply
        split
        · exact (offered _ _ _ _).after (updateSub_txnsQuiet _ _ _ _)
        · exact .refl _
      · unfold takeRefusal
        split
        · exact (requestReport_txnsQuiet rfl _).after (updateSub_txnsQuiet _ _ _ _)
        · exact (requestReport_txnsQuiet rfl _).after (updateSub_txnsQuiet _ _ _ _)
        · exact updateSub_txnsQuiet _ _ _ _
        · exact updateSub_txnsQuiet _ _ _ _
      · exact .refl _
    · exact updateSub_txnsQuiet _ _ _ _
    · exact updateSub_txnsQuiet _ _ _ _

theorem suspendSubs_txnsQuiet (l : LineId) (address : Nat) (s : State) : TxnsQuiet s (suspendSubs l address s) :=
  .same (by simp [suspendSubs, prunePolls]) (by simp [suspendSubs, prunePolls])

theorem recheckSubs_txnsQuiet (l : LineId) (address : Nat) (p : Profile) (s : State) :
    TxnsQuiet s (recheckSubs l address p s) := by
  refine .foldl (fun s r => ?_) _ _
  unfold recheckSub
  split
  · exact (requestReport_txnsQuiet rfl _).after (updateSub_txnsQuiet _ _ _ _)
  · split
    · exact (requestReport_txnsQuiet rfl _).after (updateSub_txnsQuiet _ _ _ _)
    · exact updateSub_txnsQuiet _ _ _ _

theorem nodesToPending_txnsQuiet (l : LineId) (test : NodeRecord → Bool) (s : State) :
    TxnsQuiet s (nodesToPending l test s) :=
  .foldl (fun _ _ => (suspendSubs_txnsQuiet _ _ _).after ((requestReport_txnsQuiet rfl _).after (modifyLine_txnsQuiet _ _ _))) _ _

theorem takeNodeVerdict_txnsQuiet (l : LineId) (v : VerdictRecord) (s : State) :
    TxnsQuiet s (takeNodeVerdict l v s) := by
  have answered : ∀ (n : NodeRecord) (flip : Bool) (t : State), TxnsQuiet t (nodeAnswered l n flip t) := by
    intro n flip t
    unfold nodeAnswered
    dsimp only
    split
    · exact (requestReport_txnsQuiet rfl _).after (modifyLine_txnsQuiet _ _ _)
    · exact modifyLine_txnsQuiet _ _ _
  have failed : ∀ (n : NodeRecord) (t : State), TxnsQuiet t (nodeFailed l n t) := by
    intro n t
    unfold nodeFailed
    dsimp only
    split
    · exact (suspendSubs_txnsQuiet _ _ _).after ((requestReport_txnsQuiet rfl _).after (modifyLine_txnsQuiet _ _ _))
    · split
      · exact (requestReport_txnsQuiet rfl _).after (modifyLine_txnsQuiet _ _ _)
      · exact modifyLine_txnsQuiet _ _ _
  unfold takeNodeVerdict
  split
  · split
    · exact .refl _
    · rename_i n _
      refine TxnsQuiet.trans (t := updateNode l n.address n.uid (fun n => { n with
        lastVerdict := some v.result.verdict, lastRound := some v.order.round
        counters := countNode v n.counters }) s) (modifyLine_txnsQuiet _ _ _) ?_
      generalize updateNode l n.address n.uid _ s = t
      unfold actOnVerdict
      split
      · split
        · split
          · exact .refl _
          · exact (recheckSubs_txnsQuiet _ _ _ _).after ((requestReport_txnsQuiet rfl _).after (modifyLine_txnsQuiet _ _ _))
        · exact .refl _
      all_goals try exact .refl _
      all_goals
        split
        · split <;> first
            | exact answered _ _ _ | exact failed _ _ | exact .refl _
        · exact .refl _
  · exact .refl _

/-! ### One record moves on -/

/-- The state of one record changes, and flight, queue, TXN_DONE entry and snapshot follow it. -/
theorem TxnsHold.move {flight flight' : LineId → Option Word16} {queue queue' : LineId → List Word16}
    {s t : State} (h : TxnsHold flight queue s) (reference : Word16) (l : LineId) (from_ to_ : TxnState)
    (hfrom : txnStatus s reference = some (l, from_))
    (hto : ∀ r, txnStatus t r = if r = reference then some (l, to_) else txnStatus s r)
    (count : t.txns.length ≤ 16) (references : (t.txns.map (·.reference)).Nodup)
    (results : ∀ u ∈ t.txns, u.result.isSome = true ↔ u.state = .done ∨ u.state = .reported)
    (queues : ∀ k, (queue' k).Nodup) (entries : t.delivery.queue.Nodup)
    (snapshots : (t.delivery.window.filterMap fun x => doneReference x.request).Nodup)
    (qOwn : ∀ k, reference ∈ queue' k ↔ k = l ∧ to_ = .queued)
    (qOther : ∀ k r, r ≠ reference → (r ∈ queue' k ↔ r ∈ queue k))
    (fOwn : ∀ k, flight' k = some reference ↔ k = l ∧ to_ = .inFlight)
    (fOther : ∀ k r, r ≠ reference → (flight' k = some r ↔ flight k = some r))
    (dOwn : .txnDone reference ∈ t.delivery.queue ↔ to_ = .done)
    (dOther : ∀ r, r ≠ reference → (.txnDone r ∈ t.delivery.queue ↔ .txnDone r ∈ s.delivery.queue))
    (rOwn : reference ∈ (t.delivery.window.filterMap fun x => doneReference x.request) ↔ to_ = .reported)
    (rOther : ∀ r, r ≠ reference → (r ∈ (t.delivery.window.filterMap fun x => doneReference x.request) ↔
      r ∈ (s.delivery.window.filterMap fun x => doneReference x.request)))
    (room : ∀ k, (queue' k).length + (if (flight' k).isSome then 1 else 0) ≤ 8) :
    TxnsHold flight' queue' t := by
  refine ⟨count, references, results, queues, entries, snapshots, fun k r => ?_, fun k r => ?_, fun r => ?_,
    fun r => ?_, room⟩ <;> rw [hto] <;> by_cases hr : r = reference
  · subst hr; simp only [if_true, qOwn, Option.some.injEq, Prod.mk.injEq]
    exact ⟨fun ⟨a, b⟩ => ⟨a.symm, b⟩, fun ⟨a, b⟩ => ⟨a.symm, b⟩⟩
  · rw [if_neg hr, qOther k r hr]; exact h.queued k r
  · subst hr; simp only [if_true, fOwn, Option.some.injEq, Prod.mk.injEq]
    exact ⟨fun ⟨a, b⟩ => ⟨a.symm, b⟩, fun ⟨a, b⟩ => ⟨a.symm, b⟩⟩
  · rw [if_neg hr, fOther k r hr]; exact h.inFlight k r
  · subst hr; simp only [if_true, dOwn, Option.some.injEq, Prod.mk.injEq]
    exact ⟨fun a => ⟨l, rfl, a⟩, fun ⟨_, _, a⟩ => a⟩
  · rw [if_neg hr, dOther r hr]; exact h.done r
  · subst hr; simp only [if_true, rOwn, Option.some.injEq, Prod.mk.injEq]
    exact ⟨fun a => ⟨l, rfl, a⟩, fun ⟨_, _, a⟩ => a⟩
  · rw [if_neg hr, rOther r hr]; exact h.reported r

/-- One value of a function of the lines. -/
def setAt {α : Type} (g : LineId → α) (l : LineId) (x : α) : LineId → α := fun k => if k = l then x else g k

theorem setAt_same {α : Type} (g : LineId → α) (l : LineId) (x : α) : setAt g l x l = x := by simp [setAt]

theorem setAt_other {α : Type} (g : LineId → α) {l k : LineId} (x : α) (h : k ≠ l) : setAt g l x k = g k := by
  simp [setAt, h]

theorem setAt_setAt {α : Type} (g : LineId → α) (l : LineId) (x y : α) : setAt (setAt g l x) l y = setAt g l y := by
  funext k; unfold setAt; split <;> rfl

theorem setAt_self {α : Type} (g : LineId → α) (l : LineId) : setAt g l (g l) = g := by
  funext k; unfold setAt; split
  · rename_i h; rw [h]
  · rfl

section
variable {flight : LineId → Option Word16} {queue : LineId → List Word16} {s : State}

/-- A reference stands in one place only. -/
theorem TxnsHold.notIn (h : TxnsHold flight queue s) {r : Word16} {l : LineId} {st : TxnState}
    (hs : txnStatus s r = some (l, st)) :
    (∀ k, r ∈ queue k ↔ k = l ∧ st = .queued) ∧ (∀ k, flight k = some r ↔ k = l ∧ st = .inFlight) ∧
      (.txnDone r ∈ s.delivery.queue ↔ st = .done) ∧
      (r ∈ (s.delivery.window.filterMap fun x => doneReference x.request) ↔ st = .reported) := by
  refine ⟨fun k => ?_, fun k => ?_, ?_, ?_⟩
  · rw [h.queued, hs]; simp [eq_comm]
  · rw [h.inFlight, hs]; simp [eq_comm]
  · rw [h.done, hs]; simp
  · rw [h.reported, hs]; simp

/-- The records of a state in which one record has been updated. -/
theorem updateTxn_results (h : ∀ u ∈ s.txns, u.result.isSome = true ↔ u.state = .done ∨ u.state = .reported)
    (reference : Word16) (f : TxnRecord → TxnRecord)
    (hf : ∀ u ∈ s.txns, u.reference = reference →
      ((f u).result.isSome = true ↔ (f u).state = .done ∨ (f u).state = .reported)) :
    ∀ u ∈ (updateTxn reference f s).txns, u.result.isSome = true ↔ u.state = .done ∨ u.state = .reported := by
  intro u hu
  obtain ⟨t, ht, rfl⟩ := List.mem_map.1 hu
  split
  · rename_i hr; exact hf t ht hr
  · exact h t ht

/-- An update of a record that keeps its place in its life. -/
theorem TxnsHold.keep (h : TxnsHold flight queue s) (reference : Word16) (f : TxnRecord → TxnRecord)
    (hf : ∀ t, (f t).reference = t.reference) (hl : ∀ t, (f t).line = t.line) (hs : ∀ t, (f t).state = t.state)
    (hr : ∀ t, (f t).result = t.result) : TxnsHold flight queue (updateTxn reference f s) := by
  have hst : ∀ r, txnStatus (updateTxn reference f s) r = txnStatus s r := by
    intro r
    rw [updateTxn_status reference f hf hl id hs]
    split
    · cases txnStatus s r <;> rfl
    · rfl
  refine ⟨by simpa [updateTxn] using h.count, by rw [updateTxn_references _ _ hf]; exact h.references,
    updateTxn_results h.results _ _ (fun u hu _ => by rw [hr, hs]; exact h.results u hu), h.queues, h.entries,
    h.snapshots, fun l r => by rw [hst]; exact h.queued l r, fun l r => by rw [hst]; exact h.inFlight l r,
    fun r => by rw [hst]; exact h.done r, fun r => by rw [hst]; exact h.reported r, h.room⟩

/-- Completion (R103) of a record QUEUED or IN_FLIGHT on a line. -/
theorem TxnsHold.complete (h : TxnsHold flight queue s) {reference : Word16} {l : LineId} {st : TxnState}
    (hs : txnStatus s reference = some (l, st)) (hst : st = .queued ∨ st = .inFlight) (result : TxnResult)
    (verdict : Option Verdict) (reason : Option RefuseReason) (reply : Option (List Byte))
    {flight' : LineId → Option Word16} {queue' : LineId → List Word16}
    (hq : ∀ k, (queue' k).Sublist (queue k)) (hqo : ∀ k, reference ∉ queue' k)
    (hqr : ∀ k r, r ≠ reference → r ∈ queue k → r ∈ queue' k)
    (hfo : ∀ k, flight' k ≠ some reference)
    (hfr : ∀ k r, r ≠ reference → (flight' k = some r ↔ flight k = some r)) :
    TxnsHold flight' queue' (completeTxn reference result verdict reason reply s) := by
  obtain ⟨n1, n2, n3, n4⟩ := h.notIn hs
  have hnd : ReportRequest.txnDone reference ∉ s.delivery.queue := by
    rw [n3]; rcases hst with rfl | rfl <;> simp
  have hq' : (completeTxn reference result verdict reason reply s).delivery.queue =
      s.delivery.queue ++ [.txnDone reference] := by
    unfold completeTxn requestReport
    rw [if_neg (by exact hnd)]
    rfl
  have hw : (completeTxn reference result verdict reason reply s).delivery.window = s.delivery.window := by
    unfold completeTxn requestReport
    split <;> rfl
  have ht : (completeTxn reference result verdict reason reply s).txns =
      (updateTxn reference (fun t => { t with
        state := .done, result := some result, lastVerdict := verdict, refuseReason := reason, reply := reply }) s).txns :=
    (requestReport_tables _ _).2.2
  refine h.move reference l st .done hs ?_ ?_ ?_ ?_ (fun k => (hq k).nodup (h.queues k)) ?_ ?_ ?_ ?_ ?_ hfr ?_ ?_
    ?_ ?_ ?_
  · intro r
    rw [status_congr ht, updateTxn_status (st := fun _ => .done)]
    · split
      · rename_i hr; rw [hr, hs]; rfl
      · rfl
    all_goals exact fun _ => rfl
  · rw [ht]; simpa [updateTxn] using h.count
  · rw [ht, updateTxn_references]; exacts [h.references, fun _ => rfl]
  · rw [ht]
    exact updateTxn_results h.results _ _ fun u _ _ => by simp
  · rw [hq', List.nodup_append]
    exact ⟨h.entries, by simp, fun a ha b hb => by
      rintro rfl; rw [List.mem_singleton] at hb; exact hnd (hb ▸ ha)⟩
  · rw [hw]; exact h.snapshots
  · intro k; simp [hqo k]
  · exact fun k r hr => ⟨fun hm => (hq k).subset hm, hqr k r hr⟩
  · intro k; simp [hfo k]
  · simp [hq']
  · intro r hr; simp [hq', hr]
  · rw [hw, n4]; rcases hst with rfl | rfl <;> simp
  · intro r _; rw [hw]
  · intro k
    have h1 := h.room k
    have h2 := (hq k).length_le
    have : (if (flight' k).isSome then 1 else 0) ≤ (if (flight k).isSome then 1 else 0) := by
      rcases hf : flight' k with _ | r
      · simp
      · have hr : r ≠ reference := by rintro rfl; exact hfo k hf
        rw [(hfr k r hr).1 hf]
    omega

/-- Completion out of a line's queue. -/
theorem TxnsHold.completeQueued (h : TxnsHold flight queue s) {reference : Word16} {l : LineId}
    (hs : txnStatus s reference = some (l, .queued)) (result : TxnResult) (verdict : Option Verdict)
    (reason : Option RefuseReason) (reply : Option (List Byte)) :
    TxnsHold flight (setAt queue l ((queue l).filter (· ≠ reference)))
      (completeTxn reference result verdict reason reply s) := by
  obtain ⟨n1, n2, -⟩ := h.notIn hs
  refine h.complete hs (.inl rfl) result verdict reason reply ?_ ?_ ?_ ?_ (fun _ _ _ => Iff.rfl)
  · intro k
    by_cases hk : k = l
    · subst hk; rw [setAt_same]; exact List.filter_sublist
    · rw [setAt_other _ _ hk]
  · intro k
    by_cases hk : k = l
    · subst hk; rw [setAt_same]; simp
    · rw [setAt_other _ _ hk, n1]; simp [hk]
  · intro k r hr hm
    by_cases hk : k = l
    · subst hk; rw [setAt_same]; simp [hm, hr]
    · rw [setAt_other _ _ hk]; exact hm
  · intro k; rw [ne_eq, n2]; simp

/-- Completion out of a line's engine. -/
theorem TxnsHold.completeInFlight (h : TxnsHold flight queue s) {reference : Word16} {l : LineId}
    (hs : txnStatus s reference = some (l, .inFlight)) (result : TxnResult) (verdict : Option Verdict)
    (reason : Option RefuseReason) (reply : Option (List Byte)) :
    TxnsHold (setAt flight l none) queue (completeTxn reference result verdict reason reply s) := by
  obtain ⟨n1, n2, -⟩ := h.notIn hs
  have hfl := (n2 l).2 ⟨rfl, rfl⟩
  refine h.complete hs (.inr rfl) result verdict reason reply (fun _ => List.Sublist.refl _) ?_
    (fun _ _ _ hm => hm) ?_ ?_
  · intro k; rw [n1]; simp
  · intro k
    by_cases hk : k = l
    · subst hk; rw [setAt_same]; simp
    · rw [setAt_other _ _ hk, ne_eq, n2]; simp [hk]
  · intro k r hr
    by_cases hk : k = l
    · subst hk; rw [setAt_same, hfl]
      simp only [Option.some.injEq, reduceCtorEq, false_iff]
      exact fun he => hr he.symm
    · rw [setAt_other _ _ hk]

/-- The head of the queue goes IN_FLIGHT (R99). -/
theorem TxnsHold.send (h : TxnsHold flight queue s) {reference : Word16} {l : LineId} {rest : List Word16}
    (hq : queue l = reference :: rest) (hf : flight l = none) :
    TxnsHold (setAt flight l (some reference)) (setAt queue l rest)
      (updateTxn reference (fun t => { t with state := .inFlight }) s) := by
  have hs : txnStatus s reference = some (l, .queued) := (h.queued l reference).1 (by simp [hq])
  obtain ⟨n1, n2, n3, n4⟩ := h.notIn hs
  have hnd := h.queues l
  rw [hq, List.nodup_cons] at hnd
  refine h.move reference l .queued .inFlight hs ?_ (by simpa [updateTxn] using h.count)
    (by rw [updateTxn_references]; exacts [h.references, fun _ => rfl]) ?_ ?_ h.entries h.snapshots ?_ ?_ ?_ ?_ ?_
    (fun _ _ => Iff.rfl) ?_ (fun _ _ => Iff.rfl) ?_
  · intro r
    rw [updateTxn_status (st := fun _ => .inFlight)]
    · split
      · rename_i hr; rw [hr, hs]; rfl
      · rfl
    all_goals exact fun _ => rfl
  · refine updateTxn_results h.results _ _ fun u hu hr => ?_
    have hu' := (status_iff h.references reference l .queued).1 hs
    obtain ⟨t, ht, htr, -, hts⟩ := hu'
    have : u = t := List.inj_on_of_nodup_map h.references hu ht (by rw [hr, htr])
    subst this
    have := h.results u ht
    simp [hts] at this ⊢
    exact this
  · intro k
    by_cases hk : k = l
    · subst hk; rw [setAt_same]; exact hnd.2
    · rw [setAt_other _ _ hk]; exact h.queues k
  · intro k
    by_cases hk : k = l
    · subst hk; rw [setAt_same]; simp [hnd.1]
    · rw [setAt_other _ _ hk, n1]; simp [hk]
  · intro k r hr
    by_cases hk : k = l
    · subst hk; rw [setAt_same, hq]; simp [hr]
    · rw [setAt_other _ _ hk]
  · intro k
    by_cases hk : k = l
    · subst hk; rw [setAt_same]; simp
    · rw [setAt_other _ _ hk, n2]; simp [hk]
  · intro k r hr
    by_cases hk : k = l
    · subst hk; rw [setAt_same, hf]; simp; exact fun he => hr he.symm
    · rw [setAt_other _ _ hk]
  · rw [show (updateTxn reference (fun t => { t with state := TxnState.inFlight }) s).delivery = s.delivery from rfl, n3]
    simp
  · rw [show (updateTxn reference (fun t => { t with state := TxnState.inFlight }) s).delivery = s.delivery from rfl, n4]
    simp
  · intro k
    have := h.room k
    by_cases hk : k = l
    · subst hk
      rw [setAt_same, setAt_same]
      rw [hq, hf] at this
      simpa using this
    · rw [setAt_other _ _ hk, setAt_other _ _ hk]; exact this

/-- A contention returns the record in flight to the head of its queue (R102). -/
theorem TxnsHold.giveBack (h : TxnsHold flight queue s) {reference : Word16} {l : LineId}
    (hs : txnStatus s reference = some (l, .inFlight)) :
    TxnsHold (setAt flight l none) (setAt queue l (reference :: queue l))
      (updateTxn reference (fun t => { t with state := .queued }) s) := by
  obtain ⟨n1, n2, n3, n4⟩ := h.notIn hs
  have hfl := (n2 l).2 ⟨rfl, rfl⟩
  have hnq : reference ∉ queue l := by rw [n1]; simp
  refine h.move reference l .inFlight .queued hs ?_ (by simpa [updateTxn] using h.count)
    (by rw [updateTxn_references]; exacts [h.references, fun _ => rfl]) ?_ ?_ h.entries h.snapshots ?_ ?_ ?_ ?_ ?_
    (fun _ _ => Iff.rfl) ?_ (fun _ _ => Iff.rfl) ?_
  · intro r
    rw [updateTxn_status (st := fun _ => .queued)]
    · split
      · rename_i hr; rw [hr, hs]; rfl
      · rfl
    all_goals exact fun _ => rfl
  · refine updateTxn_results h.results _ _ fun u hu hr => ?_
    obtain ⟨t, ht, htr, -, hts⟩ := (status_iff h.references reference l .inFlight).1 hs
    have : u = t := List.inj_on_of_nodup_map h.references hu ht (by rw [hr, htr])
    subst this
    have := h.results u ht
    simp [hts] at this ⊢
    exact this
  · intro k
    by_cases hk : k = l
    · subst hk; rw [setAt_same, List.nodup_cons]; exact ⟨hnq, h.queues k⟩
    · rw [setAt_other _ _ hk]; exact h.queues k
  · intro k
    by_cases hk : k = l
    · subst hk; rw [setAt_same]; simp
    · rw [setAt_other _ _ hk, n1]; simp [hk]
  · intro k r hr
    by_cases hk : k = l
    · subst hk; rw [setAt_same]; simp [hr]
    · rw [setAt_other _ _ hk]
  · intro k
    by_cases hk : k = l
    · subst hk; rw [setAt_same]; simp
    · rw [setAt_other _ _ hk, n2]; simp [hk]
  · intro k r hr
    by_cases hk : k = l
    · subst hk; rw [setAt_same, hfl]; simp; exact fun he => hr he.symm
    · rw [setAt_other _ _ hk]
  · rw [show (updateTxn reference (fun t => { t with state := TxnState.queued }) s).delivery = s.delivery from rfl, n3]
    simp
  · rw [show (updateTxn reference (fun t => { t with state := TxnState.queued }) s).delivery = s.delivery from rfl, n4]
    simp
  · intro k
    have := h.room k
    by_cases hk : k = l
    · subst hk
      rw [setAt_same, setAt_same]
      rw [hfl] at this
      simpa using this
    · rw [setAt_other _ _ hk, setAt_other _ _ hk]; exact this

end

/-! ### What the work of a line makes of flight and queue -/

/-- The life of the records goes on with the line's own order and queue. -/
def TxnFlow (l : LineId) (s t : State) : Prop :=
  ∀ flight queue, TxnsHold (setAt flight l (inFlightReference (s.line l))) (setAt queue l (s.line l).txnQueue) s →
    TxnsHold (setAt flight l (inFlightReference (t.line l))) (setAt queue l (t.line l).txnQueue) t

namespace TxnFlow
variable {l : LineId}

theorem refl (s : State) : TxnFlow l s s := fun _ _ h => h

theorem trans {s t u : State} (h : TxnFlow l s t) (k : TxnFlow l t u) : TxnFlow l s u :=
  fun flight queue hs => k flight queue (h flight queue hs)

theorem after {s t u : State} (k : TxnFlow l t u) (h : TxnFlow l s t) : TxnFlow l s u := h.trans k

/-- Nothing of the records, of the order or of the queue. -/
theorem quiet {s t : State} (h : TxnsQuiet s t) (hr : inFlightReference (t.line l) = inFlightReference (s.line l))
    (hq : (t.line l).txnQueue = (s.line l).txnQueue) : TxnFlow l s t := by
  intro flight queue hs
  rw [hr, hq]
  exact hs.quiet h

end TxnFlow

variable {l : LineId}

theorem inFlightReference_congr {x y : Line} (h : y.engine.order = x.engine.order) :
    inFlightReference y = inFlightReference x := by
  unfold inFlightReference; rw [h]

/-- An update of the line that leaves order and queue alone. -/
theorem modifyLine_flow (s : State) (f : Line → Line)
    (ho : ∀ x, (f x).engine.order = x.engine.order := by intro _; rfl)
    (hq : ∀ x, (f x).txnQueue = x.txnQueue := by intro _; rfl) : TxnFlow l s (s.modifyLine l f) :=
  .quiet (modifyLine_txnsQuiet _ _ _) (by rw [modifyLine_line_same]; exact inFlightReference_congr (ho _))
    (by rw [modifyLine_line_same]; exact hq _)

theorem modifySched_flow (s : State) (f : Scheduler → Scheduler) : TxnFlow l s (s.modifySched l f) :=
  modifyLine_flow s _

theorem modifyPort_flow (s : State) (f : LinePort → LinePort) : TxnFlow l s (s.modifyPort l f) :=
  modifyLine_flow s _

theorem modifyEngine_flow (s : State) (f : Engine → Engine) (ho : ∀ e, (f e).order = e.order := by intro _; rfl) :
    TxnFlow l s (s.modifyEngine l f) := modifyLine_flow s _ (fun x => ho x.engine)

theorem requestReport_flow {r : ReportRequest} (hr : doneReference r = none) (s : State) :
    TxnFlow l s (requestReport r s) :=
  .quiet (requestReport_txnsQuiet hr s) (by rw [requestReport_line]) (by rw [requestReport_line])

theorem changeLineState_flow (state : LineState) (cause : Cause) (s : State) :
    TxnFlow l s (changeLineState l state cause s) :=
  (requestReport_flow rfl _).after (modifyLine_flow s _)

theorem tableChange_flow {s t : State} (h : TxnsQuiet s t) (hc : TableChange (s.line l) (t.line l)) :
    TxnFlow l s t := by
  obtain ⟨n, p, he, -⟩ := hc
  exact .quiet h (by rw [he]; rfl) (by rw [he])

theorem nodesToPending_flow (test : NodeRecord → Bool) (s : State) : TxnFlow l s (nodesToPending l test s) :=
  tableChange_flow (nodesToPending_txnsQuiet l test s) (nodesToPending_change l test s)

theorem takeNodeVerdict_flow (v : VerdictRecord) (s : State) : TxnFlow l s (takeNodeVerdict l v s) :=
  tableChange_flow (takeNodeVerdict_txnsQuiet l v s) (takeNodeVerdict_change l v s)

/-- A purge completes the queued records head first (R107). -/
theorem purgeLine_flow (s : State) : TxnFlow l s (purgeLine l s) := by
  intro flight queue h
  have hfold : ∀ (rs : List Word16) (q : LineId → List Word16) (t : State), q l = rs →
      TxnsHold (setAt flight l (inFlightReference (s.line l))) q t →
      TxnsHold (setAt flight l (inFlightReference (s.line l))) (setAt q l [])
        (rs.foldl (fun s reference => completeTxn reference .cancelled none none none s) t) := by
    intro rs
    induction rs with
    | nil => intro q t hq ht; rw [← hq, setAt_self, hq]; exact ht
    | cons r rest ih =>
      intro q t hq ht
      have hs : txnStatus t r = some (l, .queued) := (ht.queued l r).1 (by simp [hq])
      have hn := ht.queues l
      rw [hq, List.nodup_cons] at hn
      have hfil : (q l).filter (· ≠ r) = rest := by
        rw [hq, List.filter_cons]
        simp only [ne_eq, not_true_eq_false, decide_false, Bool.false_eq_true, if_false]
        refine List.filter_eq_self.2 fun a ha => ?_
        have : a ≠ r := by rintro rfl; exact hn.1 ha
        simpa using this
      have h1 := ht.completeQueued hs .cancelled none none none
      have := ih _ _ (by rw [hfil, setAt_same]) h1
      rw [setAt_setAt] at this
      exact this
  have h0 : TxnsHold (setAt flight l (inFlightReference (s.line l))) (setAt queue l (s.line l).txnQueue)
      (s.modifyLine l fun x => { x with txnQueue := [] }) := h.quiet (modifyLine_txnsQuiet _ _ _)
  have := hfold _ _ _ (setAt_same _ _ _) h0
  rw [setAt_setAt] at this
  rw [purgeLine_line]
  exact this

theorem enterStopped_flow (s : State) : TxnFlow l s (enterStopped l s) := by
  unfold enterStopped
  dsimp only
  refine (modifyLine_flow _ _).after ?_
  split
  · exact (purgeLine_flow _).after (changeLineState_flow _ _ s)
  · exact changeLineState_flow _ _ s

theorem enterFault_flow (cause : Cause) (s : State) : TxnFlow l s (enterFault l cause s) :=
  (changeLineState_flow _ _ s).trans (modifyLine_flow _ _)

theorem startIdleWait_flow (s : State) : TxnFlow l s (startIdleWait l s) :=
  modifyLine_flow s _ (by intro x; split <;> rfl) (by intro x; split <;> rfl)

theorem checkStuck_flow (s : State) : TxnFlow l s (checkStuck l s) := by
  unfold checkStuck
  split
  · exact enterFault_flow _ s
  · exact .refl _

theorem startRound_flow (s : State) : TxnFlow l s (startRound l s) := by
  unfold startRound
  exact modifyLine_flow s _

theorem lineControlTake_flow (v : Verdict) (stuck : Bool) (s : State) :
    TxnFlow l s (lineControlTake l v stuck s) := by
  unfold lineControlTake
  split
  · split
    · exact .refl _
    · exact enterStopped_flow s
  · split
    · split
      · exact changeLineState_flow _ _ s
      · exact enterFault_flow _ s
    · split
      · exact enterFault_flow _ s
      · exact .refl _
  all_goals exact .refl _

theorem schedulerTake_flow (v : VerdictRecord) (s : State) : TxnFlow l s (schedulerTake l v s) := by
  unfold schedulerTake
  split
  · exact modifySched_flow _ _
  · exact .refl _

theorem breakEnded_flow (duration : Nat) (s : State) : TxnFlow l s (breakEnded l duration s) := by
  unfold breakEnded
  split
  · exact modifyLine_flow s _
  · exact .refl _

theorem endLowPeriod_flow (s : State) : TxnFlow l s (endLowPeriod l s) := by
  unfold endLowPeriod
  refine TxnFlow.trans ?_ (modifyPort_flow _ _)
  split
  · exact .refl _
  · exact (breakEnded_flow _ s).trans (modifyEngine_flow _ _)

theorem sendFrame_flow (chars : List (BitVec 9)) (s : State) :
    TxnFlow l s (sendFrame l chars s) :=
  (endLowPeriod_flow s).trans (modifyLine_flow _ _)

theorem sendBreak_flow (jam : Bool) (length : Nat) (s : State) : TxnFlow l s (sendBreak l jam length s) :=
  (endLowPeriod_flow s).trans (modifyPort_flow _ _)

theorem releaseDriver_flow (s : State) : TxnFlow l s (releaseDriver l s) := by
  unfold releaseDriver
  refine modifyLine_flow s _ (fun x => ?_) fun x => ?_ <;> (dsimp only; split <;> rfl)

theorem releaseAfterRestart_flow (s : State) : TxnFlow l s (releaseAfterRestart l s) := by
  unfold releaseAfterRestart
  split
  · exact modifyPort_flow s _
  · exact releaseDriver_flow s

/-- The verdict of a transaction takes its record out of flight: completed, or back in the queue (R100 to
R102). -/
theorem takeTxnVerdict_hold {flight : LineId → Option Word16} {queue : LineId → List Word16} {s : State}
    {reference : Word16} (v : VerdictRecord) (h : TxnsHold flight queue s) (hf : flight l = some reference)
    (hq : queue l = (s.line l).txnQueue) :
    TxnsHold (setAt flight l none) (setAt queue l ((takeTxnVerdict l reference v s).line l).txnQueue)
      (takeTxnVerdict l reference v s) := by
  have hs := (h.inFlight l reference).1 hf
  have hkeep : ∀ (t : State) (f : TxnRecord → TxnRecord), (∀ t, (f t).reference = t.reference) →
      (∀ t, (f t).line = t.line) → (∀ t, (f t).state = t.state) → ∀ r,
      txnStatus (updateTxn reference f t) r = txnStatus t r := by
    intro t f h1 h2 h3 r
    rw [updateTxn_status reference f h1 h2 id h3]
    split
    · cases txnStatus t r <;> rfl
    · rfl
  have h1 := h.keep reference (fun t => { t with attempts := t.attempts + v.framesSent }) (fun _ => rfl)
    (fun _ => rfl) (fun _ => rfl) (fun _ => rfl)
  have hs1 := (hkeep s (fun t => { t with attempts := t.attempts + v.framesSent }) (fun _ => rfl) (fun _ => rfl)
    (fun _ => rfl) reference).trans hs
  unfold takeTxnVerdict
  split
  · rename_i hnone
    simp [txnStatus, hnone] at hs
  · rename_i t ht
    have htr := (findTxn_mem ht).2
    have done : ∀ (result : TxnResult) (verdict : Option Verdict) (reason : Option RefuseReason)
        (reply : Option (List Byte)),
        TxnsHold (setAt flight l none)
          (setAt queue l ((completeTxn reference result verdict reason reply
            (updateTxn reference (fun t => { t with attempts := t.attempts + v.framesSent }) s)).line l).txnQueue)
          (completeTxn reference result verdict reason reply
            (updateTxn reference (fun t => { t with attempts := t.attempts + v.framesSent }) s)) := by
      intro result verdict reason reply
      rw [completeTxn_line, updateTxn_line, ← hq, setAt_self]
      exact h1.completeInFlight hs1 result verdict reason reply
    have h2 := h1.keep reference (fun t => { t with contentionReturns := t.contentionReturns + 1 }) (fun _ => rfl)
      (fun _ => rfl) (fun _ => rfl) (fun _ => rfl)
    have hs2 := (hkeep _ (fun t => { t with contentionReturns := t.contentionReturns + 1 }) (fun _ => rfl)
      (fun _ => rfl) (fun _ => rfl) reference).trans hs1
    dsimp only
    split
    · exact done _ _ _ _
    · exact done _ _ _ _
    · unfold takeContention
      dsimp only
      rw [htr]
      split
      · have h3 := h2.giveBack hs2
        rw [modifyLine_line_same, updateTxn_line, updateTxn_line, updateTxn_line]
        dsimp only
        rw [← hq]
        exact h3.quiet (modifyLine_txnsQuiet _ _ _)
      · rw [completeTxn_line, updateTxn_line, updateTxn_line, ← hq, setAt_self]
        exact h2.completeInFlight hs2 _ _ _ _
    all_goals exact done _ _ _ _

/-- The end of an exchange. -/
theorem finishExchange_flow (r : AttemptResult) (stuck : Bool) (s : State) :
    TxnFlow l s (finishExchange l r stuck s) := by
  unfold finishExchange
  dsimp only
  split
  · exact .refl _
  · rename_i o ho
    unfold deliverVerdict
    refine (lineControlTake_flow _ _ _).after ((schedulerTake_flow _ _).after ((takeNodeVerdict_flow _ _).after ?_))
    intro flight queue h
    have hl : ((s.modifyLine l fun x =>
        { x with engine := idleEngine x.engine, counters := countExchange r.verdict x.counters }).line l) =
        { s.line l with
          engine := idleEngine (s.line l).engine, counters := countExchange r.verdict (s.line l).counters } :=
      modifyLine_line_same _ _ _
    have hi := h.quiet (modifyLine_txnsQuiet l (fun x =>
      { x with engine := idleEngine x.engine, counters := countExchange r.verdict x.counters }) s)
    have href : inFlightReference (s.line l) = orderReference o.kind := by
      unfold inFlightReference; rw [ho]; rfl
    revert hl hi
    generalize (s.modifyLine l fun x =>
      { x with engine := idleEngine x.engine, counters := countExchange r.verdict x.counters }) = t
    intro hl hi
    have hnone : inFlightReference (t.line l) = none := by rw [hl]; rfl
    have hq : (s.line l).txnQueue = (t.line l).txnQueue := by rw [hl]
    have hown : ∀ v, inFlightReference ((ownerTake l v t).line l) = none := by
      intro v
      obtain ⟨queue, he⟩ := ownerTake_line l v t
      rw [he]; exact hnone
    rw [href, hq] at hi
    rw [hown]
    have plain : orderReference o.kind = none → ∀ u : State, TxnsQuiet t u → u.line l = t.line l →
        TxnsHold (setAt flight l none) (setAt queue l (u.line l).txnQueue) u := by
      intro hnr u hu hul
      rw [hul]
      rw [hnr] at hi
      exact hi.quiet hu
    have taken : ∀ (reference : Word16) (v : VerdictRecord),
        TxnsHold (setAt flight l (some reference)) (setAt queue l (t.line l).txnQueue) t →
        TxnsHold (setAt flight l none) (setAt queue l ((takeTxnVerdict l reference v t).line l).txnQueue)
          (takeTxnVerdict l reference v t) := by
      intro reference v hv
      have := takeTxnVerdict_hold v hv (setAt_same _ _ _) (setAt_same _ _ _)
      rwa [setAt_setAt, setAt_setAt] at this
    unfold ownerTake
    dsimp only
    split
    · rename_i hk
      exact plain (by rw [hk]; rfl) _ (takePollVerdict_txnsQuiet _ _ _ _) (takePollVerdict_line _ _ _ _ _)
    · rename_i hk
      rw [hk] at hi
      exact taken _ _ hi
    · rename_i hk
      rw [hk] at hi
      exact taken _ _ hi
    all_goals rename_i hk
    all_goals exact plain (by rw [hk]; rfl) _ (.refl _) rfl

theorem recordAttempt_flow (v : Verdict) (s : State) : TxnFlow l s (recordAttempt l v s) := modifyLine_flow s _

theorem endAttempt_flow (r : AttemptResult) (s : State) : TxnFlow l s (endAttempt l r s) := by
  unfold endAttempt
  dsimp only
  split
  · exact recordAttempt_flow _ _
  · split
    · exact (modifyEngine_flow _ _).after (recordAttempt_flow _ _)
    · exact (finishExchange_flow _ _ _).after (recordAttempt_flow _ _)

/-- An order of no transaction is taken by an engine that holds none. -/
theorem startExchange_flow (k : OrderKind) {s : State}
    (hn : (s.line l).engine.order = none) (hk : orderReference k = none) :
    TxnFlow l s (startExchange l k s) := by
  unfold startExchange
  dsimp only
  refine (sendFrame_flow _ _).after (.quiet (modifyLine_txnsQuiet _ _ _) ?_ ?_)
  · rw [modifyEngine_modifyLine, modifyLine_line_same]
    unfold inFlightReference
    rw [hn]
    exact hk
  · rw [modifyEngine_modifyLine, modifyLine_line_same]

theorem startBreakOrder_flow {s : State} (hn : (s.line l).engine.order = none) :
    TxnFlow l s (startBreakOrder l s) := by
  unfold startBreakOrder
  dsimp only
  refine (sendBreak_flow _ _ _).after (.quiet (modifyLine_txnsQuiet _ _ _) ?_ ?_)
  · rw [modifyEngine_modifyLine, modifyLine_line_same]
    unfold inFlightReference
    rw [hn]
    rfl
  · rw [modifyEngine_modifyLine, modifyLine_line_same]

theorem endSettling_flow (s : State) : TxnFlow l s (endSettling l s) := by
  unfold endSettling
  dsimp only
  split
  · split
    · exact finishExchange_flow _ _ _
    · exact (sendFrame_flow _ _).after (modifyLine_flow s _)
  · exact .refl _

theorem windowRunsOut_flow (s : State) : TxnFlow l s (windowRunsOut l s) := by
  unfold windowRunsOut
  split
  · exact endAttempt_flow _ _
  all_goals exact .refl _

theorem gapRunsOut_flow (s : State) : TxnFlow l s (gapRunsOut l s) := by
  unfold gapRunsOut
  split
  · exact endAttempt_flow _ _
  all_goals exact .refl _

theorem resumeTimers_flow (s : State) : TxnFlow l s (resumeTimers l s) := by
  unfold resumeTimers
  dsimp only
  split <;> (try split) <;>
    first | exact .refl _ | exact endAttempt_flow _ _ | exact endSettling_flow _ | exact modifyEngine_flow _ _

theorem countStray_flow (s : State) : TxnFlow l s (countStray l s) := by
  unfold countStray State.countLine
  exact modifyLine_flow s _

theorem afterStored_flow (s : State) : TxnFlow l s (afterStored l s) := by
  unfold afterStored
  dsimp only
  split
  · exact .refl _
  · split
    · exact endAttempt_flow _ _
    · split
      · exact endAttempt_flow _ _
      · exact modifyEngine_flow _ _

theorem takeReplyCharacter_flow (c : ReceivedCharacter) (s : State) : TxnFlow l s (takeReplyCharacter l c s) :=
  ((modifyEngine_flow s _).trans (modifySched_flow _ _)).trans (afterStored_flow _)

theorem takeCharacter_flow (c : ReceivedCharacter) (s : State) : TxnFlow l s (takeCharacter l c s) := by
  unfold takeCharacter
  split
  · exact countStray_flow s
  · exact countStray_flow s
  · split
    · exact takeReplyCharacter_flow _ _
    · exact (countStray_flow s).trans (resumeTimers_flow _)
  · split
    · exact (modifySched_flow s _).trans (endAttempt_flow _ _)
    · exact takeReplyCharacter_flow _ _
  · exact (countStray_flow s).trans (resumeTimers_flow _)

theorem engineBreakEnd_flow (s : State) : TxnFlow l s (engineBreakEnd l s) := by
  unfold engineBreakEnd
  split
  · exact endAttempt_flow _ _
  · exact resumeTimers_flow _

theorem breakOver_flow (duration : Nat) (s : State) : TxnFlow l s (breakOver l duration s) :=
  (breakEnded_flow _ s).trans (engineBreakEnd_flow _)

theorem engineStuck_flow (s : State) : TxnFlow l s (engineStuck l s) := by
  unfold engineStuck
  dsimp only
  split <;> first | exact finishExchange_flow _ _ _ | exact .refl _

theorem engineBreak_order (e : Engine) : (engineBreak e).order = e.order := by
  unfold engineBreak; split <;> rfl

theorem breakSent_flow (s : State) : TxnFlow l s (breakSent l s) :=
  ((releaseDriver_flow s).trans (modifySched_flow _ _)).trans (modifyLine_flow _ _)

/-! ### The arbiter's choices -/

theorem choosePoll_flow (id : Nat) {s : State} (hn : (s.line l).engine.order = none) :
    TxnFlow l s (choosePoll l id s) := by
  unfold choosePoll
  dsimp only
  split
  · exact modifySched_flow _ _
  · refine (startExchange_flow _ ?_ rfl).after
      (TxnFlow.trans (modifySched_flow s _) (.quiet (updateSub_txnsQuiet _ _ _ _) (by rw [updateSub_line])
        (by rw [updateSub_line])))
    rw [updateSub_line, modifySched_modifyLine, modifyLine_line_same]
    exact hn

theorem chooseWork_flow (again : Nat) {s : State} (hn : (s.line l).engine.order = none) :
    TxnFlow l s (chooseWork l again s) := by
  induction again generalizing s with
  | zero => exact .refl _
  | succ again ih =>
    unfold chooseWork
    split
    · exact .refl _
    · exact choosePoll_flow _ hn
    · rename_i polls reference rest hq
      split
      · have hpop : (popTxn l s).line l = { s.line l with txnQueue := rest } := by
          unfold popTxn
          rw [modifyLine_line_same, hq]
          rfl
        have hnr : inFlightReference (s.line l) = none := by unfold inFlightReference; rw [hn]; rfl
        split
        · rename_i hnone
          intro flight queue h
          have hs := (h.queued l reference).1 (by rw [setAt_same, hq]; simp)
          simp [txnStatus, hnone] at hs
        · rename_i t ht
          have htr := (findTxn_mem ht).2
          split
          · unfold sendTxn
            intro flight queue h
            rw [hnr, hq] at h
            have hp : TxnsHold (setAt flight l none) (setAt queue l (reference :: rest)) (popTxn l s) :=
              h.quiet (modifyLine_txnsQuiet _ _ _)
            have hsend := hp.send (setAt_same _ _ _) (setAt_same _ _ _)
            rw [setAt_setAt, setAt_setAt] at hsend
            rw [htr]
            have hlast : orderReference (txnOrder t (nodeUidAt (popTxn l s) l t.node)) = some reference := by
              unfold txnOrder
              split <;> exact congrArg some htr
            generalize txnOrder t (nodeUidAt (popTxn l s) l t.node) = k at hlast ⊢
            have hx := hsend.quiet (modifyLine_txnsQuiet l (fun x => { x with sched := { x.sched with
              alternation := .transaction
              allowanceUsed := if x.sched.pollList = [] then x.sched.allowanceUsed else x.sched.allowanceUsed + 1 } })
              (updateTxn reference (fun t => { t with state := .inFlight }) (popTxn l s)))
            rw [modifySched_modifyLine]
            have hline : ((updateTxn reference (fun t => { t with state := .inFlight }) (popTxn l s)).modifyLine l
                (fun x => { x with sched := { x.sched with
                  alternation := .transaction
                  allowanceUsed := if x.sched.pollList = [] then x.sched.allowanceUsed
                    else x.sched.allowanceUsed + 1 } })).line l =
                { s.line l with
                  txnQueue := rest
                  sched := { (s.line l).sched with
                    alternation := .transaction
                    allowanceUsed := if (s.line l).sched.pollList = [] then (s.line l).sched.allowanceUsed
                      else (s.line l).sched.allowanceUsed + 1 } } := by
              rw [modifyLine_line_same, updateTxn_line, hpop]
            revert hx hline
            generalize ((updateTxn reference (fun t => { t with state := .inFlight }) (popTxn l s)).modifyLine l
                (fun x => { x with sched := { x.sched with
                  alternation := .transaction
                  allowanceUsed := if x.sched.pollList = [] then x.sched.allowanceUsed
                    else x.sched.allowanceUsed + 1 } })) = u
            intro hx hline
            unfold startExchange
            dsimp only
            refine sendFrame_flow _ _ flight queue ?_
            rw [modifyEngine_modifyLine, modifyLine_line_same]
            have : inFlightReference { u.line l with engine := { (u.line l).engine with
                state := .sending, order := some { kind := k, round := (u.line l).sched.roundNumber }
                attempt := startAttempt k, framesSent := 0, breakSeen := false, sentToggle := toggleFor u l k } } =
                some reference := hlast
            rw [this]
            dsimp only
            rw [hline]
            exact hx.quiet (modifyLine_txnsQuiet _ _ _)
          · refine TxnFlow.trans (t := completeTxn reference .unavailable none none none (popTxn l s)) ?_ (ih ?_)
            · intro flight queue h
              rw [hq] at h
              have hs := (h.queued l reference).1 (by rw [setAt_same]; simp)
              have hnd := h.queues l
              rw [setAt_same, List.nodup_cons] at hnd
              have hp := h.quiet (modifyLine_txnsQuiet l (fun x => { x with txnQueue := x.txnQueue.tail }) s)
              have hs' : txnStatus (s.modifyLine l fun x => { x with txnQueue := x.txnQueue.tail }) reference =
                  some (l, .queued) := (status_congr (by simp) _).trans hs
              have hc := hp.completeQueued hs' .unavailable none none none
              have hfil : (setAt queue l (reference :: rest) l).filter (· ≠ reference) = rest := by
                rw [setAt_same, List.filter_cons]
                simp only [ne_eq, not_true_eq_false, decide_false, Bool.false_eq_true, if_false]
                refine List.filter_eq_self.2 fun a ha => ?_
                have : a ≠ reference := by rintro rfl; exact hnd.1 ha
                simpa using this
              rw [hfil, setAt_setAt] at hc
              rw [completeTxn_line, hpop]
              exact hc
            · rw [completeTxn_line, hpop]
              exact hn
      · split
        · exact .refl _
        · exact choosePoll_flow _ hn

theorem roundTimerRunsOut_flow (s : State) : TxnFlow l s (roundTimerRunsOut l s) := by
  unfold roundTimerRunsOut
  split
  · exact modifyLine_flow s _
  all_goals exact .refl _

theorem takeRoundStart_flow (s : State) : TxnFlow l s (takeRoundStart l s) := by
  unfold takeRoundStart
  split
  · exact startRound_flow s
  · exact .refl _

theorem choose_flow {s : State} (h : LineSound (s.line l)) (hm : mayChoose (s.line l) = true) :
    TxnFlow l s (choose l s) := by
  simp only [mayChoose, Bool.and_eq_true, beq_iff_eq] at hm
  have hn : (s.line l).engine.order = none := h.order.2 hm.1.1.1.2
  have hs : ∀ f : Scheduler → Scheduler, ((s.modifySched l f).line l).engine.order = none := by
    intro f; rw [modifySched_modifyLine, modifyLine_line_same]; exact hn
  unfold choose
  dsimp only
  split
  · exact (startBreakOrder_flow (hs _)).after (modifySched_flow s _)
  · split
    · exact (startExchange_flow _ (hs _) rfl).after (modifySched_flow s _)
    · unfold chooseProbeOrWork
      split
      · exact (startExchange_flow _ (hs _) rfl).after (modifySched_flow s _)
      · exact chooseWork_flow _ hn

theorem frameSent_flow (s : State) : TxnFlow l s (frameSent l s) := by
  unfold frameSent countFrame
  split
  · exact (releaseDriver_flow _).after ((modifySched_flow _ _).after (modifyEngine_flow s _))
  · split
    · exact (releaseDriver_flow _).after ((modifyEngine_flow _ _).after
        ((modifySched_flow _ _).after (modifyEngine_flow s _)))
    · exact (endAttempt_flow _ _).after ((releaseDriver_flow _).after
        ((modifySched_flow _ _).after (modifyEngine_flow s _)))

theorem deliverCharacter_flow (c : ReceivedCharacter) (s : State) : TxnFlow l s (deliverCharacter l c s) := by
  have h : TxnFlow l s (s.countLine l (countNoise c)) := modifyLine_flow s _
  unfold deliverCharacter
  dsimp only
  split
  · exact h
  · exact (takeCharacter_flow _ _).after h

theorem takeStuck_flow (newBreak : Bool) (s : State) : TxnFlow l s (takeStuck l newBreak s) := by
  have report : ∀ t, TxnFlow l t (reportStuck l t) := by
    intro t
    unfold reportStuck stuckToLineControl
    split
    iterate 3 exact engineStuck_flow t
    · split
      · exact enterFault_flow _ _
      · exact enterFault_flow _ _
      all_goals exact .refl _
    · exact .refl _
  exact (report _).after (modifyLine_flow s _ (fun x => engineBreak_order x.engine) fun _ => rfl)

theorem ensureIdleWait_flow (s : State) : TxnFlow l s (ensureIdleWait l s) := by
  unfold ensureIdleWait
  split
  · exact startIdleWait_flow s
  · exact .refl _

theorem afterJam_flow (s : State) : TxnFlow l s (afterJam l s) := by
  unfold afterJam
  split
  · exact modifyLine_flow _ _
  · split
    · exact startIdleWait_flow s
    · exact .refl _
  · exact enterStopped_flow _
  all_goals exact .refl _

theorem breakOrderEnd_flow {left : Nat} {s : State} (h : LineSound (s.line l))
    (hf : (s.line l).port.tx = .sendingBreak false left) :
    TxnFlow l s (completeStop l (pendInService l (breakSent l (endOrder l s)))) := by
  have ht := h.transmit
  rw [hf] at ht
  obtain ⟨-, o, ho, hk⟩ := ht
  have hend : TxnFlow l s (endOrder l s) := by
    unfold endOrder
    refine .quiet (modifyLine_txnsQuiet l _ s) ?_ ?_
    · rw [modifyEngine_modifyLine, modifyLine_line_same]
      unfold inFlightReference
      rw [ho]
      show none = orderReference o.kind
      rw [hk]
      rfl
    · rw [modifyEngine_modifyLine, modifyLine_line_same]
  refine (hend.trans ((breakSent_flow _).trans (nodesToPending_flow (fun n => n.state.inService) _))).trans ?_
  show TxnFlow l (pendInService l (breakSent l (endOrder l s))) _
  generalize pendInService l (breakSent l (endOrder l s)) = t
  unfold completeStop
  split
  · exact enterStopped_flow _
  · exact .refl _

theorem portAct_flow {s t : State} (ha : PortAct l s t) (h : LineSound (s.line l)) : TxnFlow l s t := by
  cases ha with
  | nothing => exact .refl _
  | hold => exact modifyEngine_flow _ _
  | resume => exact resumeTimers_flow _
  | character c => exact deliverCharacter_flow c _
  | breakDetected => exact modifyLine_flow s _ (fun x => engineBreak_order x.engine) fun _ => rfl
  | breakEnd duration => exact breakOver_flow duration _
  | stuck newBreak => exact takeStuck_flow newBreak _
  | stuckEnd duration => exact (ensureIdleWait_flow _).after (breakOver_flow duration _)
  | frameSent => exact frameSent_flow _
  | lastCharacter => exact (modifySched_flow _ _).after (releaseAfterRestart_flow _)
  | contention => exact (sendBreak_flow _ _ _).after (endAttempt_flow _ _)
  | jamBreakEnd => exact (afterJam_flow _).after (breakSent_flow _)
  | breakOrderEnd _ hf => exact breakOrderEnd_flow h hf
  | choice _ hm => exact choose_flow h hm
  | settlingEnd => exact endSettling_flow _

/-- A command of the port carries the records on. -/
theorem afterPeriods_flow {event : State → Option State} (hc : PortCommand l event) (periods : Periods) {s : State}
    (h : LineSound (s.line l)) : TxnFlow l s (afterPeriods l periods event s) := by
  refine (afterPeriods_keeps (P := fun t => LineSound (t.line l) ∧ TxnFlow l s t) hc (fun level t ht => ⟨?_, ?_⟩)
    (fun rest t ht => ⟨modifyPort_sound ht.1 _, ht.2.trans (modifyPort_flow t _)⟩)
    (fun t u ha ht => ⟨portAct_sound ha ht.1, ht.2.trans (portAct_flow ha ht.1)⟩) periods ⟨h, .refl s⟩).2
  · rw [modifyLine_line_same]
    exact linePeriod_sound level ht.1
  · exact ht.2.trans (modifyLine_flow t _)

theorem holdoffRunsOut_flow (s : State) : TxnFlow l s (holdoffRunsOut l s) := by
  unfold holdoffRunsOut
  dsimp only
  split
  · exact ((changeLineState_flow _ _ s).trans (modifyLine_flow _ _)).trans (checkStuck_flow _)
  · exact .refl _

theorem idleWaitRunsOut_flow (s : State) : TxnFlow l s (idleWaitRunsOut l s) := by
  unfold idleWaitRunsOut
  dsimp only
  split
  · exact ((((changeLineState_flow _ _ s).trans (modifyLine_flow _ _)).trans
      (nodesToPending_flow _ _)).trans (startRound_flow _)).trans (checkStuck_flow _)
  · exact .refl _

/-- Every event of a line carries the records on. -/
theorem lineEvent_flow {f : State → State} (hf : LineEvent l f) {s : State} (h : LineSound (s.line l)) :
    TxnFlow l s (f s) := by
  cases hf with
  | port periods hc => exact afterPeriods_flow hc periods h
  | roundTimer => exact roundTimerRunsOut_flow s
  | roundStart => exact takeRoundStart_flow s
  | quiet =>
    unfold endQuiet
    split
    · exact modifySched_flow s _
    all_goals exact .refl _
  | window => exact windowRunsOut_flow s
  | gap => exact gapRunsOut_flow s
  | holdoff => exact holdoffRunsOut_flow s
  | idleWait => exact idleWaitRunsOut_flow s

/-- Work of one line that carries the records on keeps them sound. -/
theorem TxnFlow.sound {s t : State} (hf : TxnFlow l s t) (ho : ∀ k, k ≠ l → t.line k = s.line k)
    (h : TxnsSound s) : TxnsSound t := by
  rw [txnsHold_iff] at h ⊢
  have h1 := hf (fun k => inFlightReference (s.line k)) (fun k => (s.line k).txnQueue)
    (by
      rw [setAt_self (fun k => inFlightReference (s.line k)) l, setAt_self (fun k => (s.line k).txnQueue) l]
      exact h)
  have e1 : setAt (fun k => inFlightReference (s.line k)) l (inFlightReference (t.line l)) =
      fun k => inFlightReference (t.line k) := by
    funext k
    by_cases hk : k = l
    · subst hk; rw [setAt_same]
    · rw [setAt_other _ _ hk, ho k hk]
  have e2 : setAt (fun k => (s.line k).txnQueue) l (t.line l).txnQueue = fun k => (t.line k).txnQueue := by
    funext k
    by_cases hk : k = l
    · subst hk; rw [setAt_same]
    · rw [setAt_other _ _ hk, ho k hk]
  rwa [e1, e2] at h1

end Sys2Proof.Machine
end

