-- ==== Sys2Proof/Laws/TxnSteps.lean ====
section
/-! SUPPORT. `TxnsSound` through the grants of the outbound arbiter, acknowledgement, timeout, the
hand-back of the window and every request. -/

namespace Sys2Proof.Machine

open Sys2Proof

/-- Nothing of the records, and no line's order or queue. -/
theorem TxnsSound.quiet {s t : State} (h : TxnsSound s) (k : TxnsQuiet s t)
    (lines : ∀ l, (t.line l).engine.order = (s.line l).engine.order ∧ (t.line l).txnQueue = (s.line l).txnQueue) :
    TxnsSound t := by
  rw [txnsHold_iff] at h ⊢
  have e1 : (fun l => inFlightReference (t.line l)) = fun l => inFlightReference (s.line l) :=
    funext fun l => inFlightReference_congr (lines l).1
  have e2 : (fun l => (t.line l).txnQueue) = fun l => (s.line l).txnQueue := funext fun l => (lines l).2
  rw [e1, e2]
  exact h.quiet k

/-- The same for work that touches no line. -/
theorem TxnsSound.quietLines {s t : State} (h : TxnsSound s) (k : TxnsQuiet s t) (lines : ∀ l, t.line l = s.line l) :
    TxnsSound t := h.quiet k fun l => by rw [lines l]; exact ⟨rfl, rfl⟩

/-! ### The outbound arbiter -/

theorem clearOldestMark_requests (w : List Snapshot) :
    (clearOldestMark w).map (·.request) = w.map (·.request) := by
  induction w with
  | nil => rfl
  | cons x rest ih =>
    unfold clearOldestMark
    split
    · rfl
    · simp [ih]

theorem resendSnapshot_txnsQuiet (x : Snapshot) (s : State) : TxnsQuiet s (resendSnapshot x s) :=
  ⟨rfl, filterMap_done_congr (clearOldestMark_requests _), id, fun _ => Iff.rfl⟩

theorem grantResponse_txnsQuiet (s : State) : TxnsQuiet s (grantResponse s) := by
  unfold grantResponse
  split
  · exact .refl _
  · exact .same rfl rfl

theorem tellOwner_txns (r : ReportRequest) {s t : State} (h : t.txns = s.txns) :
    (tellOwner r t).txns = (tellOwner r s).txns := by
  cases r <;> first | exact h | (unfold tellOwner updateTxn; rw [h])

/-- The content of a report reads nothing of Report Delivery. -/
theorem reportContent_congr (r : ReportRequest) (s : State) (f : Delivery → Delivery) :
    reportContent r (s.modifyDelivery f) = reportContent r s := by
  cases r <;> rfl

/-- What a composition does to the records, the report queue and the window. -/
theorem composeReport_effect {s : State} {r : ReportRequest} {rest : List ReportRequest} {content : List Byte}
    (hq : s.delivery.queue = r :: rest) (hc : reportContent r s = some content) :
    (composeReport s).txns = (tellOwner r s).txns ∧ (composeReport s).delivery.queue = rest ∧
      ∃ x, x.request = r ∧ (composeReport s).delivery.window = s.delivery.window ++ [x] := by
  unfold composeReport
  rw [hq]
  dsimp only
  rw [reportContent_congr, hc]
  dsimp only [sendMessage, countLink_modifyLink, modifyLink_txns, modifyLink_delivery]
  rw [tellOwner_delivery]
  refine ⟨tellOwner_txns r rfl, rfl, _, ?_, rfl⟩
  rfl

/-- A composed TXN_DONE takes its record from DONE to REPORTED (R104). -/
theorem composeReport_txns {s : State} (h : TxnsSound s) : TxnsSound (composeReport s) := by
  rcases hq : s.delivery.queue with _ | ⟨r, rest⟩
  · have : composeReport s = s := by unfold composeReport; rw [hq]
    rwa [this]
  have hnd := h.entries
  rw [hq, List.nodup_cons] at hnd
  have hlines := (composeReport_deliveryWork s).lines
  have hT := (txnsHold_iff s).1 h
  rcases hd : doneReference r with _ | reference
  · have hne : ∀ q, ReportRequest.txnDone q ≠ r := by rintro q rfl; simp [doneReference] at hd
    have hmem : ∀ q, ReportRequest.txnDone q ∈ rest ↔ .txnDone q ∈ s.delivery.queue := by
      intro q; rw [hq]; simp [hne q]
    refine h.quietLines ?_ hlines
    rcases hc : reportContent r s with _ | content
    · have : composeReport s = s.modifyDelivery fun d => { d with queue := rest } := by
        unfold composeReport
        rw [hq]
        dsimp only
        rw [reportContent_congr, hc]
      rw [this]
      exact ⟨rfl, rfl, fun _ => hnd.2, hmem⟩
    · obtain ⟨ht, hq', x, hx, hw⟩ := composeReport_effect hq hc
      refine ⟨?_, ?_, fun _ => hq' ▸ hnd.2, fun q => ?_⟩
      · rw [ht]; cases r <;> first | rfl | simp [doneReference] at hd
      · rw [hw, List.filterMap_append]; simp [hx, hd]
      · rw [hq']; exact hmem q
  · have hr : r = .txnDone reference := by
      cases r <;> simp [doneReference] at hd
      rw [hd]
    subst hr
    obtain ⟨l, hs⟩ := (hT.done reference).1 (by simp [hq])
    obtain ⟨n1, n2, n3, n4⟩ := hT.notIn hs
    obtain ⟨u, hu⟩ : ∃ u, findTxn s reference = some u := by
      rcases hf : findTxn s reference with _ | u
      · simp [txnStatus, hf] at hs
      · exact ⟨u, rfl⟩
    obtain ⟨ht, hq', x, hx, hw⟩ := composeReport_effect (content := txnDoneContent u) hq (by simp [reportContent, hu])
    have ht' : (composeReport s).txns = (updateTxn reference (fun t => { t with
        state := if t.state = .done then .reported else t.state }) s).txns := ht
    have hw' : ((composeReport s).delivery.window.filterMap fun x => doneReference x.request) =
        (s.delivery.window.filterMap fun x => doneReference x.request) ++ [reference] := by
      rw [hw, List.filterMap_append]; simp [hx, doneReference]
    rw [txnsHold_iff]
    simp only [hlines]
    generalize composeReport s = t at *
    refine hT.move reference l .done .reported hs ?_ ?_ ?_ ?_ hT.queues (hq' ▸ hnd.2) ?_ ?_ (fun _ _ _ => Iff.rfl) ?_
      (fun _ _ _ => Iff.rfl) ?_ ?_ ?_ ?_ hT.room
    · intro r
      rw [status_congr ht', updateTxn_status (st := fun x => if x = .done then .reported else x)]
      · split
        · rename_i hr; rw [hr, hs]; rfl
        · rfl
      all_goals exact fun _ => rfl
    · rw [ht']; simpa [updateTxn] using h.count
    · rw [ht', updateTxn_references]; exacts [h.references, fun _ => rfl]
    · rw [ht']
      refine updateTxn_results h.results _ _ fun u hu hr => ?_
      have := h.results u hu
      dsimp only
      rw [this]
      by_cases hd : u.state = .done <;> simp [hd]
    · rw [hw', List.nodup_append]
      refine ⟨h.snapshots, by simp, fun a ha b hb => ?_⟩
      rw [List.mem_singleton] at hb
      rintro rfl
      rw [hb, n4] at ha
      cases ha
    · intro k; rw [n1]; simp
    · intro k; rw [n2]; simp
    · rw [hq']; simp [hnd.1]
    · intro r hr; rw [hq', hq]; simp [hr]
    · rw [hw']; simp
    · intro r hr; rw [hw']; simp [hr]

theorem outbound_txns {s : State} (h : TxnsSound s) : TxnsSound (outbound s) := by
  rcases outbound_cases s with he | ⟨x, -, -, he⟩ | ⟨-, -, -, he⟩ | ⟨-, -, -, -, he⟩ <;> rw [he]
  · exact h
  · exact h.quietLines (resendSnapshot_txnsQuiet x s) (resendSnapshot_deliveryWork x s).lines
  · exact h.quietLines (grantResponse_txnsQuiet s) (grantResponse_deliveryWork s).lines
  · exact composeReport_txns h

/-! ### Acknowledgement and timeout -/

theorem releaseOwners_txns (xs : List Snapshot) (s : State) :
    (xs.foldl releaseOwner s).txns =
      s.txns.filter fun t => t.reference ∉ xs.filterMap fun x => doneReference x.request := by
  induction xs generalizing s with
  | nil => simp
  | cons x rest ih =>
    rw [List.foldl_cons, ih]
    have hown : (releaseOwner s x).txns = match doneReference x.request with
        | some r => s.txns.filter fun t => t.reference ≠ r
        | none => s.txns := by
      unfold releaseOwner
      cases x.request <;> rfl
    rw [hown, List.filterMap_cons]
    rcases doneReference x.request with _ | reference
    · rfl
    · dsimp only
      rw [List.filter_filter]
      refine List.filter_congr fun t _ => ?_
      simp only [List.mem_cons, not_or, ne_eq, Bool.decide_and]
      rw [Bool.and_comm]

theorem filter_find {ts : List TxnRecord} (gone : List Word16) (r : Word16) :
    (ts.filter fun t => t.reference ∉ gone).find? (fun t => t.reference == r) =
      if r ∈ gone then none else ts.find? fun t => t.reference == r := by
  induction ts with
  | nil => simp
  | cons t rest ih =>
    by_cases hg : t.reference ∈ gone <;> by_cases hr : t.reference = r
    · subst hr; simpa [List.filter_cons, hg] using ih
    · simpa [List.filter_cons, hg, hr] using ih
    · subst hr; simp [hg]
    · simpa [List.filter_cons, hg, hr] using ih

/-- Acknowledged records are freed (R104, R164). -/
theorem acknowledge_txns (q : Byte) {s : State} (h : TxnsSound s) : TxnsSound (acknowledge q s) := by
  have hlines := (acknowledge_deliveryWork q s).lines
  unfold acknowledge at *
  split
  · rename_i removed left hsplit
    have hw : s.delivery.window = removed ++ left := by
      split at hsplit
      · exact ackSplit_append hsplit
      · cases hsplit
    rw [hsplit] at hlines
    dsimp only at hlines
    have hT := (txnsHold_iff s).1 h
    rw [txnsHold_iff]
    simp only [hlines]
    generalize hu : (s.modifyDelivery fun d => { d with
        window := left, timeoutCount := 0
        ackTimer := if left = [] then .stopped else .running d.ackTimeout }) = u
    have hut : u.txns = s.txns := by rw [← hu]; rfl
    have huq : u.delivery.queue = s.delivery.queue := by rw [← hu]; rfl
    have huw : u.delivery.window = left := by rw [← hu]; rfl
    clear hu hlines
    have ht := releaseOwners_txns removed u
    have hd := releaseOwners_delivery removed u
    rw [hut] at ht
    generalize removed.foldl releaseOwner u = t at *
    generalize hg : (removed.filterMap fun x => doneReference x.request) = gone at *
    have hsw : (s.delivery.window.filterMap fun x => doneReference x.request) =
        gone ++ left.filterMap fun x => doneReference x.request := by rw [hw, List.filterMap_append, hg]
    have hnd := h.snapshots
    rw [hsw, List.nodup_append] at hnd
    have hst : ∀ r, txnStatus t r = if r ∈ gone then none else txnStatus s r := by
      intro r
      unfold txnStatus findTxn
      rw [ht, filter_find]
      split <;> rfl
    have hgone : ∀ r ∈ gone, ∃ l, txnStatus s r = some (l, .reported) := fun r hr =>
      (hT.reported r).1 (by rw [hsw]; exact List.mem_append_left _ hr)
    have hother : ∀ r l st, st ≠ .reported → txnStatus s r = some (l, st) → txnStatus t r = some (l, st) := by
      intro r l st hne hs
      rw [hst, if_neg, hs]
      intro hr
      obtain ⟨k, hk⟩ := hgone r hr
      rw [hs] at hk
      simp only [Option.some.injEq, Prod.mk.injEq] at hk
      exact hne hk.2
    have hback : ∀ r l st, txnStatus t r = some (l, st) → txnStatus s r = some (l, st) := by
      intro r l st hs
      rw [hst] at hs
      split at hs
      · cases hs
      · exact hs
    refine ⟨?_, ?_, fun u hu => ?_, hT.queues, ?_, ?_, fun l r => ?_, fun l r => ?_, fun r => ?_, fun r => ?_, hT.room⟩
    · rw [ht]; exact (List.length_filter_le _ _).trans h.count
    · rw [ht]; exact (List.filter_sublist.map _).nodup h.references
    · rw [ht] at hu; exact h.results u (List.mem_filter.1 hu).1
    · rw [hd, huq]; exact h.entries
    · rw [hd, huw]; exact hnd.2.1
    · rw [hT.queued]; exact ⟨hother _ _ _ (by simp), hback _ _ _⟩
    · rw [hT.inFlight]; exact ⟨hother _ _ _ (by simp), hback _ _ _⟩
    · rw [hd, huq, hT.done]
      exact ⟨fun ⟨l, hl⟩ => ⟨l, hother _ _ _ (by simp) hl⟩, fun ⟨l, hl⟩ => ⟨l, hback _ _ _ hl⟩⟩
    · rw [hd, huw]
      constructor
      · intro hr
        obtain ⟨l, hl⟩ := (hT.reported r).1 (by rw [hsw]; exact List.mem_append_right _ hr)
        exact ⟨l, by rw [hst, if_neg (fun hg => hnd.2.2 r hg r hr rfl), hl]⟩
      · rintro ⟨l, hl⟩
        have hr := (hT.reported r).2 ⟨l, hback _ _ _ hl⟩
        rw [hsw, List.mem_append] at hr
        refine hr.resolve_left fun hg => ?_
        rw [hst, if_pos hg] at hl
        cases hl
  · exact h.quietLines (.same rfl rfl) fun _ => rfl

theorem marked_requests (w : List Snapshot) (b : Bool) :
    (w.map fun x => { x with resendMark := b }).map (·.request) = w.map (·.request) := by
  rw [List.map_map]; rfl

theorem ackTimerExpiry_txnsQuiet (s : State) : TxnsQuiet s (ackTimerExpiry s) := by
  unfold ackTimerExpiry
  split
  · unfold ackTimerRunsOut
    dsimp only
    split
    · exact ⟨rfl, filterMap_done_congr (marked_requests _ true), id, fun _ => Iff.rfl⟩
    · exact ⟨rfl, filterMap_done_congr (marked_requests _ false), id, fun _ => Iff.rfl⟩
  · exact .refl s

theorem hostEvent_txns {f : State → State} (hf : HostEvent f) {s : State} (h : TxnsSound s) : TxnsSound (f s) := by
  rcases hostEvent_kept hf s with hk | ⟨q, t, he, hk⟩ | he
  · exact h.quietLines (.same hk.txns hk.delivery) hk.lines
  · rw [he]
    exact acknowledge_txns q (h.quietLines (.same hk.txns hk.delivery) hk.lines)
  · rw [he]
    exact h.quietLines (ackTimerExpiry_txnsQuiet s) (ackTimerExpiry_deliveryWork s).lines

theorem clkTick_txns {s : State} (h : TxnsSound s) : TxnsSound (clkTick s) := by
  refine h.quiet ?_ fun l => ⟨(clkTick_line s l).2, (clkTick_line s l).1.txnQueue⟩
  obtain ⟨timer, hd, -⟩ := clkTick_delivery s
  refine ⟨?_, by rw [hd], by rw [hd]; exact id, fun r => by rw [hd]⟩
  unfold clkTick
  dsimp only
  split
  · rfl
  · split <;> rfl

/-! ### The hand-back of the window (R105, R169) -/

theorem requeueOwners_hold (rs : List ReportRequest) (s : State) :
    (rs.foldl requeueOwner s).txns.map (·.reference) = s.txns.map (·.reference) ∧
    ((∀ u ∈ s.txns, u.result.isSome = true ↔ u.state = .done ∨ u.state = .reported) →
      ∀ u ∈ (rs.foldl requeueOwner s).txns, u.result.isSome = true ↔ u.state = .done ∨ u.state = .reported) ∧
    ∀ r, txnStatus (rs.foldl requeueOwner s) r =
      if .txnDone r ∈ rs then
        (txnStatus s r).map fun p => (p.1, if p.2 = .reported then .done else p.2)
      else txnStatus s r := by
  induction rs generalizing s with
  | nil => exact ⟨rfl, id, fun r => by simp⟩
  | cons q rest ih =>
    rw [List.foldl_cons]
    obtain ⟨i1, i2, i3⟩ := ih (requeueOwner s q)
    by_cases hq : ∃ reference, q = .txnDone reference
    · obtain ⟨reference, rfl⟩ := hq
      refine ⟨i1.trans (updateTxn_references _ _ fun _ => rfl), fun h => i2 ?_, fun r => ?_⟩
      · refine updateTxn_results h _ _ fun u hu _ => ?_
        rw [h u hu]
        by_cases hd : u.state = .reported <;> simp [hd]
      · rw [i3]
        have hu := updateTxn_status (s := s) reference
          (fun t => { t with state := if t.state = .reported then .done else t.state })
          (fun _ => rfl) (fun _ => rfl) (fun x => if x = .reported then .done else x) (fun _ => rfl) r
        rw [show requeueOwner s (.txnDone reference) = updateTxn reference
          (fun t => { t with state := if t.state = .reported then .done else t.state }) s from rfl, hu]
        by_cases hr : r = reference
        · subst hr
          rw [if_pos rfl, if_pos (List.mem_cons_self)]
          split
          · rw [Option.map_map]
            refine Option.map_congr fun p _ => ?_
            by_cases hp : p.2 = .reported <;> simp [hp]
          · rfl
        · simp [hr]
    · have ht : (requeueOwner s q).txns = s.txns := by
        cases q <;> first | rfl | exact absurd ⟨_, rfl⟩ hq
      rw [ht] at i1 i2
      refine ⟨i1, i2, fun r => ?_⟩
      rw [i3, status_congr ht]
      have : ReportRequest.txnDone r ≠ q := fun he => hq ⟨r, he.symm⟩
      simp [this]

theorem handBackWindow_txns (start : Byte) (timeout : Nat) {s : State} (h : TxnsSound s) :
    TxnsSound (handBackWindow start timeout s) := by
  have hlines := (handBackWindow_deliveryWork start timeout s).lines
  have hT := (txnsHold_iff s).1 h
  rw [txnsHold_iff]
  simp only [hlines]
  obtain ⟨h1, h2, h3⟩ := requeueOwners_hold (settledRequests s) s
  have hmem : ∀ r, ReportRequest.txnDone r ∈ settledRequests s ↔
      r ∈ s.delivery.window.filterMap fun x => doneReference x.request := by
    intro r
    unfold settledRequests
    rw [keepFirst_mem, List.mem_filter, mem_doneReferences]
    simp [settles]
  have hq : (handBackWindow start timeout s).delivery.queue =
      settledRequests s ++ s.delivery.queue.filter fun r => r ∉ settledRequests s := by
    unfold handBackWindow
    dsimp only [modifyDelivery_delivery]
    rw [requeueOwners_delivery]
  have hw : (handBackWindow start timeout s).delivery.window = [] := rfl
  have ht : (handBackWindow start timeout s).txns = ((settledRequests s).foldl requeueOwner s).txns := rfl
  have hst : ∀ r, txnStatus (handBackWindow start timeout s) r =
      (txnStatus s r).map fun p => (p.1, if p.2 = .reported then .done else p.2) := by
    intro r
    rw [status_congr ht, h3]
    split
    · rfl
    · rename_i hr
      rcases hs : txnStatus s r with _ | ⟨l, st⟩
      · rfl
      · have : st ≠ .reported := by
          rintro rfl
          exact hr ((hmem r).2 ((hT.reported r).2 ⟨l, hs⟩))
        simp [this]
  have hback : ∀ r l st, st ≠ .done →
      (txnStatus (handBackWindow start timeout s) r = some (l, st) ↔ st ≠ .reported ∧ txnStatus s r = some (l, st)) := by
    intro r l st hne
    rw [hst]
    rcases hs : txnStatus s r with _ | ⟨k, st'⟩
    · simp
    · by_cases hr : st' = .reported
      · subst hr
        simp only [Option.map_some, if_true, Option.some.injEq, Prod.mk.injEq]
        exact ⟨fun e => absurd e.2.symm hne, fun e => absurd e.2.2.symm e.1⟩
      · simp only [Option.map_some, if_neg hr, Option.some.injEq, Prod.mk.injEq]
        exact ⟨fun e => ⟨e.2 ▸ hr, e⟩, fun e => e.2⟩
  refine ⟨?_, by rw [ht, h1]; exact h.references, by rw [ht]; exact h2 h.results, hT.queues, ?_, ?_, fun l r => ?_,
    fun l r => ?_, fun r => ?_, fun r => ?_, hT.room⟩
  · have := congrArg List.length h1
    rw [List.length_map, List.length_map] at this
    rw [ht, this]; exact h.count
  · rw [hq]; exact settledThenQueue_nodup _ _ (keepFirst_nodup _) h.entries
  · rw [hw]; simp
  · rw [hback _ _ _ (by simp), hT.queued]; simp
  · rw [hback _ _ _ (by simp), hT.inFlight]; simp
  · rw [hq, hst]
    have : (ReportRequest.txnDone r ∈ settledRequests s ++ s.delivery.queue.filter (fun r => r ∉ settledRequests s)) ↔
        (ReportRequest.txnDone r ∈ settledRequests s ∨ .txnDone r ∈ s.delivery.queue) := by
      simp only [List.mem_append, List.mem_filter, decide_eq_true_eq]
      tauto
    rw [this, hmem, hT.reported, hT.done]
    rcases hs : txnStatus s r with _ | ⟨k, st'⟩
    · simp
    · by_cases hr : st' = .reported <;> simp [hr]
  · rw [hw]
    simp only [List.filterMap_nil, List.not_mem_nil, false_iff, not_exists]
    intro l
    rw [hback _ _ _ (by simp)]
    simp

/-! ### Requests -/

/-- No records, no orders, no queues: the part after RESTART or pin reset. -/
theorem TxnsSound.empty {s : State} (ht : s.txns = []) (hq : s.delivery.queue = []) (hw : s.delivery.window = [])
    (hl : ∀ l, (s.line l).engine.order = none ∧ (s.line l).txnQueue = []) : TxnsSound s := by
  rw [txnsHold_iff]
  have hs : ∀ r, txnStatus s r = none := by intro r; simp [txnStatus, findTxn, ht]
  have hf : ∀ l, inFlightReference (s.line l) = none := fun l => by simp [inFlightReference, (hl l).1]
  exact ⟨by simp [ht], by simp [ht], by simp [ht], fun l => by simp [(hl l).2], by simp [hq], by simp [hw],
    fun l r => by simp [(hl l).2, hs], fun l r => by simp [hf, hs], fun r => by simp [hq, hs],
    fun r => by simp [hw, hs], fun l => by simp [(hl l).2, hf]⟩

theorem endBreak_flow (l : LineId) (s : State) : TxnFlow l s (endBreak l s) := by
  unfold endBreak
  split
  · exact releaseDriver_flow s
  all_goals exact .refl s

theorem restart_txns (s : State) : TxnsSound (restartAll s) := by
  unfold restartAll
  refine (endBreak_flow .b _).sound (endBreak_work .b _).other
    ((endBreak_flow .a _).sound (endBreak_work .a _).other ?_)
  exact .empty rfl rfl rfl fun l => by cases l <;> exact ⟨rfl, rfl⟩

theorem startLine_flow (l : LineId) (s : State) : TxnFlow l s (startLine l s) :=
  (checkStuck_flow _).after ((startRound_flow _).after ((nodesToPending_flow _ _).after (changeLineState_flow _ _ s)))

theorem enterStopping_flow (l : LineId) (purge : Bool) (s : State) : TxnFlow l s (enterStopping l purge s) :=
  (changeLineState_flow _ _ _).after (modifyLine_flow s _)

theorem stopLine_flow (l : LineId) (purge : Bool) (s : State) : TxnFlow l s (stopLine l purge s) := by
  have h : TxnFlow l s (if purge = true then purgeLine l s else s) := by
    split
    · exact purgeLine_flow s
    · exact .refl s
  unfold stopLine
  dsimp only
  generalize (if purge = true then purgeLine l s else s) = t at h ⊢
  split
  · exact h
  · split
    · exact (enterStopped_flow t).after h
    · exact (enterStopping_flow l purge t).after h
  · split
    · exact (enterStopping_flow l purge t).after h
    · exact (enterStopped_flow t).after h
  · split
    · exact (enterStopping_flow l purge t).after h
    · exact (enterStopped_flow t).after h
  · exact (modifyLine_flow t _).after h

theorem setConfig_flow (l : LineId) (c : LineConfig) (s : State) : TxnFlow l s (setConfig l c s) :=
  (nodesToPending_flow _ _).after (modifyLine_flow s _)

theorem takeSamples_txnsQuiet (r : SubRecord) (n : Nat) (s : State) :
    TxnsQuiet s (takeSamples r n s) := by
  unfold takeSamples settleNotice
  dsimp only
  have hw : ∀ t : State, TxnsQuiet t
      (if r.notice = .queued then withdrawReport (.sampleReady r.id r.uid) t else t) := by
    intro t
    split
    · exact withdrawReport_txnsQuiet rfl t
    · exact .refl t
  split
  · exact (updateSub_txnsQuiet _ _ _ _).after ((hw _).after (.same rfl rfl))
  · exact (raiseNotice_txnsQuiet _ _ _).after ((updateSub_txnsQuiet _ _ _ _).after ((hw _).after (.same rfl rfl)))

theorem closeSub_txnsQuiet (r : SubRecord) (s : State) : TxnsQuiet s (closeSub r s) := by
  have hp : ∀ t : State, TxnsQuiet t (prunePolls r.line [r.id] t) := fun t => by
    unfold prunePolls
    exact modifyLine_txnsQuiet _ _ t
  have h : TxnsQuiet s (prunePolls r.line [r.id] (withdrawReport (.subState r.id r.uid)
      (withdrawReport (.sampleReady r.id r.uid) (discardSamples r s)))) :=
    (hp _).after ((withdrawReport_txnsQuiet rfl _).after ((withdrawReport_txnsQuiet rfl _).after (.same rfl rfl)))
  unfold closeSub
  dsimp only
  split
  · exact (updateSub_txnsQuiet _ _ _ _).after h
  · exact h.trans (.same (by rw [freeSub_eq]) (by rw [freeSub_eq]))

theorem closeSub_order (r : SubRecord) (s : State) (k : LineId) :
    ((closeSub r s).line k).engine.order = (s.line k).engine.order := by
  have hp : ∀ t : State, ((prunePolls r.line [r.id] t).line k).engine.order = (t.line k).engine.order := by
    intro t
    unfold prunePolls
    by_cases hk : k = r.line
    · subst hk; rw [modifySched_modifyLine, modifyLine_line_same]
    · rw [modifySched_modifyLine, modifyLine_line_other _ _ hk]
  have hd : (discardSamples r s).line k = s.line k := by cases k <;> rfl
  unfold closeSub
  dsimp only
  split
  · rw [updateSub_line, hp]; unfold withdrawReport; rw [modifyDelivery_line, modifyDelivery_line, hd]
  · rw [freeSub_line, hp]; unfold withdrawReport; rw [modifyDelivery_line, modifyDelivery_line, hd]

/-- A submitted record joins its line's queue (R98). -/
theorem submitTxn_txns {f : SubmitFields} {s : State} (h : TxnsSound s) (hn : findTxn s f.reference = none)
    (hr : roomForTxn s f.line = true) : TxnsSound (submitTxn f s) := by
  have hT := (txnsHold_iff s).1 h
  simp only [roomForTxn, Bool.and_eq_true, decide_eq_true_eq, Config.txnSlots, Config.txnPerLine] at hr
  have hfresh : txnStatus s f.reference = none := by simp [txnStatus, hn]
  have hst : ∀ r, txnStatus (submitTxn f s) r = if r = f.reference then some (f.line, .queued) else txnStatus s r := by
    intro r
    unfold txnStatus findTxn
    show Option.map _ ((s.txns ++ [newTxn f]).find? _) = _
    rw [List.find?_append]
    by_cases he : r = f.reference
    · subst he
      unfold findTxn at hn
      rw [hn]
      simp [newTxn]
    · have : ((newTxn f).reference == r) = false := by
        simp only [newTxn, beq_eq_false_iff_ne]; exact fun e => he e.symm
      simp [this, he]
  have hline : ∀ k, (submitTxn f s).line k =
      if k = f.line then { s.line k with txnQueue := (s.line k).txnQueue ++ [f.reference] } else s.line k := by
    intro k
    rw [submitTxn_line]
    split
    · rename_i hk; subst hk; rw [modifyLine_line_same]
    · rename_i hk; exact modifyLine_line_other _ _ hk
  have hflight : ∀ k, inFlightReference ((submitTxn f s).line k) = inFlightReference (s.line k) := by
    intro k; rw [hline]; split <;> rfl
  have hqueue : ∀ k, ((submitTxn f s).line k).txnQueue =
      if k = f.line then (s.line k).txnQueue ++ [f.reference] else (s.line k).txnQueue := by
    intro k; rw [hline]; split <;> rfl
  have hne : ∀ l st r, txnStatus s r = some (l, st) → r ≠ f.reference := by
    rintro l st r hs rfl; rw [hfresh] at hs; cases hs
  have hold : ∀ l st r, st ≠ .queued → (txnStatus (submitTxn f s) r = some (l, st) ↔ txnStatus s r = some (l, st)) := by
    intro l st r hq
    rw [hst]
    split
    · rename_i he
      subst he
      rw [hfresh]
      simp only [Option.some.injEq, Prod.mk.injEq, reduceCtorEq, iff_false, not_and]
      exact fun _ e => hq e.symm
    · exact Iff.rfl
  have hd : (submitTxn f s).delivery = s.delivery := by
    show (s.modifyLine f.line _).delivery = _
    exact modifyLine_delivery _ _ _
  rw [txnsHold_iff]
  refine ⟨?_, ?_, ?_, fun k => ?_, hd ▸ h.entries, hd ▸ h.snapshots, fun l r => ?_, fun l r => ?_, fun r => ?_,
    fun r => ?_, fun k => ?_⟩
  · show (s.txns ++ [newTxn f]).length ≤ 16
    rw [List.length_append, List.length_singleton]; omega
  · show ((s.txns ++ [newTxn f]).map (·.reference)).Nodup
    rw [List.map_append, List.nodup_append]
    refine ⟨h.references, by simp, fun a ha b hb => ?_⟩
    simp only [List.map_cons, List.map_nil, List.mem_singleton] at hb
    rintro rfl
    obtain ⟨t, ht, he⟩ := List.mem_map.1 ha
    have := List.find?_eq_none.1 hn t ht
    simp only [beq_iff_eq] at this
    exact this (he.trans hb)
  · intro u hu
    rcases List.mem_append.1 (show u ∈ s.txns ++ [newTxn f] from hu) with hu | hu
    · exact h.results u hu
    · rw [List.mem_singleton] at hu; subst hu; simp [newTxn]
  · rw [hqueue]
    split
    · rw [List.nodup_append]
      refine ⟨hT.queues k, by simp, fun a ha b hb => ?_⟩
      rw [List.mem_singleton] at hb
      exact hb ▸ hne _ _ _ ((hT.queued k a).1 ha)
    · exact hT.queues k
  · rw [hqueue, hst]
    by_cases he : r = f.reference
    · subst he
      have : f.reference ∉ (s.line l).txnQueue := fun hm => hne _ _ _ ((hT.queued l _).1 hm) rfl
      simp only [if_true, Option.some.injEq, Prod.mk.injEq, and_true]
      split
      · rename_i hl; simp [hl]
      · rename_i hl; exact ⟨fun hm => absurd hm this, fun e => absurd e.symm hl⟩
    · rw [if_neg he, ← hT.queued]
      split <;> simp [he]
  · rw [hflight, hold _ _ _ (by simp)]; exact hT.inFlight l r
  · rw [hd, hT.done]
    exact exists_congr fun l => (hold _ _ _ (by simp)).symm
  · rw [hd, hT.reported]
    exact exists_congr fun l => (hold _ _ _ (by simp)).symm
  · have := hT.room k
    rw [hqueue, hflight]
    split
    · rename_i hk
      subst hk
      rw [inFlightCount_eq h.references f.line (hT.inFlight f.line)] at hr
      rw [List.length_append, List.length_singleton]
      omega
    · exact this

theorem cancelTxn_txns {t : TxnRecord} {s : State} (h : TxnsSound s) (ht : findTxn s t.reference = some t)
    (hq : t.state = .queued) : TxnsSound (cancelTxn t s) := by
  have hT := (txnsHold_iff s).1 h
  have hs : txnStatus s t.reference = some (t.line, .queued) := by simp [txnStatus, ht, hq]
  have h1 := hT.quiet (modifyLine_txnsQuiet t.line (fun x => { x with txnQueue := x.txnQueue.filter (· ≠ t.reference) }) s)
  have h2 := h1.completeQueued ((status_congr (by simp) _).trans hs) .cancelled none none none
  have hl : ∀ k, (cancelTxn t s).line k =
      (s.modifyLine t.line fun x => { x with txnQueue := x.txnQueue.filter (· ≠ t.reference) }).line k := by
    intro k; unfold cancelTxn leaveQueue; rw [completeTxn_line]
  rw [txnsHold_iff]
  have e1 : (fun k => inFlightReference ((cancelTxn t s).line k)) = fun k => inFlightReference (s.line k) := by
    funext k
    rw [hl]
    by_cases hk : k = t.line
    · subst hk; rw [modifyLine_line_same]; rfl
    · rw [modifyLine_line_other _ _ hk]
  have e2 : (fun k => ((cancelTxn t s).line k).txnQueue) =
      setAt (fun k => (s.line k).txnQueue) t.line ((s.line t.line).txnQueue.filter (· ≠ t.reference)) := by
    funext k
    rw [hl]
    by_cases hk : k = t.line
    · rw [hk, modifyLine_line_same, setAt_same]
    · rw [modifyLine_line_other _ _ hk, setAt_other _ _ hk]
  rw [e1, e2]
  exact h2

theorem service_txns {run : Service} (hr : RequestService run) {s : State} (h : TxnsSound s) (p : List Byte) :
    TxnsSound (run p s).1 := by
  cases hr with
  | hello =>
    unfold runHello
    dsimp only
    split
    · have h1 : TxnsSound (s.modifyLink fun k => { k with linkState := .attached }) :=
        h.quietLines (.same rfl rfl) fun _ => modifyLink_line _ _ _
      have h2 := handBackWindow_txns (p.getD 0 0) (field16 p 1).toNat h1
      unfold answerOk attachLink
      dsimp only
      exact h2.quietLines (.same rfl rfl) fun _ => modifyLink_line _ _ _
    · exact h
  | restart periodsA periodsB => exact restart_txns _
  | lineSet =>
    refine onLine_keeps (P := TxnsSound) h fun l => ?_
    split
    · exact h
    · split
      · exact h
      · refine (setConfig_flow l _ s).sound (fun k hk => ?_) h
        unfold setConfig
        rw [(nodesToPending_work (l := l) _ _).other k hk, modifyLine_line_other _ _ hk]
  | lineStart =>
    refine onLine_keeps (P := TxnsSound) h fun l => ?_
    split
    · exact (startLine_flow l s).sound (startLine_work l s).other h
    · exact h
  | lineStop =>
    exact onLine_keeps (P := TxnsSound) h fun l => (stopLine_flow l _ s).sound (stopLine_work l _ s).other h
  | lineResync =>
    refine onLine_keeps (P := TxnsSound) h fun l => ?_
    split
    · exact (modifySched_flow s fun c => { c with resyncRequest := true }).sound (modifySched_work (l := l) s _).other h
    · exact (modifySched_flow s fun c => { c with resyncRequest := true }).sound (modifySched_work (l := l) s _).other h
    all_goals exact h
  | lineQuery => exact onLine_keeps (P := TxnsSound) h fun l => h
  | nodeAdd =>
    refine onNode_keeps (P := TxnsSound) h fun l n _ => ?_
    split
    · exact h
    · refine h.quiet (.same ?_ ?_) fun k => ?_
      · show (s.modifyLine l _).txns = _; exact modifyLine_txns _ _ _
      · show (s.modifyLine l _).delivery = _; exact modifyLine_delivery _ _ _
      · show ((addNode l n s).line k).engine.order = _ ∧ ((addNode l n s).line k).txnQueue = _
        rw [addNode_line]
        by_cases hk : k = l
        · subst hk; rw [modifyLine_line_same]; exact ⟨rfl, rfl⟩
        · rw [modifyLine_line_other _ _ hk]; exact ⟨rfl, rfl⟩
  | nodeRemove =>
    refine onNode_keeps (P := TxnsSound) h fun l n _ => ?_
    split
    · exact h
    · split
      · refine h.quiet ((withdrawReport_txnsQuiet rfl _).after (modifyLine_txnsQuiet _ _ s)) fun k => ?_
        show ((removeNode l _ s).line k).engine.order = _ ∧ ((removeNode l _ s).line k).txnQueue = _
        unfold removeNode withdrawReport
        rw [modifyDelivery_line]
        by_cases hk : k = l
        · subst hk; rw [modifyLine_line_same]; exact ⟨rfl, rfl⟩
        · rw [modifyLine_line_other _ _ hk]; exact ⟨rfl, rfl⟩
      · exact h
  | nodeQuery =>
    refine onNode_keeps (P := TxnsSound) h fun l n _ => ?_
    split <;> exact h
  | subOpen =>
    unfold runSubOpen
    split
    · exact h
    · unfold judgeOpen
      split
      · exact h
      · split
        · exact h
        · split
          · exact h
          · split
            · exact h
            · split
              · exact h.quietLines (.same rfl rfl) fun _ => rfl
              · exact h
  | subClose =>
    unfold runSubClose
    split
    · exact h
    · split
      · exact h.quiet (closeSub_txnsQuiet _ s) fun k => ⟨closeSub_order _ s k, (closeSub_line _ s k).txnQueue⟩
      · exact h
  | subFetch =>
    unfold runSubFetch
    split
    · exact h
    · split
      · exact h
      · split
        · exact h.quietLines (takeSamples_txnsQuiet _ _ s) (takeSamples_line _ _ s)
        · exact h
  | subQuery =>
    unfold runSubQuery
    split <;> exact h
  | txnSubmit =>
    unfold runTxnSubmit
    split
    · exact h
    · unfold judgeSubmit
      split
      · exact h
      · rename_i hn
        have hn : findTxn s _ = none := Option.not_isSome_iff_eq_none.1 hn
        split
        · split
          · exact submitTxn_txns h hn ‹_›
          · exact h
        · split
          · exact h
          · split
            · exact h
            · split
              · exact submitTxn_txns h hn ‹_›
              · exact h
  | txnCancel =>
    unfold runTxnCancel
    split
    · exact h
    · split
      · exact h
      · rename_i t ht
        have htr := (findTxn_mem ht).2
        split
        · exact cancelTxn_txns h (htr ▸ ht) ‹_›
        all_goals exact h
  | statsRead =>
    have hmod : ∀ (l : LineId) (f : Line → Line), (∀ x, (f x).engine.order = x.engine.order) →
        (∀ x, (f x).txnQueue = x.txnQueue) → TxnsSound (s.modifyLine l f) := fun l f h1 h2 =>
      (modifyLine_flow s f h1 h2).sound (fun k hk => modifyLine_line_other _ _ hk) h
    unfold runStatsRead
    dsimp only
    split
    · exact h
    · split
      · refine onLine_keeps (P := TxnsSound) h fun l => ?_
        unfold readLineStats answerOk
        dsimp only
        split
        · exact hmod l _ (fun _ => rfl) fun _ => rfl
        · exact h
      · split
        · refine onLine_keeps (P := TxnsSound) h fun l => ?_
          split
          · unfold readNodeStats
            split
            · exact h
            · unfold answerOk
              dsimp only
              split
              · exact hmod l _ (fun _ => rfl) fun _ => rfl
              · exact h
          · exact h
        · unfold readLinkStats answerOk
          dsimp only
          split
          · exact h.quietLines (.same rfl rfl) fun _ => rfl
          · exact h
  | unknown => exact h

theorem takeRequest_txns {accepts : Byte → Bool} {run : Service} (hr : RequestService run) {s : State}
    (h : TxnsSound s) : TxnsSound (takeRequest accepts run s) := by
  refine takeRequest_keeps (P := TxnsSound) h
    (fun m rest _ _ => h.quietLines (.same rfl rfl) fun _ => rfl) ?_
    (fun m t ht _ => ht.quietLines (.same rfl rfl) (queueResponse_deliveryWork m t).lines)
    (fun t f ht => ht.quietLines (.same rfl rfl) fun _ => rfl)
  intro m rest _ _ _ ht
  have h1 := service_txns hr ht m.payload
  refine h1.quietLines (.same ?_ ?_) (completeRequest_deliveryWork m _).lines
  · unfold completeRequest; rfl
  · unfold completeRequest; rfl

end Sys2Proof.Machine
end

