-- ==== Sys2Proof/Tests/Slice0.lean ====
section
/-! SUPPORT. The model's own tests: the well-formedness checks, a few fixed values of the manual, and
for every statement with hypotheses a state and operands that meet them, clause by clause. -/

namespace Sys2Proof.Tests

open Sys2Proof Sys2Proof.Machine

/-! ### Well-formedness: an ill-formed command for each check -/

theorem test_wellFormed_message :
    Instr.wellFormed (.messageReceived ⟨0x10, 1, List.replicate 238 0, 0⟩) = true ∧
    Instr.wellFormed (.messageReceived ⟨0x10, 1, List.replicate 239 0, 0⟩) = false ∧
    Instr.wellFormed (.messageReceived ⟨0x0A, 1, [], 0⟩) = false := by decide +kernel

theorem test_wellFormed_acknowledgement :
    Instr.wellFormed (.acknowledgement 255 (List.replicate 238 0) 0) = true ∧
    Instr.wellFormed (.acknowledgement 255 (List.replicate 239 0) 0) = false := by decide +kernel

theorem test_wellFormed_byte :
    Instr.wellFormed (.byteReceived (byteSamples 0x5A)) = true ∧
    Instr.wellFormed (.byteReceived ⟨[.high], 0x001, 0x001, 0x000⟩) = false := by decide

/-! ### Fixed values of the manual -/

/-- 1.6: the check value over the nine bytes 31h to 39h is 29B1h. -/
theorem test_crc16 : crc16 [0x31, 0x32, 0x33, 0x34, 0x35, 0x36, 0x37, 0x38, 0x39] = 0x29B1 := by decide +kernel

/-- 13.6: the characters of a POLL to node 5, channel 2, of at most 8 bytes: the mark on the header alone. -/
theorem test_pollFrame :
    (orderFrame ⟨.poll 1 0 5 0 2 8, 0⟩ false).take 4 = [0x105, 0x002, 0x001, 0x008] ∧
    (orderFrame ⟨.poll 1 0 5 0 2 8, 0⟩ false).length = 6 := by decide

theorem test_no_word_spells_a_command : decodeTableWord 16 0xFFFF = none := rfl

/-- A byte's bits come through the samples (R139). -/
theorem test_samples : (byteSamples 0xA5).byte = 0xA5 ∧ (byteSamples 0xA5).stop = true := by decide

/-- R139: the bits of a byte on HLTX, here of the sync byte, and the first bit of the byte after it, the length 3. -/
theorem test_hostOutput :
    (List.range 12).map (hostOutput (some ⟨0x90, 1, [0]⟩)) =
      [.low, .low, .high, .low, .high, .high, .low, .high, .low, .high, .low, .high] := by decide +kernel

/-- R139: after a framing error a byte is taken once HLRX has been high, and not before. -/
theorem test_wait_high :
    ∀ s, s = takeSampledByte ⟨[.high], 0, 0, 0⟩ State.reset →
      s.link.rxWaitHigh = true ∧
      (takeSampledByte { byteSamples 0x5A with before := [.low, .low] } s).link.rxPhase = .hunt ∧
      (takeSampledByte { byteSamples 0x5A with before := [.low, .high] } s).link.rxPhase = .length := by
  rintro s rfl
  decide +kernel

/-! ### The Line Port on fixed samples -/

/-- The levels a receiver sees of a port that sends these characters, `delay` samples late. -/
def echoLevels (chars : List (BitVec 9)) (delay n : Nat) : PinLevel :=
  if n ≤ delay then .high
  else transmitOutput { LinePort.initial with tx := .frame chars (n - delay - 1) false }

/-- A line that goes low at sample 1 and stays low through sample n. -/
def lowThrough (n k : Nat) : PinLevel := if k ≤ n then .low else .high

/-- A line that is high for `delay` samples and then low for n. -/
def lowAfter (delay n k : Nat) : PinLevel := if delay < k ∧ k ≤ delay + n then .low else .high

/-- The header of a POLL to node 5 being sent with its echo expected. -/
def sendingPort : LinePort :=
  { LinePort.initial with
    tx := .frame [0x105, 0x002] 0 false, driverEnable := true, echo := .expecting 0x105 176 }

/-- R134: an echo passes for a delay of up to 6/16 of a bit time, here 6 samples, and fails at its deadline when delayed
by more. -/
theorem test_echo_delay :
    (afterSamples .r115200 true (echoLevels [0x105, 0x002] 6) 176 sendingPort).echo = .none ∧
    (afterSamples .r115200 true (echoLevels [0x105, 0x002] 7) 176 sendingPort).echo = .failed := by
  decide +kernel

/-- 9.8: a line held low is a break at sample 169, and stuck at the 705th. -/
theorem test_stuck_line :
    (afterSamples .r115200 true (fun _ => .low) 169 LinePort.initial).signals = [.startBegun, .breakDetected] ∧
    (afterSamples .r115200 true (fun _ => .low) 169 LinePort.initial).lowTime = 169 ∧
    (afterSamples .r115200 true (fun _ => .low) 1
      { LinePort.initial with rxPhase := .waitHigh, lowTime := 703, inBreak := some 703 }).stuck = false ∧
    (afterSamples .r115200 true (fun _ => .low) 1
      { LinePort.initial with rxPhase := .waitHigh, lowTime := 704, inBreak := some 704 }).signals =
      [.stuck false] := by decide +kernel

/-- R126: a start bit that brings a new rate into force starts the divider anew; one at the rate in force does not. -/
theorem test_rate_change :
    (afterSamples .r9600 true (lowThrough 9) 9 { LinePort.initial with divider := 23000000 }).divider = 0 ∧
    (afterSamples .r115200 true (lowThrough 9) 9 { LinePort.initial with divider := 23000000 }).divider = 23000000 := by
  decide +kernel

/-- Two characters back to back: the end of the first is signalled ahead of the start bit of a second that a node sends
three samples early (R129). -/
theorem test_early_start :
    (afterSamples .r115200 true (echoLevels [0x181] 0) 173 LinePort.initial).ended =
      some { character := ⟨0x181, true, false, false⟩, left := 3, startWaits := false } ∧
    (afterSamples .r115200 true (fun n => if n ≤ 173 then echoLevels [0x181] 0 n else .low) 176
      LinePort.initial).signals = [.startBegun, .characterEnd ⟨0x181, true, false, false⟩, .startBegun] := by
  decide +kernel

/-! ### The states of the tests -/

def nodeAt (address uid : Nat) (state : NodeState) (failures : Nat) : NodeRecord :=
  { address := address, uid := uid, state := state, failures := failures, toggle := false, profile := none
    lastVerdict := none, lastRound := none, counters := NodeCounters.zero }

def subAt (id node : Nat) (state : SubState) : SubRecord :=
  { id := id, uid := id, line := .a, node := node, channel := 7, kind := .every, period := 1, depth := 1
    policy := .keepOldest, maxLength := 24, state := state, faultReason := none, phase := some 0
    pollInFlight := false, resumed := false, referencePayload := none, refusals := 0, queue := []
    nextSequence := 0xFFFF, dropped := 0xFFFF, notice := .none }

def sampleOf (payload : List Byte) : Sample :=
  { subId := 1, sequence := 0, round := 0, captureTime := 0, resumed := false, noisy := false, payload := payload }

def txnAt (reference : Word16) (node : Nat) (kind : TxnKind) (state : TxnState) : TxnRecord :=
  ⟨reference, .a, node, 0, kind, state, 0, 0, none, none, none, none⟩

/-- Line A in RUNNING with a node in each state and two subscriptions. -/
def world : State :=
  { State.reset.modifyLine .a (fun x => { x with
      lineState := .running
      nodes := [nodeAt 1 1 .online 0, nodeAt 2 2 .suspect 2, nodeAt 3 3 .lost 3, nodeAt 30 4 .pending 0] }) with
    subs := [subAt 1 1 .active, subAt 48 30 .waiting], nextUid := 49 }

/-- The state with line A's record changed. -/
def onA (f : Line → Line) (s : State) : State := s.modifyLine .a f

/-- The state with an exchange of line A in flight. -/
def engaged (state : ExchangeState) (kind : OrderKind) : State :=
  onA (fun x => { x with engine := { x.engine with
    state := state, order := some ⟨kind, 0xFFFF⟩, lastVerdict := some .timeout } }) world

/-- The link ATTACHED with one message in the inbox. -/
def asking (m : Message) (s : State) : State :=
  { s with link := { s.link with linkState := .attached, inbox := [m] } }

theorem ready_asking (m : Message) {s : State} (hr : s.resetHeld = false) (hq : s.link.responses = [])
    (hc : s.link.cache = []) : Ready (asking m s) m [] :=
  ⟨hr, rfl, by simp [asking, hq], .inl rfl, .inr (by simp [asking, hc])⟩

/-- Line A in RUNNING, idle, with this port. -/
def portOn (f : LinePort → LinePort) : State := onA (fun x => { x with port := f x.port }) world

/-- The state in which line A's port has signalled this and no more, with no sample period to pass. -/
def signalling (x : PortSignal) (s : State) : State :=
  onA (fun y => { y with port := { y.port with signals := [x] } }) s

/-- The state after a command has taken what `signalling` shows. -/
def signalTaken (s : State) : State := onA (fun y => { y with port := { y.port with signals := [] } }) s

theorem signalled (x : PortSignal) (s : State) : Signalled .a [] x (signalling x s) (signalTaken s) :=
  ⟨[], rfl, rfl⟩

theorem world_signals_nothing (x : PortSignal) (base : State) : ¬ Signalled .a [] x world base := by
  rintro ⟨rest, h, -⟩
  have h : ([] : List PortSignal) = x :: rest := h
  cases h

/-- A poll of the first subscription. -/
def pollOrder : OrderKind := .poll 1 1 1 1 7 24

/-! ### Hypotheses met: the pins, the host link, Report Delivery -/

theorem test_hyp_StepRunsFrontCommand :
    ({ State.reset with pending := [.quietEnd .a, .hello] } : State).pending = .quietEnd .a :: [.hello] := rfl

/-- RESET_N low; the divider short of a sample period and at one; the prescaler short of a millisecond and at one. -/
theorem test_hyp_IdleStepCountsTime :
    State.reset.pending = [] ∧ State.reset.resetHeld = false ∧ (holdInReset State.reset).pending = [] ∧
    (holdInReset State.reset).resetHeld = true ∧
    (State.reset.line .a).port.divider + 16 * hertz (State.reset.line .a).port.rate < 24000000 ∧
    ¬ 22156800 + 16 * hertz (State.reset.line .a).port.rate < 24000000 ∧
    State.reset.prescaler + 1 < 24000 ∧ 24000 ≤ 23999 + 1 := by decide

theorem test_hyp_PinResetLoadsResetValues :
    (holdInReset State.reset).resetHeld = true ∧ Instr.hello ≠ .resetNLow ∧
    ∀ a b c d, Instr.hello ≠ .pinReset a b c d := by
  refine ⟨rfl, by decide, ?_⟩
  intro a b c d h
  cases h

def receiverTimed (gap : MsTimer) (phase : MsgPhase) (expected : Nat) (taken : List Byte) : State :=
  { State.reset with link := { State.reset.link with
    rxPhase := phase, rxExpected := expected, rxTaken := taken, gapTimer := gap } }

/-- The receiver in a phase of a message, its gap timer just started. -/
def receiverAt : MsgPhase → Nat → List Byte → State := receiverTimed (.running 5)

/-- A receiver in each phase, the last byte of the shortest message and of the longest, a framing error, a false start,
and a receiver that waits for a high input, with the input low and high before the byte. -/
theorem test_hyp_ByteReceivedByPhase :
    (State.reset.resetHeld = false ∧ (⟨[], 0, 0, 0⟩ : SampledByte).bits.getLsbD 0 = false ∧
      (⟨[], 0, 0, 0⟩ : SampledByte).stop = false) ∧
    (⟨[], 1, 0, 1⟩ : SampledByte).bits.getLsbD 0 = true ∧ State.reset.link.rxWaitHigh = false ∧
    (∀ s, s = { State.reset with link := { State.reset.link with rxWaitHigh := true } } →
      s.resetHeld = false ∧ s.link.rxWaitHigh = true ∧ PinLevel.high ∉ [PinLevel.low] ∧
      PinLevel.high ∈ [PinLevel.low, .high]) ∧
    ((byteSamples 0x5A).bits.getLsbD 0 = false ∧ (byteSamples 0x5A).stop = true ∧
      (receiverAt .hunt 0 []).link.rxPhase = .hunt) ∧
    ((byteSamples 240).bits.getLsbD 0 = false ∧ (byteSamples 240).stop = true ∧
      (receiverAt .length 1 []).link.rxPhase = .length ∧ (byteSamples 240).byte.toNat ≤ 240 ∧
      ¬2 ≤ (byteSamples 1).byte.toNat) ∧
    ((receiverAt .body 1 [2, 0x11]).link.rxPhase = .body ∧ (receiverAt .body 1 [2, 0x11]).link.rxExpected ≤ 1) ∧
    ((receiverAt .check 2 [2, 0x11, 0]).link.rxPhase = .check ∧
      (receiverAt .check 2 [2, 0x11, 0]).link.rxExpected = 2) ∧
    ((receiverAt .check 1 [2, 0x11, 0, 0xFF]).link.rxPhase = .check ∧
      (receiverAt .check 1 [2, 0x11, 0, 0xFF]).link.rxExpected = 1 ∧
      (receiverAt .check 1 [2, 0x11, 0, 0xFF]).link.rxTaken = 2 :: 0x11 :: 0 :: ([] ++ [0xFF])) ∧
    (List.replicate 238 (0 : Byte)).length ≤ 238 := by
  refine ⟨by decide, by decide, rfl, ?_, by decide +kernel⟩
  rintro s rfl
  decide

/-- From reset, and while the receiver waits for a high input. -/
theorem test_hyp_BytesOfAMessageActAsTheMessage :
    (∀ s, s = { State.reset with link := { State.reset.link with rxWaitHigh := true } } →
      s.resetHeld = false ∧ s.link.rxPhase = .hunt ∧ outbound s = s) ∧
    State.reset.resetHeld = false ∧ State.reset.link.rxPhase = .hunt ∧
    (List.replicate 238 (0 : Byte)).length ≤ 238 ∧ outbound State.reset = State.reset :=
  ⟨by rintro s rfl; decide +kernel, by decide +kernel⟩

def inboxOf (n : Nat) : State :=
  { State.reset with link := { State.reset.link with inbox := List.replicate n ⟨0x24, 1, [0]⟩ } }

/-- HELLO with a bad and a good check value, before an inbox of 3 and of 4 messages. -/
theorem test_hyp_MessageReceivedIsJudged :
    ((inboxOf 3).resetHeld = false ∧ (0x10 : Byte) ≠ 0x0A ∧ [0, 0, (10 : Byte)].length ≤ 238) ∧
    crc16 (coveredBytes ⟨0x10, 1, [0, 0, 10]⟩) ≠ 0 ∧
    (∃ check, crc16 (coveredBytes ⟨0x10, 1, [0, 0, 10]⟩) = check) ∧
    (inboxOf 3).link.inbox.length < 4 ∧ 4 ≤ (inboxOf 4).link.inbox.length :=
  ⟨by decide, by decide +kernel, ⟨_, rfl⟩, by decide⟩

/-- The gap timer at 0, with time left, and stopped; HUNT. -/
theorem test_hyp_MessageGapDiscardsTheMessage :
    (∀ s, s = receiverTimed (.running 0) .length 1 [] →
      s.resetHeld = false ∧ s.link.gapTimer = .running 0 ∧ s.link.rxPhase ≠ .hunt) ∧
    (∀ s, s = receiverAt .length 1 [] → s.resetHeld = false ∧ s.link.gapTimer ≠ .running 0) ∧
    State.reset.link.gapTimer = .stopped ∧ State.reset.link.rxPhase = .hunt :=
  ⟨by rintro s rfl; decide, by rintro s rfl; decide, rfl, rfl⟩

def snapshotAt (sequence : Byte) (mark : Bool) : Snapshot := ⟨sequence, .lineState .a, [], mark⟩

def windowOf (state : LinkState) (window : List Snapshot) : State :=
  { world with
    link := { world.link with linkState := state }
    delivery := { world.delivery with window := window, ackTimer := .running 0, timeoutCount := 3 } }

/-- The newest of four snapshots named, around the wrap of the sequence number; a check value that is not 0. -/
theorem test_hyp_AcknowledgementRemovesSnapshots :
    (∃ (check : Word16) (s : State) (older newer : List Snapshot) (named : Snapshot),
      s.resetHeld = false ∧ ([] : List Byte).length ≤ 238 ∧ crc16 (coveredBytes ⟨0x0A, 0, []⟩) = check ∧
      s.link.linkState = .attached ∧
      s.delivery.window = older ++ named :: newer ∧ named.sequence = 0 ∧ ∀ x ∈ older, x.sequence ≠ 0) ∧
    crc16 (coveredBytes ⟨0x0A, 0, []⟩) ≠ 0 :=
  ⟨⟨_, windowOf .attached
    [snapshotAt 253 false, snapshotAt 254 false, snapshotAt 255 false, snapshotAt 0 false],
    [snapshotAt 253 false, snapshotAt 254 false, snapshotAt 255 false], [], snapshotAt 0 false,
    rfl, by decide, rfl, rfl, rfl, rfl, by decide⟩, by decide +kernel⟩

theorem test_hyp_StrayAcknowledgementIsIgnored :
    (∃ check, crc16 (coveredBytes ⟨0x0A, 0, []⟩) = check) ∧
    ((windowOf .detached []).resetHeld = false ∧ (windowOf .detached []).link.linkState = .detached) ∧
    (∀ x ∈ (windowOf .attached [snapshotAt 255 true]).delivery.window, x.sequence ≠ 0) ∧
    (∃ older named newer, (windowOf .attached [snapshotAt 0 true, snapshotAt 1 false]).delivery.window =
      older ++ named :: newer ∧ named.sequence = 0 ∧ ∀ x ∈ older, x.sequence ≠ 0) :=
  ⟨⟨_, rfl⟩, by decide, by decide, ⟨[], snapshotAt 0 true, [snapshotAt 1 false], rfl, rfl, by decide⟩⟩

theorem test_hyp_AckTimeoutMarksOrDetaches :
    ∀ s, s = windowOf .attached [snapshotAt 0 false] →
      s.resetHeld = false ∧ s.delivery.ackTimer = .running 0 ∧ s.delivery.timeoutCount + 1 < 5 ∧
      5 ≤ ({ s.delivery with timeoutCount := 4 } : Delivery).timeoutCount + 1 ∧
      world.delivery.ackTimer ≠ .running 0 ∧ (.running 1 : MsTimer) ≠ .running 0 := by
  rintro s rfl
  decide

def cached : State :=
  { asking ⟨0x24, 255, [0]⟩ world with link := { (asking ⟨0x24, 255, [0]⟩ world).link with
    cache := [⟨254, 0x24, ⟨0xA4, 254, [0]⟩⟩, ⟨255, 0x24, ⟨0xA4, 255, [0]⟩⟩]
    responses := List.replicate 4 ⟨0xA4, 1, [0]⟩ } }

/-- A busy transmitter; a marked snapshot behind an unmarked one; a response alone; a full window; the first and the
last byte of the shortest response. -/
theorem test_hyp_TransmitterGrantsResendsThenResponses :
    ((messageBytes ⟨0xA4, 1, [0]⟩)[0]? = some 0x5A ∧ (∃ x, (messageBytes ⟨0xA4, 1, [0]⟩)[6]? = some x) ∧
      10 * (messageBytes ⟨0xA4, 1, [0]⟩).length ≤ 70) ∧
    ({ world.link with transmitter := some ⟨0xA4, 1, [0]⟩ } : HostLink).transmitter ≠ none ∧
    (∃ older x newer, (windowOf .attached [snapshotAt 0 false, snapshotAt 1 true]).delivery.window =
      older ++ x :: newer ∧ x.resendMark = true ∧ ∀ y ∈ older, y.resendMark = false) ∧
    (cached.link.transmitter = none ∧ (∀ x ∈ cached.delivery.window, x.resendMark = false) ∧
      cached.link.responses = ⟨0xA4, 1, [0]⟩ :: List.replicate 3 ⟨0xA4, 1, [0]⟩) ∧
    ∀ s, s = windowOf .attached
        [snapshotAt 0 false, snapshotAt 1 false, snapshotAt 2 false, snapshotAt 3 false] →
      s.link.transmitter = none ∧ (∀ x ∈ s.delivery.window, x.resendMark = false) ∧
      s.link.responses = [] ∧ 4 ≤ s.delivery.window.length := by
  refine ⟨⟨rfl, ⟨_, rfl⟩, by decide⟩, by decide,
    ⟨[snapshotAt 0 false], snapshotAt 1 true, [], rfl, rfl, by decide⟩, by decide, ?_⟩
  rintro s rfl
  decide

def reporting : State :=
  { world with
    link := { world.link with linkState := .attached }
    delivery := { world.delivery with
      queue := [.nodeState .a 1 1], nextSequence := 255
      window := [snapshotAt 252 false, snapshotAt 253 false, snapshotAt 254 false] } }

theorem test_hyp_OutboundComposesNewReports :
    reporting.link.transmitter = none ∧ reporting.link.linkState = .attached ∧
    (∀ x ∈ reporting.delivery.window, x.resendMark = false) ∧ reporting.link.responses = [] ∧
    reporting.delivery.window.length < 4 ∧ reporting.delivery.queue = .nodeState .a 1 1 :: [] ∧
    reportContent (.nodeState .a 1 1) reporting = some [0, 1, 1, 0, 0, 0, 0, 0] := by decide

theorem test_hyp_ReportsCarryTheirOwner :
    (subAt 48 30 .waiting ∈ world.subs ∧ (world.subs.map (·.id)).Nodup) ∧
    (nodeAt 30 4 .pending 0 ∈ (world.line .a).nodes ∧ ((world.line .a).nodes.map (·.address)).Nodup) ∧
    ∀ t, t = { txnAt 0xFFFF 1 (.read 24) .done with result := some .ok } →
      t ∈ ({ world with txns := [t] } : State).txns ∧ t.result = some .ok ∧
      ((({ world with txns := [t] } : State).txns).map (·.reference)).Nodup :=
  ⟨by decide, by decide, by rintro t rfl; decide⟩

/-! ### Hypotheses met: the request processor -/

/-- DETACHED; a request answered before; a wrong length; a kind of no request. -/
theorem test_hyp_ChecksAnswerWithoutExecution :
    ((inboxOf 1).link.inbox = ⟨0x24, 1, [0]⟩ :: [] ∧ (inboxOf 1).link.responses.length ≤ 4 ∧
      requestKindOf .lineQuery = some 0x24 ∧ (inboxOf 1).link.linkState = .detached ∧ (0x24 : Byte) ≠ 0x10) ∧
    (cached.link.inbox = ⟨0x24, 255, [0]⟩ :: [] ∧ cached.link.responses.length ≤ 4 ∧
      cached.link.linkState = .attached ∧ (255 : Byte) ≠ 0 ∧
      cached.link.cache = [⟨254, 0x24, ⟨0xA4, 254, [0]⟩⟩] ++ ⟨255, 0x24, ⟨0xA4, 255, [0]⟩⟩ :: [] ∧
      ∀ x ∈ [(⟨254, 0x24, ⟨0xA4, 254, [0]⟩⟩ : CacheEntry)], x.tag ≠ 255) ∧
    (Ready (asking ⟨0x24, 255, []⟩ world) ⟨0x24, 255, []⟩ [] ∧ lengthAllowed 0x24 [] = false) ∧
    (Ready (asking ⟨0x7F, 255, []⟩ world) ⟨0x7F, 255, []⟩ [] ∧ (0x7F : Byte) ∉ requestKinds) :=
  ⟨by decide, by decide, ⟨ready_asking _ rfl rfl rfl, by decide⟩, ⟨ready_asking _ rfl rfl rfl, by decide⟩⟩

/-- An empty inbox; five responses; a request of another kind; for UNKNOWN_REQUEST a kind the part knows. -/
theorem test_hyp_EveryCommandCompletes :
    requestKindOf .statsRead = some 0x60 ∧ State.reset.link.inbox = [] ∧
    4 < (List.replicate 5 (⟨0xA4, 1, [0]⟩ : Message)).length ∧
    (asking ⟨0x24, 1, [0]⟩ world).link.inbox = ⟨0x24, 1, [0]⟩ :: [] ∧ (0x24 : Byte) ≠ 0x60 ∧
    (0x24 : Byte) ∈ requestKinds := by decide

def entryAt (tag : Byte) : CacheEntry := ⟨tag, 0x24, ⟨0xA4, tag, [0]⟩⟩

/-- A cache of eight with and without the tag, and one of seven. -/
theorem test_hyp_ExecutedRequestIsAnsweredAndCached :
    (0x24 : Byte) ∈ requestKinds ∧ ([1, 2, 3, 4, 5, 6, 7, 8].map fun k => (entryAt k).tag).Nodup ∧
    [1, 2, 3, 4, 5, 6, 7, 8].map entryAt = [1, 2, 3, 4, 5, 6, 7].map entryAt ++ entryAt 8 :: [] ∧
    ([1, 2, 3, 4, 5, 6, 7, 8].map entryAt).length ≤ 8 ∧ ([2, 3, 4, 5, 6, 7, 8].map entryAt).length = 7 ∧
    (∀ e ∈ [1, 2, 3, 4, 5, 6, 7, 8].map entryAt, e.tag ≠ 9) ∧
    ([1, 2, 3, 4, 5, 6, 7].map entryAt).length < 8 := by decide

def snapshotOf (sequence : Byte) (r : ReportRequest) : Snapshot := ⟨sequence, r, [], false⟩

/-- A world with subscription 1 SENT, 2 without a notice and 3 CLOSING, and this window. -/
def handingBack (window : List ReportRequest) : State :=
  { world with
    subs := [{ subAt 1 1 .active with notice := .sent }, subAt 2 2 .active, subAt 3 2 .closing]
    delivery := { world.delivery with window := window.map (snapshotOf 0) } }

/-- The timeout at its ends and just outside. Windows of four that hold every kind of request: a node with a record, one
without, and one whose record is another; an open subscription and a CLOSING one; a notice SENT and a notice NONE; an
owner twice. -/
theorem test_hyp_HelloAttachesTheLink :
    (∀ p window, Ready (asking ⟨0x10, 1, p⟩ (handingBack window)) ⟨0x10, 1, p⟩ []) ∧
    10 ≤ ((0 : Byte) ++ (10 : Byte)).toNat ∧ ((3 : Byte) ++ (0xE8 : Byte)).toNat ≤ 1000 ∧
    ((0 : Byte) ++ (9 : Byte)).toNat < 10 ∧ 1000 < ((3 : Byte) ++ (0xE9 : Byte)).toNat ∧
    ((handingBack []).subs.map (·.id)).Nodup ∧
    (settledRequests (handingBack
      [.nodeState .a 1 1, .nodeState .a 29 1, .nodeState .a 1 2, .subState 1 1]) =
        [.nodeState .a 1 1, .subState 1 1]) ∧
    (settledRequests (handingBack [.subState 3 3, .sampleReady 1 1, .sampleReady 2 2, .txnDone 1]) =
        [.sampleReady 1 1, .txnDone 1]) ∧
    settledRequests (handingBack [.nodeState .a 1 1, .lineState .a, .nodeState .a 1 1, .sampleReady 3 3]) =
        [.nodeState .a 1 1, .lineState .a] :=
  ⟨fun _ _ => ready_asking _ rfl rfl rfl, by decide⟩

/-- No periods, and one that brings the second character under way; an idle port; a frame at its first sample, within
its second character and at its end; a character already the last; a jam break and a break order. -/
theorem test_hyp_RestartReturnsToTheStart :
    (∀ s, s = world ∨ (∃ tx, s = portOn fun p => { p with tx := tx, driverEnable := true }) →
      Ready (asking ⟨0x11, 0, []⟩ s) ⟨0x11, 0, []⟩ []) ∧
    (∀ s, s = playPeriods .b [] (playPeriods .a [] s)) ∧
    ((playPeriods .a [.high] (portOn fun p => { p with tx := .frame [0x105, 0x002] 175 false })).line .a).port.tx =
      .frame [0x105, 0x002] 176 false ∧
    (world.line .b).port.tx = .idle ∧
    (∀ position, position = 0 ∨ position = 176 ∨ position = 352 →
      ((portOn fun p => { p with tx := .frame [0x105, 0x002] position false }).line .a).port.tx =
        .frame [0x105, 0x002] position false) ∧
    ((portOn fun p => { p with tx := .frame [0x105] 175 true }).line .a).port.tx = .frame [0x105] 175 true ∧
    ∀ jam left, ((portOn fun p => { p with tx := .sendingBreak jam left }).line .a).port.tx =
      .sendingBreak jam left := by
  refine ⟨?_, fun s => by rw [playPeriods_nil, playPeriods_nil], by decide +kernel, rfl, fun _ _ => rfl, rfl,
    fun _ _ => rfl⟩
  rintro s (rfl | ⟨tx, rfl⟩) <;> exact ready_asking _ rfl rfl rfl

/-- A record at the ends of its ranges in STOPPED; one with a window of 1; a running line; no such line. -/
theorem test_hyp_LineSetReplacesTheRecord :
    (∀ p, Ready (asking ⟨0x20, 1, p⟩ State.reset) ⟨0x20, 1, p⟩ []) ∧
    (∃ c, configOf [0, 7, 2, 3, 15, 0x13, 0x88, 8, 1, 3] = some c) ∧
    configOf [0, 7, 1, 3, 15, 0x13, 0x88, 8, 1, 3] = none ∧ (State.reset.line .a).lineState = .stopped ∧
    (world.line .a).lineState ≠ .stopped ∧ (lineCode .a = 0 ∧ lineCode .b = 1) ∧
    ∀ k, ([2, 7, 2, 3, 15, 0x13, 0x88, 8, 1, 3] : List Byte).head? ≠ some (lineCode k) :=
  ⟨fun _ => ready_asking _ rfl rfl rfl, ⟨_, rfl⟩, by decide, by decide, by decide, by decide, by
    intro k; cases k <;> decide⟩

theorem test_hyp_LineStartEntersRunning :
    (∀ p, Ready (asking ⟨0x21, 1, p⟩ State.reset) ⟨0x21, 1, p⟩ []) ∧
    (∀ p, Ready (asking ⟨0x21, 1, p⟩ world) ⟨0x21, 1, p⟩ []) ∧ (State.reset.line .a).lineState = .stopped ∧
    ((State.reset.line .a).nodes.map (·.address)).Nodup ∧ (world.line .a).lineState ≠ .stopped ∧
    1 < (2 : Byte).toNat :=
  ⟨fun _ => ready_asking _ rfl rfl rfl, fun _ => ready_asking _ rfl rfl rfl, by decide⟩

/-- RUNNING idle, RUNNING with an exchange, HOLDOFF with its jam break, and STOPPING. -/
theorem test_hyp_LineStopByState :
    (∀ p, Ready (asking ⟨0x22, 1, p⟩ world) ⟨0x22, 1, p⟩ []) ∧ 1 < (2 : Byte).toNat ∧
    (State.reset.line .a).lineState = .stopped ∧
    ((world.line .a).purgePending = false ∧ (world.line .a).lineState = .running ∧
      (world.line .a).engine.state = .idle ∧ (world.line .a).port.tx = .idle) ∧
    ((engaged .awaiting pollOrder).line .a).engine.state ≠ .idle ∧
    ((onA (fun x => { x with
        lineState := .holdoff, port := { x.port with tx := .sendingBreak true 352 } }) world).line .a).port.tx =
      .sendingBreak true 352 ∧
    ((onA (fun x => { x with lineState := .stopping }) world).line .a).lineState = .stopping :=
  ⟨fun _ => ready_asking _ rfl rfl rfl, by decide⟩

theorem test_hyp_LineResyncSetsTheRequest :
    (∀ p, Ready (asking ⟨0x23, 1, p⟩ world) ⟨0x23, 1, p⟩ []) ∧ (world.line .a).lineState = .running ∧
    (world.line .b).lineState = .stopped ∧ ∀ l, ([2] : List Byte) ≠ [lineCode l] :=
  ⟨fun _ => ready_asking _ rfl rfl rfl, by decide, by decide, by intro l; cases l <;> decide⟩

theorem test_hyp_QueriesReadTheRecord :
    (∀ k p, Ready (asking ⟨k, 1, p⟩ world) ⟨k, 1, p⟩ []) ∧
    1 < (2 : Byte).toNat ∧ (0 : Byte).toNat = 0 ∧ 30 < (31 : Byte).toNat ∧
    nodeAt 30 4 .pending 0 ∈ (world.line .a).nodes ∧ (∀ n ∈ (world.line .a).nodes, n.address ≠ 29) ∧
    subAt 48 30 .waiting ∈ world.subs ∧ (∀ r ∈ world.subs, r.id ≠ (0 : Byte).toNat) ∧
    ((world.line .a).nodes.map (·.address)).Nodup ∧ (world.subs.map (·.id)).Nodup :=
  ⟨fun _ _ => ready_asking _ rfl rfl rfl, by decide⟩

/-! ### Hypotheses met: nodes, subscriptions, transactions -/

theorem test_hyp_NodeAddCreatesAPendingRecord :
    (∀ p, Ready (asking ⟨0x30, 1, p⟩ world) ⟨0x30, 1, p⟩ []) ∧
    (1 ≤ (29 : Byte).toNat ∧ (29 : Byte).toNat ≤ 30 ∧ (∀ n ∈ (world.line .a).nodes, n.address ≠ (29 : Byte).toNat) ∧
      (world.line .a).nodes.Pairwise fun p q => p.address < q.address) ∧
    (∃ n ∈ (world.line .a).nodes, n.address = (30 : Byte).toNat) ∧ (0 : Byte).toNat = 0 ∧ 30 < (31 : Byte).toNat ∧
    1 < (2 : Byte).toNat :=
  ⟨fun _ => ready_asking _ rfl rfl rfl, by decide⟩

theorem test_hyp_NodeRemoveFreesAnUnusedRecord :
    (∀ p, Ready (asking ⟨0x31, 1, p⟩ world) ⟨0x31, 1, p⟩ []) ∧
    1 < (2 : Byte).toNat ∧ (0 : Byte).toNat = 0 ∧ 30 < (31 : Byte).toNat ∧
    ((world.line .a).nodes.map (·.address)).Nodup ∧ (∀ n ∈ (world.line .a).nodes, n.address ≠ (29 : Byte).toNat) ∧
    (nodeAt 30 4 .pending 0 ∈ (world.line .a).nodes ∧ ∃ r ∈ world.subs, r.line = .a ∧ r.node = 30) ∧
    (nodeAt 3 3 .lost 3 ∈ (world.line .a).nodes ∧ (∀ r ∈ world.subs, ¬(r.line = .a ∧ r.node = 3)) ∧
      ∀ t ∈ world.txns, ¬(t.line = .a ∧ t.node = 3)) :=
  ⟨fun _ => ready_asking _ rfl rfl rfl, by decide⟩

theorem test_hyp_StatsReadReturnsAndClears :
    (∀ p, Ready (asking ⟨0x60, 1, p⟩ world) ⟨0x60, 1, p⟩ []) ∧
    nodeAt 30 4 .pending 0 ∈ (world.line .a).nodes ∧ (∀ n ∈ (world.line .a).nodes, n.address ≠ (29 : Byte).toNat) ∧
    ((world.line .a).nodes.map (·.address)).Nodup ∧ (0 : Byte) = 0 ∧ (1 : Byte) = 1 ∧
    2 < (3 : Byte).toNat ∧ 1 < (2 : Byte).toNat ∧ (1 : Byte).toNat ≤ 1 ∧ (0 : Byte).toNat = 0 ∧
    30 < (31 : Byte).toNat :=
  ⟨fun _ => ready_asking _ rfl rfl rfl, by decide⟩

def profiled : State :=
  onA (fun x => { x with nodes := [{ nodeAt 30 1 .online 0 with profile := some ⟨0, 8, 24⟩ }] })
    { State.reset with subs := [] }

/-- The largest fields on the largest profile; a profile too small; the channel taken; no block; the first id. -/
theorem test_hyp_SubOpenCreatesTheSubscription :
    (∀ p s, s = profiled ∨ s = world ∨ s = { profiled with freeBlocks := 0 } →
      Ready (asking ⟨0x40, 1, p⟩ s) ⟨0x40, 1, p⟩ []) ∧
    (1 ≤ 30 ∧ 7 ≤ 7 ∧ 64 ≤ 64 ∧ 8 ≤ 8 ∧ 24 ≤ 24 ∧
      ∀ n ∈ (profiled.line .b).nodes, n.address ≠ 30) ∧
    (∃ n ∈ (profiled.line .a).nodes, n.address = 30 ∧ ((profiled.line .a).nodes.map (·.address)).Nodup ∧
      ∃ p, n.profile = some p ∧ 7 < p.channels ∧ 24 ≤ p.maxPayload ∧ p.channels ≤ 8 ∧ p.maxPayload < 25) ∧
    (∃ r ∈ world.subs, r.state ≠ .closing ∧ r.line = .a ∧ r.node = 30 ∧ r.channel = 7) ∧
    (∀ r ∈ profiled.subs, ¬(r.state ≠ .closing ∧ r.line = .a ∧ r.node = 30 ∧ r.channel = 7)) ∧
    ({ profiled with freeBlocks := 0 } : State).freeBlocks ≤
      (({ profiled with freeBlocks := 0 } : State).subs.filter fun r => r.state != .closing && r.queue == []).length ∧
    ((∀ r ∈ profiled.subs, r.id ≠ 1) ∧
      (profiled.subs.filter fun r => r.state != .closing && r.queue == []).length < profiled.freeBlocks) ∧
    1 < (2 : Byte).toNat :=
  ⟨by rintro p s (rfl | rfl | rfl) <;> exact ready_asking _ rfl rfl rfl, by decide,
    ⟨_, List.mem_singleton_self _, rfl, by decide, ⟨_, rfl, by decide⟩⟩, by decide, by decide, by decide,
    by decide, by decide⟩

/-- A subscription with its poll in flight and one that is CLOSING. -/
def closingWorld : State :=
  { world with subs := [{ subAt 1 1 .active with pollInFlight := true, queue := [sampleOf []], notice := .queued },
    { subAt 48 30 .closing with pollInFlight := true }] }

theorem test_hyp_SubCloseReleasesTheSubscription :
    (∀ p, Ready (asking ⟨0x41, 1, p⟩ closingWorld) ⟨0x41, 1, p⟩ []) ∧ (closingWorld.subs.map (·.id)).Nodup ∧
    (∀ r ∈ closingWorld.subs, r.id = (48 : Byte).toNat → r.state = .closing) ∧
    ∃ r ∈ closingWorld.subs, r.id = (1 : Byte).toNat ∧ r.state ≠ .closing :=
  ⟨fun _ => ready_asking _ rfl rfl rfl, by decide⟩

theorem test_hyp_SubFetchTakesTheOldestSamples :
    (∀ p, Ready (asking ⟨0x42, 1, p⟩ closingWorld) ⟨0x42, 1, p⟩ []) ∧ (closingWorld.subs.map (·.id)).Nodup ∧
    (8 < (9 : Byte).toNat ∧ 1 ≤ (8 : Byte).toNat ∧ (8 : Byte).toNat ≤ 8) ∧
    (∀ r ∈ closingWorld.subs, r.id = (48 : Byte).toNat → r.state = .closing) ∧
    ∃ r ∈ closingWorld.subs, r.id = (1 : Byte).toNat ∧ r.state ≠ .closing :=
  ⟨fun _ => ready_asking _ rfl rfl rfl, by decide⟩

/-- A READ and a WRITE at their largest; a live reference; no record; a profile too small; a full table and
a full line, and one record short of each. -/
def queuedOn (n : Nat) (state : TxnState) : State :=
  { profiled with txns := (List.range n).map fun k => txnAt (BitVec.ofNat 16 (k + 1)) 30 (.read 24) state }

theorem test_hyp_TxnSubmitQueuesTheRecord :
    (∀ p n st, Ready (asking ⟨0x50, 1, p⟩ (queuedOn n st)) ⟨0x50, 1, p⟩ []) ∧
    ((0xFFFF : Word16) ≠ 0 ∧ 24 ≤ 24 ∧ 1 ≤ 30 ∧ 30 ≤ 30 ∧ 7 ≤ 7 ∧ (List.replicate 24 (0 : Byte)).length ≤ 24) ∧
    (∃ t ∈ (queuedOn 16 .reported).txns, t.reference = 16) ∧
    ((∀ t ∈ (queuedOn 16 .reported).txns, t.reference ≠ 0xFFFF) ∧
      16 ≤ (queuedOn 16 .reported).txns.length) ∧
    (∀ n ∈ (profiled.line .b).nodes, n.address ≠ 30) ∧
    (∃ n ∈ (profiled.line .a).nodes, n.address = 30 ∧ ((profiled.line .a).nodes.map (·.address)).Nodup ∧
      ∃ p, n.profile = some p ∧ 7 < p.channels ∧ kindLength (.read 24) ≤ p.maxPayload ∧
        p.channels ≤ 8) ∧
    8 ≤ ((queuedOn 8 .inFlight).line .a).txnQueue.length +
      ((queuedOn 8 .inFlight).txns.filter fun t => t.line == .a && t.state == .inFlight).length ∧
    ((queuedOn 7 .inFlight).txns.length < 16 ∧ ((queuedOn 7 .inFlight).line .a).txnQueue.length +
      ((queuedOn 7 .inFlight).txns.filter fun t => t.line == .a && t.state == .inFlight).length < 8) :=
  ⟨fun _ _ _ => ready_asking _ rfl rfl rfl, by decide, by decide +kernel, by decide +kernel, by decide,
    ⟨_, List.mem_singleton_self _, rfl, by decide, ⟨_, rfl, by decide⟩⟩, by decide, by decide⟩

/-- Each field just outside its range: reference 0, line 2, node 31, channel 8, kind 2; a READ of node 0, with a reply
of 25 bytes, with a byte of data; a WRITE of 25 bytes. -/
theorem test_hyp_TxnSubmitRefusesFields :
    (∀ p, Ready (asking ⟨0x50, 1, p⟩ world) ⟨0x50, 1, p⟩ []) ∧
    ((0 : Byte) ++ (0 : Byte)).toNat = 0 ∧ 1 < (2 : Byte).toNat ∧ 30 < (31 : Byte).toNat ∧ 7 < (8 : Byte).toNat ∧
    ((0 : Byte).toNat = 0 ∧ 24 < (25 : Byte).toNat ∧ [(0 : Byte)] ≠ []) ∧
    ((1 : Byte).toNat = 1 ∧ 24 < (List.replicate 25 (0 : Byte)).length ∧
      (List.replicate 25 (0 : Byte)).length ≤ 230) :=
  ⟨fun _ => ready_asking _ rfl rfl rfl, by decide⟩

def cancelling : State :=
  onA (fun x => { x with txnQueue := [0xFFFF] }) { world with
    txns := [txnAt 1 1 (.read 0) .done, txnAt 0xFFFF 0 (.write []) .queued] }

theorem test_hyp_TxnCancelByState :
    (∀ p, Ready (asking ⟨0x51, 1, p⟩ cancelling) ⟨0x51, 1, p⟩ []) ∧
    (cancelling.txns.map (·.reference)).Nodup ∧ (∀ t ∈ cancelling.txns, t.reference ≠ 2) ∧
    (∃ t ∈ cancelling.txns, t.reference = 1 ∧ t.state ≠ .queued) ∧
    (∃ t ∈ cancelling.txns, t.reference = 0xFFFF ∧ t.state = .queued) ∧ (0xFFFF : Word16) ≠ 0 :=
  ⟨fun _ => ready_asking _ rfl rfl rfl, by decide⟩

/-! ### Hypotheses met: the Round Scheduler and the arbiter -/

def expiring (timer : RoundTimer) (polls : List Nat) : State :=
  onA (fun x => { x with sched := { x.sched with roundNumber := 0xFFFF, roundTimer := timer, pollList := polls } }) world

/-- Each timer at 0, with time left, and out; a round start that is due, and one that waits for the poll list. -/
theorem test_hyp_SchedulerTimersExpire :
    ((expiring (.running 0) [1]).resetHeld = false ∧
      ((expiring (.running 0) [1]).line .a).sched.roundTimer = .running 0) ∧
    (((expiring (.running 1) [1]).line .a).sched.roundTimer ≠ .running 0 ∧
      ((expiring .expired []).line .a).sched.roundTimer ≠ .running 0) ∧
    (∀ s quiet, s = onA (fun x => { x with sched := { x.sched with quiet := quiet } }) world →
      s.resetHeld = false ∧ (s.line .a).sched.quiet = quiet) ∧
    ((.running 1 : Quiet) ≠ .running 0 ∧ (.passed : Quiet) ≠ .running 0) ∧
    ((expiring .expired []).resetHeld = false ∧ ((expiring .expired []).line .a).lineState = .running ∧
      ((expiring .expired []).line .a).sched.roundTimer = .expired ∧
      ((expiring .expired []).line .a).sched.pollList = [] ∧
      ((expiring .expired []).line .a).engine.state = .idle) ∧
    ((expiring .expired [1]).line .a).sched.pollList ≠ [] :=
  ⟨by decide, by decide, by rintro s quiet rfl; exact ⟨rfl, rfl⟩, by decide⟩

/-- RUNNING, IDLE, quiet, with this scheduler, queue and transactions. -/
def choosing (f : Scheduler → Scheduler) (queue : List Word16) (txns : List TxnRecord) : State :=
  onA (fun x => { x with sched := f x.sched, txnQueue := queue }) { world with txns := txns }

theorem choosing_free (f : Scheduler → Scheduler) (queue : List Word16) (txns : List TxnRecord)
    (h : (f Scheduler.initial).quiet = .passed) (ht : (f Scheduler.initial).roundTimer = .stopped) :
    ArbiterFree ((choosing f queue txns).line .a) :=
  ⟨rfl, rfl, h, rfl, fun e => by
    have e : (f Scheduler.initial).roundTimer = .expired := e.1
    rw [ht] at e
    cases e⟩

theorem world_nodes : NodesSound (world.line .a) := by
  refine ⟨by decide, by decide, by decide, ?_, by decide⟩
  intro n hn
  have hn : n ∈ [nodeAt 1 1 .online 0, nodeAt 2 2 .suspect 2, nodeAt 3 3 .lost 3, nodeAt 30 4 .pending 0] := hn
  simp only [List.mem_cons, List.not_mem_nil, or_false] at hn
  rcases hn with rfl | rfl | rfl | rfl <;> simp [countFits, nodeAt, world, State.reset, Line.initial,
    State.modifyLine, State.setLine, State.line, Config.defaultLine]

/-- With no periods: no choice to make, for each of the five conditions; a resync request; a broadcast to send; a probe
past address 30, which wraps to node 3. -/
theorem test_hyp_ArbiterSendsBreakBroadcastAndProbe :
    (∀ s : State, s = playPeriods .a [] s) ∧
    (∀ f s, f = (fun x : Line => { x with lineState := .holdoff }) ∨
        f = (fun x => { x with engine := { x.engine with state := .settling } }) ∨
        f = (fun x => { x with sched := { x.sched with quiet := .running 1 } }) ∨
        f = (fun x => { x with port := { x.port with tx := .sendingBreak false 1 } }) ∨
        f = (fun x => { x with sched := { x.sched with roundTimer := .expired } }) →
      s = onA f (choosing id [] []) → s.resetHeld = false ∧ ¬ ArbiterFree (s.line .a)) ∧
    (ArbiterFree ((choosing (fun c => { c with resyncRequest := true }) [] []).line .a) ∧
      ((choosing (fun c => { c with resyncRequest := true }) [] []).line .a).sched.resyncRequest = true) ∧
    (∀ s, s = onA (fun x => { x with config := { x.config with roundBroadcast := true } }) (choosing id [] []) →
      ArbiterFree (s.line .a) ∧ (s.line .a).sched.resyncRequest = false ∧
      (s.line .a).config.roundBroadcast = true ∧ (s.line .a).sched.broadcastSent = false) ∧
    ∀ s n, s = choosing (fun c => { c with probePointer := 30 }) [] [] → n = nodeAt 3 3 .lost 3 →
      ArbiterFree (s.line .a) ∧ n ∈ (s.line .a).nodes ∧ (s.line .a).sched.resyncRequest = false ∧
      (s.line .a).config.roundBroadcast = false ∧ (s.line .a).sched.probeDone = false ∧
      NodesSound (s.line .a) ∧ (s.line .a).sched.probePointer ≤ 30 ∧ n.state = .lost ∧
      ∀ k ∈ (s.line .a).nodes, k.state = .pending ∨ k.state = .lost →
        (n.address + 29 - (s.line .a).sched.probePointer) % 30 ≤
          (k.address + 29 - (s.line .a).sched.probePointer) % 30 := by
  refine ⟨fun s => (playPeriods_nil s).symm, ?_, ⟨choosing_free _ _ _ rfl rfl, by decide⟩, ?_, ?_⟩
  · rintro f s (rfl | rfl | rfl | rfl | rfl) rfl
    · exact ⟨rfl, fun h => LineState.noConfusion h.running⟩
    · exact ⟨rfl, fun h => ExchangeState.noConfusion h.idle⟩
    · exact ⟨rfl, fun h => Quiet.noConfusion h.quiet⟩
    · exact ⟨rfl, fun h => Transmitter.noConfusion h.transmitter⟩
    · exact ⟨rfl, fun h => h.noRoundStart ⟨rfl, rfl⟩⟩
  · rintro s rfl
    exact ⟨⟨rfl, rfl, rfl, rfl, by decide⟩, by decide⟩
  · rintro s n rfl rfl
    refine ⟨choosing_free _ _ _ rfl rfl, by decide, by decide, by decide, by decide, ?_, by decide, by decide,
      by decide⟩
    obtain ⟨a, b, c, d, e⟩ := world_nodes
    exact ⟨a, b, c, d, e⟩

/-- With no periods: nothing to do; a poll while the allowance is used up; a READ for a node in service and one for a
node that is LOST, after a poll; a WRITE for a node in service whose toggle is 1. -/
theorem test_hyp_ArbiterPollsOrSendsATransaction :
    (∀ s : State, s = playPeriods .a [] s) ∧
    (ArbiterFree ((choosing (fun c => { c with probeDone := true }) [] []).line .a) ∧
      ((choosing (fun c => { c with probeDone := true }) [] []).line .a).txnQueue = [] ∧
      ((choosing (fun c => { c with probeDone := true }) [] []).line .a).sched.pollList = []) ∧
    (∀ s, s = choosing (fun c => { c with probeDone := true, pollList := [1], allowanceUsed := 2 }) [1]
        [txnAt 1 1 (.read 24) .queued] →
      ArbiterFree (s.line .a) ∧ (s.line .a).sched.resyncRequest = false ∧
      (s.line .a).config.roundBroadcast = false ∧ (s.line .a).sched.probeDone = true ∧
      subAt 1 1 .active ∈ s.subs ∧ nodeAt 1 1 .online 0 ∈ (s.line .a).nodes ∧ (s.subs.map (·.id)).Nodup ∧
      ((s.line .a).nodes.map (·.address)).Nodup ∧ (s.line .a).sched.pollList = 1 :: [] ∧
      (s.line .a).config.allowance ≤ (s.line .a).sched.allowanceUsed) ∧
    (∀ s node, node = 1 ∨ node = 3 →
      s = choosing (fun c => { c with
          probeDone := true, pollList := [1], allowanceUsed := 1, alternation := .poll }) [1]
        [txnAt 1 node (.read 24) .queued] →
      ArbiterFree (s.line .a) ∧ txnAt 1 node (.read 24) .queued ∈ s.txns ∧ (s.txns.map (·.reference)).Nodup ∧
      (s.line .a).txnQueue = 1 :: [] ∧ (s.line .a).sched.allowanceUsed < (s.line .a).config.allowance ∧
      (s.line .a).sched.alternation = .poll ∧
      (node = 1 → ∃ n ∈ (s.line .a).nodes, n.address = node ∧ n.state = .online) ∧
      (node = 3 → node ≠ 0 ∧
        ∀ n ∈ (s.line .a).nodes, n.address = node → n.state = .pending ∨ n.state = .lost)) ∧
    ∀ s n x, n = { nodeAt 1 1 .online 0 with toggle := true } → x = txnAt 1 1 (.write [0]) .queued →
      s = onA (fun y => { y with nodes := [n] }) (choosing (fun c => { c with probeDone := true }) [1] [x]) →
      ArbiterFree (s.line .a) ∧ x ∈ s.txns ∧ (s.txns.map (·.reference)).Nodup ∧
      ((s.line .a).nodes.map (·.address)).Nodup ∧ (s.line .a).txnQueue = x.reference :: [] ∧
      (s.line .a).sched.pollList = [] ∧ n ∈ (s.line .a).nodes ∧ n.state = .online ∧ x.kind = .write [0] ∧
      x.node ≠ 0 ∧ n.address = x.node ∧ n.uid = 1 ∧ n.toggle = true := by
  refine ⟨fun s => (playPeriods_nil s).symm, ⟨choosing_free _ _ _ rfl rfl, by decide⟩, ?_, ?_, ?_⟩
  · rintro s rfl
    exact ⟨choosing_free _ _ _ rfl rfl, by decide⟩
  · rintro s node (rfl | rfl) rfl <;> exact ⟨choosing_free _ _ _ rfl rfl, by decide⟩
  · rintro s n x rfl rfl rfl
    exact ⟨⟨rfl, rfl, rfl, rfl, by decide⟩, by decide⟩

theorem test_hyp_FramesCarryTheirOrders :
    ∃ frame : List Byte → List (BitVec 9), ∀ body, frame body =
      (body ++ be16 (crc16 body)).mapIdx fun i x => (BitVec.ofBool (i == 0)) ++ x :=
  ⟨_, fun _ => rfl⟩

/-! ### Hypotheses met: exchanges -/

theorem reset_lineSound (l : LineId) : LineSound (State.reset.line l) := by
  cases l <;> exact LineSound.initial rfl rfl rfl rfl rfl (PortFits.quiet (by decide) rfl rfl)

/-- Line A, in this line state, while its transmitter sends, with this engine state, order and what is sent. -/
def sendingOn (at_ : LineState) (state : ExchangeState) (order : Option OrderKind) (tx : Transmitter)
    (echo : Echo) : State :=
  onA (fun x => { x with
    lineState := at_
    engine := { x.engine with state := state, order := order.map fun k => ⟨k, 0xFFFF⟩ }
    port := { x.port with tx := tx, driverEnable := true, echo := echo } }) world

theorem sendingOn_sound {at_ : LineState} {state : ExchangeState} {order : Option OrderKind} {tx : Transmitter}
    {echo : Echo} (ho : order = none ↔ state = .idle) (hs : state = .idle ∨ state = .sending)
    (hl : state ≠ .idle → at_ = .running ∨ at_ = .stopping) (ht : tx ≠ .idle)
    (hf : transmitFits ((sendingOn at_ state order tx echo).line .a).engine tx) :
    LineSound ((sendingOn at_ state order tx echo).line .a) where
  order := by cases order <;> simp_all [sendingOn, onA, world, State.modifyLine, State.setLine, State.line]
  exchange := hl
  reply := fun h1 h2 => by rcases hs with h | h <;> exact absurd h (by assumption)
  window := fun h => absurd rfl h
  gap := fun h => absurd rfl h
  settling := fun h => absurd rfl h
  breakHold := fun h => Bool.noConfusion h
  transmit := hf
  driver := ⟨fun _ => ht, fun _ => rfl⟩
  holdoff := fun h => absurd rfl h
  idleWait := fun h => absurd rfl h
  purge := fun h => Bool.noConfusion h
  stopped := fun _ => ⟨rfl, rfl, rfl⟩
  fault := fun _ => rfl

/-- The state with line A's receiver in this phase and its input at this level. -/
def receiving (phase : RxPhase) (level : PinLevel) (s : State) : State :=
  onA (fun x => { x with port := { x.port with rxPhase := phase, input := level } }) s

theorem receiving_sound {phase : RxPhase} {level : PinLevel} {s : State} (h : LineSound (s.line .a)) :
    LineSound ((receiving phase level s).line .a) :=
  { h with }

/-- A character finished after RESTART, one period before its end and at it, with the receiver in each phase and the
input at each level; a poll with an echo missing, one period before its end, and sent with the input at each level; a
ROUND and a broadcast WRITE in RUNNING and STOPPING; nothing sent, and a break. -/
theorem test_hyp_TransmitEndReleasesAndAwaits :
    (∀ s phase level position,
      s = receiving phase level (sendingOn .stopped .idle none (.frame [0] position true) .none) →
      s.resetHeld = false ∧ LineSound (s.line .a) ∧ s = playPeriods .a [] s ∧
      (s.line .a).port.tx = .frame [0] position true ∧ (s.line .a).port.rxPhase = phase ∧
      (s.line .a).port.input = level) ∧ (175 < 176 * [(0 : BitVec 9)].length ∧ 176 * [(0 : BitVec 9)].length ≤ 176) ∧
    (∀ s echo position, s = sendingOn .running .sending (some pollOrder) (.frame [0] position false) echo →
        echo = .failed ∨ position = 175 →
      LineSound (s.line .a) ∧ (s.line .a).port.tx = .frame [0] position false ∧
      (echo = .failed → (s.line .a).port.echo ≠ .none) ∧
      (position = 175 → (s.line .a).config.echoCheck = true ∧ position < 176 * [(0 : BitVec 9)].length)) ∧
    (∀ s level, s = receiving .hunt level
        (sendingOn .running .sending (some pollOrder) (.frame [0] 176 false) .none) →
      LineSound (s.line .a) ∧ (s.line .a).port.input = level ∧ (s.line .a).port.echo = .none ∧
      176 * [(0 : BitVec 9)].length ≤ 176 ∧ (s.line .a).engine.order = some ⟨pollOrder, 0xFFFF⟩ ∧
      isAddressed pollOrder = true) ∧
    (∀ s x at_, at_ = .running ∨ at_ = .stopping → x = txnAt 1 0 (.write []) .inFlight →
      (s = sendingOn at_ .sending (some .roundBroadcast) (.frame [0] 176 false) .none →
        LineSound (s.line .a) ∧ (s.line .a).engine.order = some ⟨.roundBroadcast, 0xFFFF⟩ ∧
        (s.line .a).lineState = at_) ∧
      (s = { sendingOn at_ .sending (some (.write 1 0 0 0 [] 1)) (.frame [0] 176 false) .none with
          txns := [x] } →
        LineSound (s.line .a) ∧ (s.line .a).lineState = at_ ∧
        (s.line .a).engine.order = some ⟨.write 1 0 0 0 [] 1, 0xFFFF⟩ ∧ x ∈ s.txns ∧ x.reference = 1 ∧
        x.node = 0 ∧ x.kind = .write [] ∧ (s.txns.map (·.reference)).Nodup)) ∧
    (LineSound (State.reset.line .a) ∧ (State.reset.line .a).port.tx = .idle) ∧
    ∀ s jam, s = sendingOn .running .sending (some .breakOrder) (.sendingBreak false 0) .none → jam = false →
      LineSound (s.line .a) ∧ (s.line .a).port.tx = .sendingBreak jam 0 := by
  refine ⟨?_, by decide, ?_, ?_, ?_, ?_, ?_⟩
  · rintro s phase level position rfl
    exact ⟨rfl, receiving_sound (sendingOn_sound (by decide) (.inl rfl) (fun h => absurd rfl h)
      (fun h => Transmitter.noConfusion h) rfl), rfl, rfl, rfl, rfl⟩
  · rintro s echo position rfl -
    exact ⟨sendingOn_sound (by decide) (.inr rfl) (fun _ => .inl rfl) (fun h => Transmitter.noConfusion h)
      ⟨rfl, _, rfl, by decide⟩, rfl, by rintro rfl h; exact Echo.noConfusion h,
      by rintro rfl; exact ⟨rfl, by decide⟩⟩
  · rintro s level rfl
    exact ⟨receiving_sound (sendingOn_sound (by decide) (.inr rfl) (fun _ => .inl rfl) (by decide)
      ⟨rfl, _, rfl, by decide⟩), rfl, rfl, by decide, rfl, rfl⟩
  · rintro s x at_ hat rfl
    refine ⟨?_, ?_⟩
    · rintro rfl
      exact ⟨sendingOn_sound (by decide) (.inr rfl) (fun _ => hat) (by decide) ⟨rfl, _, rfl, by decide⟩, rfl, rfl⟩
    · rintro rfl
      exact ⟨sendingOn_sound (by decide) (.inr rfl) (fun _ => hat) (by decide) ⟨rfl, _, rfl, by decide⟩, rfl,
        rfl, List.mem_singleton_self _, rfl, rfl, rfl, List.nodup_singleton _⟩
  · exact ⟨reset_lineSound .a, rfl⟩
  · rintro s jam rfl rfl
    exact ⟨sendingOn_sound (by decide) (.inr rfl) (fun _ => .inl rfl) (by decide) ⟨rfl, _, rfl, rfl⟩, rfl⟩

/-- Line A awaiting, receiving or settling a poll's reply, its timers given. -/
def waitingOn (state : ExchangeState) (window gap settling : CharTimer) : State :=
  onA (fun x => { x with engine := { x.engine with window := window, gap := gap, settling := settling } })
    (engaged state pollOrder)

theorem waiting_retries (state : ExchangeState) (window gap settling : CharTimer) :
    RetryFollows ((waitingOn state window gap settling).line .a) ⟨pollOrder, 0xFFFF⟩ :=
  ⟨rfl, Nat.le_of_ble_eq_true rfl, fun h => Bool.noConfusion h.1⟩

/-- Line A in the last attempt of an order. -/
def atLastAttempt (s : State) : State := onA (fun x => { x with engine := { x.engine with attempt := 2 } }) s

theorem no_retry {s : State} {o : Order} (h : (s.line .a).config.retryLimit < (s.line .a).engine.attempt) :
    ¬ RetryFollows (s.line .a) o := fun f => absurd f.2.1 (Nat.not_le_of_gt h)

/-- Each of the two timers in every state, with another attempt to follow and none. -/
theorem test_hyp_ReplyTimersEndTheAttempt :
    (∀ s t, s = waitingOn .awaiting t .stopped .stopped →
      s.resetHeld = false ∧ (s.line .a).engine.order = some ⟨pollOrder, 0xFFFF⟩ ∧
      RetryFollows (s.line .a) ⟨pollOrder, 0xFFFF⟩ ∧
      ¬ RetryFollows ((atLastAttempt s).line .a) ⟨pollOrder, 0xFFFF⟩ ∧ (s.line .a).engine.window = t) ∧
    (∀ s t, s = waitingOn .receiving .stopped t .stopped →
      s.resetHeld = false ∧ (s.line .a).engine.order = some ⟨pollOrder, 0xFFFF⟩ ∧
      RetryFollows (s.line .a) ⟨pollOrder, 0xFFFF⟩ ∧
      ¬ RetryFollows ((atLastAttempt s).line .a) ⟨pollOrder, 0xFFFF⟩ ∧ (s.line .a).engine.gap = t) ∧
    (∀ left, (.held left : CharTimer) ≠ .running 0) ∧ (.running 1 : CharTimer) ≠ .running 0 ∧
    (.stopped : CharTimer) ≠ .running 0 := by
  refine ⟨?_, ?_, fun _ h => CharTimer.noConfusion h, by decide, by decide⟩ <;> rintro s t rfl <;>
    exact ⟨rfl, rfl, waiting_retries _ _ _ _, no_retry (Nat.le_refl 2), rfl⟩

/-- The last attempt of a poll of a node one failure below the threshold, and of a node further below. -/
def lastAttempt (failures : Nat) : State :=
  onA (fun x => { x with
      engine := { x.engine with attempt := 2, window := .running 0 }
      nodes := [nodeAt 1 1 (if failures = 0 then .online else .suspect) failures] })
    (engaged .awaiting pollOrder)

theorem test_hyp_FailedPollSuspectsOrLosesTheNode :
    ∀ s failures r n, failures = 0 ∨ failures = 2 → s = lastAttempt failures → r = subAt 1 1 .active →
      n = nodeAt 1 1 (if failures = 0 then .online else .suspect) failures →
      s.resetHeld = false ∧ (s.line .a).lineState = .running ∧ (s.line .a).engine.window = .running 0 ∧
      (s.line .a).engine.order = some ⟨.poll r.id r.uid n.address n.uid r.channel r.maxLength, 0xFFFF⟩ ∧
      (s.line .a).config.retryLimit < (s.line .a).engine.attempt ∧ r ∈ s.subs ∧ (s.subs.map (·.id)).Nodup ∧
      r.state = .active ∧ r.line = .a ∧ r.node = n.address ∧ n ∈ (s.line .a).nodes ∧
      ((s.line .a).nodes.map (·.address)).Nodup ∧ (n.state = .online ∨ n.state = .suspect) ∧
      (failures = 0 → n.failures + 1 < (s.line .a).config.failureThreshold) ∧
      (failures = 2 → (s.line .a).config.failureThreshold ≤ n.failures + 1) := by
  rintro s failures r n (rfl | rfl) rfl rfl rfl <;> decide

/-- With no periods: a held timer, a poll whose timer runs at 0 and with time left, and an addressed WRITE that has
seen a break, in RUNNING and, with a purge to come or none, in STOPPING. -/
theorem test_hyp_SettlingEndSendsAgain :
    (∀ s : State, s = playPeriods .a [] s) ∧
    (∀ s left, s = waitingOn .settling .stopped .stopped (.held left) →
      (s.line .a).engine.order = some ⟨pollOrder, 0xFFFF⟩ ∧ (s.line .a).engine.lastVerdict = some .timeout ∧
      (s.line .a).engine.settling = .held left ∧ (s.line .a).engine.settling ≠ .running 0) ∧
    (.running 1 : CharTimer) ≠ .running 0 ∧
    (∀ s left, s = waitingOn .settling .stopped .stopped (.running left) →
      (s.line .a).engine.order = some ⟨pollOrder, 0xFFFF⟩ ∧ (s.line .a).engine.lastVerdict = some .timeout ∧
      (s.line .a).engine.settling = .running left ∧
      ¬(isAddressedWrite pollOrder = true ∧ (s.line .a).engine.breakSeen = true)) ∧
    ∀ s x state purge, state = .running ∧ purge = false ∨ state = .stopping →
      x = txnAt 1 30 (.write []) .inFlight →
      s = { onA (fun y => { y with
            lineState := state, purgePending := purge
            engine := { y.engine with settling := .running 0, breakSeen := true } })
          (engaged .settling (.write 1 30 4 0 [] 1)) with txns := [x] } →
      (s.line .a).engine.order = some ⟨.write 1 30 4 0 [] 1, 0xFFFF⟩ ∧ (s.line .a).lineState = state ∧
      isAddressedWrite (.write 1 30 4 0 [] 1) = true ∧
      (s.line .a).engine.lastVerdict = some .timeout ∧ (s.line .a).engine.settling = .running 0 ∧
      (s.line .a).engine.breakSeen = true ∧ isFailure .timeout = true ∧ x ∈ s.txns ∧ x.reference = 1 ∧
      x.kind = .write [] ∧ (s.txns.map (·.reference)).Nodup :=
  ⟨fun s => (playPeriods_nil s).symm,
    by rintro s left rfl; exact ⟨rfl, rfl, rfl, fun h => CharTimer.noConfusion h⟩, by decide,
    by rintro s left rfl; exact ⟨rfl, rfl, rfl, fun h => Bool.noConfusion h.1⟩,
    by rintro s x state purge (⟨rfl, rfl⟩ | rfl) rfl rfl
       · decide
       · cases purge <;> decide⟩

/-- A good character of this byte and mark. -/
def characterOf (mark : Bool) (x : Byte) : ReceivedCharacter :=
  { data := BitVec.ofBool mark ++ x, stop := true, noisy := false, echo := false }

/-- Line A with this engine, its port quiet. -/
def engineOn (f : Engine → Engine) : State := onA (fun x => { x with engine := f x.engine }) world

def bufferOf (bytes : List Byte) : ReceiveBuffer := { bytes := bytes, noiseSeen := false, framingSeen := false }

/-- No signal; a character in each state, which in IDLE and SENDING is a stray; in AWAITING and SETTLING a stray with
the timer held, run out and with one period left, and not held; in AWAITING the header; in RECEIVING the length
characters 24 and 25, a character short of the last, and a mark, with another attempt to follow and none. -/
theorem test_hyp_CharacterEndByState :
    (∀ c base, ¬ Signalled .a [] (.characterEnd c) world base) ∧
    ((characterOf true 0).mark = true ∧ (characterOf false 25).mark = false ∧
      (characterOf false 24).byte.toNat ≤ 24 ∧ 24 < (characterOf false 25).byte.toNat) ∧
    (∀ c s, Signalled .a [] (.characterEnd c) (signalling (.characterEnd c) s) (signalTaken s)) ∧
    (∀ s state, s = signalTaken (engineOn fun e => { e with state := state }) →
      s.resetHeld = false ∧ (s.line .a).engine.state = state) ∧
    (∀ s state timer, state = .awaiting ∨ state = .settling → s = signalTaken (waitingOn state timer .stopped timer) →
      (s.line .a).engine.state = state ∧ (s.line .a).engine.order = some ⟨pollOrder, 0xFFFF⟩ ∧
      (s.line .a).engine.window = timer ∧ (s.line .a).engine.settling = timer ∧
      (s.line .a).engine.lastVerdict = some .timeout) ∧
    (∀ s, s = signalTaken (engineOn fun e => { e with
          state := .awaiting, order := some ⟨pollOrder, 0⟩, window := .held 1 }) →
      (s.line .a).engine.state = .awaiting ∧
      (s.line .a).engine.order = some ⟨pollOrder, 0⟩ ∧ (s.line .a).engine.buffer.bytes = []) ∧
    ∀ s bytes, bytes = [0x81] ∨ bytes = [0x81, 7] ∨ bytes = [0x81, 7, 24] ++ List.replicate 24 0 →
      s = signalTaken (engineOn fun e => { e with
          state := .receiving, order := some ⟨pollOrder, 0⟩, buffer := bufferOf bytes }) →
      (s.line .a).engine.state = .receiving ∧ (s.line .a).engine.order = some ⟨pollOrder, 0⟩ ∧
      (s.line .a).engine.window = .stopped ∧ RetryFollows (s.line .a) ⟨pollOrder, 0⟩ ∧
      ¬ RetryFollows ((atLastAttempt s).line .a) ⟨pollOrder, 0⟩ ∧
      ((s.line .a).engine.buffer.bytes.length ≤ 2 ∨
        3 ≤ (s.line .a).engine.buffer.bytes.length ∧
        (s.line .a).engine.buffer.bytes.length + 1 < ((s.line .a).engine.buffer.bytes.getD 2 0).toNat + 5) := by
  refine ⟨fun _ => world_signals_nothing _, by decide, fun _ _ => signalled _ _, ?_, ?_, ?_, ?_⟩
  · rintro s state rfl
    exact ⟨rfl, rfl⟩
  · rintro s state timer - rfl
    exact ⟨rfl, rfl, rfl, rfl, rfl⟩
  · rintro s rfl
    decide
  · rintro s bytes (rfl | rfl | rfl) rfl <;>
      exact ⟨rfl, rfl, rfl, ⟨rfl, by decide, fun h => Bool.noConfusion h.1⟩, no_retry (Nat.le_refl 2), by decide⟩

/-- Line A receiving these bytes as the reply to this order. -/
def replying (kind : OrderKind) (attempt : Nat) (bytes : List Byte) : State :=
  engineOn fun e => { e with
    state := .receiving, order := some ⟨kind, 0xFFFF⟩, attempt := attempt, buffer := bufferOf bytes }

/-- Whether a reply without a framing error, its check value good or not, is misaddressed, and then whether it is DATA,
ACK, PROFILE or REFUSE as its order takes them. -/
def replyClauses (kind : OrderKind) (header control : Byte) (payload : List Byte) : List Bool :=
  [header.toNat % 32 != orderAddress kind || control.toNat % 8 != orderChannel kind,
   header.toNat / 32 == 4 && (largestReply kind).any fun largest => decide (payload.length ≤ largest),
   isAddressedWrite kind && header.toNat / 32 == 5 && payload == [] && !control.getLsbD 3,
   header.toNat / 32 == 6 && match payload with
     | [_, channels, room] => decide (1 ≤ channels.toNat) && decide (channels.toNat ≤ 8) && decide (room.toNat ≤ 24)
     | _ => false,
   mayRetry kind && header.toNat / 32 == 7 && payload == [refuseReasonCode (some .badLength)]]

/-- The last characters of replies that meet each clause of R33 once: FRAMING (a stop bit of 0), BAD_CRC, MISADDRESSED
by address and by channel, DATA of the largest length, ACK, PROFILE at its ends, REFUSE, and DATA one byte too long;
with a retry to follow and none. -/
theorem test_hyp_RepliesAreJudged :
    (∀ c s, Signalled .a [] (.characterEnd c) (signalling (.characterEnd c) s) (signalTaken s)) ∧
    (∀ kind attempt header control payload check,
      ∀ body, body = header :: control :: byteOf payload.length :: payload →
      ∀ s, s = signalTaken (replying kind attempt (body ++ (be16 check).take 1)) →
      s.resetHeld = false ∧ (s.line .a).engine.state = .receiving ∧
      (s.line .a).engine.order = some ⟨kind, 0xFFFF⟩ ∧ (s.line .a).engine.buffer.framingSeen = false ∧
      (s.line .a).engine.buffer.bytes = body ++ (be16 check).take 1) ∧
    (∀ check : Word16, (characterOf false ((be16 check).getD 1 0)).byte = (be16 check).getD 1 0 ∧
      ((be16 check).take 1) ++ [(be16 check).getD 1 0] = be16 check) ∧
    crc16 ([0x81, 7, 0] : List Byte) ≠ 0 ∧ (List.replicate 24 (0 : Byte)).length ≤ 24 ∧
    replyClauses pollOrder 0x82 7 [] = [true, true, false, false, false] ∧
    replyClauses pollOrder 0x81 6 [] = [true, true, false, false, false] ∧
    replyClauses pollOrder 0x81 7 (List.replicate 24 0) = [false, true, false, false, false] ∧
    replyClauses (.write 1 30 4 0 [] 1) 0xBE 0 [] = [false, false, true, false, false] ∧
    replyClauses (.probe 3 3) 0xC3 0 [0, 1, 24] = [false, false, false, true, false] ∧
    replyClauses (.probe 3 3) 0xC3 0 [0, 8, 0] = [false, false, false, true, false] ∧
    replyClauses pollOrder 0xE1 7 [4] = [false, false, false, false, true] ∧
    replyClauses (.poll 1 1 1 1 7 23) 0x81 7 (List.replicate 24 0) = [false, false, false, false, false] ∧
    (∀ attempt, attempt ≤ 1 ↔ RetryFollows ((signalTaken (replying pollOrder attempt [])).line .a)
      ⟨pollOrder, 0xFFFF⟩) ∧
    isFailure .malformed = true := by
  refine ⟨fun _ _ => signalled _ _, ?_, ?_, by decide +kernel, by decide, by decide, by decide, by decide, by decide,
    by decide, by decide, by decide, by decide, fun attempt => ⟨fun h => ?_, fun h => h.2.1⟩, rfl⟩
  · rintro kind attempt header control payload check body rfl s rfl
    exact ⟨rfl, rfl, rfl, rfl, rfl⟩
  · intro check
    refine ⟨?_, rfl⟩
    generalize (be16 check).getD 1 0 = x
    revert x
    decide +kernel
  · exact ⟨rfl, h, fun h => Bool.noConfusion h.1⟩

def replyBody : List Byte := [0x81, 7, 24] ++ List.replicate 24 0xFF

/-- A reply of 24 bytes, the most a poll asks for. -/
theorem test_hyp_PollReplyIsStoredAndCounted :
    ∀ c s r n, c = characterOf false ((be16 (crc16 replyBody)).getD 1 0) →
      s = replying pollOrder 1 (replyBody ++ (be16 (crc16 replyBody)).take 1) →
      r = subAt 1 1 .active → n = nodeAt 1 1 .online 0 →
      s.resetHeld = false ∧ c.stop = true ∧ c.mark = false ∧ c.echo = false ∧ (s.line .a).lineState = .running ∧
      (s.line .a).engine.state = .receiving ∧
      (s.line .a).engine.order = some ⟨.poll r.id r.uid n.address n.uid r.channel r.maxLength, 0xFFFF⟩ ∧
      (List.replicate 24 (0xFF : Byte)).length ≤ r.maxLength ∧ r.maxLength ≤ 24 ∧ r.channel ≤ 7 ∧
      1 ≤ n.address ∧ n.address ≤ 30 ∧
      [byteOf (0x80 + n.address), byteOf r.channel, byteOf 24] ++ List.replicate 24 0xFF = replyBody ∧
      (s.line .a).engine.buffer.bytes ++ [c.byte] = replyBody ++ be16 (crc16 replyBody) ∧
      (s.line .a).engine.buffer.framingSeen = false ∧ r ∈ s.subs ∧ (s.subs.map (·.id)).Nodup ∧
      r.state = .active ∧ r.kind = .every ∧ r.queue = [] ∧ r.notice = .none ∧ r.line = .a ∧
      r.node = n.address ∧ n ∈ (s.line .a).nodes ∧ ((s.line .a).nodes.map (·.address)).Nodup ∧
      n.state = .online := by
  rintro c s r n rfl rfl rfl rfl
  decide +kernel

/-- A verdict record of this order and result. -/
def verdictOf (kind : OrderKind) (r : AttemptResult) : VerdictRecord :=
  { order := ⟨kind, 0xFFFF⟩, result := r, framesSent := 2, retries := 1 }

/-- In STOPPING and RUNNING; the poll of a CLOSING subscription; of an ACTIVE one a refusal for each reason, a failure,
the reply already seen by a CHANGE subscription, a reply offered to an empty queue, to one with room, and to a full
one under KEEP_NEWEST. -/
theorem test_hyp_PollVerdictsReachTheSubscription :
    ((sendingOn .stopping .idle none .idle .none).line .a).lineState = .stopping ∧
    (world.line .a).lineState = .running ∧ plainResult .timeout ≠ plainResult .contention ∧
    (∀ r ∈ closingWorld.subs, r.id = 48 → r.state = .closing) ∧ (closingWorld.subs.map (·.id)).Nodup ∧
    subAt 1 1 .active ∈ world.subs ∧ (subAt 1 1 .active).state = .active ∧ (world.subs.map (·.id)).Nodup ∧
    (∀ reason : RefuseReason, ∃ v, v = verdictOf pollOrder ⟨.refused, false, none, none, some reason⟩ ∧
      v.result.verdict = .refused ∧ v.result.reason = some reason) ∧
    isFailure .timeout = true ∧
    ∀ r kind depth queue, (depth, queue) = (1, []) ∨ (depth, queue) = (8, [sampleOf []]) ∨
        (depth, queue) = (1, [sampleOf []]) →
      r = { subAt 1 1 .active with
        kind := kind, depth := depth, queue := queue, policy := .keepNewest, referencePayload := some [0] } →
      r ∈ ({ world with subs := [r] } : State).subs ∧ r.state = .active ∧ r.policy = .keepNewest ∧
      (kind = .change → r.resumed = false ∧ r.referencePayload = some [0] ∧ r.referencePayload ≠ some [1]) ∧
      (r.queue = [] ∨ r.queue.length < r.depth ∧ 1 ≤ spareBlocks { world with subs := [r] } ∨
        r.queue ≠ [] ∧ r.depth ≤ r.queue.length) := by
  refine ⟨rfl, rfl, by decide, by decide, by decide, by decide, rfl, by decide, fun _ => ⟨_, rfl, rfl, rfl⟩, rfl, ?_⟩
  rintro r kind depth queue h rfl
  rcases h with h | h | h <;> cases h <;> cases kind <;> decide

/-- A READ and a WRITE in flight; an OK, a refusal and a failure. A probe of a LOST node with a profile that fits one
WAITING subscription, misses the channel of a second and the length of a third. An addressed WRITE of an ONLINE
node. A failure and a CONTENTION of a poll, a READ and a WRITE of an ONLINE node, and of a SUSPECT one below the
threshold and at it. A failure of a probe. -/
theorem test_hyp_VerdictsReachTheirOwners :
    (∀ kind t s, kind = .read 24 ∨ kind = .write [0] → t = txnAt 1 30 kind .inFlight →
      s = { world with txns := [t] } → t ∈ s.txns ∧ (s.txns.map (·.reference)).Nodup ∧ t.node ≠ 0 ∧ t.kind = kind) ∧
    (plainResult .ok).verdict = .ok ∧ (plainResult .refused).verdict = .refused ∧
    isFailure (plainResult .framing).verdict = true ∧
    (∀ v n s, v = verdictOf (.probe 3 3) ⟨.ok, false, none, some ⟨0, 7, 24⟩, none⟩ → n = nodeAt 3 3 .lost 3 →
      s = { world with subs := [{ subAt 1 3 .waiting with channel := 6 }, subAt 2 3 .waiting,
        { subAt 3 3 .waiting with channel := 5, maxLength := 25 }] } →
      n ∈ (s.line .a).nodes ∧ ((s.line .a).nodes.map (·.address)).Nodup ∧ isAddressed v.order.kind = true ∧
      orderAddress v.order.kind = n.address ∧ orderNodeUid v.order.kind = n.uid ∧
      v.order.kind = .probe n.address n.uid ∧ v.result.verdict = .ok ∧ v.result.profile = some ⟨0, 7, 24⟩ ∧
      n.state = .lost ∧ (s.subs.map (·.id)).Nodup) ∧
    (∀ v n verdict, verdict = .ok ∨ verdict = .refused →
      v = verdictOf (.write 1 1 1 0 [] 1) (plainResult verdict) → n = nodeAt 1 1 .online 0 →
      n ∈ (world.line .a).nodes ∧ isAddressed v.order.kind = true ∧ orderAddress v.order.kind = n.address ∧
      orderNodeUid v.order.kind = n.uid ∧ mayRetry v.order.kind = true ∧ n.state = .online ∧
      v.result.verdict = verdict) ∧
    (∀ v n s kind verdict failures,
        kind = pollOrder ∨ kind = .read 1 1 1 0 24 1 ∨ kind = .write 1 1 1 0 [] 1 →
        verdict = .badCrc ∨ verdict = .lineBreak ∨ verdict = .contention → failures = 0 ∨ failures = 1 ∨ failures = 2 →
        v = verdictOf kind (plainResult verdict) →
        n = nodeAt 1 1 (if failures = 0 then .online else .suspect) failures →
        s = onA (fun x => { x with nodes := [n] }) world →
      n ∈ (s.line .a).nodes ∧ ((s.line .a).nodes.map (·.address)).Nodup ∧ isAddressed v.order.kind = true ∧
      orderAddress v.order.kind = n.address ∧ orderNodeUid v.order.kind = n.uid ∧ mayRetry v.order.kind = true ∧
      (n.state = .online ∨ n.state = .suspect) ∧ v.result.verdict = verdict ∧
      (verdict ≠ .contention → isFailure v.result.verdict = true) ∧
      (failures = 1 → n.failures + 1 < (s.line .a).config.failureThreshold) ∧
      (failures = 2 → (s.line .a).config.failureThreshold ≤ n.failures + 1)) ∧
    ∀ v n verdict, verdict = .timeout ∨ verdict = .misaddressed →
      v = verdictOf (.probe 3 3) (plainResult verdict) → n = nodeAt 3 3 .lost 3 →
      n ∈ (world.line .a).nodes ∧ v.order.kind = .probe n.address n.uid ∧ isAddressed v.order.kind = true ∧
      orderNodeUid v.order.kind = n.uid ∧ isFailure v.result.verdict = true := by
  refine ⟨?_, rfl, rfl, rfl, ?_, ?_, ?_, ?_⟩
  · rintro kind t s (rfl | rfl) rfl rfl <;> decide
  · rintro v n s rfl rfl rfl
    decide
  · rintro v n verdict (rfl | rfl) rfl rfl <;> decide
  · rintro v n s kind verdict failures (rfl | rfl | rfl) (rfl | rfl | rfl) (rfl | rfl | rfl) rfl rfl rfl <;> decide
  · rintro v n verdict (rfl | rfl) rfl rfl <;> decide

/-! ### Hypotheses met: the Line Port -/

/-- The configured rate in force and not; a false start of 7 samples, a start bit of 8, a break; the end of a
character in HUNT, with the next start bit at samples 1 and 7 and none; WAIT_HIGH with a break of each length, below
the threshold and at it. -/
theorem test_hyp_SamplesMakeCharactersAndBreaks :
    (LinePort.initial.tx = .idle ∧ LinePort.initial.rxPhase = .hunt ∧ LinePort.initial.lowTime = 0 ∧
      LinePort.initial.ended = none ∧ LinePort.initial.inBreak = none ∧ LinePort.initial.rate = .r115200 ∧
      LinePort.initial.rate ≠ .r9600) ∧
    (lowThrough 7 1 = .low ∧ bitValue (lowThrough 7) 0 = true) ∧
    (bitValue (lowThrough 8) 0 = false ∧ ∃ k, k ≤ 10 ∧ bitValue (lowThrough 8) k = true) ∧
    (∀ k, k ≤ 10 → bitValue (lowThrough 169) k = false) ∧
    (∀ c p, p = { LinePort.initial with ended := some ⟨c, 7, false⟩ } →
      p.tx = .idle ∧ p.ended = some { character := c, left := 7, startWaits := false } ∧ p.rxPhase = .hunt) ∧
    (∀ k, k = 1 ∨ k = 7 → (∀ j, 1 ≤ j → j < k → (if j = k then PinLevel.low else .high) = .high)) ∧
    (∀ p inBreak, p = { LinePort.initial with rxPhase := .waitHigh, lowTime := 704, inBreak := inBreak } →
      p.tx = .idle ∧ p.rxPhase = .waitHigh ∧ p.ended = none ∧ 1 ≤ p.lowTime ∧ p.lowRate = p.rate ∧
      p.lowPhase = 0 ∧ p.stuck = false ∧ p.lowTime + 0 ≤ 704) := by
  refine ⟨by decide, by decide, ⟨by decide, 1, by decide⟩, ?_, ?_, ?_, ?_⟩
  · decide
  · rintro c p rfl
    exact ⟨rfl, rfl, rfl⟩
  · rintro k - j - h
    rw [if_neg (Nat.ne_of_lt h)]
  · rintro p inBreak rfl
    exact ⟨rfl, rfl, rfl, Nat.le_of_ble_eq_true rfl, rfl, rfl, rfl, Nat.le_refl 704⟩

/-- An idle output, a break, the first and last sample of each end of a frame; a MUTED receiver; a header sent, with
the echo before ended and 1 and 7 sample periods before its end; its echo, good, a break, and a false start, each at
once and 6 samples late; 7 samples late, and missing. -/
theorem test_hyp_FramesAreSentAndEchoesChecked :
    LinePort.initial.tx = .idle ∧
    (∀ jam left, ({ LinePort.initial with tx := .sendingBreak jam left } : LinePort).tx = .sendingBreak jam left) ∧
    ([0x105, (0x002 : BitVec 9)][1]? = some 0x002 ∧ 351 = 176 * 1 + 16 * 10 + 15 ∧
      0 = 176 * 0 + 16 * 0 + 0 ∧ 176 * [0x105, (0x002 : BitVec 9)].length ≤ 352) ∧
    (∀ p tx, p = { LinePort.initial with tx := tx, rxPhase := .muted } →
      p.rxPhase = .muted ∧ p.ended = none ∧ p.tx = tx ∧ p.echo = .none ∧ ∀ k : Nat, (fun _ => PinLevel.low) k = .low) ∧
    (∀ c p ended, ended = none ∨ ended = some ⟨c, 1, false⟩ ∨ ended = some ⟨c, 7, false⟩ →
      p = { sendingPort with ended := ended } →
      p.tx = .frame [0x105, 0x002] (176 * 0) false ∧ [0x105, (0x002 : BitVec 9)][0]? = some 0x105 ∧
      p.rate = .r115200 ∧ p.rxPhase ≠ .muted ∧ ∀ e, p.ended = some e → e.left ≤ 7 ∧ e.startWaits = false) ∧
    (∀ delay levels delayed, delay = 0 ∨ delay = 6 →
      levels = echoLevels [0x105] delay ∨ levels = lowAfter delay 176 ∨ levels = lowAfter delay 7 →
      delayed = (fun k => levels (delay + k)) →
      (∀ k, delayed k = levels (delay + k)) ∧ (∀ k, 1 ≤ k → k ≤ delay → levels k = .high) ∧ delayed 1 = .low) ∧
    (∀ delay, delay = 0 ∨ delay = 6 →
      (bitValue (fun k => echoLevels [0x105] delay (delay + k)) 0 = false ∧
        bitValue (fun k => echoLevels [0x105] delay (delay + k)) 10 = true) ∧
      (∀ k, k ≤ 10 → bitValue (fun k => lowAfter delay 176 (delay + k)) k = false) ∧
      bitValue (fun k => lowAfter delay 7 (delay + k)) 0 = true) ∧
    (∀ k, 1 ≤ k → k ≤ 7 → echoLevels [0x105] 7 k = .high) ∧
    (∀ k, 1 ≤ k → k ≤ 176 → lowThrough 0 k = .high) := by
  refine ⟨rfl, fun _ _ => rfl, by decide, ?_, ?_, ?_, ?_, ?_, ?_⟩
  · rintro p tx rfl
    exact ⟨rfl, rfl, rfl, rfl, fun _ => rfl⟩
  · rintro c p ended (rfl | rfl | rfl) rfl
    · exact ⟨rfl, rfl, rfl, fun h => RxPhase.noConfusion h, fun e h => by cases h⟩
    · exact ⟨rfl, rfl, rfl, fun h => RxPhase.noConfusion h,
        fun e h => by cases h; exact ⟨Nat.le_of_ble_eq_true rfl, rfl⟩⟩
    · exact ⟨rfl, rfl, rfl, fun h => RxPhase.noConfusion h,
        fun e h => by cases h; exact ⟨Nat.le_of_ble_eq_true rfl, rfl⟩⟩
  · rintro delay levels delayed - h rfl
    refine ⟨fun _ => rfl, fun k h1 h2 => ?_, ?_⟩
    · rcases h with rfl | rfl | rfl
      · exact if_pos h2
      · exact if_neg (by omega)
      · exact if_neg (by omega)
    · rcases h with rfl | rfl | rfl
      · exact (if_neg (by omega)).trans (by rw [Nat.add_sub_cancel_left]; rfl)
      · exact if_pos (by omega)
      · exact if_pos (by omega)
  · rintro delay (rfl | rfl) <;> decide
  · intro k h1 h2
    exact if_pos (by omega)
  · intro k h1 h2
    exact if_neg (by omega)

/-! ### Hypotheses met: line events -/

/-- Start begun and an echo's start bit; none; the return high, and a return high the port does not signal, with the
input high and low. -/
theorem test_hyp_StartBitsHoldTheTimers :
    (∀ x s, Signalled .a [] x (signalling x s) (signalTaken s)) ∧
    (∀ base, ¬ Signalled .a [] .startBegun world base ∧ ¬ Signalled .a [] .echoBegun world base) ∧
    (∀ base, ¬ Signalled .a [] .returnHigh world base) ∧ world = playPeriods .a [] world ∧
    (world.line .a).port.input = .high ∧
    ((receiving .hunt .low world).line .a).port.input = .low := by
  exact ⟨signalled, fun _ => ⟨world_signals_nothing _ _, world_signals_nothing _ _⟩,
    fun _ => world_signals_nothing _ _, rfl, rfl, rfl⟩

/-- No signal; IDLE; each held timer with one period left, and run out, with another attempt to follow and none; an
addressed WRITE that has seen a break, settling with its time run out. -/
theorem test_hyp_FalseStartResumesTheTimer :
    (∀ base, ¬ Signalled .a [] .falseStart world base) ∧
    (∀ s, Signalled .a [] .falseStart (signalling .falseStart s) (signalTaken s)) ∧
    ((signalTaken world).line .a).engine.state = .idle ∧
    (∀ s left, left = 0 ∨ left = 1 →
        s = signalTaken (waitingOn .awaiting (.held left) .stopped .stopped) ∨
        s = signalTaken (waitingOn .receiving .stopped (.held left) .stopped) ∨
        s = signalTaken (waitingOn .settling .stopped .stopped (.held left)) →
      s.resetHeld = false ∧ (s.line .a).engine.order = some ⟨pollOrder, 0xFFFF⟩ ∧
      RetryFollows (s.line .a) ⟨pollOrder, 0xFFFF⟩ ∧
      ¬ RetryFollows ((atLastAttempt s).line .a) ⟨pollOrder, 0xFFFF⟩ ∧
      (s.line .a).engine.lastVerdict = some .timeout ∧
      ¬(isAddressedWrite pollOrder = true ∧ (s.line .a).engine.breakSeen = true) ∧
      ((s.line .a).engine.state = .awaiting ∧ (s.line .a).engine.window = .held left ∨
        (s.line .a).engine.state = .receiving ∧ (s.line .a).engine.gap = .held left ∨
        (s.line .a).engine.state = .settling ∧ (s.line .a).engine.settling = .held left)) ∧
    ∀ s, s = signalTaken (onA (fun y => { y with engine := { y.engine with settling := .held 0, breakSeen := true } })
        (engaged .settling (.write 1 30 4 0 [] 1))) →
      (s.line .a).engine.order = some ⟨.write 1 30 4 0 [] 1, 0xFFFF⟩ ∧
      (s.line .a).engine.lastVerdict = some .timeout ∧ (s.line .a).engine.state = .settling ∧
      (s.line .a).engine.settling = .held 0 ∧ isFailure .timeout = true ∧
      isAddressedWrite (.write 1 30 4 0 [] 1) = true ∧ (s.line .a).engine.breakSeen = true := by
  refine ⟨fun _ => world_signals_nothing _ _, signalled _, rfl, ?_, ?_⟩
  · rintro s left (rfl | rfl) (rfl | rfl | rfl) <;>
      exact ⟨rfl, rfl, ⟨rfl, Nat.le_of_ble_eq_true rfl, fun h => Bool.noConfusion h.1⟩, no_retry (Nat.le_refl 2),
        rfl, by decide, by decide⟩
  · rintro s rfl
    exact ⟨rfl, rfl, rfl, rfl, rfl, rfl, rfl⟩

/-- Line A with an exchange in this state, an attempt held by a break or not. -/
def breakOn (state : ExchangeState) (settling : CharTimer) (hold : Bool) : State :=
  onA (fun x => { x with engine := { x.engine with breakHold := hold } }) (waitingOn state .stopped .stopped settling)

/-- No signal; a break in each state of the engine; its end in IDLE, with an attempt held, and in SETTLING; one sample
period below 2 character times, and 2 character times. -/
theorem test_hyp_BreaksAreCountedAndEndTheAttempt :
    (∀ base, ¬ Signalled .a [] .breakDetected world base) ∧
    (∀ duration base, ¬ Signalled .a [] (.breakEnd duration) world base) ∧
    (∀ x s, x = .breakDetected ∨ x = .breakEnd 351 ∨ x = .breakEnd 352 →
      Signalled .a [] x (signalling x s) (signalTaken s)) ∧
    (∀ state, ((signalTaken (breakOn state .stopped false)).line .a).engine.state = state) ∧
    (((signalTaken world).line .a).engine.state = .idle ∧
      ((signalTaken world).line .a).engine.breakHold = false) ∧
    (∀ s, s = signalTaken (breakOn .receiving .stopped true) →
      (s.line .a).engine.order = some ⟨pollOrder, 0xFFFF⟩ ∧ (s.line .a).engine.breakHold = true ∧
      RetryFollows (s.line .a) ⟨pollOrder, 0xFFFF⟩ ∧
      ¬ RetryFollows ((atLastAttempt s).line .a) ⟨pollOrder, 0xFFFF⟩) ∧
    (∀ s timer, timer = .stopped ∨ timer = .held 0 ∨ timer = .held 1 →
        s = signalTaken (breakOn .settling timer false) →
      (s.line .a).engine.state = .settling ∧ (s.line .a).engine.breakHold = false ∧
      (s.line .a).engine.settling = timer) ∧
    ¬ 352 ≤ 351 := by
  refine ⟨fun _ => world_signals_nothing _ _, fun _ _ => world_signals_nothing _ _, fun _ _ _ => signalled _ _,
    fun _ => rfl, ⟨rfl, rfl⟩, ?_, ?_, by decide⟩
  · rintro s rfl
    exact ⟨rfl, rfl, ⟨rfl, Nat.le_of_ble_eq_true rfl, fun h => Bool.noConfusion h.1⟩, no_retry (Nat.le_refl 2)⟩
  · rintro s timer - rfl
    exact ⟨rfl, rfl, rfl⟩

/-- No signal; the report with the engine IDLE in each line state, in SENDING, and in each state of an exchange in
RUNNING and in STOPPING, with the verdict it ends with; its end with the idle wait stopped in FAULT, an attempt held,
and no attempt held; a break of 2 character times and one sample period less. -/
theorem test_hyp_StuckInputsFaultTheLine :
    (∀ newBreak base, ¬ Signalled .a [] (.stuck newBreak) world base) ∧
    (∀ duration base, ¬ Signalled .a [] (.stuckEnd duration) world base) ∧
    (∀ x s, x = .stuck true ∨ x = .stuck false ∨ x = .stuckEnd 351 ∨ x = .stuckEnd 352 →
      Signalled .a [] x (signalling x s) (signalTaken s)) ∧
    (∀ s state, s = signalTaken (onA (fun x => { x with lineState := state }) world) →
      s.resetHeld = false ∧ (s.line .a).engine.state = .idle ∧ (s.line .a).engine.breakHold = false ∧
      (s.line .a).lineState = state ∧ (s.line .a).idleWait = .stopped ∧ (s.line .a).port.input = .high) ∧
    (∀ s state at_, at_ = .running ∨ at_ = .stopping →
        s = signalTaken (onA (fun x => { x with lineState := at_ }) (breakOn state .stopped false)) →
      s.resetHeld = false ∧ (s.line .a).engine.order = some ⟨pollOrder, 0xFFFF⟩ ∧ (s.line .a).lineState = at_ ∧
      (s.line .a).engine.state = state ∧ (s.line .a).engine.lastVerdict = some .timeout ∧
      Verdict.timeout ≠ .contention ∧ (s.line .a).engine.breakHold = false) ∧
    ∀ s, s = signalTaken (breakOn .receiving .stopped true) →
      s.resetHeld = false ∧ (s.line .a).engine.order = some ⟨pollOrder, 0xFFFF⟩ ∧
      (s.line .a).engine.breakHold = true := by
  refine ⟨fun _ _ => world_signals_nothing _ _, fun _ _ => world_signals_nothing _ _, fun _ _ _ => signalled _ _,
    ?_, ?_, ?_⟩
  · rintro s state rfl
    exact ⟨rfl, rfl, rfl, rfl, rfl, rfl⟩
  · rintro s state at_ - rfl
    exact ⟨rfl, rfl, rfl, rfl, rfl, by decide, rfl⟩
  · rintro s rfl
    exact ⟨rfl, rfl, rfl⟩

/-! ### Hypotheses met: contention, the breaks sent, and Line Control -/

/-- Line A at the end of the character of this order whose echo has failed, in a break of this duration or none. -/
def contending (at_ : LineState) (order : OrderKind) (count framesSent : Nat) (inBreak : Option Nat)
    (txns : List TxnRecord) : State :=
  { onA (fun x => { x with
      sched := { x.sched with contentionCount := count }
      engine := { x.engine with framesSent := framesSent }
      port := { x.port with inBreak := inBreak } })
      (sendingOn at_ .sending (some order) (.frame [0x105] 176 false) .failed) with txns := txns }

/-- The first and the fourth contention of a poll, in RUNNING and STOPPING, with a break of 351 and of 352 sample
periods and with none; a READ and a WRITE returned any number of times, the second and the third contention among
them, and a WRITE sent in full any number of times, never and once among them; and one sample period too early. -/
theorem test_hyp_ContentionEndsTheExchange :
    (∀ s at_ count inBreak, s = contending at_ pollOrder count 0 inBreak [] → count = 0 ∨ count = 3 →
        at_ = .running ∨ at_ = .stopping → inBreak = none ∨ inBreak = some 351 ∨ inBreak = some 352 →
      s.resetHeld = false ∧ s = playPeriods .a [] s ∧ (s.line .a).port.tx = .frame [0x105] 176 false ∧
      (s.line .a).port.echo = .failed ∧ 176 * [(0x105 : BitVec 9)].length ≤ 176 ∧
      (s.line .a).engine.order = some ⟨pollOrder, 0xFFFF⟩ ∧ (s.line .a).port.inBreak = inBreak ∧
      (s.line .a).lineState = at_ ∧ (s.line .a).sched.contentionCount = count) ∧
    (∀ s x returns, x = { txnAt 1 30 (.read 24) .inFlight with contentionReturns := returns } →
        s = contending .running (.read 1 30 4 0 24 1) 0 0 none [x] →
      (s.line .a).engine.order = some ⟨.read x.reference 30 4 0 24 1, 0xFFFF⟩ ∧ x ∈ s.txns ∧
      (s.txns.map (·.reference)).Nodup ∧ x.kind = .read 24 ∧ x.contentionReturns = returns) ∧
    (∀ s x returns sent, x = { txnAt 1 30 (.write [0]) .inFlight with contentionReturns := returns } →
        s = contending .running (.write 1 30 4 0 [0] 1) 0 sent none [x] →
      (s.line .a).engine.order = some ⟨.write x.reference 30 4 0 [0] 1, 0xFFFF⟩ ∧ x ∈ s.txns ∧
      (s.txns.map (·.reference)).Nodup ∧ x.kind = .write [0] ∧ x.contentionReturns = returns ∧
      x.attempts + (s.line .a).engine.framesSent = sent) ∧ (1 + 1 < 3 ∧ 3 ≤ 2 + 1) ∧
    ∀ chars position, ((sendingOn .running .sending (some pollOrder) (.frame [0x105] 175 false) .failed).line
      .a).port.tx = .frame chars position false → position < 176 * chars.length := by
  refine ⟨?_, ?_, ?_, by decide, ?_⟩
  · rintro s at_ count inBreak rfl - - -
    exact ⟨rfl, rfl, rfl, rfl, by decide, rfl, rfl, rfl, rfl⟩
  · rintro s x returns rfl rfl
    exact ⟨rfl, List.mem_singleton_self _, List.nodup_singleton _, rfl, rfl⟩
  · rintro s x returns sent rfl rfl
    exact ⟨rfl, List.mem_singleton_self _, List.nodup_singleton _, rfl, rfl, Nat.zero_add sent⟩
  · intro chars position h
    have h : Transmitter.frame [0x105] 175 false = .frame chars position false := h
    cases h
    decide

/-- A jam break in each line state; a break order in RUNNING and STOPPING; neither. -/
theorem test_hyp_EndsOfTheBreaksSent :
    (∀ s at_, s = sendingOn at_ .idle none (.sendingBreak true 0) .none →
      s.resetHeld = false ∧ LineSound (s.line .a) ∧ s = playPeriods .a [] s ∧
      (s.line .a).port.tx = .sendingBreak true 0 ∧ (s.line .a).lineState = at_) ∧
    (∀ s at_, s = sendingOn at_ .sending (some .breakOrder) (.sendingBreak false 0) .none →
        at_ = .running ∨ at_ = .stopping →
      s.resetHeld = false ∧ LineSound (s.line .a) ∧ ((s.line .a).nodes.map (·.address)).Nodup ∧
      (s.line .a).port.tx = .sendingBreak false 0 ∧ (s.line .a).lineState = at_) ∧
    (∀ jam, Transmitter.sendingBreak jam 1 ≠ .sendingBreak jam 0) ∧
    LineSound (State.reset.line .a) ∧ ((State.reset.line .a).nodes.map (·.address)).Nodup ∧
      ∀ jam left, (State.reset.line .a).port.tx ≠ .sendingBreak jam left := by
  refine ⟨?_, ?_, by decide, reset_lineSound .a, List.nodup_nil, fun _ _ h => Transmitter.noConfusion h⟩
  · rintro s at_ rfl
    exact ⟨rfl, sendingOn_sound (by decide) (.inl rfl) (fun h => absurd rfl h) (by decide) rfl, rfl, rfl, rfl⟩
  · rintro s at_ rfl h
    exact ⟨rfl, sendingOn_sound (by decide) (.inr rfl) (fun _ => h) (by decide) ⟨rfl, _, rfl, rfl⟩,
      show [1, 2, 3, 30].Nodup by decide, rfl, rfl⟩

/-- HOLDOFF with its timer run out, the input high and stuck; FAULT with the idle wait run out; RUNNING. -/
theorem test_hyp_HoldoffAndIdleWaitReturnToRunning :
    (∀ s stuck, s = onA (fun x => { x with
        lineState := .holdoff, holdoffTimer := .running 0, port := { x.port with stuck := stuck } }) world →
      s.resetHeld = false ∧ (s.line .a).lineState = .holdoff ∧ (s.line .a).holdoffTimer = .running 0 ∧
      (s.line .a).port.stuck = stuck ∧ (s.line .a).engine.state = .idle) ∧
    (∀ s, s = onA (fun x => { x with lineState := .fault, idleWait := .running 0 }) world →
      s.resetHeld = false ∧ (s.line .a).lineState = .fault ∧ (s.line .a).idleWait = .running 0 ∧
      (s.line .a).port.stuck = false ∧ ((s.line .a).nodes.map (·.address)).Nodup) ∧
    (.running 1 : MsTimer) ≠ .running 0 ∧
    (world.line .a).lineState ≠ .holdoff ∧ (world.line .a).holdoffTimer = .stopped ∧
    (world.line .a).lineState ≠ .fault ∧ (world.line .a).idleWait = .stopped := by
  refine ⟨?_, ?_, by decide⟩
  · rintro s stuck rfl
    exact ⟨rfl, rfl, rfl, rfl, rfl⟩
  · rintro s rfl
    decide

/-! ### Hypotheses met: what holds at all times -/

/-- A full queue of a CHANGE subscription; a queue with room in it and no spare block; an EVERY subscription. -/
theorem test_hyp_KeepOldestDropsTheSample :
    ∀ s r depth free kind, (depth, free) = (1, 95) ∨ (depth, free) = (8, 1) → kind = .change ∨ kind = .every →
      r = { subAt 1 1 .active with depth := depth, kind := kind, queue := [sampleOf [0]], notice := .queued } →
      s = { world with subs := [r, subAt 48 30 .waiting], freeBlocks := free } →
      r ∈ s.subs ∧ (s.subs.map (·.id)).Nodup ∧ r.policy = .keepOldest ∧ r.queue ≠ [] ∧
      (r.depth ≤ r.queue.length ∨ spareBlocks s = 0) ∧
      (r.kind = .change → r.resumed = true ∨ r.referencePayload ≠ some [0xFF]) := by
  rintro s r depth free kind h (rfl | rfl) rfl rfl <;> rcases h with h | h <;> cases h <;> decide

/-- A full queue of depth 1; a queue of two samples with room in it and no spare block, around the wrap of the numbers;
a subscription of each kind. -/
theorem test_hyp_KeepNewestReplacesTheOldestSample :
    (∀ s r x depth free others next kind,
      (depth, free, others, next) = (1, 95, [], 1) ∨
        (depth, free, others, next) = (8, 1, [{ sampleOf [1] with sequence := 0xFFFF }], 1) →
      kind = .change ∨ kind = .every → x = { sampleOf [0] with sequence := 0xFFFE } →
      r = { subAt 1 1 .active with
        policy := .keepNewest, depth := depth, kind := kind, queue := x :: others, notice := .queued
        nextSequence := next } →
      s = { world with subs := [r, subAt 48 30 .waiting], freeBlocks := free } →
      r ∈ s.subs ∧ (s.subs.map (·.id)).Nodup ∧ r.policy = .keepNewest ∧ r.queue = x :: others ∧
      (r.depth ≤ r.queue.length ∨ spareBlocks s = 0) ∧
      (r.kind = .change → r.resumed = true ∨ r.referencePayload ≠ some [0xFF]) ∧
      (r.queue.map (·.sequence) ++ [r.nextSequence]).Nodup ∧ r.queue.length ≤ r.depth) ∧
    ∃ q ∈ [subAt 1 1 .active, subAt 48 30 .waiting], q ≠ subAt 1 1 .active := by
  refine ⟨?_, by decide⟩
  rintro s r x depth free others next kind h (rfl | rfl) rfl rfl rfl <;> rcases h with h | h <;> cases h <;> decide

theorem test_hyp_LineEventsLeaveTheRest :
    lineOf (.roundTimerExpiry .a) = some .a ∧ ∃ t, exec (.roundTimerExpiry .a) State.reset = .next t :=
  ⟨rfl, _, rfl⟩

theorem test_hyp_StepsKeepTheLinkBounds :
    (∃ t, step State.reset = .next t) ∧ LinkBounded State.reset ∧ QueueDistinct State.reset ∧
    WindowOrdered State.reset :=
  ⟨⟨_, rfl⟩, ⟨by decide, by decide, by decide, by decide, by decide⟩, List.nodup_nil,
    WindowOrdered.empty rfl rfl (by decide)⟩

theorem test_hyp_StepsKeepTheSamplePool : PoolConserved State.reset ∧ ∃ t, step State.reset = .next t :=
  ⟨⟨rfl, by decide, by decide, by decide, by decide, by decide, by decide⟩, _, rfl⟩

theorem test_hyp_StepsKeepTheNodeTable :
    (∀ l, NodesSound (State.reset.line l)) ∧ ∃ t, step State.reset = .next t :=
  ⟨fun l => by
    have none : ∀ n, n ∉ (State.reset.line l).nodes := by cases l <;> exact fun _ => List.not_mem_nil
    exact ⟨by cases l <;> decide, by cases l <;> decide, fun n h => absurd h (none n),
      fun n h => absurd h (none n), fun n h => absurd h (none n)⟩, _, rfl⟩

theorem test_hyp_StepsKeepTheLines : LinesSound State.reset ∧ ∃ t, step State.reset = .next t :=
  ⟨fun _ => reset_lineSound, _, rfl⟩

theorem test_hyp_StepsKeepTheTransactions :
    LinesSound State.reset ∧ TxnsSound State.reset ∧ ∃ t, step State.reset = .next t :=
  ⟨fun _ => reset_lineSound,
    TxnsSound.empty (s := State.reset) rfl rfl rfl (fun l => by cases l <;> exact ⟨rfl, rfl⟩), _, rfl⟩

end Sys2Proof.Tests
end

section
/-! SUPPORT. The reset state satisfies every invariant of Safety.lean. -/

namespace Sys2Proof.Machine

open Sys2Proof

@[simp] theorem reset_line (l : LineId) : State.reset.line l = Line.initial := by cases l <;> rfl

theorem reset_linkBounded : LinkBounded State.reset where
  inbox := Nat.zero_le _
  responses := Nat.zero_le _
  cacheSize := Nat.zero_le _
  cacheTags := List.nodup_nil
  cacheNonzero _ h := absurd h List.not_mem_nil

theorem reset_windowOrdered : WindowOrdered State.reset :=
  .empty rfl rfl rfl

/-- All 96 blocks are free, and there is no record to serve (R62, R78). -/
theorem reset_poolConserved : PoolConserved State.reset :=
  .of_sound rfl (Nat.zero_le _) List.nodup_nil fun _ h => absurd h List.not_mem_nil

/-- The Node Table is empty, and the failure threshold is R112's default. -/
theorem initial_nodesSound : NodesSound Line.initial where
  threshold := by decide
  addresses := List.nodup_nil
  range _ h := absurd h List.not_mem_nil
  counts _ h := absurd h List.not_mem_nil
  profiles _ h := absurd h List.not_mem_nil

theorem initial_lineSound : LineSound Line.initial :=
  .initial rfl rfl rfl rfl rfl (.quiet ExchangeState.noConfusion rfl rfl)

theorem reset_linesSound : LinesSound State.reset := fun _ l => by
  rw [reset_line]
  exact initial_lineSound

theorem reset_txnsSound : TxnsSound State.reset :=
  .empty rfl rfl rfl fun l => by
    rw [reset_line]
    exact ⟨rfl, rfl⟩

/-- Settles O5: the fields are the definition's, and each invariant holds of empty tables, queues and windows. -/
theorem resetStateHoldsTheSpecValues : Obligations.ResetStateHoldsTheSpecValues := by
  unfold Obligations.ResetStateHoldsTheSpecValues
  refine ⟨?_, reset_linkBounded, List.nodup_nil, reset_windowOrdered, reset_poolConserved, fun l => ?_,
    reset_linesSound, reset_txnsSound⟩
  · rintro line rfl
    rfl
  · rw [reset_line]
    exact initial_nodesSound

end Sys2Proof.Machine
end

section
/-! SUPPORT. One period of CLKIN (R1, R126): the divider of a line, a sample period of a line, and the millisecond. -/

namespace Sys2Proof.Machine

open Sys2Proof

/-- The divider counts, and on its overflow a sample period of the line passes (R126). -/
theorem clkTickLine_eq (x : Line) : clkTickLine x =
    if x.port.divider + 16 * hertz x.port.rate < 24000000 then
      { x with port := { x.port with divider := x.port.divider + 16 * hertz x.port.rate } }
    else
      linePeriod x.port.input
        { x with port := { x.port with divider := x.port.divider + 16 * hertz x.port.rate - 24000000 } } := by
  unfold clkTickLine divide
  by_cases h : x.port.divider + 16 * hertz x.port.rate < 24000000
  · have hd : ¬ Config.clkPerSecond ≤ x.port.divider + 16 * hertz x.port.rate := Nat.not_le.2 h
    simp only [if_neg hd, if_pos h, Bool.false_eq_true, if_false]
  · have hd : Config.clkPerSecond ≤ x.port.divider + 16 * hertz x.port.rate := Nat.not_lt.1 h
    simp only [if_pos hd, if_neg h, if_true]

/-- A low sample stops the idle wait of FAULT, and the first high one after it starts it in full (R124). -/
theorem idleWaitSample_eq (level : PinLevel) (x : Line) : idleWaitSample level x =
    if x.lineState = .fault ∧ x.port.tx = .idle then
      (if level = .low then .stopped else if x.port.lowTime = 0 then x.idleWait else .running x.config.holdoff)
    else x.idleWait := by
  unfold idleWaitSample
  cases level <;> rfl

theorem step_idle {s : State} (h : s.pending = []) : step s = .next (clkTick s) := by
  unfold step
  rw [h]

theorem clkTick_held {s : State} (h : s.resetHeld = true) : clkTick s = s := if_pos h

/-- A period of CLKIN within a millisecond. -/
theorem clkTick_within {s : State} (h : s.resetHeld = false) (hp : s.prescaler + 1 < 24000) :
    clkTick s = { s with
      prescaler := s.prescaler + 1, lineA := clkTickLine s.lineA, lineB := clkTickLine s.lineB } := by
  unfold clkTick
  rw [h]
  exact if_pos hp

/-- The period of CLKIN that ends a millisecond: the clock counts what the lines' sample periods have left. -/
theorem clkTick_ends {s : State} (h : s.resetHeld = false) (hp : 24000 ≤ s.prescaler + 1) :
    clkTick s = msTick { s with lineA := clkTickLine s.lineA, lineB := clkTickLine s.lineB } := by
  unfold clkTick
  rw [h]
  exact if_neg (Nat.not_lt.2 hp)

/-- Settles O3: the lines after the period are `clkTickLine` of the lines, counted by `msTickLine` at a millisecond. -/
theorem idleStepCountsTime : Obligations.IdleStepCountsTime := by
  unfold Obligations.IdleStepCountsTime
  refine ⟨fun s hs => ⟨fun hr => ?_, fun hr => ⟨fun l => clkTickLine (s.line l), fun l => clkTickLine_eq _,
    fun hp => ?_, fun hp => ⟨fun l => msTickLine (clkTickLine (s.line l)), fun _ => rfl, ?_⟩⟩⟩,
    fun level x => ?_, fun left => ⟨rfl, rfl, rfl, rfl, rfl, rfl, rfl, rfl⟩⟩
  · rw [step_idle hs, clkTick_held hr]
  · rw [step_idle hs, clkTick_within hr hp]
    rfl
  · rw [step_idle hs, clkTick_ends hr hp]
    rfl
  · unfold linePeriod
    rw [idleWaitSample_eq]
    rfl

end Sys2Proof.Machine
end

section
/-! SUPPORT. The Round Scheduler's timers and the round start (R3 to R5, R12). -/

namespace Sys2Proof.Machine

open Sys2Proof

/-- The round timer's time is up (R3). -/
theorem roundTimerRunsOut_expired {l : LineId} {s : State} (h : (s.line l).sched.roundTimer = .running 0) :
    roundTimerRunsOut l s = s.modifyLine l fun x => { x with
      sched := { x.sched with roundTimer := .expired }
      counters := { x.counters with overruns :=
        if x.sched.pollList = [] then x.counters.overruns else satInc x.counters.overruns } } := by
  unfold roundTimerRunsOut State.modifyLine
  rw [h]
  by_cases hp : (s.line l).sched.pollList = [] <;> simp only [hp, if_true, if_false]

theorem roundTimerRunsOut_waits {l : LineId} {s : State} (h : (s.line l).sched.roundTimer ≠ .running 0) :
    roundTimerRunsOut l s = s := by
  unfold roundTimerRunsOut
  split
  · exact absurd ‹_› h
  all_goals rfl

/-- The gap of the quiet is over (R12). -/
theorem endQuiet_passed {l : LineId} {s : State} (h : (s.line l).sched.quiet = .running 0) :
    endQuiet l s = s.modifyLine l fun x => { x with sched := { x.sched with quiet := .passed } } := by
  unfold endQuiet
  rw [h]
  rfl

theorem endQuiet_waits {l : LineId} {s : State} (h : (s.line l).sched.quiet ≠ .running 0) : endQuiet l s = s := by
  unfold endQuiet
  split
  · exact absurd ‹_› h
  all_goals rfl

/-- The four conditions of R4. -/
theorem roundStartDue_iff (x : Line) : roundStartDue x = true ↔
    x.lineState = .running ∧ x.sched.roundTimer = .expired ∧ x.sched.pollList = [] ∧ x.engine.state = .idle := by
  simp only [roundStartDue, Bool.and_eq_true, beq_iff_eq, List.isEmpty_iff, and_assoc]

theorem takeRoundStart_due {l : LineId} {s : State} (h : roundStartDue (s.line l) = true) :
    takeRoundStart l s = startRound l s := if_pos h

theorem takeRoundStart_notDue {l : LineId} {s : State} (h : ¬ roundStartDue (s.line l) = true) :
    takeRoundStart l s = s := if_neg h

/-- Settles O33: each command by its timer, and the round start by the conditions of R4. -/
theorem schedulerTimersExpire : Obligations.SchedulerTimersExpire := by
  unfold Obligations.SchedulerTimersExpire
  intro l s hr
  have run (f : State → State) : perform f s = .next (outbound (f s)) := perform_running hr
  refine ⟨fun h => ?_, fun h => ?_, fun h => ?_, fun h => ?_, fun h1 h2 h3 h4 => ?_, fun h => ?_⟩
  · exact (run _).trans (by rw [roundTimerRunsOut_expired h])
  · exact (run _).trans (by rw [roundTimerRunsOut_waits h])
  · exact (run _).trans (by rw [endQuiet_passed h])
  · exact (run _).trans (by rw [endQuiet_waits h])
  · refine ⟨_, buildPollList_spec l _ s, (run _).trans ?_⟩
    rw [takeRoundStart_due ((roundStartDue_iff _).2 ⟨h1, h2, h3, h4⟩)]
    rfl
  · refine (run _).trans ?_
    rw [takeRoundStart_notDue fun hd => ?_]
    obtain ⟨h1, h2, h3, h4⟩ := (roundStartDue_iff _).1 hd
    rcases h with h | h | h | h
    exacts [h h1, h h2, h h3, h h4]

end Sys2Proof.Machine
end
section
/-! SUPPORT. The arbiter of a line (R12 to R17): when it may choose, and what each of its choices does. -/

namespace Sys2Proof.Machine

open Sys2Proof

/-! ### When the arbiter may choose (R4, R12) -/

theorem mayChoose_iff (x : Line) : mayChoose x = true ↔ ArbiterFree x := by
  simp only [mayChoose, Bool.and_eq_true, beq_iff_eq, Bool.not_eq_true', ← Bool.not_eq_true, roundStartDue_iff]
  constructor
  · rintro ⟨⟨⟨⟨hr, hi⟩, hq⟩, hd⟩, ht⟩
    exact ⟨hr, hi, hq, ht, fun ⟨hexpired, hpolls⟩ => hd ⟨hr, hexpired, hpolls, hi⟩⟩
  · rintro ⟨hr, hi, hq, ht, hd⟩
    exact ⟨⟨⟨⟨hr, hi⟩, hq⟩, fun ⟨_, hexpired, hpolls, _⟩ => hd ⟨hexpired, hpolls⟩⟩, ht⟩

/-- A choice is made in the state after the periods the command carries (log 2). -/
theorem exec_arbiterChoice_free {l : LineId} {periods : Periods} {s : State} (hr : s.resetHeld = false)
    (hf : ArbiterFree ((playPeriods l periods s).line l)) :
    exec (.arbiterChoice l periods) s = .next (outbound (choose l (playPeriods l periods s))) := by
  have hc : arbiterChoice l (playPeriods l periods s) = some (choose l (playPeriods l periods s)) :=
    if_pos ((mayChoose_iff _).2 hf)
  exact (perform_running hr).trans (by rw [afterPeriods_some hc])

/-- Without a choice the periods have not passed either (log 3). -/
theorem exec_arbiterChoice_notFree {l : LineId} {periods : Periods} {s : State} (hr : s.resetHeld = false)
    (hf : ¬ ArbiterFree ((playPeriods l periods s).line l)) :
    exec (.arbiterChoice l periods) s = .next (outbound s) := by
  have hc : arbiterChoice l (playPeriods l periods s) = none := if_neg fun h => hf ((mayChoose_iff _).1 h)
  exact (perform_running hr).trans (by rw [afterPeriods_none hc])

/-! ### The order of the choices (R13 to R16) -/

theorem choose_resync {l : LineId} {u : State} (h : (u.line l).sched.resyncRequest = true) :
    choose l u = startBreakOrder l (u.modifySched l fun c => { c with resyncRequest := false }) := if_pos h

theorem choose_broadcast {l : LineId} {u : State} (hs : (u.line l).sched.resyncRequest = false)
    (hc : (u.line l).config.roundBroadcast = true) (hb : (u.line l).sched.broadcastSent = false) :
    choose l u = startExchange l .roundBroadcast (u.modifySched l fun c => { c with broadcastSent := true }) := by
  unfold choose
  dsimp only
  rw [hs, if_neg Bool.false_ne_true]
  exact if_pos ⟨hc, hb⟩

theorem choose_probeOrWork {l : LineId} {u : State} (hs : (u.line l).sched.resyncRequest = false)
    (hb : (u.line l).config.roundBroadcast = false ∨ (u.line l).sched.broadcastSent = true) :
    choose l u = chooseProbeOrWork l u := by
  unfold choose
  dsimp only
  rw [hs, if_neg Bool.false_ne_true]
  refine if_neg ?_
  rintro ⟨h1, h2⟩
  rcases hb with h | h
  · exact Bool.noConfusion (h1.symm.trans h)
  · exact Bool.noConfusion (h2.symm.trans h)

theorem chooseProbeOrWork_probe {l : LineId} {u : State} {n : NodeRecord}
    (hd : (u.line l).sched.probeDone = false) (ht : probeTarget u l = some n) :
    chooseProbeOrWork l u = sendProbe l n u := by
  unfold chooseProbeOrWork
  rw [hd, ht]
  rfl

theorem chooseProbeOrWork_work {l : LineId} {u : State}
    (h : (u.line l).sched.probeDone = true ∨ probeTarget u l = none) :
    chooseProbeOrWork l u = chooseWork l ((u.line l).txnQueue.length + 1) u := by
  unfold chooseProbeOrWork
  rcases h with h | h
  · rw [h]
    rfl
  · rw [h, ite_self]

/-- A break order goes out as a break of 3 character times (R28). -/
theorem startBreakOrder_begun (l : LineId) (u : State) :
    SendingBegun l (.sendingBreak false 528)
      (u.modifyLine l fun x => { x with
        sched := { x.sched with resyncRequest := false }
        engine := { x.engine with
          state := .sending, order := some { kind := .breakOrder, round := x.sched.roundNumber } } })
      (startBreakOrder l (u.modifySched l fun c => { c with resyncRequest := false })) := by
  unfold startBreakOrder
  dsimp only
  rw [modifyEngine_modifyLine, modifySched_modifyLine, modifyLine_modifyLine, modifyLine_line_same]
  exact sendBreak_begun _ _ _ _

/-! ### The search for the probe (R15) -/

/-- Records of one address are one record (R42). -/
theorem findNode_of_mem {s : State} {l : LineId} (hn : ((s.line l).nodes.map (·.address)).Nodup) {n : NodeRecord}
    (h : n ∈ (s.line l).nodes) : findNode s l n.address = some n := by
  cases hf : findNode s l n.address with
  | none => simpa using List.find?_eq_none.1 hf n h
  | some m =>
    obtain ⟨hm, ha⟩ := findNode_mem hf
    rw [List.inj_on_of_nodup_map hn hm h ha]

theorem nodeUidAt_of_mem {s : State} {l : LineId} (hn : ((s.line l).nodes.map (·.address)).Nodup) {n : NodeRecord}
    (h : n ∈ (s.line l).nodes) : nodeUidAt s l n.address = n.uid := by
  unfold nodeUidAt
  rw [findNode_of_mem hn h]

theorem inService_iff {x : NodeState} : x.inService = true ↔ x = .online ∨ x = .suspect := by
  cases x <;> simp [NodeState.inService]

theorem not_inService_iff {x : NodeState} : x.inService = false ↔ x = .pending ∨ x = .lost := by
  cases x <;> simp [NodeState.inService]

/-- A candidate is the record of the address, out of service. -/
theorem probeCandidate_mem {s : State} {l : LineId} {address : Nat} {n : NodeRecord}
    (h : probeCandidate s l address = some n) :
    n ∈ (s.line l).nodes ∧ n.address = address ∧ (n.state = .pending ∨ n.state = .lost) := by
  obtain ⟨hf, ho⟩ := Option.filter_eq_some_iff.1 h
  obtain ⟨hm, ha⟩ := findNode_mem hf
  exact ⟨hm, ha, not_inService_iff.1 (by simpa using ho)⟩

theorem probeCandidate_of_mem {s : State} {l : LineId} (hn : ((s.line l).nodes.map (·.address)).Nodup)
    {n : NodeRecord} (h : n ∈ (s.line l).nodes) (ho : n.state = .pending ∨ n.state = .lost) :
    probeCandidate s l n.address = some n :=
  Option.filter_eq_some_iff.2 ⟨findNode_of_mem hn h, by rw [not_inService_iff.2 ho]; rfl⟩

theorem probeTarget_none {s : State} {l : LineId}
    (h : ∀ n ∈ (s.line l).nodes, n.state = .online ∨ n.state = .suspect) : probeTarget s l = none := by
  refine List.findSome?_eq_none_iff.2 fun address _ => ?_
  cases hc : probeCandidate s l address with
  | none => rfl
  | some n =>
    obtain ⟨hm, -, ho⟩ := probeCandidate_mem hc
    exact absurd (inService_iff.2 (h n hm)) (by rw [not_inService_iff.2 ho]; exact Bool.false_ne_true)

/-- Address `a` is `(a + 29 - pointer) % 30` places behind the first address of the search. -/
theorem probePlace_address {pointer a : Nat} (hp : pointer ≤ 30) (ha : 1 ≤ a ∧ a ≤ 30) :
    (pointer + (a + 29 - pointer) % 30) % 30 + 1 = a := by omega

theorem probePlace_of_place {pointer k : Nat} (hp : pointer ≤ 30) (hk : k < 30) :
    ((pointer + k) % 30 + 1 + 29 - pointer) % 30 = k := by omega

/-- A search through the numbers from 0 on ends at the first that answers. -/
theorem findSome?_range {α : Type} {f : Nat → Option α} {n k : Nat} {a : α} (hk : k < n) (hf : f k = some a)
    (hbefore : ∀ j < k, f j = none) : (List.range n).findSome? f = some a := by
  induction n with
  | zero => exact absurd hk (Nat.not_lt_zero k)
  | succ n ih =>
    rw [List.range_succ, List.findSome?_append]
    rcases Nat.lt_succ_iff_lt_or_eq.1 hk with hk | rfl
    · rw [ih hk, Option.some_or]
    · have hnone : (List.range k).findSome? f = none :=
        List.findSome?_eq_none_iff.2 fun j hj => hbefore j (List.mem_range.1 hj)
      rw [hnone, Option.none_or, List.findSome?_cons, hf]

/-- The search ends at the candidate with the fewest places before it (R15). -/
theorem probeTarget_nearest {s : State} {l : LineId} {n : NodeRecord} (hs : NodesSound (s.line l))
    (hp : (s.line l).sched.probePointer ≤ 30) (hn : n ∈ (s.line l).nodes)
    (ho : n.state = .pending ∨ n.state = .lost)
    (hmin : ∀ k ∈ (s.line l).nodes, k.state = .pending ∨ k.state = .lost →
      (n.address + 29 - (s.line l).sched.probePointer) % 30 ≤
        (k.address + 29 - (s.line l).sched.probePointer) % 30) :
    probeTarget s l = some n := by
  have hplace : (n.address + 29 - (s.line l).sched.probePointer) % 30 < 30 := Nat.mod_lt _ (by decide)
  unfold probeTarget probeOrder
  rw [List.findSome?_map]
  refine findSome?_range hplace ?_ fun k hk => ?_
  · simp only [Function.comp, probePlace_address hp (hs.range n hn)]
    exact probeCandidate_of_mem hs.addresses hn ho
  · refine Option.eq_none_iff_forall_ne_some.2 fun m hm => ?_
    obtain ⟨hmem, haddress, hout⟩ := probeCandidate_mem hm
    have hfewest := hmin m hmem hout
    rw [haddress, probePlace_of_place hp (hk.trans hplace)] at hfewest
    exact Nat.not_lt.2 hfewest hk

/-- Settles O34: the resync break, the broadcast and the probe, each by its branch of `choose`. -/
theorem arbiterSendsBreakBroadcastAndProbe : Obligations.ArbiterSendsBreakBroadcastAndProbe := by
  unfold Obligations.ArbiterSendsBreakBroadcastAndProbe
  rintro l periods s u hr rfl
  refine ⟨exec_arbiterChoice_notFree hr, fun hf hs => ?_, fun hf hs hc hb => ?_,
    fun hf n hn hs hb hd hsound _ hp ho hmin => ?_⟩
  · refine ⟨_, exec_arbiterChoice_free hr hf, ?_⟩
    rw [choose_resync hs]
    exact startBreakOrder_begun _ _
  · refine ⟨_, exec_arbiterChoice_free hr hf, ?_⟩
    rw [choose_broadcast hs hc hb]
    exact startExchange_begun _ _ _
  · refine ⟨_, exec_arbiterChoice_free hr hf, ?_⟩
    rw [choose_probeOrWork hs hb, chooseProbeOrWork_probe hd (probeTarget_nearest hsound hp hn ho hmin)]
    exact startExchange_begun _ _ _

end Sys2Proof.Machine
end

section
/-! SUPPORT. The choice between the poll list and the transaction queue (R16, R17, R26). -/

namespace Sys2Proof.Machine

open Sys2Proof

/-! ### One record of a table is updated -/

theorem modifyLine_congr {s : State} {l : LineId} {f g : Line → Line} (h : f (s.line l) = g (s.line l)) :
    s.modifyLine l f = s.modifyLine l g := congrArg (s.setLine l) h

/-- Ids are distinct, so that a record of the table is what its id finds (R62). -/
theorem findSub_of_mem {s : State} (hn : (s.subs.map (·.id)).Nodup) {r : SubRecord} (hr : r ∈ s.subs) :
    findSub s r.id = some r := by
  cases hf : findSub s r.id with
  | none => simpa using List.find?_eq_none.1 hf r hr
  | some q =>
    obtain ⟨hq, hi⟩ := findSub_mem hf
    rw [List.inj_on_of_nodup_map hn hq hr hi]

/-- The record an order names is found while it stands in the table (R47). -/
theorem findNodeRecord_of_mem {s : State} {l : LineId} (hn : ((s.line l).nodes.map (·.address)).Nodup)
    {n : NodeRecord} (h : n ∈ (s.line l).nodes) : findNodeRecord s l n.address n.uid = some n := by
  cases hf : findNodeRecord s l n.address n.uid with
  | none => simpa using List.find?_eq_none.1 hf n h
  | some m =>
    obtain ⟨hm, ha, -⟩ := findNodeRecord_mem hf
    rw [List.inj_on_of_nodup_map hn hm h ha]

theorem updateSub_of_mem {s : State} (hn : (s.subs.map (·.id)).Nodup) {r : SubRecord} (hr : r ∈ s.subs)
    (f : SubRecord → SubRecord) :
    updateSub r.id r.uid f s = { s with subs := s.subs.map fun q => if q = r then f q else q } := by
  rw [updateSub_eq]
  congr 1
  refine List.map_congr_left fun q hq => if_congr ⟨fun h => ?_, ?_⟩ rfl rfl
  · exact List.inj_on_of_nodup_map hn hq hr h.1
  · rintro rfl
    exact ⟨rfl, rfl⟩

theorem updateTxn_of_mem {s : State} (hn : (s.txns.map (·.reference)).Nodup) {x : TxnRecord} (hx : x ∈ s.txns)
    (f : TxnRecord → TxnRecord) :
    updateTxn x.reference f s = { s with txns := s.txns.map fun k => if k = x then f k else k } := by
  rw [updateTxn_eq]
  congr 1
  refine List.map_congr_left fun k hk => if_congr ⟨fun h => ?_, ?_⟩ rfl rfl
  · exact List.inj_on_of_nodup_map hn hk hx h
  · rintro rfl
    rfl

/-- A completion is the record's result and a TXN_DONE request (R103). -/
theorem completeTxn_of_mem {s : State} (hn : (s.txns.map (·.reference)).Nodup) {x : TxnRecord} (hx : x ∈ s.txns)
    (result : TxnResult) (verdict : Option Verdict) (reason : Option RefuseReason) (reply : Option (List Byte)) :
    completeTxn x.reference result verdict reason reply s = { s with
      txns := s.txns.map fun k => if k = x then
        { k with
          state := .done, result := some result, lastVerdict := verdict, refuseReason := reason, reply := reply }
        else k
      delivery := { s.delivery with queue := joined s.delivery.queue (.txnDone x.reference) } } := by
  unfold completeTxn
  rw [requestReport_eq, updateTxn_of_mem hn hx]

/-! ### The choice of R16 -/

/-- What R13 to R15 leave to R16: no break to send, no broadcast and no probe. -/
structure NoEarlierChoice (x : Line) : Prop where
  resync : x.sched.resyncRequest = false
  broadcast : x.config.roundBroadcast = false ∨ x.sched.broadcastSent = true
  probe : x.sched.probeDone = true ∨ ∀ n ∈ x.nodes, n.state = .online ∨ n.state = .suspect

theorem choose_eq_chooseWork {l : LineId} {u : State} (h : NoEarlierChoice (u.line l)) :
    choose l u = chooseWork l ((u.line l).txnQueue.length + 1) u := by
  rw [choose_probeOrWork h.resync h.broadcast]
  exact chooseProbeOrWork_work (h.probe.imp_right probeTarget_none)

theorem choosesTxn_iff (x : Line) : choosesTxn x = true ↔ x.sched.pollList = [] ∨
    x.sched.allowanceUsed < x.config.allowance ∧ x.sched.alternation = .poll := by
  simp only [choosesTxn, Bool.or_eq_true, Bool.and_eq_true, List.isEmpty_iff, decide_eq_true_eq, beq_iff_eq]

theorem chooseWork_nothing {l : LineId} {u : State} (again : Nat) (hq : (u.line l).txnQueue = [])
    (hp : (u.line l).sched.pollList = []) : chooseWork l (again + 1) u = u := by
  unfold chooseWork
  rw [hq, hp]

theorem chooseWork_poll {l : LineId} {u : State} {id : Nat} {polls : List Nat} (again : Nat)
    (hp : (u.line l).sched.pollList = id :: polls)
    (hq : (u.line l).txnQueue = [] ∨ ¬ choosesTxn (u.line l) = true) :
    chooseWork l (again + 1) u = choosePoll l id u := by
  unfold chooseWork
  rw [hp]
  cases h : (u.line l).txnQueue with
  | nil => rfl
  | cons reference queue => exact if_neg (hq.resolve_left (by rw [h]; exact List.cons_ne_nil _ _))

/-- A transaction is chosen: it is sent, or completes UNAVAILABLE and the arbiter chooses again (R17). -/
theorem chooseWork_txn {l : LineId} {u : State} {x : TxnRecord} {queue : List Word16} (again : Nat)
    (hq : (u.line l).txnQueue = x.reference :: queue) (hc : choosesTxn (u.line l) = true)
    (hx : findTxn u x.reference = some x) :
    chooseWork l (again + 1) u =
      if mayBeSent u l x then sendTxn l x (popTxn l u)
      else chooseWork l again (completeTxn x.reference .unavailable none none none (popTxn l u)) := by
  conv_lhs => unfold chooseWork
  rw [hq]
  dsimp only
  rw [if_pos hc, hx]

/-! ### A poll -/

theorem choosePoll_begun {l : LineId} {u : State} {r : SubRecord} {n : NodeRecord} {polls : List Nat}
    (hids : (u.subs.map (·.id)).Nodup) (hnodes : ((u.line l).nodes.map (·.address)).Nodup) (hr : r ∈ u.subs)
    (hn : n ∈ (u.line l).nodes) (ha : r.node = n.address) (hp : (u.line l).sched.pollList = r.id :: polls) :
    ExchangeBegun l (.poll r.id r.uid r.node n.uid r.channel r.maxLength)
      ({ u with subs := u.subs.map fun q =>
          if q = r then { q with pollInFlight := true } else q }.modifyLine l fun x =>
        { x with sched := { x.sched with pollList := polls, alternation := .poll } })
      (choosePoll l r.id u) := by
  have hpop : u.modifySched l (fun c => { c with pollList := c.pollList.tail, alternation := .poll }) =
      u.modifyLine l fun x => { x with sched := { x.sched with pollList := polls, alternation := .poll } } := by
    rw [modifySched_modifyLine]
    refine modifyLine_congr ?_
    rw [hp]
    rfl
  unfold choosePoll
  rw [hpop]
  generalize hv : (u.modifyLine l fun x =>
    { x with sched := { x.sched with pollList := polls, alternation := .poll } }) = v
  have hsubs : v.subs = u.subs := by rw [← hv, modifyLine_subs]
  have hline : (v.line l).nodes = (u.line l).nodes := by rw [← hv, modifyLine_line_same]
  rw [← hsubs] at hids hr
  rw [← hline] at hnodes hn
  dsimp only
  rw [findSub_of_mem hids hr]
  dsimp only
  rw [ha, nodeUidAt_of_mem hnodes hn, updateSub_of_mem hids hr]
  convert startExchange_begun l _ _ using 1
  subst hv
  cases l <;> rfl

/-! ### A transaction -/

/-- The head transaction may be sent exactly when it names node 0 or a node in service (R99). -/
theorem mayBeSent_iff {s : State} {l : LineId} {x : TxnRecord} (hn : ((s.line l).nodes.map (·.address)).Nodup) :
    mayBeSent s l x = true ↔ x.node = 0 ∨
      ∃ n ∈ (s.line l).nodes, n.address = x.node ∧ (n.state = .online ∨ n.state = .suspect) := by
  unfold mayBeSent
  rw [Bool.or_eq_true, beq_iff_eq]
  refine or_congr_right ⟨fun h => ?_, ?_⟩
  · cases hf : findNode s l x.node with
    | none => simp [hf] at h
    | some n =>
      rw [hf] at h
      obtain ⟨hm, ha⟩ := findNode_mem hf
      exact ⟨n, hm, ha, inService_iff.1 h⟩
  · rintro ⟨n, hm, ha, hs⟩
    rw [← ha, findNode_of_mem hn hm]
    exact inService_iff.2 hs

/-- The uid under which R99 lets the head transaction be sent is that of the record at its node's address (R47). -/
theorem nodeUidAt_of_sent {l : LineId} {u : State} {x : TxnRecord} {uid : Nat}
    (hn : ((u.line l).nodes.map (·.address)).Nodup)
    (h : x.node = 0 ∧ uid = nodeUidAt u l 0 ∨ ∃ n ∈ (u.line l).nodes, n.address = x.node ∧ n.uid = uid ∧
      (n.state = .online ∨ n.state = .suspect)) :
    mayBeSent u l x = true ∧ nodeUidAt u l x.node = uid := by
  rw [mayBeSent_iff hn]
  rcases h with ⟨h0, rfl⟩ | ⟨n, hm, ha, rfl, hs⟩
  · exact ⟨.inl h0, by rw [h0]⟩
  · exact ⟨.inr ⟨n, hm, ha, hs⟩, by rw [← ha, nodeUidAt_of_mem hn hm]⟩

theorem not_mayBeSent {l : LineId} {u : State} {x : TxnRecord} (hn : ((u.line l).nodes.map (·.address)).Nodup)
    (h0 : x.node ≠ 0)
    (h : ∀ n ∈ (u.line l).nodes, n.address = x.node → n.state = .pending ∨ n.state = .lost) :
    ¬ mayBeSent u l x = true := by
  rw [mayBeSent_iff hn]
  rintro (hz | ⟨n, hm, ha, hs⟩)
  · exact h0 hz
  · exact absurd (inService_iff.2 hs) (by rw [not_inService_iff.2 (h n hm ha)]; exact Bool.false_ne_true)

theorem popTxn_eq {l : LineId} {u : State} {reference : Word16} {queue : List Word16}
    (hq : (u.line l).txnQueue = reference :: queue) :
    popTxn l u = u.modifyLine l fun y => { y with txnQueue := queue } := by
  refine modifyLine_congr ?_
  rw [hq]
  rfl

theorem nodeUidAt_popTxn (l : LineId) (u : State) (address : Nat) :
    nodeUidAt (popTxn l u) l address = nodeUidAt u l address := by
  unfold nodeUidAt findNode popTxn
  rw [modifyLine_line_same]

/-- The state in which the exchange of a head transaction begins: the record is IN_FLIGHT and out of the queue (R99),
with the alternation memory and the allowance of R16. -/
def headInFlight (l : LineId) (x : TxnRecord) (queue : List Word16) (u : State) : State :=
  { u with txns := u.txns.map fun k =>
      if k = x then { k with state := .inFlight } else k }.modifyLine l fun y =>
    { y with
      txnQueue := queue
      sched := { y.sched with
        alternation := .transaction
        allowanceUsed := y.sched.allowanceUsed + if y.sched.pollList = [] then 0 else 1 } }

theorem headInFlight_nodes (l : LineId) (x : TxnRecord) (queue : List Word16) (u : State) :
    ((headInFlight l x queue u).line l).nodes = (u.line l).nodes := by cases l <;> rfl

theorem headInFlight_roundNumber (l : LineId) (x : TxnRecord) (queue : List Word16) (u : State) :
    ((headInFlight l x queue u).line l).sched.roundNumber = (u.line l).sched.roundNumber := by cases l <;> rfl

theorem sendTxn_begun {l : LineId} {u : State} {x : TxnRecord} {queue : List Word16}
    (hrefs : (u.txns.map (·.reference)).Nodup) (hx : x ∈ u.txns) (hq : (u.line l).txnQueue = x.reference :: queue) :
    ExchangeBegun l (txnOrder x (nodeUidAt u l x.node)) (headInFlight l x queue u) (sendTxn l x (popTxn l u)) := by
  have htxns : (popTxn l u).txns = u.txns := modifyLine_txns _ _ _
  rw [← htxns] at hrefs hx
  unfold sendTxn
  rw [nodeUidAt_popTxn, updateTxn_of_mem hrefs hx, htxns, popTxn_eq hq, modifySched_modifyLine]
  convert startExchange_begun l _ _ using 1
  have hallowance (c : Scheduler) : c.allowanceUsed + (if c.pollList = [] then 0 else 1) =
      if c.pollList = [] then c.allowanceUsed else c.allowanceUsed + 1 := by
    split <;> rfl
  unfold headInFlight
  simp only [hallowance]
  cases l <;> rfl

/-- An addressed WRITE reads its node record's write toggle copy, keeps it, and sends it (R26). -/
theorem exchangeBegun_write {l : LineId} {s t : State} {reference : Word16} {address uid channel start : Nat}
    {data : List Byte} {n : NodeRecord}
    (h : ExchangeBegun l (.write reference address uid channel data start) s t)
    (hnodes : ((s.line l).nodes.map (·.address)).Nodup) (hn : n ∈ (s.line l).nodes) (h0 : address ≠ 0)
    (ha : n.address = address) (hu : n.uid = uid) :
    (t.line l).engine.sentToggle = n.toggle ∧
    (t.line l).port.tx = .frame (orderFrame ⟨.write reference address uid channel data start,
      (s.line l).sched.roundNumber⟩ n.toggle) 0 false := by
  subst ha hu
  have hfound : findNodeRecord s l (orderAddress (.write reference n.address n.uid channel data start))
      (orderNodeUid (.write reference n.address n.uid channel data start)) = some n :=
    findNodeRecord_of_mem hnodes hn
  have htoggle : toggleFor s l (.write reference n.address n.uid channel data start) = n.toggle := by
    unfold toggleFor
    rw [hfound]
    simp [isAddressedWrite, h0]
  unfold ExchangeBegun at h
  have hengine := congrArg Engine.sentToggle h.engine
  have hport := congrArg LinePort.tx (h.frame _ rfl)
  unfold beginExchange at hengine
  rw [modifyLine_line_same] at hengine
  exact ⟨hengine.trans htoggle, by rw [hport, htoggle]⟩

/-- A head transaction whose node is out of service leaves the queue and completes UNAVAILABLE (R17). -/
theorem unavailable_popTxn {l : LineId} {u : State} {x : TxnRecord} {queue : List Word16}
    (hrefs : (u.txns.map (·.reference)).Nodup) (hx : x ∈ u.txns) (hq : (u.line l).txnQueue = x.reference :: queue) :
    completeTxn x.reference .unavailable none none none (popTxn l u) =
      { u with
          txns := u.txns.map fun k => if k = x then
            { k with
              state := .done, result := some .unavailable, lastVerdict := none, refuseReason := none
              reply := none } else k
          delivery := { u.delivery with
            queue := joined u.delivery.queue (.txnDone x.reference) } }.modifyLine l fun y =>
        { y with txnQueue := queue } := by
  have htxns : (popTxn l u).txns = u.txns := modifyLine_txns _ _ _
  rw [← htxns] at hrefs hx
  rw [completeTxn_of_mem hrefs hx, htxns, popTxn_eq hq]
  cases l <;> rfl

/-- With its head record gone from the queue the arbiter chooses as it would have chosen next (R17). -/
theorem choose_afterUnavailable {l : LineId} {u : State} {x : TxnRecord} {queue : List Word16}
    (hfirst : NoEarlierChoice (u.line l)) (hq : (u.line l).txnQueue = x.reference :: queue)
    (hc : choosesTxn (u.line l) = true) (hx : findTxn u x.reference = some x) (hs : ¬ mayBeSent u l x = true) :
    choose l u = choose l (completeTxn x.reference .unavailable none none none (popTxn l u)) := by
  have hline : (completeTxn x.reference .unavailable none none none (popTxn l u)).line l =
      { u.line l with txnQueue := queue } := by
    rw [completeTxn_line, popTxn_eq hq, modifyLine_line_same]
  have hafter : NoEarlierChoice { u.line l with txnQueue := queue } :=
    ⟨hfirst.resync, hfirst.broadcast, hfirst.probe⟩
  rw [choose_eq_chooseWork hfirst, chooseWork_txn _ hq hc hx, if_neg hs, choose_eq_chooseWork (by rwa [hline]),
    hline, hq]
  rfl

theorem exec_afterUnavailable {l : LineId} {u : State} {x : TxnRecord} {queue : List Word16}
    (hr : u.resetHeld = false) (hf : ArbiterFree (u.line l)) (hq : (u.line l).txnQueue = x.reference :: queue) :
    exec (.arbiterChoice l []) (completeTxn x.reference .unavailable none none none (popTxn l u)) =
      .next (outbound (choose l (completeTxn x.reference .unavailable none none none (popTxn l u)))) := by
  have hheld : (completeTxn x.reference .unavailable none none none (popTxn l u)).resetHeld = false := by
    unfold completeTxn
    rw [requestReport_eq, popTxn_eq hq]
    exact (modifyLine_resetHeld _ _ _).trans hr
  have hfree : ArbiterFree ((completeTxn x.reference .unavailable none none none (popTxn l u)).line l) := by
    rw [completeTxn_line, popTxn_eq hq, modifyLine_line_same]
    exact ⟨hf.running, hf.idle, hf.quiet, hf.transmitter, hf.noRoundStart⟩
  rw [exec_arbiterChoice_free hheld (by rwa [playPeriods_nil]), playPeriods_nil]

/-- Settles O35: a poll, a transaction or neither, by R16's table, once nothing earlier is to be sent. -/
theorem arbiterPollsOrSendsATransaction : Obligations.ArbiterPollsOrSendsATransaction := by
  unfold Obligations.ArbiterPollsOrSendsATransaction
  rintro l periods s u hr rfl hf hs hb hprobe
  have hfirst : NoEarlierChoice ((playPeriods l periods s).line l) := ⟨hs, hb, hprobe⟩
  have hexec := exec_arbiterChoice_free hr hf
  refine ⟨fun hq hp => ?_, fun r hrec n hn polls hids hnodes ha hp hq => ⟨_, hexec, ?_⟩,
    fun x hx queue hrefs hnodes hq hp => ⟨fun uid huid => ⟨_, hexec, ?_⟩, fun h0 hout => ?_⟩⟩
  · rw [hexec, choose_eq_chooseWork hfirst, chooseWork_nothing _ hq hp]
  · rw [choose_eq_chooseWork hfirst, chooseWork_poll _ hp (hq.imp_right fun h hc => ?_)]
    · exact choosePoll_begun hids hnodes hrec hn ha hp
    · rcases (choosesTxn_iff _).1 hc with hnil | ⟨hless, hpoll⟩
      · exact List.cons_ne_nil _ _ (hp.symm.trans hnil)
      · exact h.elim (Nat.not_le.2 hless) (absurd hpoll)
  · obtain ⟨hsent, rfl⟩ := nodeUidAt_of_sent hnodes huid
    rw [choose_eq_chooseWork hfirst,
      chooseWork_txn _ hq ((choosesTxn_iff _).2 hp) (findTxn_of_mem hrefs hx), if_pos hsent]
    have hbegun := sendTxn_begun hrefs hx hq
    refine ⟨hbegun, fun data hk n hn h0 ha hu => ?_⟩
    have horder : txnOrder x (nodeUidAt (playPeriods l periods s) l x.node) =
        .write x.reference x.node (nodeUidAt (playPeriods l periods s) l x.node) x.channel data (x.attempts + 1) := by
      unfold txnOrder
      rw [hk]
    rw [horder] at hbegun
    rw [← headInFlight_nodes l x queue] at hnodes hn
    rw [← headInFlight_roundNumber l x queue]
    exact exchangeBegun_write hbegun hnodes hn h0 ha hu
  · have hnext := choose_afterUnavailable hfirst hq ((choosesTxn_iff _).2 hp) (findTxn_of_mem hrefs hx)
      (not_mayBeSent hnodes h0 hout)
    have hheld : (playPeriods l periods s).resetHeld = false := (modifyLine_resetHeld _ _ _).trans hr
    rw [hexec, hnext, ← unavailable_popTxn hrefs hx hq, exec_afterUnavailable hheld hf hq]

end Sys2Proof.Machine
end

section
/-! SUPPORT. Every step keeps the lines, the form of a command's outcome, and the frames of the orders. -/

namespace Sys2Proof.Machine

open Sys2Proof

/-! ### The invariant of the lines -/

/-- A line as RESET_N rises, with its receiver in HUNT or QUALIFY by the level of the input. -/
theorem lineAtReset_sound (level : PinLevel) : LineSound { Line.initial with port := portAtReset level } := by
  refine .initial rfl rfl rfl rfl rfl (.quiet ExchangeState.noConfusion ?_ ?_) <;> cases level <;> rfl

theorem pinReset_sound (rate1 rate0 levelA levelB : PinLevel) (s : State) (k : LineId) :
    LineSound ((pinReset rate1 rate0 levelA levelB s).line k) := by
  cases k
  · exact lineAtReset_sound levelA
  · exact lineAtReset_sound levelB

/-- The invariant speaks of the lines and of the hold of RESET_N alone. -/
theorem LinesSound.of_lines {s t : State} (hr : t.resetHeld = s.resetHeld)
    (h : s.resetHeld = false → (∀ k, LineSound (s.line k)) → ∀ k, LineSound (t.line k)) (hs : LinesSound s) :
    LinesSound t := fun ht => h (hr.symm.trans ht) (hs (hr.symm.trans ht))

/-- Settles O59: the parts of a step, by `step_keeps`; an event touches its own line alone. -/
theorem stepsKeepTheLines : Obligations.StepsKeepTheLines := by
  unfold Obligations.StepsKeepTheLines
  intro s t hs ht
  refine step_keeps (P := LinesSound) hs ht ?dequeued ?tick ?reset ?held ?granted ?line ?host ?request
  case dequeued =>
    exact fun s rest => .of_lines rfl fun _ h k => by cases k <;> [exact h .a; exact h .b]
  case tick => exact fun s => .of_lines (clkTick_resetHeld s) fun _ => clkTick_sound
  case reset => exact fun _ _ _ _ _ _ _ => pinReset_sound _ _ _ _ _
  case held => exact fun s _ h => Bool.noConfusion h
  case granted =>
    intro s
    have hw := outbound_deliveryWork s
    exact .of_lines hw.resetHeld fun _ h k => hw.lines k ▸ h k
  case line =>
    intro l f s hf _
    have hw := lineEvent_work hf s
    exact .of_lines hw.resetHeld fun _ h => bothLines h hw (lineEvent_sound hf (h l))
  case host =>
    intro f s hf _
    have hw := hostEvent_work hf s
    exact .of_lines hw.resetHeld fun _ h k => hw.lines k ▸ h k
  case request =>
    exact fun accepts run s hr _ => .of_lines (takeRequest_resetHeld hr s) fun _ => takeRequest_sound hr

/-! ### What every command answers (R40, R145) -/

theorem perform_completes {f : State → State} {s : State} (hf : (f s).pending = s.pending) :
    ∃ t, perform f s = .next t ∧ t.pending = s.pending := by
  refine ⟨_, rfl, ?_⟩
  split
  · rfl
  · exact (outbound_deliveryWork _).pending.trans hf

theorem takeRequest_pending {accepts : Byte → Bool} {run : Service} (hr : RequestService run) (s : State) :
    (takeRequest accepts run s).pending = s.pending := by
  refine takeRequest_keeps (P := fun t => t.pending = s.pending) rfl (fun _ _ _ _ => rfl) ?_
    (fun _ _ ht _ => ht) (fun _ _ ht => ht)
  intro m rest _ _ _ _
  rw [(completeRequest_deliveryWork m _).pending, (service_work hr m.payload _).pending]
  rfl

theorem exec_completes (c : Instr) (s : State) : ∃ t, exec c s = .next t ∧ t.pending = s.pending := by
  rcases exec_cases c s with ⟨_, _, _, _, he⟩ | he | ⟨l, f, hf, he⟩ | ⟨f, hf, he⟩ | ⟨accepts, run, hr, he⟩ <;> rw [he]
  · exact ⟨_, rfl, rfl⟩
  · exact ⟨_, rfl, rfl⟩
  · exact perform_completes (lineEvent_work hf s).pending
  · exact perform_completes (hostEvent_work hf s).pending
  · exact perform_completes (takeRequest_pending hr s)

/-- The processor waits without a message, with too many responses, and at a message that is not the command's
(R145, log 3). -/
theorem takeRequest_waits {accepts : Byte → Bool} {run : Service} {s : State}
    (h : s.link.inbox = [] ∨ 4 < s.link.responses.length ∨
      ∃ m rest, s.link.inbox = m :: rest ∧ accepts m.kind = false) : takeRequest accepts run s = s := by
  unfold takeRequest
  split
  · rfl
  · rename_i m rest hm
    refine if_neg ?_
    rintro ⟨ha, hroom⟩
    rcases h with h | h | ⟨m', rest', h, hf⟩
    · exact absurd (hm.symm.trans h) (List.cons_ne_nil _ _)
    · exact Nat.not_lt.2 hroom h
    · obtain ⟨rfl, -⟩ := List.cons.inj (hm.symm.trans h)
      exact Bool.noConfusion (ha.symm.trans hf)

/-- A request's command takes the request of its kind. -/
theorem exec_of_requestKind {c : Instr} {k : Byte} (h : requestKindOf c = some k) :
    ∃ run, ∀ s, exec c s = perform (takeKind k run) s := by
  cases c <;> first
    | exact absurd h (Option.some_ne_none k).symm
    | (obtain rfl := Option.some.inj h; exact ⟨_, fun _ => rfl⟩)

/-- Settles O2: the outcome by the kinds of command, and the processor's wait. -/
theorem everyCommandCompletes : Obligations.EveryCommandCompletes := by
  unfold Obligations.EveryCommandCompletes
  refine ⟨exec_completes, fun c k s hr hk h => ?_, fun s hr h => ?_⟩
  · obtain ⟨run, he⟩ := exec_of_requestKind hk
    rw [he, perform_running hr]
    unfold takeKind
    rw [takeRequest_waits]
    exact h.imp_right (.imp_right fun ⟨m, rest, hm, hne⟩ => ⟨m, rest, hm, by simpa using hne⟩)
  · refine (perform_running hr).trans ?_
    rw [takeRequest_waits]
    exact h.imp_right (.imp_right fun ⟨m, rest, hm, hin⟩ => ⟨m, rest, hm, by simpa using hin⟩)

/-! ### The frames sent (R19, R20) -/

/-- The mark stands on the first character, which every body has. -/
theorem frameCharacters_eq_mapIdx {body : List Byte} (h : body ≠ []) :
    frameCharacters body = (body ++ be16 (crc16 body)).mapIdx fun i x => BitVec.ofBool (i == 0) ++ x := by
  unfold frameCharacters
  cases hb : body ++ be16 (crc16 body) with
  | nil => exact absurd (List.append_eq_nil_iff.1 hb).1 h
  | cons header rest =>
    rw [List.mapIdx_cons]
    exact congrArg₂ List.cons rfl (List.ext_getElem (by simp) (by simp [lineCharacter]))

/-- Settles O36: each order's body is the one R20 gives, and a body becomes characters alike. -/
theorem framesCarryTheirOrders : Obligations.FramesCarryTheirOrders := by
  unfold Obligations.FramesCarryTheirOrders
  intro round toggle address channel length uid id subUid start reference data frame hframe
  have hchars (type a c : Nat) (t : Bool) (payload : List Byte) :
      frameCharacters (frameBody type a c t payload) = frame (frameBody type a c t payload) :=
    (frameCharacters_eq_mapIdx (List.cons_ne_nil _ _)).trans (hframe _).symm
  have hpoll : frameBody 0 address channel false [byteOf length] = [byteOf address, byteOf channel, 1, byteOf length] := by
    simp [frameBody, byteOf]
  refine ⟨?_, ?_, ?_, ?_, ?_⟩ <;> unfold orderFrame <;> dsimp only <;> rw [hchars]
  · rw [hpoll]
  · rw [hpoll]
  · simp [frameBody]
  · simp [frameBody, byteOf]
  · simp [frameBody, byteOf, be16]

end Sys2Proof.Machine
end

section
/-! SUPPORT. The verdict of a poll with its Subscription Table (R68 to R75), record by record. -/

namespace Sys2Proof.Machine

open Sys2Proof

/-! ### One record of the Subscription Table -/

/-- The record an order names is found while it stands in the table (R68). -/
theorem findSubRecord_of_mem {s : State} (hn : (s.subs.map (·.id)).Nodup) {r : SubRecord} (hr : r ∈ s.subs) :
    findSubRecord s r.id r.uid = some r := by
  cases hf : findSubRecord s r.id r.uid with
  | none => simpa using List.find?_eq_none.1 hf r hr
  | some q =>
    obtain ⟨hq, hi, -⟩ := findSubRecord_mem hf
    rw [List.inj_on_of_nodup_map hn hq hr hi]

/-- An update leaves a record under its id and uid. -/
def KeepsKey (f : SubRecord → SubRecord) : Prop := ∀ r, (f r).id = r.id ∧ (f r).uid = r.uid

theorem updateSub_updateSub {id uid : Nat} {f g : SubRecord → SubRecord} (hg : KeepsKey g) (s : State) :
    updateSub id uid f (updateSub id uid g s) = updateSub id uid (fun r => f (g r)) s := by
  simp only [updateSub_eq, List.map_map]
  congr 1
  refine List.map_congr_left fun r _ => ?_
  by_cases h : r.id = id ∧ r.uid = uid
  · simp [h, hg r]
  · simp [h]

theorem updateSub_ids {id uid : Nat} {f : SubRecord → SubRecord} (hf : KeepsKey f) (s : State) :
    (updateSub id uid f s).subs.map (·.id) = s.subs.map (·.id) :=
  replaceSub_ids s.subs id uid f fun r => (hf r).1

theorem mem_updateSub {s : State} {r : SubRecord} (hr : r ∈ s.subs) (f : SubRecord → SubRecord) :
    f r ∈ (updateSub r.id r.uid f s).subs :=
  List.mem_map.2 ⟨r, hr, if_pos ⟨rfl, rfl⟩⟩

/-- Of the free blocks only the openness and the queues of the records speak (R79). -/
theorem spareBlocks_updateSub {id uid : Nat} {f : SubRecord → SubRecord}
    (hf : ∀ r, (f r).state = r.state ∧ (f r).queue = r.queue) (s : State) :
    spareBlocks (updateSub id uid f s) = spareBlocks s := by
  unfold spareBlocks emptyOpen
  rw [updateSub_eq]
  dsimp only
  rw [List.filter_map, List.length_map]
  congr 3
  funext r
  simp only [Function.comp]
  split
  · unfold SubRecord.isOpen
    rw [(hf r).1, (hf r).2]
  · rfl

/-- The report queue as it stands, replaced. -/
def withReports (queue : List ReportRequest) (s : State) : State :=
  { s with delivery := { s.delivery with queue := queue } }

/-- SAMPLE_READY is requested when a notice is raised (R87). -/
def readyQueue (r : SubRecord) (s : State) : List ReportRequest :=
  if r.notice = .none then joined s.delivery.queue (.sampleReady r.id r.uid) else s.delivery.queue

theorem raiseNotice_of_mem {s : State} (hn : (s.subs.map (·.id)).Nodup) {r : SubRecord} (hr : r ∈ s.subs) :
    raiseNotice r.id r.uid s = withReports (readyQueue r s) (updateSub r.id r.uid noticeRaised s) := by
  have hmap {f : SubRecord → SubRecord} (hf : noticeRaised r = f r) :
      (s.subs.map fun q => if q = r then noticeRaised q else q) = s.subs.map fun q => if q = r then f q else q := by
    refine List.map_congr_left fun q _ => ?_
    by_cases h : q = r
    · rw [h, if_pos rfl, if_pos rfl, hf]
    · rw [if_neg h, if_neg h]
  unfold raiseNotice readyQueue
  rw [findSubRecord_of_mem hn hr, updateSub_of_mem hn hr noticeRaised]
  dsimp only
  by_cases hnone : r.notice = .none
  · rw [if_pos hnone, if_pos hnone, requestReport_eq, updateSub_of_mem hn hr,
      hmap (f := fun r => { r with notice := .queued }) (by simp [noticeRaised, hnone])]
    rfl
  · rw [if_neg hnone, if_neg hnone, hmap (f := id) (by simp [noticeRaised, hnone])]
    simp [withReports]

/-- The notice of a record just updated. -/
theorem raiseNotice_updateSub {s : State} (hn : (s.subs.map (·.id)).Nodup) {r : SubRecord} (hr : r ∈ s.subs)
    {f : SubRecord → SubRecord} (hf : KeepsKey f) (hnotice : (f r).notice = r.notice) :
    raiseNotice r.id r.uid (updateSub r.id r.uid f s) =
      withReports (readyQueue r s) (updateSub r.id r.uid (fun q => noticeRaised (f q)) s) := by
  have hraise := raiseNotice_of_mem (s := updateSub r.id r.uid f s) (r := f r) (by rwa [updateSub_ids hf])
    (mem_updateSub hr f)
  rw [(hf r).1, (hf r).2, updateSub_updateSub hf] at hraise
  rw [hraise]
  congr 1
  unfold readyQueue
  rw [(hf r).1, (hf r).2, hnotice]
  rfl

/-! ### The offer of a sample (R81 to R84, R87) -/

/-- A record whose queue a numbered sample has joined. -/
def sampleJoined (queue : List Sample) (r : SubRecord) : SubRecord :=
  { r with queue := queue, nextSequence := r.nextSequence + 1 }

/-- A record in which a sample has taken the place of another. -/
def sampleReplaced (queue : List Sample) (r : SubRecord) : SubRecord :=
  { sampleJoined queue r with dropped := satInc r.dropped }

/-- A sample is stored while there is room (R82). -/
theorem offerSample_stores {s : State} (hn : (s.subs.map (·.id)).Nodup) {r : SubRecord} (hr : r ∈ s.subs)
    (x : Sample) (h : r.queue = [] ∨ r.queue.length < r.depth ∧ 1 ≤ spareBlocks s) :
    offerSample r.id r.uid x s = withReports (readyQueue r s) (updateSub r.id r.uid
      (fun q => noticeRaised (sampleJoined (q.queue ++ [{ x with sequence := r.nextSequence }]) q))
      { s with freeBlocks := s.freeBlocks - 1 }) := by
  have hstore : offerOutcome r s = .store := by
    unfold offerOutcome
    rcases h with h | h
    · exact if_pos h
    · rw [if_pos h, ite_self]
  unfold offerSample
  rw [findSubRecord_of_mem hn hr]
  dsimp only
  rw [hstore]
  exact raiseNotice_updateSub (s := { s with freeBlocks := s.freeBlocks - 1 }) hn hr
    (f := fun q => sampleJoined (q.queue ++ [{ x with sequence := r.nextSequence }]) q) (fun _ => ⟨rfl, rfl⟩) rfl

/-- Without room KEEP_NEWEST gives the oldest sample's block to the new one (R83). -/
theorem offerSample_replaces {s : State} (hn : (s.subs.map (·.id)).Nodup) {r : SubRecord} (hr : r ∈ s.subs)
    (x : Sample) (hq : r.queue ≠ []) (h : r.depth ≤ r.queue.length ∨ spareBlocks s = 0)
    (hp : r.policy = .keepNewest) :
    offerSample r.id r.uid x s = withReports (readyQueue r s) (updateSub r.id r.uid
      (fun q => noticeRaised (sampleReplaced (q.queue.tail ++ [{ x with sequence := r.nextSequence }]) q)) s) := by
  have hreplace : offerOutcome r s = .replaceOldest := by
    unfold offerOutcome
    rw [if_neg hq, if_neg (by omega), hp]
  unfold offerSample
  rw [findSubRecord_of_mem hn hr]
  dsimp only
  rw [hreplace]
  exact raiseNotice_updateSub hn hr
    (f := fun q => sampleReplaced (q.queue.tail ++ [{ x with sequence := r.nextSequence }]) q)
    (fun _ => ⟨rfl, rfl⟩) rfl

/-! ### The verdict of a poll (R68) -/

/-- Whatever the verdict, the poll is no longer in flight. -/
def pollOver (r : SubRecord) : SubRecord := { r with pollInFlight := false }

theorem pollOver_key : KeepsKey pollOver := fun _ => ⟨rfl, rfl⟩

/-- A CLOSING record is freed (R75). -/
theorem takePollVerdict_closing {s : State} (hn : (s.subs.map (·.id)).Nodup) {r : SubRecord} (hr : r ∈ s.subs)
    (hc : r.state = .closing) (v : VerdictRecord) :
    takePollVerdict r.id r.uid v s = { s with subs := s.subs.filter fun q => q ≠ r } := by
  unfold takePollVerdict
  rw [findSubRecord_of_mem hn hr]
  dsimp only
  rw [hc]
  dsimp only
  rw [freeSub_eq, updateSub_of_mem hn hr]
  dsimp only
  congr 1
  rw [List.filter_map]
  have hsame : ∀ q ∈ s.subs, (q.id = r.id ∧ q.uid = r.uid) ↔ q = r := fun q hq =>
    ⟨fun h => List.inj_on_of_nodup_map hn hq hr h.1, fun h => h ▸ ⟨rfl, rfl⟩⟩
  have hfilter : s.subs.filter ((fun q : SubRecord => decide ¬(q.id = r.id ∧ q.uid = r.uid)) ∘
      fun q => if q = r then { q with pollInFlight := false } else q) = s.subs.filter fun q => q ≠ r := by
    refine List.filter_congr fun q hq => ?_
    by_cases h : q = r
    · simp [h]
    · rw [Function.comp, if_neg h, decide_eq_true (mt (hsame q hq).1 h), decide_eq_true h]
  rw [hfilter]
  refine (List.map_congr_left fun q hq => ?_).trans (List.map_id _)
  rw [if_neg (by simpa using (List.mem_filter.1 hq).2)]
  rfl

/-- An ACTIVE record acts by the verdict. -/
theorem takePollVerdict_active {s : State} (hn : (s.subs.map (·.id)).Nodup) {r : SubRecord} (hr : r ∈ s.subs)
    (ha : r.state = .active) (v : VerdictRecord) :
    takePollVerdict r.id r.uid v s = takeActiveVerdict r v (updateSub r.id r.uid pollOver s) := by
  unfold takePollVerdict
  rw [findSubRecord_of_mem hn hr]
  dsimp only
  rw [ha]
  rfl

/-- A failure and a contention do nothing else (R72). -/
theorem takeActiveVerdict_failure {v : VerdictRecord}
    (h : isFailure v.result.verdict = true ∨ v.result.verdict = .contention) (r : SubRecord) (s : State) :
    takeActiveVerdict r v s = s := by
  unfold takeActiveVerdict
  split
  · rename_i hv _
    simp [hv, isFailure] at h
  · rename_i hv _
    simp [hv, isFailure] at h
  · rfl

theorem takeActiveVerdict_refused {v : VerdictRecord} {reason : RefuseReason} (hv : v.result.verdict = .refused)
    (hr : v.result.reason = some reason) (r : SubRecord) (s : State) :
    takeActiveVerdict r v s = takeRefusal r reason s := by
  unfold takeActiveVerdict
  rw [hv, hr]

theorem takeActiveVerdict_ok {v : VerdictRecord} {reply : Reply} (hv : v.result.verdict = .ok)
    (hr : v.result.reply = some reply) (r : SubRecord) (s : State) :
    takeActiveVerdict r v s = takeOkReply r v.order.round v.result.noisy reply s := by
  unfold takeActiveVerdict
  rw [hv, hr]

theorem passesFilter_iff (r : SubRecord) (payload : List Byte) : passesFilter r payload = true ↔
    r.kind = .every ∨ r.resumed = true ∨ r.referencePayload ≠ some payload := by
  unfold passesFilter
  cases r.kind <;> simp

/-- What an offered reply leaves in its record, but for the queue (R69, R70). -/
def replyPassed (payload : List Byte) (r : SubRecord) : SubRecord :=
  { r with
    resumed := false
    referencePayload := match r.kind with
      | .every => r.referencePayload
      | .change => some payload }

theorem replyPassed_key (payload : List Byte) : KeepsKey (replyPassed payload) := fun _ => ⟨rfl, rfl⟩

/-- The sample of a reply (R81). -/
def replySample (r : SubRecord) (round : Word16) (noisy : Bool) (reply : Reply) : Sample :=
  { subId := r.id, sequence := r.nextSequence, round := round, captureTime := reply.captureTime
    resumed := r.resumed, noisy := noisy, payload := reply.payload }

theorem takeOkReply_passes {r : SubRecord} {reply : Reply} (h : passesFilter r reply.payload = true)
    (round : Word16) (noisy : Bool) (s : State) :
    takeOkReply r round noisy reply s =
      offerSample r.id r.uid (replySample r round noisy reply) (updateSub r.id r.uid (replyPassed reply.payload) s) :=
  if_pos h

theorem takeOkReply_filtered {r : SubRecord} {reply : Reply} (h : ¬ passesFilter r reply.payload = true)
    (round : Word16) (noisy : Bool) (s : State) : takeOkReply r round noisy reply s = s := if_neg h

/-- The record of a poll answered by a reply that passes, before the sample joins its queue. -/
def answeredSub (payload : List Byte) (r : SubRecord) : SubRecord := replyPassed payload (pollOver r)

theorem answeredSub_key (payload : List Byte) : KeepsKey (answeredSub payload) := fun _ => ⟨rfl, rfl⟩

theorem takePollVerdict_ok {s : State} (hn : (s.subs.map (·.id)).Nodup) {r : SubRecord} (hr : r ∈ s.subs)
    (ha : r.state = .active) {v : VerdictRecord} {reply : Reply} (hv : v.result.verdict = .ok)
    (hreply : v.result.reply = some reply) (hp : passesFilter r reply.payload = true) :
    takePollVerdict r.id r.uid v s =
      offerSample r.id r.uid (replySample r v.order.round v.result.noisy reply)
        (updateSub r.id r.uid (answeredSub reply.payload) s) := by
  rw [takePollVerdict_active hn hr ha, takeActiveVerdict_ok hv hreply, takeOkReply_passes hp,
    updateSub_updateSub pollOver_key]
  rfl

/-- A good reply is stored while there is room (R69, R82). -/
theorem takePollVerdict_stores {s : State} (hn : (s.subs.map (·.id)).Nodup) {r : SubRecord} (hr : r ∈ s.subs)
    (ha : r.state = .active) {v : VerdictRecord} {reply : Reply} (hv : v.result.verdict = .ok)
    (hreply : v.result.reply = some reply) (hp : passesFilter r reply.payload = true)
    (h : r.queue = [] ∨ r.queue.length < r.depth ∧ 1 ≤ spareBlocks s) :
    takePollVerdict r.id r.uid v s = withReports (readyQueue r s) { s with
      freeBlocks := s.freeBlocks - 1
      subs := s.subs.map fun q => if q = r then
        noticeRaised (sampleJoined (q.queue ++ [replySample r v.order.round v.result.noisy reply])
          (answeredSub reply.payload q)) else q } := by
  have hroom : (answeredSub reply.payload r).queue = [] ∨
      (answeredSub reply.payload r).queue.length < (answeredSub reply.payload r).depth ∧
        1 ≤ spareBlocks (updateSub r.id r.uid (answeredSub reply.payload) s) := by
    rwa [spareBlocks_updateSub (f := answeredSub reply.payload) fun _ => ⟨rfl, rfl⟩]
  have hoffer := offerSample_stores (s := updateSub r.id r.uid (answeredSub reply.payload) s)
    (by rwa [updateSub_ids (answeredSub_key _)]) (mem_updateSub hr _)
    (replySample r v.order.round v.result.noisy reply) hroom
  rw [takePollVerdict_ok hn hr ha hv hreply hp]
  refine hoffer.trans (congrArg (withReports (readyQueue r s)) ?_)
  exact (updateSub_updateSub (answeredSub_key _) { s with freeBlocks := s.freeBlocks - 1 }).trans
    (updateSub_of_mem (s := { s with freeBlocks := s.freeBlocks - 1 }) hn hr _)

/-- Without room a good reply takes the place of the oldest sample under KEEP_NEWEST (R83). -/
theorem takePollVerdict_replaces {s : State} (hn : (s.subs.map (·.id)).Nodup) {r : SubRecord} (hr : r ∈ s.subs)
    (ha : r.state = .active) {v : VerdictRecord} {reply : Reply} (hv : v.result.verdict = .ok)
    (hreply : v.result.reply = some reply) (hp : passesFilter r reply.payload = true)
    (hq : r.queue ≠ []) (h : r.depth ≤ r.queue.length ∨ spareBlocks s = 0) (hpolicy : r.policy = .keepNewest) :
    takePollVerdict r.id r.uid v s = withReports (readyQueue r s) { s with
      subs := s.subs.map fun q => if q = r then
        noticeRaised (sampleReplaced (q.queue.tail ++ [replySample r v.order.round v.result.noisy reply])
          (answeredSub reply.payload q)) else q } := by
  have hfull : (answeredSub reply.payload r).depth ≤ (answeredSub reply.payload r).queue.length ∨
        spareBlocks (updateSub r.id r.uid (answeredSub reply.payload) s) = 0 := by
    rwa [spareBlocks_updateSub (f := answeredSub reply.payload) fun _ => ⟨rfl, rfl⟩]
  have hoffer := offerSample_replaces (s := updateSub r.id r.uid (answeredSub reply.payload) s)
    (by rwa [updateSub_ids (answeredSub_key _)]) (mem_updateSub hr _)
    (replySample r v.order.round v.result.noisy reply) hq hfull hpolicy
  rw [takePollVerdict_ok hn hr ha hv hreply hp]
  refine hoffer.trans (congrArg (withReports (readyQueue r s)) ?_)
  exact (updateSub_updateSub (answeredSub_key _) s).trans (updateSub_of_mem hn hr _)

/-- A reply the CHANGE filter stops, a failure and a contention end the poll and do nothing else (R70, R72). -/
theorem takePollVerdict_over {s : State} (hn : (s.subs.map (·.id)).Nodup) {r : SubRecord} (hr : r ∈ s.subs)
    (ha : r.state = .active) {v : VerdictRecord}
    (h : isFailure v.result.verdict = true ∨ v.result.verdict = .contention ∨
      ∃ reply, v.result.verdict = .ok ∧ v.result.reply = some reply ∧ ¬ passesFilter r reply.payload = true) :
    takePollVerdict r.id r.uid v s = { s with subs := s.subs.map fun q => if q = r then pollOver q else q } := by
  rw [takePollVerdict_active hn hr ha, ← updateSub_of_mem hn hr]
  rcases h with h | h | ⟨reply, hv, hreply, hp⟩
  · exact takeActiveVerdict_failure (.inl h) _ _
  · exact takeActiveVerdict_failure (.inr h) _ _
  · rw [takeActiveVerdict_ok hv hreply, takeOkReply_filtered hp]

/-- A refusal that faults the subscription (R71). -/
theorem takePollVerdict_faults {s : State} (hn : (s.subs.map (·.id)).Nodup) {r : SubRecord} (hr : r ∈ s.subs)
    (ha : r.state = .active) {v : VerdictRecord} {reason : RefuseReason} {fault : FaultReason}
    (hv : v.result.verdict = .refused) (hreason : v.result.reason = some reason)
    (h : reason = .noChannel ∧ fault = .noChannel ∨ reason = .badLength ∧ fault = .badLength) :
    takePollVerdict r.id r.uid v s = { s with
      subs := s.subs.map fun q => if q = r then
        { pollOver q with state := .faulted, faultReason := some fault, referencePayload := none } else q
      delivery := { s.delivery with queue := joined s.delivery.queue (.subState r.id r.uid) } } := by
  rw [takePollVerdict_active hn hr ha, takeActiveVerdict_refused hv hreason]
  have hfault : takeRefusal r reason (updateSub r.id r.uid pollOver s) =
      enterFaulted r.id r.uid fault (updateSub r.id r.uid pollOver s) := by
    rcases h with ⟨rfl, rfl⟩ | ⟨rfl, rfl⟩ <;> rfl
  rw [hfault]
  unfold enterFaulted
  rw [requestReport_eq, updateSub_updateSub pollOver_key, updateSub_of_mem hn hr]

/-- A refusal that is counted (R71). -/
theorem takePollVerdict_refusal {s : State} (hn : (s.subs.map (·.id)).Nodup) {r : SubRecord} (hr : r ∈ s.subs)
    (ha : r.state = .active) {v : VerdictRecord} {reason : RefuseReason}
    (hv : v.result.verdict = .refused) (hreason : v.result.reason = some reason)
    (h : reason = .notReady ∨ reason = .denied) :
    takePollVerdict r.id r.uid v s = { s with
      subs := s.subs.map fun q => if q = r then { pollOver q with refusals := satInc q.refusals } else q } := by
  rw [takePollVerdict_active hn hr ha, takeActiveVerdict_refused hv hreason]
  have hcounted : takeRefusal r reason (updateSub r.id r.uid pollOver s) =
      updateSub r.id r.uid (fun r => { r with refusals := satInc r.refusals }) (updateSub r.id r.uid pollOver s) := by
    rcases h with rfl | rfl <;> rfl
  rw [hcounted, updateSub_updateSub pollOver_key, updateSub_of_mem hn hr]
  rfl

end Sys2Proof.Machine
end

section
/-! SUPPORT. The verdict with the Node Table (R47 to R54): the record the order was taken for, and its subscriptions. -/

namespace Sys2Proof.Machine

open Sys2Proof

/-! ### One record of the Node Table -/

theorem updateNode_of_mem {l : LineId} {s : State} (hn : ((s.line l).nodes.map (·.address)).Nodup) {n : NodeRecord}
    (h : n ∈ (s.line l).nodes) (f : NodeRecord → NodeRecord) :
    updateNode l n.address n.uid f s =
      s.modifyLine l fun x => { x with nodes := x.nodes.map fun k => if k = n then f k else k } := by
  refine modifyLine_congr (congrArg (fun nodes => { s.line l with nodes := nodes }) ?_)
  refine List.map_congr_left fun k hk => if_congr ⟨fun e => ?_, ?_⟩ rfl rfl
  · exact List.inj_on_of_nodup_map hn hk h e.1
  · rintro rfl
    exact ⟨rfl, rfl⟩

/-- An update leaves a record under its address and uid. -/
def KeepsNode (f : NodeRecord → NodeRecord) : Prop := ∀ n, (f n).address = n.address ∧ (f n).uid = n.uid

theorem updateNode_updateNode {address uid : Nat} {f g : NodeRecord → NodeRecord} (hg : KeepsNode g) (l : LineId)
    (s : State) :
    updateNode l address uid f (updateNode l address uid g s) = updateNode l address uid (fun n => f (g n)) s := by
  unfold updateNode
  rw [modifyLine_modifyLine]
  refine modifyLine_congr (congrArg (fun nodes => { s.line l with nodes := nodes }) ?_)
  rw [List.map_map]
  refine List.map_congr_left fun k _ => ?_
  by_cases h : k.address = address ∧ k.uid = uid
  · simp [h, hg k]
  · simp [h]

theorem updateNode_subs (l : LineId) (address uid : Nat) (f : NodeRecord → NodeRecord) (s : State) :
    (updateNode l address uid f s).subs = s.subs := modifyLine_subs _ _ _

theorem updateNode_delivery (l : LineId) (address uid : Nat) (f : NodeRecord → NodeRecord) (s : State) :
    (updateNode l address uid f s).delivery = s.delivery := modifyLine_delivery _ _ _

/-- A request is a new report queue. -/
theorem requestReport_withReports (r : ReportRequest) (s : State) :
    requestReport r s = withReports (joined s.delivery.queue r) s := requestReport_eq r s

/-- A report queue left as it is. -/
theorem withReports_same (s : State) : withReports s.delivery.queue s = s := rfl

/-! ### The subscriptions of a node that leaves service (R67) -/

/-- An ACTIVE subscription of the node at this address. -/
abbrev ActiveAt (l : LineId) (address : Nat) (r : SubRecord) : Prop :=
  r.line = l ∧ r.node = address ∧ r.state = .active

/-- A subscription that has gone to WAITING (R67). -/
def subWaiting (r : SubRecord) : SubRecord := { r with state := .waiting, referencePayload := none }

theorem activeAt_iff (l : LineId) (address : Nat) (r : SubRecord) :
    (r.line == l && r.node == address && r.state == .active) = true ↔ ActiveAt l address r := by
  simp [ActiveAt, and_assoc]

theorem suspendSubs_eq (l : LineId) (address : Nat) (s : State) :
    suspendSubs l address s = { s.modifyLine l (fun x => { x with
        sched := { x.sched with pollList := x.sched.pollList.filter fun id =>
          ∀ q ∈ s.subs, q.id = id → ¬ ActiveAt l address q } }) with
      subs := s.subs.map fun q => if ActiveAt l address q then subWaiting q else q } := by
  have hsubs : (s.subs.map fun r =>
      if (r.line == l && r.node == address && r.state == .active) = true then
        { r with state := .waiting, referencePayload := none } else r) =
      s.subs.map fun q => if ActiveAt l address q then subWaiting q else q :=
    List.map_congr_left fun r _ => if_congr (activeAt_iff l address r) rfl rfl
  have hpolls (polls : List Nat) : (polls.filter fun id =>
        decide (id ∉ (s.subs.filter fun r => r.line == l && r.node == address && r.state == .active).map (·.id))) =
      polls.filter fun id => decide (∀ q ∈ s.subs, q.id = id → ¬ ActiveAt l address q) := by
    refine List.filter_congr fun id _ => ?_
    rw [decide_eq_decide]
    simp only [List.mem_map, List.mem_filter, activeAt_iff]
    grind
  unfold suspendSubs prunePolls
  dsimp only
  rw [hsubs, modifySched_modifyLine]
  simp only [hpolls]
  cases l <;> rfl

/-! ### What the Node Table does on a verdict (R47 to R54) -/

/-- The record has the verdict, its round and the counters (R39, R47). -/
def verdictNoted (v : VerdictRecord) (n : NodeRecord) : NodeRecord :=
  { n with
    lastVerdict := some v.result.verdict, lastRound := some v.order.round, counters := countNode v n.counters }

theorem verdictNoted_key (v : VerdictRecord) : KeepsNode (verdictNoted v) := fun _ => ⟨rfl, rfl⟩

theorem countNode_failure {v : VerdictRecord} (hv : isFailure v.result.verdict = true) (c : NodeCounters) :
    countNode v c = { c with failed := satInc c.failed, retries := satAdd c.retries v.retries } := by
  revert hv
  unfold countNode
  cases v.result.verdict <;> intro hv <;> first | rfl | exact absurd hv Bool.false_ne_true

/-- A CONTENTION moves no counter (R52, log 14). -/
theorem countNode_contention {v : VerdictRecord} (hv : v.result.verdict = .contention) (c : NodeCounters) :
    countNode v c = c := by
  unfold countNode
  rw [hv]

/-- The order was taken for this record of the line's Node Table (R47). -/
structure TakenFor (l : LineId) (v : VerdictRecord) (n : NodeRecord) (s : State) : Prop where
  mem : n ∈ (s.line l).nodes
  addresses : ((s.line l).nodes.map (·.address)).Nodup
  addressed : isAddressed v.order.kind = true
  address : orderAddress v.order.kind = n.address
  uid : orderNodeUid v.order.kind = n.uid

section
variable {l : LineId} {v : VerdictRecord} {n : NodeRecord} {s : State}

theorem takeNodeVerdict_takenFor (h : TakenFor l v n s) :
    takeNodeVerdict l v s = actOnVerdict l n v (updateNode l n.address n.uid (verdictNoted v) s) := by
  unfold takeNodeVerdict
  rw [if_pos h.addressed, h.address, h.uid, findNodeRecord_of_mem h.addresses h.mem]
  rfl

/-- A CONTENTION asks nothing more of the Node Table (R52). -/
theorem actOnVerdict_contention (hv : v.result.verdict = .contention) (s : State) : actOnVerdict l n v s = s := by
  unfold actOnVerdict
  rw [hv]
  cases v.order.kind <;> simp

/-- Nor does a probe that has failed (R49). -/
theorem actOnVerdict_probeFailed {address uid : Nat} (hk : v.order.kind = .probe address uid)
    (hv : isFailure v.result.verdict = true) (s : State) : actOnVerdict l n v s = s := by
  unfold actOnVerdict
  rw [hk]
  cases hc : v.result.verdict <;> simp_all [isFailure]

theorem actOnVerdict_answered (hk : mayRetry v.order.kind = true) (hs : n.state = .online ∨ n.state = .suspect)
    (hv : v.result.verdict = .ok ∨ v.result.verdict = .refused) (s : State) :
    actOnVerdict l n v s =
      nodeAnswered l n (isAddressedWrite v.order.kind && decide (v.result.verdict = .ok)) s := by
  unfold actOnVerdict
  rw [inService_iff.2 hs]
  cases hkind : v.order.kind <;> simp only [hkind, mayRetry, Bool.false_eq_true] at hk <;>
    rcases hv with hv | hv <;> simp [hv]

theorem actOnVerdict_failed (hk : mayRetry v.order.kind = true) (hs : n.state = .online ∨ n.state = .suspect)
    (hv : isFailure v.result.verdict = true) (s : State) : actOnVerdict l n v s = nodeFailed l n s := by
  unfold actOnVerdict
  rw [inService_iff.2 hs]
  cases hkind : v.order.kind <;> simp only [hkind, mayRetry, Bool.false_eq_true] at hk <;>
    cases hc : v.result.verdict <;> simp_all [isFailure]

/-- CONTENTION changes the last verdict and round alone (R52), and a failed probe these and the counters (R49). -/
theorem takeNodeVerdict_noted (h : TakenFor l v n s)
    (hv : v.result.verdict = .contention ∨
      (∃ address uid, v.order.kind = .probe address uid) ∧ isFailure v.result.verdict = true) :
    takeNodeVerdict l v s = s.modifyLine l fun x => { x with
      nodes := x.nodes.map fun k => if k = n then verdictNoted v k else k } := by
  rw [takeNodeVerdict_takenFor h, ← updateNode_of_mem h.addresses h.mem]
  rcases hv with hv | ⟨⟨address, uid, hk⟩, hv⟩
  · exact actOnVerdict_contention hv _
  · exact actOnVerdict_probeFailed hk hv _

/-- NODE_STATE is requested of a record found in this state (R50, R51). -/
def nodeQueue (l : LineId) (n : NodeRecord) (state : NodeState) (s : State) : List ReportRequest :=
  if n.state = state then joined s.delivery.queue (.nodeState l n.address n.uid) else s.delivery.queue

/-- The update of a record, with a NODE_STATE request if it stood in this state. -/
theorem reportIf_eq (state : NodeState) (f : NodeRecord → NodeRecord) (s : State) :
    (if n.state = state then requestReport (.nodeState l n.address n.uid) (updateNode l n.address n.uid f s)
      else updateNode l n.address n.uid f s) =
      withReports (nodeQueue l n state s) (updateNode l n.address n.uid f s) := by
  unfold nodeQueue
  split
  · rw [requestReport_withReports, updateNode_delivery]
  · rw [← updateNode_delivery l n.address n.uid f s, withReports_same]

/-- A record whose node has answered (R50, R54). -/
def answeredNode (flip : Bool) (n : NodeRecord) : NodeRecord :=
  { n with state := .online, failures := 0, toggle := if flip then !n.toggle else n.toggle }

/-- A poll, READ or WRITE answered: the node is ONLINE (R50). -/
theorem takeNodeVerdict_answered (h : TakenFor l v n s) (hk : mayRetry v.order.kind = true)
    (hs : n.state = .online ∨ n.state = .suspect) (hv : v.result.verdict = .ok ∨ v.result.verdict = .refused) :
    takeNodeVerdict l v s = withReports (nodeQueue l n .suspect s) (s.modifyLine l fun x => { x with
      nodes := x.nodes.map fun k => if k = n then
        answeredNode (isAddressedWrite v.order.kind && decide (v.result.verdict = .ok)) (verdictNoted v k)
        else k }) := by
  rw [takeNodeVerdict_takenFor h, actOnVerdict_answered hk hs hv, ← updateNode_of_mem h.addresses h.mem,
    ← updateNode_updateNode (verdictNoted_key v)]
  refine (reportIf_eq .suspect _ _).trans ?_
  unfold nodeQueue
  rw [updateNode_delivery]
  rfl

/-- A record with one failure more (R51). -/
def failedNode (state : NodeState) (n : NodeRecord) : NodeRecord := { n with state := state, failures := n.failures + 1 }

/-- A failure below the threshold: the node is SUSPECT (R51). -/
theorem takeNodeVerdict_suspect (h : TakenFor l v n s) (hk : mayRetry v.order.kind = true)
    (hs : n.state = .online ∨ n.state = .suspect) (hv : isFailure v.result.verdict = true)
    (hf : n.failures + 1 < (s.line l).config.failureThreshold) :
    takeNodeVerdict l v s = withReports (nodeQueue l n .online s) (s.modifyLine l fun x => { x with
      nodes := x.nodes.map fun k => if k = n then failedNode .suspect (verdictNoted v k) else k }) := by
  rw [takeNodeVerdict_takenFor h, actOnVerdict_failed hk hs hv, ← updateNode_of_mem h.addresses h.mem,
    ← updateNode_updateNode (verdictNoted_key v)]
  unfold nodeFailed
  rw [updateNode_config, if_neg (Nat.not_le.2 hf)]
  refine (reportIf_eq .online (failedNode .suspect) _).trans ?_
  unfold nodeQueue
  rw [updateNode_delivery]

/-- A record with one failure and one loss more (R51). -/
def lostNode (n : NodeRecord) : NodeRecord :=
  { failedNode .lost n with counters := { n.counters with losses := satInc n.counters.losses } }

/-- A failure at the threshold: the node is LOST and its subscriptions wait (R51, R53). -/
theorem takeNodeVerdict_lost (h : TakenFor l v n s) (hk : mayRetry v.order.kind = true)
    (hs : n.state = .online ∨ n.state = .suspect) (hv : isFailure v.result.verdict = true)
    (hf : (s.line l).config.failureThreshold ≤ n.failures + 1) :
    takeNodeVerdict l v s = withReports (joined s.delivery.queue (.nodeState l n.address n.uid))
      { s.modifyLine l (fun x => { x with
          nodes := x.nodes.map fun k => if k = n then lostNode (verdictNoted v k) else k
          sched := { x.sched with pollList := x.sched.pollList.filter fun id =>
            ∀ q ∈ s.subs, q.id = id → ¬ ActiveAt l n.address q } }) with
        subs := s.subs.map fun q => if ActiveAt l n.address q then subWaiting q else q } := by
  rw [takeNodeVerdict_takenFor h, actOnVerdict_failed hk hs hv]
  unfold nodeFailed nodeLost
  rw [updateNode_config, if_pos hf, updateNode_updateNode (verdictNoted_key v), updateNode_of_mem h.addresses h.mem,
    requestReport_withReports, suspendSubs_eq]
  cases l <;> rfl

/-! ### A probe's OK and the profile re-check (R48, R73) -/

/-- A subscription whose channel or length the profile does not allow (R73). -/
abbrev Unfit (p : Profile) (q : SubRecord) : Prop := p.channels ≤ q.channel ∨ p.maxPayload < q.maxLength

/-- A subscription that has entered FAULTED (R73). -/
def subFaulted (reason : FaultReason) (q : SubRecord) : SubRecord :=
  { q with state := .faulted, faultReason := some reason, referencePayload := none }

/-- A WAITING subscription after the re-check (R73). -/
def rechecked (round : Word16) (p : Profile) (q : SubRecord) : SubRecord :=
  if p.channels ≤ q.channel then subFaulted .noChannel q
  else if p.maxPayload < q.maxLength then subFaulted .badLength q
  else enterActive round q

theorem rechecked_key (round : Word16) (p : Profile) : KeepsKey (rechecked round p) := by
  intro q
  unfold rechecked
  split
  · exact ⟨rfl, rfl⟩
  · split <;> exact ⟨rfl, rfl⟩

theorem recheckSub_of_mem {s : State} (hn : (s.subs.map (·.id)).Nodup) {r : SubRecord} (hr : r ∈ s.subs)
    (round : Word16) (p : Profile) :
    recheckSub round p r s =
      withReports (if Unfit p r then joined s.delivery.queue (.subState r.id r.uid) else s.delivery.queue)
        { s with subs := s.subs.map fun q => if q = r then rechecked round p q else q } := by
  have hmap {f : SubRecord → SubRecord} (hf : rechecked round p r = f r) :
      (s.subs.map fun q => if q = r then rechecked round p q else q) = s.subs.map fun q => if q = r then f q else q := by
    refine List.map_congr_left fun q _ => ?_
    by_cases h : q = r
    · rw [h, if_pos rfl, if_pos rfl, hf]
    · rw [if_neg h, if_neg h]
  have hfault (reason : FaultReason) : enterFaulted r.id r.uid reason s =
      withReports (joined s.delivery.queue (.subState r.id r.uid))
        { s with subs := s.subs.map fun q => if q = r then subFaulted reason q else q } := by
    unfold enterFaulted
    rw [requestReport_eq, updateSub_of_mem hn hr]
    rfl
  unfold recheckSub
  by_cases hc : p.channels ≤ r.channel
  · rw [if_pos hc, if_pos (.inl hc), hfault, hmap (f := subFaulted .noChannel) (if_pos hc)]
  · by_cases hm : p.maxPayload < r.maxLength
    · rw [if_neg hc, if_pos hm, if_pos (.inr hm), hfault,
        hmap (f := subFaulted .badLength) ((if_neg hc).trans (if_pos hm))]
    · rw [if_neg hc, if_neg hm, if_neg (not_or.2 ⟨hc, hm⟩), updateSub_of_mem hn hr,
        hmap (f := enterActive round) ((if_neg hc).trans (if_neg hm))]
      rfl

/-- The re-check of some records of the table, one after the other (R73). -/
theorem foldRecheck_eq (l : LineId) (p : Profile) (rs : List SubRecord) {s : State}
    (hn : (s.subs.map (·.id)).Nodup) (hrs : rs.Nodup) (hin : ∀ r ∈ rs, r ∈ s.subs) :
    rs.foldl (fun s r => recheckSub (s.line l).sched.roundNumber p r s) s =
      withReports (((rs.filter fun q => Unfit p q).map fun q => .subState q.id q.uid).foldl joined s.delivery.queue)
        { s with subs := s.subs.map fun q =>
            if q ∈ rs then rechecked (s.line l).sched.roundNumber p q else q } := by
  induction rs generalizing s with
  | nil => simp [withReports]
  | cons r rest ih =>
    obtain ⟨hr, hrest⟩ := List.nodup_cons.1 hrs
    obtain ⟨hmem, hin⟩ := List.forall_mem_cons.1 hin
    rw [List.foldl_cons, recheckSub_of_mem hn hmem]
    generalize hround : (s.line l).sched.roundNumber = round
    have hids : ((s.subs.map fun q => if q = r then rechecked round p q else q).map (·.id)).Nodup := by
      have hkept := updateSub_ids (id := r.id) (uid := r.uid) (rechecked_key round p) s
      rw [updateSub_of_mem hn hmem] at hkept
      exact hkept ▸ hn
    have hkept : ∀ q ∈ rest, q ∈ s.subs.map fun q => if q = r then rechecked round p q else q := fun q hq =>
      List.mem_map.2 ⟨q, hin q hq, if_neg (ne_of_mem_of_not_mem hq hr)⟩
    have hline (queue : List ReportRequest) (subs : List SubRecord) :
        ((withReports queue { s with subs := subs }).line l).sched.roundNumber = round := by
      rw [← hround]
      cases l <;> rfl
    have hnotRest : rechecked round p r ∉ rest := fun h =>
      hr (by rwa [List.inj_on_of_nodup_map hn (hin _ h) hmem (rechecked_key round p r).1] at h)
    refine (ih (s := withReports _ { s with subs := _ }) hids hrest hkept).trans ?_
    rw [hline]
    have hsubs : ((s.subs.map fun q => if q = r then rechecked round p q else q).map fun q =>
          if q ∈ rest then rechecked round p q else q) =
        s.subs.map fun q => if q ∈ r :: rest then rechecked round p q else q := by
      rw [List.map_map]
      refine List.map_congr_left fun q _ => ?_
      by_cases h : q = r
      · simp [h, hnotRest]
      · simp [h]
    have hqueue : ((rest.filter fun q => Unfit p q).map fun q => ReportRequest.subState q.id q.uid).foldl joined
          (if Unfit p r then joined s.delivery.queue (.subState r.id r.uid) else s.delivery.queue) =
        (((r :: rest).filter fun q => Unfit p q).map fun q => ReportRequest.subState q.id q.uid).foldl joined
          s.delivery.queue := by
      by_cases h : Unfit p r <;> simp [h]
    rw [← hsubs, ← hqueue]
    rfl

/-- The WAITING subscriptions of a node, in the order of their re-check (R73). -/
def waitingAt (l : LineId) (address : Nat) (s : State) : List SubRecord :=
  sortByPoll (s.subs.filter fun r => r.line == l && r.node == address && r.state == .waiting)

theorem waitingAt_perm (l : LineId) (address : Nat) (s : State) : (waitingAt l address s).Perm
    (s.subs.filter fun q => decide (q.line = l ∧ q.node = address ∧ q.state = .waiting)) := by
  refine (sortByPoll_perm _).trans (.of_eq (List.filter_congr fun q _ => ?_))
  rw [Bool.eq_iff_iff]
  simp [and_assoc]

/-- Of one node the records come in ascending channel order (R73). -/
theorem waitingAt_channels (l : LineId) (address : Nat) (s : State) :
    (waitingAt l address s).Pairwise fun a b => a.channel ≤ b.channel := by
  have hnode : ∀ q ∈ waitingAt l address s, q.node = address := fun q hq => by
    have := (waitingAt_perm l address s).mem_iff.1 hq
    simp only [List.mem_filter, decide_eq_true_eq] at this
    exact this.2.2.1
  refine (sortByPoll_ordered _).imp_of_mem fun {a b} ha hb hab => ?_
  have := hnode a ha
  have := hnode b hb
  unfold pollOrdered at hab
  omega

theorem recheckSubs_eq (l : LineId) (address : Nat) (p : Profile) {s : State} (hn : (s.subs.map (·.id)).Nodup) :
    recheckSubs l address p s =
      withReports ((((waitingAt l address s).filter fun q => Unfit p q).map fun q =>
          .subState q.id q.uid).foldl joined s.delivery.queue)
        { s with subs := s.subs.map fun q => if q.line = l ∧ q.node = address ∧ q.state = .waiting then
            rechecked (s.line l).sched.roundNumber p q else q } := by
  have hperm := waitingAt_perm l address s
  have hmem {q : SubRecord} : q ∈ waitingAt l address s ↔
      q ∈ s.subs ∧ q.line = l ∧ q.node = address ∧ q.state = .waiting := by
    rw [hperm.mem_iff, List.mem_filter, decide_eq_true_eq]
  refine (foldRecheck_eq l p (waitingAt l address s) hn (hperm.nodup_iff.2 ((List.Nodup.of_map _ hn).filter _))
    fun r hr => (hmem.1 hr).1).trans ?_
  congr 2
  refine List.map_congr_left fun q hq => if_congr ?_ rfl rfl
  rw [hmem]
  exact and_iff_right hq

/-- A record whose node a probe has brought ONLINE (R48). -/
def onlineNode (p : Profile) (n : NodeRecord) : NodeRecord :=
  { n with state := .online, failures := 0, toggle := false, profile := some p }

/-- A probe's OK for a node out of service (R48, R73). -/
theorem takeNodeVerdict_online (h : TakenFor l v n s) {p : Profile} {address uid : Nat}
    (hk : v.order.kind = .probe address uid) (hv : v.result.verdict = .ok) (hp : v.result.profile = some p)
    (hs : n.state = .pending ∨ n.state = .lost) (hids : (s.subs.map (·.id)).Nodup) :
    takeNodeVerdict l v s =
      withReports ((((waitingAt l n.address s).filter fun q => Unfit p q).map fun q =>
          .subState q.id q.uid).foldl joined (joined s.delivery.queue (.nodeState l n.address n.uid)))
        { s.modifyLine l (fun x => { x with
            nodes := x.nodes.map fun k => if k = n then onlineNode p (verdictNoted v k) else k }) with
          subs := s.subs.map fun q => if q.line = l ∧ q.node = n.address ∧ q.state = .waiting then
            rechecked (s.line l).sched.roundNumber p q else q } := by
  have honline : actOnVerdict l n v = nodeOnline l n p := by
    funext t
    unfold actOnVerdict
    rw [hk, hv, hp, not_inService_iff.2 hs]
    rfl
  rw [takeNodeVerdict_takenFor h, honline]
  unfold nodeOnline
  rw [updateNode_updateNode (verdictNoted_key v), updateNode_of_mem h.addresses h.mem, requestReport_withReports]
  refine (recheckSubs_eq l n.address p (by simpa [withReports] using hids)).trans ?_
  cases l <;> rfl

end

end Sys2Proof.Machine
end

section
/-! SUPPORT. The other two owners of a verdict, a transaction (R100 to R103) and Line Control (R118, R123), and the
delivery in its four steps (R38). -/

namespace Sys2Proof.Machine

open Sys2Proof

/-! ### A transaction's verdict -/

/-- The result a verdict other than CONTENTION completes a transaction with (R100, R101). -/
def verdictResult (t : TxnRecord) : Verdict → TxnResult
  | .ok => okResult t
  | .refused => .refused
  | _ => failureResult t.kind

theorem verdictResult_failure {v : Verdict} (hv : isFailure v = true) (t : TxnRecord) :
    verdictResult t v = failureResult t.kind := by
  cases v <;> first | rfl | exact absurd hv Bool.false_ne_true

/-- The frames an exchange has sent in full are attempts of its record (R99). -/
def framesCounted (framesSent : Nat) (t : TxnRecord) : TxnRecord := { t with attempts := t.attempts + framesSent }

theorem framesCounted_reference (framesSent : Nat) (t : TxnRecord) :
    (framesCounted framesSent t).reference = t.reference := rfl

/-- A record after its exchange, with the frames sent in full among its attempts (R99, R103). -/
def txnCompleted (v : VerdictRecord) (result : TxnResult) (t : TxnRecord) : TxnRecord :=
  { t with
    attempts := t.attempts + v.framesSent, state := .done, result := some result
    lastVerdict := some v.result.verdict
    refuseReason := if v.result.verdict = .refused then v.result.reason else none
    reply := if v.result.verdict = .ok then v.result.reply.map (·.payload) else none }

theorem updateTxn_updateTxn {reference : Word16} {f g : TxnRecord → TxnRecord}
    (hg : ∀ t, (g t).reference = t.reference) (s : State) :
    updateTxn reference f (updateTxn reference g s) = updateTxn reference (fun t => f (g t)) s := by
  simp only [updateTxn_eq, List.map_map]
  congr 1
  refine List.map_congr_left fun t _ => ?_
  by_cases h : t.reference = reference
  · simp [h, hg t]
  · simp [h]

/-- Every verdict but CONTENTION completes the record (R100, R101, R103). -/
theorem takeTxnVerdict_completes {s : State} (hn : (s.txns.map (·.reference)).Nodup) {t : TxnRecord} (ht : t ∈ s.txns)
    {v : VerdictRecord} (hv : v.result.verdict ≠ .contention) (l : LineId) :
    takeTxnVerdict l t.reference v s = withReports (joined s.delivery.queue (.txnDone t.reference))
      { s with txns := s.txns.map fun k =>
          if k = t then txnCompleted v (verdictResult t v.result.verdict) k else k } := by
  have hcompleted : takeTxnVerdict l t.reference v s =
      completeTxn t.reference (verdictResult t v.result.verdict) (some v.result.verdict)
        (if v.result.verdict = .refused then v.result.reason else none)
        (if v.result.verdict = .ok then v.result.reply.map (·.payload) else none)
        (updateTxn t.reference (framesCounted v.framesSent) s) := by
    unfold takeTxnVerdict
    rw [findTxn_of_mem hn ht]
    cases h : v.result.verdict <;> first | rfl | exact absurd h hv
  rw [hcompleted]
  unfold completeTxn
  rw [updateTxn_updateTxn (framesCounted_reference v.framesSent), requestReport_withReports, updateTxn_of_mem hn ht]
  rfl

/-! ### Line Control (R118, R121, R123) -/

theorem changeLineState_eq (l : LineId) (state : LineState) (cause : Cause) (s : State) :
    changeLineState l state cause s = withReports (joined s.delivery.queue (.lineState l))
      (s.modifyLine l fun x => { x with lineState := state, cause := cause }) := by
  unfold changeLineState
  rw [requestReport_withReports, modifyLine_delivery]

theorem enterStopped_eq (l : LineId) (s : State) : enterStopped l s = stopCompleted l s := by
  unfold enterStopped stopCompleted
  dsimp only
  rw [changeLineState_eq, purgeLine_eq]
  have hpurge (queue : List ReportRequest) :
      ((withReports queue (s.modifyLine l fun x => { x with lineState := .stopped, cause := .request })).line
        l).purgePending = (s.line l).purgePending := by cases l <;> rfl
  rw [hpurge]
  split <;> cases l <;> rfl

theorem enterFault_eq (l : LineId) (cause : Cause) (s : State) : enterFault l cause s = faulted l cause s := by
  unfold enterFault faulted
  rw [changeLineState_eq]
  cases l <;> rfl

section
variable {l : LineId} {v : Verdict} {s : State}

/-- A verdict other than CONTENTION completes a stop (R118). -/
theorem lineControlTake_stopping (hl : (s.line l).lineState = .stopping) (hv : v ≠ .contention) (stuckEnded : Bool) :
    lineControlTake l v stuckEnded s = stopCompleted l s := by
  unfold lineControlTake
  rw [hl]
  exact (if_neg hv).trans (enterStopped_eq l s)

/-- In RUNNING only a stuck input that ended the exchange takes the line to FAULT (R123). -/
theorem lineControlTake_running (hl : (s.line l).lineState = .running) (hv : v ≠ .contention) (stuckEnded : Bool) :
    lineControlTake l v stuckEnded s = if stuckEnded = true then faulted l .stuck s else s := by
  unfold lineControlTake
  rw [hl]
  refine (if_neg hv).trans ?_
  rw [enterFault_eq]

end

/-! ### The delivery (R38) -/

/-- New reports of an updated line, field by field. -/
theorem withReports_modifyLine (queue : List ReportRequest) (s : State) (l : LineId) (f : Line → Line) :
    withReports queue (s.modifyLine l f) =
      { s.modifyLine l f with delivery := { s.delivery with queue := queue } } := by cases l <;> rfl

/-- Settles O43: each owner by the lemma of its case; a record of a table is the one its key finds. -/
theorem verdictsReachTheirOwners : Obligations.VerdictsReachTheirOwners := by
  unfold Obligations.VerdictsReachTheirOwners
  refine ⟨?delivery, ?poll, ?transaction, ?node⟩
  case delivery =>
    intro l v ended s
    refine ⟨?_, fun hl hv => lineControlTake_stopping hl hv ended, fun hl hv => lineControlTake_running hl hv ended⟩
    rintro owner node sched rfl rfl rfl
    unfold deliverVerdict schedulerTake ownerTake
    rw [modifySched_modifyLine]
    cases v.order.kind <;> rfl
  case poll =>
    intro s v r hr hn became hbecame
    refine ⟨fun hc => takePollVerdict_closing hn hr hc v, fun ha => ⟨fun reason hv hreason => ⟨fun fault h => ?_,
      fun h => ?_⟩, fun h => ?_, fun reply x hv hreply hx => ⟨fun h1 h2 h3 => ?_, fun hp offered ho =>
        ⟨fun h => ?_, fun h1 h2 h3 => ?_⟩⟩⟩⟩
    · rw [takePollVerdict_faults hn hr ha hv hreason h, hbecame]
      rfl
    · rw [takePollVerdict_refusal hn hr ha hv hreason h, hbecame]
      rfl
    · rw [takePollVerdict_over hn hr ha (h.imp_right .inl), hbecame]
      rfl
    · rw [takePollVerdict_over hn hr ha (.inr (.inr ⟨reply, hv, hreply, ?_⟩)), hbecame]
      · rfl
      · rw [passesFilter_iff]
        simp [h1, h2, h3]
    · rw [takePollVerdict_stores hn hr ha hv hreply ((passesFilter_iff r _).2 hp) h, hbecame, hx]
      refine congrArg (fun subs : List SubRecord => withReports (readyQueue r s)
        { s with freeBlocks := s.freeBlocks - 1, subs := subs }) (List.map_congr_left fun q _ => if_congr Iff.rfl ?_ rfl)
      rw [ho]
      cases hkind : q.kind <;>
        simp [noticeRaised, sampleJoined, answeredSub, replyPassed, pollOver, replySample, hkind]
    · rw [takePollVerdict_replaces hn hr ha hv hreply ((passesFilter_iff r _).2 hp) h1 h2 h3, hbecame, hx]
      refine congrArg (fun subs : List SubRecord => withReports (readyQueue r s)
        { s with subs := subs }) (List.map_congr_left fun q _ => if_congr Iff.rfl ?_ rfl)
      rw [ho]
      cases hkind : q.kind <;>
        simp [noticeRaised, sampleReplaced, sampleJoined, answeredSub, replyPassed, pollOver, replySample, hkind]
  case transaction =>
    intro l s v t ht hn hnode completed hcompleted
    have htake (result : TxnResult) (hv : v.result.verdict ≠ .contention)
        (hr : verdictResult t v.result.verdict = result) : takeTxnVerdict l t.reference v s = completed result := by
      rw [takeTxnVerdict_completes hn ht hv, hcompleted, hr]
      rfl
    refine ⟨fun hv => htake _ (by simp [hv]) ?_, fun hv => htake _ (by simp [hv]) ?_, fun hv =>
      ⟨fun maxReply hk => htake _ ?_ ?_, fun data hk => htake _ ?_ ?_⟩⟩
    · rw [hv]
      unfold verdictResult okResult
      cases t.kind <;> simp [hnode]
    · rw [hv]
      rfl
    · exact fun h => by simp [h, isFailure] at hv
    · rw [verdictResult_failure hv, hk]
      rfl
    · exact fun h => by simp [h, isFailure] at hv
    · rw [verdictResult_failure hv, hk]
      rfl
  case node =>
    intro l s v n hmem hn hk ha hu
    have htaken : TakenFor l v n s := ⟨hmem, hn, hk, ha, hu⟩
    refine ⟨fun p hkind hv hp hs hids => ?_, fun hretry hs hv => ?_, fun hretry hs hv failed hfailed =>
      ⟨fun hf => ?_, fun hf => ?_⟩, fun hv => ?_, fun hkind hv => ?_⟩
    · refine ⟨_, (waitingAt l n.address s).filter fun q => Unfit p q, rfl, ?_, ?_,
        (waitingAt_channels l n.address s).filter _⟩
      · have hnode (k : NodeRecord) : onlineNode p (verdictNoted v k) = { k with
            state := .online, failures := 0, toggle := false, profile := some p, lastVerdict := some .ok
            lastRound := some v.order.round
            counters := { k.counters with
              good := satInc k.counters.good, retries := satAdd k.counters.retries v.retries
              noisy := if v.result.noisy then satInc k.counters.noisy else k.counters.noisy } } := by
          simp [onlineNode, verdictNoted, countNode, hv]
        rw [takeNodeVerdict_online htaken hkind hv hp hs hids]
        simp only [hnode]
        cases l <;> rfl
      · refine ((waitingAt_perm l n.address s).filter _).trans (.of_eq ?_)
        rw [List.filter_filter]
        refine List.filter_congr fun q _ => ?_
        rw [Bool.eq_iff_iff]
        simp only [Bool.and_eq_true, decide_eq_true_eq]
        tauto
    · have hnode (k : NodeRecord) :
          answeredNode (isAddressedWrite v.order.kind && decide (v.result.verdict = .ok)) (verdictNoted v k) = { k with
            state := .online, failures := 0, lastVerdict := some v.result.verdict
            lastRound := some v.order.round
            toggle := if isAddressedWrite v.order.kind = true ∧ v.result.verdict = .ok then !k.toggle else k.toggle
            counters := { k.counters with
              good := if v.result.verdict = .ok then satInc k.counters.good else k.counters.good
              refusals := if v.result.verdict = .refused then satInc k.counters.refusals else k.counters.refusals
              retries := satAdd k.counters.retries v.retries
              noisy := if v.result.verdict = .ok ∧ v.result.noisy = true then satInc k.counters.noisy
                else k.counters.noisy } } := by
        rcases hv with hv | hv <;> simp [answeredNode, verdictNoted, countNode, hv]
      rw [takeNodeVerdict_answered htaken hretry hs hv, withReports_modifyLine]
      simp only [hnode]
      rfl
    · rw [takeNodeVerdict_suspect htaken hretry hs hv hf, withReports_modifyLine]
      simp only [failedNode, verdictNoted, countNode_failure hv, hfailed]
      rfl
    · rw [takeNodeVerdict_lost htaken hretry hs hv hf]
      simp only [lostNode, failedNode, verdictNoted, countNode_failure hv, hfailed]
      cases l <;> rfl
    · rw [takeNodeVerdict_noted htaken (.inl hv)]
      simp only [verdictNoted, countNode_contention hv, hv]
    · rw [takeNodeVerdict_noted htaken (.inr ⟨⟨_, _, hkind⟩, hv⟩)]
      simp only [verdictNoted, countNode_failure hv]

end Sys2Proof.Machine
end

section
/-! SUPPORT. The end of an attempt and of an exchange, and the timers that bring it about (R30 to R39). -/

namespace Sys2Proof.Machine

open Sys2Proof

/-! ### The delivery in RUNNING and in STOPPING (R38, R118) -/

/-- The first two steps of a delivery: the owner and the Node Table. -/
def verdictTaken (l : LineId) (v : VerdictRecord) (s : State) : State := takeNodeVerdict l v (ownerTake l v s)

/-- Of their line they touch the transaction queue, the node records and the poll list. -/
theorem verdictTaken_line (l : LineId) (v : VerdictRecord) (s : State) :
    ∃ queue nodes polls, (verdictTaken l v s).line l =
      { s.line l with txnQueue := queue, nodes := nodes, sched := { (s.line l).sched with pollList := polls } } := by
  obtain ⟨queue, ho⟩ := ownerTake_line l v s
  obtain ⟨nodes, polls, hn, -⟩ := takeNodeVerdict_change l v (ownerTake l v s)
  exact ⟨queue, nodes, polls, hn.trans (by rw [ho])⟩

theorem verdictTaken_lineState (l : LineId) (v : VerdictRecord) (s : State) :
    ((verdictTaken l v s).line l).lineState = (s.line l).lineState := by
  obtain ⟨queue, nodes, polls, h⟩ := verdictTaken_line l v s
  rw [h]

theorem schedulerTake_uncontended {l : LineId} {v : VerdictRecord} (hv : v.result.verdict ≠ .contention) (s : State) :
    schedulerTake l v s = s := if_neg hv

theorem deliverVerdict_running {l : LineId} {v : VerdictRecord} {s : State} (hl : (s.line l).lineState = .running)
    (hv : v.result.verdict ≠ .contention) : deliverVerdict l v false s = verdictTaken l v s := by
  unfold deliverVerdict
  rw [schedulerTake_uncontended hv]
  exact lineControlTake_running ((verdictTaken_lineState l v s).trans hl) hv false

theorem deliverVerdict_stopping {l : LineId} {v : VerdictRecord} {s : State} (hl : (s.line l).lineState = .stopping)
    (hv : v.result.verdict ≠ .contention) : deliverVerdict l v false s = stopCompleted l (verdictTaken l v s) := by
  unfold deliverVerdict
  rw [schedulerTake_uncontended hv]
  exact lineControlTake_stopping ((verdictTaken_lineState l v s).trans hl) hv false

/-- A failure is no CONTENTION. -/
theorem not_contention_of_failure {v : Verdict} (hv : isFailure v = true) : v ≠ .contention := by
  rintro rfl
  exact Bool.false_ne_true hv

/-! ### The end of an attempt (R34, R38) -/

/-- An exchange over is counted (R39). -/
theorem countExchange_uncontended {v : Verdict} (hv : v ≠ .contention) (c : LineCounters) :
    countExchange v c = { c with exchanges := satInc c.exchanges } := by
  unfold countExchange
  rw [if_neg hv]

/-- An attempt after which another follows ends in SETTLING. -/
theorem endAttempt_settles {l : LineId} {s : State} {o : Order} {r : AttemptResult}
    (ho : (s.line l).engine.order = some o) (hv : isFailure r.verdict = true) (hr : RetryFollows (s.line l) o) :
    endAttempt l r s = s.modifyLine l fun x => { x with
      engine := settlingEngine r.verdict x.engine, counters := countAttempt r.verdict x.counters } := by
  unfold endAttempt
  simp only [ho]
  rw [if_pos ((retryFollows_iff hv).2 hr)]
  cases l <;> rfl

/-- Any other attempt is the exchange's last: the verdict is delivered. -/
theorem endAttempt_delivers {l : LineId} {s : State} {o : Order} {r : AttemptResult}
    (ho : (s.line l).engine.order = some o) (hr : ¬(isFailure r.verdict = true ∧ RetryFollows (s.line l) o)) :
    endAttempt l r s = deliverVerdict l
      { order := o, result := r, framesSent := (s.line l).engine.framesSent
        retries := (s.line l).engine.attempt - startAttempt o.kind } false
      (s.modifyLine l fun x => { x with
        engine := endedEngine r.verdict x.engine
        counters := countExchange r.verdict (countAttempt r.verdict x.counters) }) := by
  have hlast : ¬ retryFollows (s.line l).config.retryLimit (s.line l).engine o r.verdict = true := fun h => by
    have hv : isFailure r.verdict = true := by
      unfold retryFollows at h
      simp only [Bool.and_eq_true] at h
      exact h.1.1.1
    exact hr ⟨hv, (retryFollows_iff hv).1 h⟩
  unfold endAttempt
  simp only [ho]
  rw [if_neg hlast]
  unfold finishExchange recordAttempt
  simp only [modifyLine_line_same, ho]
  rw [modifyLine_modifyLine]
  rfl

/-- The end of an attempt does not rest on the response window, which it stops. -/
theorem AttemptEnds.stopWindow {l : LineId} {o : Order} {v : Verdict} {s t : State}
    (h : AttemptEnds l o v
      (s.modifyLine l fun x => { x with engine := { x.engine with window := .stopped } }) t) :
    AttemptEnds l o v s t := by
  refine ⟨fun hr => ?_, fun hr => ?_⟩
  · rw [h.again (by rwa [modifyLine_line_same]), modifyLine_modifyLine]
    rfl
  · rw [h.ended (by rwa [modifyLine_line_same])]
    unfold exchangeEnded
    rw [modifyLine_line_same, modifyLine_modifyLine]
    rfl

/-! ### The timers of a reply (R30, R32) -/

section
variable {l : LineId} {s : State}

theorem windowRunsOut_ends (h : (s.line l).engine.window = .running 0) :
    windowRunsOut l s = endAttempt l (plainResult .timeout) s := by
  unfold windowRunsOut
  rw [h]

theorem windowRunsOut_waits (h : (s.line l).engine.window ≠ .running 0) : windowRunsOut l s = s := by
  unfold windowRunsOut
  split
  · exact absurd ‹_› h
  all_goals rfl

theorem gapRunsOut_ends (h : (s.line l).engine.gap = .running 0) :
    gapRunsOut l s = endAttempt l (plainResult .gap) s := by
  unfold gapRunsOut
  rw [h]

theorem gapRunsOut_waits (h : (s.line l).engine.gap ≠ .running 0) : gapRunsOut l s = s := by
  unfold gapRunsOut
  split
  · exact absurd ‹_› h
  all_goals rfl

end

/-- Settles O38: a timer whose time is up ends the attempt, and any other does nothing. -/
theorem replyTimersEndTheAttempt : Obligations.ReplyTimersEndTheAttempt := by
  unfold Obligations.ReplyTimersEndTheAttempt
  intro l s hr
  have run (f : State → State) : perform f s = .next (outbound (f s)) := perform_running hr
  refine ⟨fun o ho hw => ⟨_, run _, ?_⟩, fun o ho hg => ⟨_, run _, ?_⟩, fun hw => (run _).trans ?_,
    fun hg => (run _).trans ?_⟩
  · rw [windowRunsOut_ends hw]
    exact endAttempt_ends ho rfl
  · rw [gapRunsOut_ends hg]
    exact endAttempt_ends ho rfl
  · rw [windowRunsOut_waits hw]
  · rw [gapRunsOut_waits hg]

/-! ### The last attempt of a poll (R51, R53) -/

/-- The poll of a subscription record for the record of its node. -/
def pollOf (r : SubRecord) (n : NodeRecord) : OrderKind := .poll r.id r.uid n.address n.uid r.channel r.maxLength

/-- The table after the poll of one record is over. -/
def pollsOver (r : SubRecord) (subs : List SubRecord) : List SubRecord :=
  subs.map fun q => if q = r then pollOver q else q

/-- A failed poll is over, and then the node takes the verdict (R72). -/
theorem verdictTaken_failedPoll {l : LineId} {s : State} {v : VerdictRecord} {r : SubRecord} {n : NodeRecord}
    (hk : v.order.kind = pollOf r n) (hv : isFailure v.result.verdict = true) (hids : (s.subs.map (·.id)).Nodup)
    (hr : r ∈ s.subs) (ha : r.state = .active) :
    verdictTaken l v s = takeNodeVerdict l v { s with subs := pollsOver r s.subs } := by
  unfold verdictTaken ownerTake
  rw [hk]
  exact congrArg _ (takePollVerdict_over hids hr ha (.inl hv))

/-- The end of a poll moves neither ids nor what leaves with a node. -/
theorem pollsOver_active (l : LineId) (address id : Nat) (r : SubRecord) (subs : List SubRecord) :
    (∀ q ∈ pollsOver r subs, q.id = id → ¬ ActiveAt l address q) ↔
      ∀ q ∈ subs, q.id = id → ¬ ActiveAt l address q := by
  refine List.forall_mem_map.trans (forall₂_congr fun q _ => ?_)
  split <;> rfl

/-- A subscription that leaves service with its node. -/
def leftSub (r q : SubRecord) : SubRecord :=
  { q with
    pollInFlight := if q = r then false else q.pollInFlight, state := .waiting, referencePayload := none }

theorem pollsOver_left {l : LineId} {address : Nat} {r : SubRecord} (hr : ActiveAt l address r)
    (subs : List SubRecord) :
    ((pollsOver r subs).map fun q => if ActiveAt l address q then subWaiting q else q) =
      subs.map fun q => if ActiveAt l address q then leftSub r q else q := by
  unfold pollsOver
  rw [List.map_map]
  refine List.map_congr_left fun q _ => ?_
  by_cases h : q = r
  · have hactive : ActiveAt l address (pollOver r) := hr
    simp only [Function.comp, h, if_true, if_pos hr, if_pos hactive]
    simp [leftSub, subWaiting, pollOver]
  · simp only [Function.comp, if_neg h]
    by_cases hq : ActiveAt l address q
    · simp [if_pos hq, leftSub, subWaiting, h]
    · rw [if_neg hq, if_neg hq]

/-- A failed poll below the threshold (R51). -/
theorem failedPoll_suspect {l : LineId} {s : State} {v : VerdictRecord} {r : SubRecord} {n : NodeRecord}
    (hk : v.order.kind = pollOf r n) (hv : isFailure v.result.verdict = true) (hids : (s.subs.map (·.id)).Nodup)
    (hr : r ∈ s.subs) (ha : r.state = .active) (hn : n ∈ (s.line l).nodes)
    (haddr : ((s.line l).nodes.map (·.address)).Nodup) (hs : n.state = .online ∨ n.state = .suspect)
    (hf : n.failures + 1 < (s.line l).config.failureThreshold) :
    verdictTaken l v s = withReports (nodeQueue l n .online s) { s.modifyLine l (fun x => { x with
        nodes := x.nodes.map fun k => if k = n then failedNode .suspect (verdictNoted v k) else k }) with
      subs := pollsOver r s.subs } := by
  have hline : ({ s with subs := pollsOver r s.subs } : State).line l = s.line l := by cases l <;> rfl
  have htaken : TakenFor l v n { s with subs := pollsOver r s.subs } :=
    ⟨by rwa [hline], by rwa [hline], by rw [hk]; rfl, by rw [hk]; rfl, by rw [hk]; rfl⟩
  rw [verdictTaken_failedPoll hk hv hids hr ha,
    takeNodeVerdict_suspect htaken (by rw [hk]; rfl) hs hv (by rwa [hline])]
  cases l <;> rfl

/-- A failed poll at the threshold (R51, R53). -/
theorem failedPoll_lost {l : LineId} {s : State} {v : VerdictRecord} {r : SubRecord} {n : NodeRecord}
    (hk : v.order.kind = pollOf r n) (hv : isFailure v.result.verdict = true) (hids : (s.subs.map (·.id)).Nodup)
    (hr : r ∈ s.subs) (ha : ActiveAt l n.address r) (hn : n ∈ (s.line l).nodes)
    (haddr : ((s.line l).nodes.map (·.address)).Nodup) (hs : n.state = .online ∨ n.state = .suspect)
    (hf : (s.line l).config.failureThreshold ≤ n.failures + 1) :
    verdictTaken l v s = withReports (joined s.delivery.queue (.nodeState l n.address n.uid))
      { s.modifyLine l (fun x => { x with
          nodes := x.nodes.map fun k => if k = n then lostNode (verdictNoted v k) else k
          sched := { x.sched with pollList := x.sched.pollList.filter fun id =>
            ∀ q ∈ s.subs, q.id = id → ¬ ActiveAt l n.address q } }) with
        subs := s.subs.map fun q => if ActiveAt l n.address q then leftSub r q else q } := by
  have hline : ({ s with subs := pollsOver r s.subs } : State).line l = s.line l := by cases l <;> rfl
  have htaken : TakenFor l v n { s with subs := pollsOver r s.subs } :=
    ⟨by rwa [hline], by rwa [hline], by rw [hk]; rfl, by rw [hk]; rfl, by rw [hk]; rfl⟩
  rw [verdictTaken_failedPoll hk hv hids hr ha.2.2,
    takeNodeVerdict_lost htaken (by rw [hk]; rfl) hs hv (by rwa [hline])]
  simp only [pollsOver_active, pollsOver_left ha]
  cases l <;> rfl

/-- The counters of an exchange that has ended TIMEOUT or GAP (R39). -/
theorem countReplyTimer {v : Verdict} (hv : v = .timeout ∨ v = .gap) (c : LineCounters) :
    countExchange v (countAttempt v c) = { c with
      exchanges := satInc c.exchanges
      timeouts := if v = .timeout then satInc c.timeouts else c.timeouts
      gapErrors := if v = .gap then satInc c.gapErrors else c.gapErrors } := by
  rcases hv with rfl | rfl <;> rfl

/-- A reply timer ends the last attempt of an order in RUNNING: the verdict is taken. -/
theorem exec_replyTimer_last {l : LineId} {s : State} {c : Instr} {v : Verdict} {o : Order} (hr : s.resetHeld = false)
    (hl : (s.line l).lineState = .running)
    (hc : c = .responseWindowExpiry l ∧ v = .timeout ∧ (s.line l).engine.window = .running 0 ∨
      c = .gapTimerExpiry l ∧ v = .gap ∧ (s.line l).engine.gap = .running 0)
    (ho : (s.line l).engine.order = some o) (hlast : (s.line l).config.retryLimit < (s.line l).engine.attempt) :
    exec c s = .next (outbound (verdictTaken l
      { order := o, result := plainResult v, framesSent := (s.line l).engine.framesSent
        retries := (s.line l).engine.attempt - startAttempt o.kind }
      (s.modifyLine l fun x => { x with
        engine := endedEngine v x.engine, counters := countExchange v (countAttempt v x.counters) }))) := by
  have hends : exec c s = .next (outbound (endAttempt l (plainResult v) s)) := by
    rcases hc with ⟨rfl, rfl, hw⟩ | ⟨rfl, rfl, hg⟩
    · exact (perform_running hr).trans (by rw [windowRunsOut_ends hw])
    · exact (perform_running hr).trans (by rw [gapRunsOut_ends hg])
  have hcont : v ≠ .contention := by rcases hc with ⟨-, rfl, -⟩ | ⟨-, rfl, -⟩ <;> exact Verdict.noConfusion
  rw [hends, endAttempt_delivers ho fun h => Nat.not_le.2 hlast h.2.2.1,
    deliverVerdict_running (by rwa [modifyLine_line_same]) hcont]
  rfl

/-- Settles O39: below the threshold and at it, the state is the one of `failedPoll_suspect` and `failedPoll_lost`. -/
theorem failedPollSuspectsOrLosesTheNode : Obligations.FailedPollSuspectsOrLosesTheNode := by
  unfold Obligations.FailedPollSuspectsOrLosesTheNode
  intro l s c v round r n hr hl hc ho hlast hrec hids ha hrl hrn hn haddr hs
  have hv : v = .timeout ∨ v = .gap := by rcases hc with ⟨-, h, -⟩ | ⟨-, h, -⟩ <;> simp [h]
  have hfail : isFailure v = true := by rcases hv with rfl | rfl <;> rfl
  refine ⟨_, exec_replyTimer_last hr hl hc ho hlast, ?_⟩
  simp only [countReplyTimer hv]
  set base := s.modifyLine l fun x => { x with
    engine := endedEngine v x.engine
    counters := { x.counters with
      exchanges := satInc x.counters.exchanges
      timeouts := if v = .timeout then satInc x.counters.timeouts else x.counters.timeouts
      gapErrors := if v = .gap then satInc x.counters.gapErrors else x.counters.gapErrors } } with hbase
  have hsubs : base.subs = s.subs := modifyLine_subs _ _ _
  have hline : (base.line l).nodes = (s.line l).nodes ∧ (base.line l).config = (s.line l).config := by
    rw [hbase, modifyLine_line_same]
    exact ⟨rfl, rfl⟩
  rcases Nat.lt_or_ge (n.failures + 1) (s.line l).config.failureThreshold with hf | hf
  · rw [failedPoll_suspect (s := base) rfl hfail (by rwa [hsubs]) (by rwa [hsubs]) ha (by rwa [hline.1])
      (by rwa [hline.1]) hs (by rwa [hline.2])]
    simp only [failedNode, verdictNoted, countNode_failure (v := ⟨_, plainResult v, _, _⟩) hfail]
    refine ⟨?_, ?_, ?_, fun _ => ⟨?_, ?_, ?_, ?_⟩, fun h => absurd hf (Nat.not_lt.2 h)⟩ <;> cases l <;> rfl
  · rw [failedPoll_lost (s := base) rfl hfail (by rwa [hsubs]) (by rwa [hsubs]) ⟨hrl, hrn, ha⟩ (by rwa [hline.1])
      (by rwa [hline.1]) hs (by rwa [hline.2])]
    simp only [lostNode, failedNode, verdictNoted, countNode_failure (v := ⟨_, plainResult v, _, _⟩) hfail]
    refine ⟨?_, ?_, ?_, fun h => absurd h (Nat.not_lt.2 hf), fun _ => ⟨?_, ?_, ?_, ?_⟩⟩ <;> cases l <;> rfl

end Sys2Proof.Machine
end

section
/-! SUPPORT. The end of SETTLING (R35), and the end of what the transmitter sends (R26, R27, R132, R138). -/

namespace Sys2Proof.Machine

open Sys2Proof

/-! ### SETTLING_END (R35) -/

section
variable {l : LineId} {periods : Periods} {s : State}

theorem exec_settlingEnd_settles (hr : s.resetHeld = false)
    (h : ((playPeriods l periods s).line l).engine.settling = .running 0) :
    exec (.settlingEnd l periods) s = .next (outbound (endSettling l (playPeriods l periods s))) := by
  have he : settlingEnd l (playPeriods l periods s) = some (endSettling l (playPeriods l periods s)) := by
    unfold settlingEnd
    rw [h]
  exact (perform_running hr).trans (by rw [afterPeriods_some he])

theorem exec_settlingEnd_waits (hr : s.resetHeld = false)
    (h : ((playPeriods l periods s).line l).engine.settling ≠ .running 0) :
    exec (.settlingEnd l periods) s = .next (outbound s) := by
  have he : settlingEnd l (playPeriods l periods s) = none := by
    unfold settlingEnd
    split
    · exact absurd ‹_› h
    all_goals rfl
  exact (perform_running hr).trans (by rw [afterPeriods_none he])

end

/-- A request is in the queue it joins, if it was not before (R158). -/
theorem mem_joined (queue : List ReportRequest) (r : ReportRequest) : r ∈ joined queue r := by
  unfold joined
  split
  · assumption
  · exact List.mem_append_right _ (List.mem_singleton_self r)

/-- A failed addressed WRITE: its record is UNCONFIRMED and reported (R100, R103), and its node takes the verdict. -/
theorem verdictTaken_failedWrite {l : LineId} {s : State} {v : VerdictRecord} {x : TxnRecord}
    {address uid channel start : Nat} {data data' : List Byte}
    (hk : v.order.kind = .write x.reference address uid channel data start) (hv : isFailure v.result.verdict = true)
    (hx : x ∈ s.txns) (hrefs : (s.txns.map (·.reference)).Nodup) (hkind : x.kind = .write data') :
    (∃ nodes polls, (verdictTaken l v s).line l =
      { s.line l with nodes := nodes, sched := { (s.line l).sched with pollList := polls } }) ∧
    (verdictTaken l v s).txns = s.txns.map (fun k => if k = x then txnCompleted v .unconfirmed k else k) ∧
    .txnDone x.reference ∈ (verdictTaken l v s).delivery.queue := by
  have howner : ownerTake l v s = withReports (joined s.delivery.queue (.txnDone x.reference))
      { s with txns := s.txns.map fun k => if k = x then txnCompleted v .unconfirmed k else k } := by
    have hresult : verdictResult x v.result.verdict = .unconfirmed := by
      rw [verdictResult_failure hv, hkind]
      rfl
    unfold ownerTake
    rw [hk, ← hresult]
    exact takeTxnVerdict_completes hrefs hx (not_contention_of_failure hv) l
  unfold verdictTaken
  rw [howner]
  generalize hbase : withReports (joined s.delivery.queue (.txnDone x.reference))
      { s with txns := s.txns.map fun k => if k = x then txnCompleted v .unconfirmed k else k } = base
  have hline : base.line l = s.line l := by rw [← hbase]; cases l <;> rfl
  obtain ⟨nodes, polls, hn, -⟩ := takeNodeVerdict_change l v base
  have hquiet := takeNodeVerdict_txnsQuiet l v base
  refine ⟨⟨nodes, polls, hn.trans (by rw [hline])⟩, ?_, (hquiet.done _).2 ?_⟩
  · rw [hquiet.txns, ← hbase]
    rfl
  · rw [← hbase]
    exact mem_joined _ _

/-- A failure leaves a WRITE's record without reason and reply. -/
theorem txnCompleted_failure {v : VerdictRecord} (hv : isFailure v.result.verdict = true) (result : TxnResult)
    (t : TxnRecord) : txnCompleted v result t = { t with
      attempts := t.attempts + v.framesSent, state := .done, result := some result
      lastVerdict := some v.result.verdict, refuseReason := none, reply := none } := by
  unfold txnCompleted
  rw [if_neg (by rintro h; simp [h, isFailure] at hv), if_neg (by rintro h; simp [h, isFailure] at hv)]

/-- The record of an exchange that ends in a failure (R37). -/
def failureRecord (l : LineId) (o : Order) (v : Verdict) (s : State) : VerdictRecord :=
  { order := o, result := plainResult v, framesSent := (s.line l).engine.framesSent
    retries := (s.line l).engine.attempt - startAttempt o.kind }

/-- The line whose exchange is over and counted (R38, R39). -/
def exchangeOver (l : LineId) (v : Verdict) (s : State) : State :=
  s.modifyLine l fun x => { x with
    engine := endedEngine v x.engine, counters := { x.counters with exchanges := satInc x.counters.exchanges } }

/-- The verdict of an exchange that has ended in a failure, taken by its owner and the Node Table. -/
def failureTaken (l : LineId) (o : Order) (v : Verdict) (s : State) : State :=
  verdictTaken l (failureRecord l o v s) (exchangeOver l v s)

theorem exchangeOver_line (l : LineId) (v : Verdict) (s : State) : (exchangeOver l v s).line l = { s.line l with
    engine := endedEngine v (s.line l).engine
    counters := { (s.line l).counters with exchanges := satInc (s.line l).counters.exchanges } } :=
  modifyLine_line_same _ _ _

theorem exchangeEnded_running {l : LineId} {o : Order} {v : Verdict} {s : State}
    (hl : (s.line l).lineState = .running) (hv : isFailure v = true) :
    exchangeEnded l o v s = failureTaken l o v s :=
  deliverVerdict_running (v := failureRecord l o v s) (s := exchangeOver l v s) (by rwa [exchangeOver_line])
    (not_contention_of_failure hv)

theorem exchangeEnded_stopping {l : LineId} {o : Order} {v : Verdict} {s : State}
    (hl : (s.line l).lineState = .stopping) (hv : isFailure v = true) :
    exchangeEnded l o v s = stopCompleted l (failureTaken l o v s) :=
  deliverVerdict_stopping (v := failureRecord l o v s) (s := exchangeOver l v s) (by rwa [exchangeOver_line])
    (not_contention_of_failure hv)

/-- What is left when a WRITE's exchange has ended in a failure, before a stop is completed. -/
theorem failureTaken_write {l : LineId} {o : Order} {v : Verdict} {s : State} {x : TxnRecord}
    {address uid channel start : Nat} {data data' : List Byte}
    (hk : o.kind = .write x.reference address uid channel data start) (hv : isFailure v = true)
    (hx : x ∈ s.txns) (hrefs : (s.txns.map (·.reference)).Nodup) (hkind : x.kind = .write data') :
    (∃ nodes polls, (failureTaken l o v s).line l = { s.line l with
      engine := endedEngine v (s.line l).engine
      counters := { (s.line l).counters with exchanges := satInc (s.line l).counters.exchanges }
      nodes := nodes, sched := { (s.line l).sched with pollList := polls } }) ∧
    (failureTaken l o v s).txns = (s.txns.map fun k => if k = x then
      { k with
        attempts := k.attempts + (s.line l).engine.framesSent, state := .done
        result := some .unconfirmed, lastVerdict := some v, refuseReason := none, reply := none } else k) ∧
    .txnDone x.reference ∈ (failureTaken l o v s).delivery.queue := by
  have htxns : (exchangeOver l v s).txns = s.txns := modifyLine_txns _ _ _
  obtain ⟨hline, hrecords, hdone⟩ := verdictTaken_failedWrite (l := l) (s := exchangeOver l v s)
    (v := failureRecord l o v s) hk hv (by rwa [htxns]) (by rwa [htxns]) hkind
  rw [exchangeOver_line] at hline
  simp only [htxns, txnCompleted_failure (v := failureRecord l o v s) hv] at hrecords
  exact ⟨hline, hrecords, hdone⟩

/-- Settles O40: `endSettling` sends again or ends the WRITE, whose verdict is then delivered. -/
theorem settlingEndSendsAgain : Obligations.SettlingEndSendsAgain := by
  unfold Obligations.SettlingEndSendsAgain
  rintro l periods s u hr rfl
  refine ⟨fun o v ho hv hset => ?_, exec_settlingEnd_waits hr⟩
  have hexec := exec_settlingEnd_settles hr hset
  generalize playPeriods l periods s = u at *
  have hended (hw : isAddressedWrite o.kind = true) (hb : (u.line l).engine.breakSeen = true)
      (hf : isFailure v = true) : exec (.settlingEnd l periods) s = .next (outbound (exchangeEnded l o v u)) := by
    rw [hexec, endSettling_ends ho hv hf ⟨hw, hb⟩]
  have haddressed {reference : Word16} {address uid channel start : Nat} {data : List Byte}
      (hk : o.kind = .write reference address uid channel data start) (h0 : address ≠ 0) :
      isAddressedWrite o.kind = true := by
    rw [hk]
    exact bne_iff_ne.2 h0
  refine ⟨fun hw => ⟨_, hexec, endSettling_sendsAgain ho hv hw⟩,
    fun reference address uid channel data start x hl hk h0 hb hf hx href hkind hrefs => ?_, hended,
    fun reference address uid channel data start x hl hk h0 hb hf hx href hkind hrefs => ?_⟩
  · subst href
    obtain ⟨⟨nodes, polls, hline⟩, hrecords, hdone⟩ := failureTaken_write (l := l) hk hf hx hrefs hkind
    refine ⟨failureTaken l o v u, ?_, by rw [hline], by rw [hline], hrecords, hdone⟩
    rw [hended (haddressed hk h0) hb hf, exchangeEnded_running hl hf]
  · subst href
    obtain ⟨⟨nodes, polls, hline⟩, hrecords, hdone⟩ := failureTaken_write (l := l) hk hf hx hrefs hkind
    refine ⟨failureTaken l o v u, ?_, by rw [hline], by rw [hline], by rw [hline], by rw [hline], hrecords, hdone⟩
    rw [hended (haddressed hk h0) hb hf, exchangeEnded_stopping hl hf]

/-! ### TRANSMIT_END (R26, R27, R132, R138) -/

section
variable {l : LineId} {periods : Periods} {s u : State} {chars : List (BitVec 9)} {position : Nat}

/-- The sample periods of a line keep it sound. -/
theorem playPeriods_lineSound (periods : Periods) (h : LineSound (s.line l)) :
    LineSound ((playPeriods l periods s).line l) := by
  refine playPeriods_keeps (P := fun t => LineSound (t.line l)) (fun level t ht => ?_) periods h
  rw [modifyLine_line_same]
  exact linePeriod_sound level ht

/-- Of their line the sample periods touch the timers counted in them and the port. -/
theorem playPeriods_line (l : LineId) (periods : Periods) (s : State) :
    ∃ idleWait quiet window gap settling port, (playPeriods l periods s).line l = { s.line l with
      idleWait := idleWait, sched := { (s.line l).sched with quiet := quiet }
      engine := { (s.line l).engine with window := window, gap := gap, settling := settling }, port := port } := by
  refine playPeriods_keeps (P := fun t => ∃ idleWait quiet window gap settling port, t.line l = { s.line l with
      idleWait := idleWait, sched := { (s.line l).sched with quiet := quiet }
      engine := { (s.line l).engine with window := window, gap := gap, settling := settling }, port := port })
    (fun level t ht => ?_) periods ⟨_, _, _, _, _, _, rfl⟩
  obtain ⟨idleWait, quiet, window, gap, settling, port, ht⟩ := ht
  rw [modifyLine_line_same, ht]
  exact ⟨_, _, _, _, _, _, rfl⟩

theorem exec_transmitEnd_some {t : State} (hr : s.resetHeld = false)
    (h : transmitEnd l (playPeriods l periods s) = some t) :
    exec (.transmitEnd l periods) s = .next (outbound t) :=
  (perform_running hr).trans (by rw [afterPeriods_some h])

theorem exec_transmitEnd_none (hr : s.resetHeld = false) (h : transmitEnd l (playPeriods l periods s) = none) :
    exec (.transmitEnd l periods) s = .next (outbound s) :=
  (perform_running hr).trans (by rw [afterPeriods_none h])

/-- The character finished after RESTART (R138). -/
theorem transmitEnd_finishing (h : (u.line l).port.tx = .frame chars position true) : transmitEnd l u =
    if 176 * chars.length ≤ position then some (restartQuiet l (releaseAfterRestart l u)) else none := by
  unfold transmitEnd
  rw [h]

theorem transmitEnd_frame (h : (u.line l).port.tx = .frame chars position false) : transmitEnd l u =
    if (u.line l).port.echo = .none ∧ 176 * chars.length ≤ position then some (frameSent l u) else none := by
  unfold transmitEnd frameDone
  rw [h]
  cases (u.line l).port.echo <;> simp [Config.characterSamples]

theorem transmitEnd_noFrame
    (h : (u.line l).port.tx = .idle ∨ ∃ jam left, (u.line l).port.tx = .sendingBreak jam left) :
    transmitEnd l u = none := by
  unfold transmitEnd
  rcases h with h | ⟨jam, left, h⟩ <;> rw [h]

/-! ### The release of the driver -/

/-- In IDLE and SENDING no timer of the engine runs (R25). -/
theorem LineSound.timersStopped {x : Line} (h : LineSound x)
    (hs : x.engine.state = .idle ∨ x.engine.state = .sending) :
    x.engine.window = .stopped ∧ x.engine.gap = .stopped ∧ x.engine.settling = .stopped := by
  refine ⟨by_contra fun hw => ?_, by_contra fun hg => ?_, by_contra fun ht => ?_⟩
  · rcases hs with hs | hs <;> exact ExchangeState.noConfusion (hs.symm.trans (h.window hw))
  · rcases hs with hs | hs <;> exact ExchangeState.noConfusion (hs.symm.trans (h.gap hg))
  · rcases hs with hs | hs <;> exact ExchangeState.noConfusion (hs.symm.trans (h.settling ht))

/-- A release holds no timer that is stopped. -/
theorem releasedEngine_stopped {p : LinePort} {e : Engine} (hw : e.window = .stopped) (hg : e.gap = .stopped)
    (ht : e.settling = .stopped) : releasedEngine p e = e := by
  unfold releasedEngine
  split
  · rfl
  · rw [hw, hg, ht]
    cases e
    cases hw
    cases hg
    cases ht
    rfl

/-- The response window of a reply awaited from the release on is held if the input is low (R128, R133). -/
theorem releasedEngine_awaiting {p : LinePort} {e : Engine} {left : Nat} (hw : e.window = .running left)
    (hg : e.gap = .stopped) (ht : e.settling = .stopped) :
    releasedEngine p e = { e with window := if p.input = .high then .running left else .held left } := by
  unfold releasedEngine
  split
  · cases e
    cases hw
    rfl
  · rw [hw, hg, ht]
    cases e
    cases hg
    cases ht
    rfl

theorem endedEngine_released (v : Verdict) (p : LinePort) (e : Engine) :
    endedEngine v (releasedEngine p e) = endedEngine v e := by
  unfold releasedEngine
  split <;> rfl

/-- After RESTART the release is one as at every frame with the input low, or with no character under way. -/
theorem releaseAfterRestart_released (h : (u.line l).port.input = .low ∨ (u.line l).port.rxPhase = .hunt ∨
    (u.line l).port.rxPhase = .muted) : releaseAfterRestart l u = releaseDriver l u := by
  refine if_neg ?_
  rintro ⟨hi, hb⟩
  rcases h with h | h | h
  · exact PinLevel.noConfusion (h.symm.trans hi)
  · simp [receiverBusy, h] at hb
  · simp [receiverBusy, h] at hb

/-- With the input high a character under way goes on (R138, log 25). -/
theorem releaseAfterRestart_goesOn (hi : (u.line l).port.input = .high) (h : (u.line l).port.rxPhase = .qualify ∨
    (u.line l).port.rxPhase = .bits ∨ (u.line l).port.rxPhase = .waitHigh) :
    releaseAfterRestart l u = u.modifyLine l fun x => { x with
      port := { x.port with tx := .idle, driverEnable := false, echo := .none } } := by
  refine if_pos ⟨hi, ?_⟩
  rcases h with h | h | h <;> simp [receiverBusy, h]

/-! ### The end of a frame (R26, R27) -/

/-- The line at the end of a frame sent in full (R12, R26, R132). -/
def frameOver (x : Line) : Line := { x with
  port := releasedPort x.port, sched := { x.sched with quiet := .running 352 }
  engine := releasedEngine x.port { x.engine with framesSent := x.engine.framesSent + 1 } }

theorem releaseCountFrame_eq (l : LineId) (u : State) :
    releaseDriver l (countFrame l u) = u.modifyLine l frameOver := by
  unfold countFrame restartQuiet
  rw [releaseDriver_eq, modifySched_modifyLine, modifyEngine_modifyLine, modifyLine_modifyLine, modifyLine_modifyLine]
  rfl

theorem frameSent_awaits {o : Order} (ho : (u.line l).engine.order = some o) (ha : isAddressed o.kind = true)
    (hg : (u.line l).engine.gap = .stopped) (ht : (u.line l).engine.settling = .stopped) :
    frameSent l u = u.modifyLine l fun x => { x with
      port := releasedPort x.port, sched := { x.sched with quiet := .running 352 }
      engine := { x.engine with
        state := .awaiting, framesSent := x.engine.framesSent + 1
        buffer := { bytes := [], noiseSeen := false, framingSeen := false }
        window := if x.port.input = .high then .running (176 * x.config.responseWindow)
          else .held (176 * x.config.responseWindow) } } := by
  unfold frameSent
  simp only [ho]
  rw [if_pos ha]
  unfold countFrame restartQuiet
  rw [releaseDriver_eq, modifySched_modifyLine, modifyEngine_modifyLine, modifyEngine_modifyLine,
    modifyLine_modifyLine, modifyLine_modifyLine, modifyLine_modifyLine]
  have hawait := releasedEngine_awaiting (p := (u.line l).port) (left := 176 * (u.line l).config.responseWindow)
    (e := awaitReply (u.line l).config.responseWindow
      { (u.line l).engine with framesSent := (u.line l).engine.framesSent + 1 })
    (congrArg CharTimer.running (Nat.mul_comm _ _)) hg ht
  refine modifyLine_congr ?_
  dsimp only
  rw [hawait]
  rfl

/-- A frame of no node ends its exchange OK (R27). -/
theorem frameSent_delivers {o : Order} (ho : (u.line l).engine.order = some o) (ha : isAddressed o.kind = false) :
    frameSent l u = deliverVerdict l
      { order := o, result := plainResult .ok, framesSent := (u.line l).engine.framesSent + 1
        retries := (u.line l).engine.attempt - startAttempt o.kind } false
      (u.modifyLine l fun x => { x with
        port := releasedPort x.port, sched := { x.sched with quiet := .running 352 }
        engine := endedEngine .ok { x.engine with framesSent := x.engine.framesSent + 1 }
        counters := { x.counters with exchanges := satInc x.counters.exchanges } }) := by
  unfold frameSent
  simp only [ho]
  rw [if_neg (by rw [ha]; exact Bool.false_ne_true), releaseCountFrame_eq]
  have hengine : frameOver (u.line l) = { frameOver (u.line l) with
      engine := releasedEngine (u.line l).port
        { (u.line l).engine with framesSent := (u.line l).engine.framesSent + 1 } } := rfl
  have hfields : (frameOver (u.line l)).engine.order = (u.line l).engine.order ∧
      (frameOver (u.line l)).engine.framesSent = (u.line l).engine.framesSent + 1 ∧
      (frameOver (u.line l)).engine.attempt = (u.line l).engine.attempt := by
    rw [hengine]
    unfold releasedEngine
    split <;> exact ⟨rfl, rfl, rfl⟩
  obtain ⟨horder, hframes, hattempt⟩ := hfields
  rw [endAttempt_delivers (o := o) (by rw [modifyLine_line_same, horder, ho]) fun h => Bool.noConfusion h.1]
  rw [modifyLine_line_same, hframes, hattempt, modifyLine_modifyLine]
  congr 1
  refine modifyLine_congr ?_
  unfold frameOver
  simp only [endedEngine_released]
  rfl

end

/-- The verdict of a round broadcast has no owner (R14, R27). -/
theorem verdictTaken_roundBroadcast {v : VerdictRecord} (hk : v.order.kind = .roundBroadcast) (l : LineId)
    (s : State) : verdictTaken l v s = s := by
  unfold verdictTaken ownerTake takeNodeVerdict
  rw [hk]
  exact if_neg Bool.false_ne_true

/-- The OK of a broadcast WRITE completes its record SENT (R101). -/
theorem verdictTaken_broadcastWrite {l : LineId} {s : State} {v : VerdictRecord} {x : TxnRecord}
    {uid channel start : Nat} {data data' : List Byte}
    (hk : v.order.kind = .write x.reference 0 uid channel data start) (hv : v.result = plainResult .ok)
    (hx : x ∈ s.txns) (hrefs : (s.txns.map (·.reference)).Nodup) (hnode : x.node = 0)
    (hkind : x.kind = .write data') :
    verdictTaken l v s = withReports (joined s.delivery.queue (.txnDone x.reference))
      { s with txns := s.txns.map fun k => if k = x then
          { k with
            attempts := k.attempts + v.framesSent, state := .done, result := some .sent, lastVerdict := some .ok
            refuseReason := none, reply := none } else k } := by
  have hok : v.result.verdict = .ok := by rw [hv]; rfl
  have hresult : verdictResult x v.result.verdict = .sent := by
    rw [hok]
    unfold verdictResult okResult
    rw [hkind]
    exact if_pos hnode
  unfold verdictTaken ownerTake takeNodeVerdict
  rw [hk]
  refine (if_neg Bool.false_ne_true).trans ?_
  refine (takeTxnVerdict_completes hrefs hx (by rw [hok]; exact Verdict.noConfusion) l).trans ?_
  rw [hresult]
  unfold txnCompleted
  rw [hv]
  rfl

/-- Settles O37: the driver is released, and the engine goes on by the order. -/
theorem transmitEndReleasesAndAwaits : Obligations.TransmitEndReleasesAndAwaits := by
  unfold Obligations.TransmitEndReleasesAndAwaits
  rintro l periods s u hr hs rfl
  have hsound := playPeriods_lineSound periods hs
  refine ⟨fun chars position htx => ⟨fun hp => ?_, fun hp => ⟨fun h => ?_, fun hi h => ?_⟩⟩,
    fun chars position htx => ⟨fun h => ?_, fun hecho hp o ho => ?_⟩, fun h => ?_⟩
  · refine exec_transmitEnd_none hr ?_
    rw [transmitEnd_finishing htx, if_neg (Nat.not_le.2 hp)]
  · have hidle : ((playPeriods l periods s).line l).engine.state = .idle := by
      have hfits := hsound.transmit
      rw [htx] at hfits
      exact hfits
    obtain ⟨hw, hg, ht⟩ := hsound.timersStopped (.inl hidle)
    rw [exec_transmitEnd_some hr ((transmitEnd_finishing htx).trans (if_pos hp)), releaseAfterRestart_released h,
      releaseDriver_eq]
    unfold restartQuiet
    rw [modifySched_modifyLine, modifyLine_modifyLine]
    congr 2
    refine modifyLine_congr ?_
    dsimp only
    rw [releasedEngine_stopped hw hg ht]
  · rw [exec_transmitEnd_some hr ((transmitEnd_finishing htx).trans (if_pos hp)), releaseAfterRestart_goesOn hi h]
    unfold restartQuiet
    rw [modifySched_modifyLine, modifyLine_modifyLine]
  · refine exec_transmitEnd_none hr ?_
    rw [transmitEnd_frame htx, if_neg]
    rintro ⟨hecho, hp⟩
    rcases h with h | h
    · exact h hecho
    · exact Nat.not_le.2 h hp
  · have hexec := exec_transmitEnd_some hr ((transmitEnd_frame htx).trans (if_pos ⟨hecho, hp⟩))
    have hsending : ((playPeriods l periods s).line l).engine.state = .sending := by
      have hfits := hsound.transmit
      rw [htx] at hfits
      exact hfits.1
    obtain ⟨-, hg, ht⟩ := hsound.timersStopped (.inr hsending)
    refine ⟨fun ha => ?_, fun sent hk hsent => ?_, fun reference uid channel data start x sent hk hx href hnode hkind
      hrefs hsent => ?_⟩
    · rw [hexec, frameSent_awaits ho ha hg ht]
    · have hframe := frameSent_delivers ho (by rw [hk]; rfl)
      rw [← hsent] at hframe
      have hstate : (sent.line l).lineState = ((playPeriods l periods s).line l).lineState := by
        rw [hsent, modifyLine_line_same]
      rw [hexec, hframe]
      refine ⟨fun hl => ?_, fun hl => ?_⟩
      · rw [deliverVerdict_running (hstate.trans hl) Verdict.noConfusion, verdictTaken_roundBroadcast hk]
      · rw [deliverVerdict_stopping (hstate.trans hl) Verdict.noConfusion, verdictTaken_roundBroadcast hk]
    · subst href
      have hframe := frameSent_delivers ho (by rw [hk]; rfl)
      generalize hbase : (playPeriods l periods s).modifyLine l _ = base at hframe
      have hstate : (base.line l).lineState = ((playPeriods l periods s).line l).lineState := by
        rw [← hbase, modifyLine_line_same]
      have htxns : base.txns = s.txns := by rw [← hbase, modifyLine_txns]; exact modifyLine_txns _ _ _
      have hdelivery : base.delivery = s.delivery := by rw [← hbase, modifyLine_delivery]; exact modifyLine_delivery _ _ _
      have hframes : ((playPeriods l periods s).line l).engine.framesSent = (s.line l).engine.framesSent := by
        obtain ⟨idleWait, quiet, window, gap, settling, port, h⟩ := playPeriods_line l periods s
        rw [h]
      have htaken := verdictTaken_broadcastWrite (l := l) (s := base)
        (v := { order := o, result := plainResult .ok
                framesSent := ((playPeriods l periods s).line l).engine.framesSent + 1
                retries := ((playPeriods l periods s).line l).engine.attempt - startAttempt o.kind })
        hk rfl (by rwa [htxns]) (by rwa [htxns]) hnode hkind
      have hfinal : verdictTaken l { order := o, result := plainResult .ok
                                     framesSent := ((playPeriods l periods s).line l).engine.framesSent + 1
                                     retries := ((playPeriods l periods s).line l).engine.attempt -
                                       startAttempt o.kind } base = sent := by
        rw [htaken, htxns, hdelivery, hsent, hframes, ← hbase]
        cases l <;> rfl
      rw [hexec, hframe]
      refine ⟨fun hl => ?_, fun hl => ?_⟩
      · rw [deliverVerdict_running (hstate.trans hl) Verdict.noConfusion, hfinal]
      · rw [deliverVerdict_stopping (hstate.trans hl) Verdict.noConfusion, hfinal]
  · exact exec_transmitEnd_none hr (transmitEnd_noFrame h)

end Sys2Proof.Machine
end

section
/-! SUPPORT. A character end as the engine takes it, by its state (R32, R40, R137). -/

namespace Sys2Proof.Machine

open Sys2Proof

/-! ### CHARACTER_END takes a signal (log 2, log 3) -/

section
variable {l : LineId} {periods : Periods} {s taken base : State} {c : ReceivedCharacter} {o : Order}

theorem exec_characterEnd_signalled (hr : s.resetHeld = false)
    (h : Signalled l periods (.characterEnd c) s taken) :
    exec (.characterEnd l periods) s = .next (outbound (deliverCharacter l c taken)) := by
  obtain ⟨rest, hsignals, htaken⟩ := h
  have he : takeSignal l (characterEnd l) (playPeriods l periods s) = some (deliverCharacter l c taken) := by
    unfold takeSignal
    rw [hsignals, htaken]
    rfl
  exact (perform_running hr).trans (by rw [afterPeriods_some he])

theorem exec_characterEnd_unsignalled (hr : s.resetHeld = false)
    (h : ∀ c taken, ¬ Signalled l periods (.characterEnd c) s taken) :
    exec (.characterEnd l periods) s = .next (outbound s) := by
  have he : takeSignal l (characterEnd l) (playPeriods l periods s) = none := by
    refine Option.eq_none_iff_forall_not_mem.2 fun t ht => ?_
    obtain ⟨x, rest, run, hsignals, heffect, -⟩ := takeSignal_some ht
    cases x with
    | characterEnd c => exact h c _ ⟨rest, hsignals, rfl⟩
    | _ => cases heffect
  exact (perform_running hr).trans (by rw [afterPeriods_none he])

/-- A noisy character is counted (R137). -/
theorem deliverCharacter_counts (hbase : base = taken.modifyLine l fun x => { x with counters := { x.counters with
      noiseFlags := if c.noisy then satInc x.counters.noiseFlags else x.counters.noiseFlags } }) :
    deliverCharacter l c taken = if c.echo then base else takeCharacter l c base := by
  have hnoise : taken.countLine l (countNoise c) = base := by
    rw [hbase]
    unfold countNoise
    cases c.noisy <;> cases l <;> rfl
  unfold deliverCharacter
  rw [hnoise]

/-! ### A character by the engine's state (R40) -/

theorem takeCharacter_stray (h : (s.line l).engine.state = .idle ∨ (s.line l).engine.state = .sending) :
    takeCharacter l c s = countStray l s := by
  unfold takeCharacter
  rcases h with h | h <;> rw [h]

theorem takeCharacter_resumes
    (h : (s.line l).engine.state = .awaiting ∧ c.mark = false ∨ (s.line l).engine.state = .settling) :
    takeCharacter l c s = resumeTimers l (countStray l s) := by
  unfold takeCharacter
  rcases h with ⟨h, hm⟩ | h <;> rw [h]
  exact if_neg (by simp [hm])

theorem takeCharacter_reply (h : (s.line l).engine.state = .awaiting ∧ c.mark = true ∨
    (s.line l).engine.state = .receiving ∧ c.mark = false) : takeCharacter l c s = takeReplyCharacter l c s := by
  unfold takeCharacter
  rcases h with ⟨h, hm⟩ | ⟨h, hm⟩ <;> simp only [h, hm] <;> rfl

theorem takeCharacter_secondMark (h : (s.line l).engine.state = .receiving) (hm : c.mark = true) :
    takeCharacter l c s = endAttempt l (plainResult .malformed) (restartQuiet l s) := by
  unfold takeCharacter
  simp only [h, hm]
  rfl

theorem countStray_modifyLine (l : LineId) (s : State) : countStray l s =
    s.modifyLine l fun x => { x with counters := { x.counters with strays := satInc x.counters.strays } } := rfl

/-! ### A character of the reply (R32) -/

/-- The line with a further character of the reply stored (R12, R32). -/
def replyStored (c : ReceivedCharacter) (x : Line) : Line := { x with
  sched := { x.sched with quiet := .running 352 }
  engine := { x.engine with
    state := .receiving, window := .stopped, buffer := storeCharacter c x.engine.buffer } }

theorem takeReplyCharacter_stores (l : LineId) (c : ReceivedCharacter) (s : State) :
    takeReplyCharacter l c s = afterStored l (s.modifyLine l (replyStored c)) := by
  unfold takeReplyCharacter restartQuiet
  rw [modifyEngine_modifyLine, modifySched_modifyLine, modifyLine_modifyLine]
  rfl

/-- The frame is too long for any reply (R32). -/
def OverLong (b : ReceiveBuffer) : Prop := b.bytes.length = 3 ∧ 24 < statedLength b

theorem takeReplyCharacter_goesOn (ho : (s.line l).engine.order = some o)
    (hlong : ¬ OverLong (storeCharacter c (s.line l).engine.buffer))
    (hcomplete : frameComplete (storeCharacter c (s.line l).engine.buffer) = false) :
    takeReplyCharacter l c s = s.modifyLine l fun x => { replyStored c x with
      engine := { (replyStored c x).engine with gap := .running 352 } } := by
  rw [takeReplyCharacter_stores]
  unfold afterStored
  simp only [modifyLine_line_same, replyStored, ho]
  refine (if_neg hlong).trans ((if_neg (by rw [hcomplete]; exact Bool.false_ne_true)).trans ?_)
  rw [modifyEngine_modifyLine, modifyLine_modifyLine]
  rfl

theorem takeReplyCharacter_overLong (ho : (s.line l).engine.order = some o)
    (hlong : OverLong (storeCharacter c (s.line l).engine.buffer)) :
    takeReplyCharacter l c s = endAttempt l (plainResult .malformed) (s.modifyLine l (replyStored c)) := by
  rw [takeReplyCharacter_stores]
  unfold afterStored
  simp only [modifyLine_line_same, replyStored, ho]
  exact if_pos hlong

theorem takeReplyCharacter_completes (ho : (s.line l).engine.order = some o)
    (hlong : ¬ OverLong (storeCharacter c (s.line l).engine.buffer))
    (hcomplete : frameComplete (storeCharacter c (s.line l).engine.buffer) = true) :
    takeReplyCharacter l c s = endAttempt l
      (judgeReply o.kind (s.line l).engine.sentToggle (storeCharacter c (s.line l).engine.buffer) s.msClock)
      (s.modifyLine l (replyStored c)) := by
  rw [takeReplyCharacter_stores]
  unfold afterStored
  simp only [modifyLine_line_same, replyStored, ho]
  refine (if_neg hlong).trans ((if_pos hcomplete).trans ?_)
  rw [modifyLine_msClock]

end

/-! ### The length the third character states (R32) -/

section
variable {b : ReceiveBuffer} (c : ReceivedCharacter)

theorem storeCharacter_length : (storeCharacter c b).bytes.length = b.bytes.length + 1 := by
  simp [storeCharacter]

theorem statedLength_third (h : b.bytes.length = 2) : statedLength (storeCharacter c b) = c.byte.toNat := by
  simp [statedLength, field, storeCharacter, h]

theorem statedLength_later (h : 3 ≤ b.bytes.length) :
    statedLength (storeCharacter c b) = (b.bytes.getD 2 0).toNat := by
  simp [statedLength, field, storeCharacter, List.getElem?_append_left (show 2 < b.bytes.length by omega)]

theorem frameComplete_false_iff : frameComplete b = false ↔
    (3 ≤ b.bytes.length → b.bytes.length ≠ statedLength b + 5) := by
  simp [frameComplete]

/-- A further character neither over-long nor completing its frame. -/
theorem storeCharacter_goesOn (h : b.bytes.length < 2 ∨ b.bytes.length = 2 ∧ c.byte.toNat ≤ 24 ∨
      3 ≤ b.bytes.length ∧ b.bytes.length + 1 < (b.bytes.getD 2 0).toNat + 5) :
    ¬ OverLong (storeCharacter c b) ∧ frameComplete (storeCharacter c b) = false := by
  rw [frameComplete_false_iff]
  unfold OverLong
  rw [storeCharacter_length]
  rcases h with h | ⟨h, hbyte⟩ | ⟨h, hshort⟩
  · omega
  · rw [statedLength_third c h]
    omega
  · rw [statedLength_later c h]
    omega

theorem storeCharacter_overLong (h : b.bytes.length = 2) (hbyte : 24 < c.byte.toNat) :
    OverLong (storeCharacter c b) :=
  ⟨by rw [storeCharacter_length, h], by rwa [statedLength_third c h]⟩

end

/-- Settles O41: the engine's state and the character's mark decide what the character is. -/
theorem characterEndByState : Obligations.CharacterEndByState := by
  unfold Obligations.CharacterEndByState
  intro l periods s hr
  refine ⟨exec_characterEnd_unsignalled hr, fun c taken base hsignalled hbase => ?_⟩
  have hexec := exec_characterEnd_signalled hr hsignalled
  rw [deliverCharacter_counts hbase] at hexec
  refine ⟨fun hecho => by rwa [hecho] at hexec, fun hecho => ?_⟩
  rw [hecho] at hexec
  refine ⟨fun h => ?stray, fun h => ?resumes, fun h hm o ho hb => ?header, fun o h ho =>
    ⟨fun hm => ⟨_, hexec, ?secondMark⟩, fun hm hw hshort => ?further, fun hm hlen hbyte => ⟨_, hexec, ?tooLong⟩⟩⟩
  case stray => rw [hexec, if_neg Bool.false_ne_true, takeCharacter_stray h, countStray_modifyLine]
  case resumes =>
    refine ⟨_, hexec, ?_⟩
    rw [if_neg Bool.false_ne_true, takeCharacter_resumes h, countStray_modifyLine]
    exact resumeTimers_holdEnded _ _
  case header =>
    obtain ⟨hlong, hcomplete⟩ := storeCharacter_goesOn (b := (base.line l).engine.buffer) c (.inl (by simp [hb]))
    rw [hexec, if_neg Bool.false_ne_true, takeCharacter_reply (.inl ⟨h, hm⟩),
      takeReplyCharacter_goesOn ho hlong hcomplete]
    congr 2
    refine modifyLine_congr ?_
    simp [replyStored, storeCharacter, hb]
  case secondMark =>
    rw [if_neg Bool.false_ne_true, takeCharacter_secondMark h hm]
    exact endAttempt_uncounted (by rwa [modifyLine_line_same]) rfl fun _ => rfl
  case further =>
    obtain ⟨hlong, hcomplete⟩ := storeCharacter_goesOn c hshort
    rw [hexec, if_neg Bool.false_ne_true, takeCharacter_reply (.inr ⟨h, hm⟩),
      takeReplyCharacter_goesOn ho hlong hcomplete]
    congr 2
    refine modifyLine_congr ?_
    simp [replyStored, storeCharacter, h, hw]
  case tooLong =>
    have hlong := storeCharacter_overLong (b := (base.line l).engine.buffer) c hlen hbyte
    have hstored : base.modifyLine l (replyStored c) = (base.modifyLine l fun x => { x with
        sched := { x.sched with quiet := .running 352 }
        engine := { x.engine with buffer := storeCharacter c x.engine.buffer } }).modifyLine l fun x =>
          { x with engine := { x.engine with window := .stopped } } := by
      rw [modifyLine_modifyLine]
      refine modifyLine_congr ?_
      simp [replyStored, h]
    rw [if_neg Bool.false_ne_true, takeCharacter_reply (.inr ⟨h, hm⟩), takeReplyCharacter_overLong ho hlong, hstored]
    refine AttemptEnds.stopWindow (endAttempt_uncounted ?_ rfl fun _ => rfl)
    rw [modifyLine_line_same, modifyLine_line_same]
    exact ho

end Sys2Proof.Machine
end

section
/-! SUPPORT. The judgement of a complete reply frame (R33), check by check. -/

namespace Sys2Proof.Machine

open Sys2Proof

/-! ### Codes -/

/-- Two bytes hold a word. -/
theorem be16_injective : Function.Injective be16 := by
  intro a b h
  simp only [be16, List.cons.injEq, and_true] at h
  obtain ⟨hhigh, hlow⟩ := h
  refine BitVec.eq_of_getLsbD_eq fun i hi => ?_
  rcases Nat.lt_or_ge i 8 with h8 | h8
  · have := congrArg (BitVec.getLsbD · i) hlow
    simpa [h8] using this
  · have := congrArg (BitVec.getLsbD · (i - 8)) hhigh
    simpa [show i - 8 < 8 by omega, show 8 + (i - 8) = i by omega] using this

/-- A reason is read back from its code, and from no other (R180). -/
theorem refuseReasonOfCode_eq_some_iff {x : Byte} {reason : RefuseReason} :
    refuseReasonOfCode x.toNat = some reason ↔ x = refuseReasonCode (some reason) := by
  constructor
  · intro h
    unfold refuseReasonOfCode at h
    split at h <;> cases h <;> exact BitVec.eq_of_toNat_eq ‹_›
  · rintro rfl
    cases reason <;> rfl

/-! ### A complete frame -/

/-- The part of a reply frame its check value covers (R19). -/
def replyBody (header control : Byte) (payload : List Byte) : List Byte :=
  header :: control :: byteOf payload.length :: payload

/-- A receive buffer that holds a whole frame. -/
structure HoldsFrame (b : ReceiveBuffer) (header control : Byte) (payload : List Byte) (check : Word16) : Prop where
  bytes : b.bytes = replyBody header control payload ++ be16 check
  short : payload.length ≤ 24

section
variable {b : ReceiveBuffer} {header control : Byte} {payload : List Byte} {check : Word16}
  (h : HoldsFrame b header control payload check)
include h

theorem HoldsFrame.header_eq : field b.bytes 0 = header.toNat := by
  rw [h.bytes]
  rfl

theorem HoldsFrame.control_eq : b.bytes.getD 1 0 = control := by
  rw [h.bytes]
  rfl

theorem HoldsFrame.length_eq : b.bytes.length = payload.length + 5 := by
  simp [h.bytes, replyBody, be16]

theorem HoldsFrame.statedLength_eq : statedLength b = payload.length := by
  have hbyte : statedLength b = (byteOf payload.length).toNat := by
    unfold statedLength
    rw [h.bytes]
    rfl
  have := h.short
  rw [hbyte, byteOf, BitVec.toNat_ofNat, Nat.mod_eq_of_lt (by omega)]

theorem HoldsFrame.covered : b.bytes.take (statedLength b + 3) = replyBody header control payload := by
  rw [h.statedLength_eq, h.bytes]
  exact List.take_left' rfl

theorem HoldsFrame.checkValue : b.bytes.drop (statedLength b + 3) = be16 check := by
  rw [h.statedLength_eq, h.bytes]
  exact List.drop_left' rfl

theorem HoldsFrame.payload_eq : replyPayload b = payload := by
  unfold replyPayload
  rw [h.statedLength_eq, h.bytes]
  exact List.take_left' rfl

theorem HoldsFrame.complete : ¬ OverLong b ∧ frameComplete b = true := by
  unfold OverLong frameComplete
  rw [h.length_eq, h.statedLength_eq]
  simp

/-! ### The checks (R33) -/

variable {k : OrderKind} {toggle : Bool} (clock : Word32)

omit h in
theorem judgeReply_framing (hf : b.framingSeen = true) : judgeReply k toggle b clock = plainResult .framing :=
  if_pos hf

theorem judgeReply_badCrc (hf : b.framingSeen = false) (hc : crc16 (replyBody header control payload) ≠ check) :
    judgeReply k toggle b clock = plainResult .badCrc := by
  unfold judgeReply
  dsimp only
  rw [h.covered, h.checkValue, if_neg (by rw [hf]; exact Bool.false_ne_true), if_pos fun e => hc (be16_injective e)]

theorem judgeReply_checked (hf : b.framingSeen = false) (hc : crc16 (replyBody header control payload) = check) :
    judgeReply k toggle b clock =
      if header.toNat % 32 ≠ orderAddress k ∨ control.toNat % 8 ≠ orderChannel k then plainResult .misaddressed
      else judgeFit k toggle b clock := by
  have hcontrol : field b.bytes 1 = control.toNat := congrArg BitVec.toNat h.control_eq
  unfold judgeReply
  dsimp only
  rw [h.covered, h.checkValue, h.header_eq, hcontrol, if_neg (by rw [hf]; exact Bool.false_ne_true), hc,
    if_neg fun e => e rfl]

/-! ### A reply that fits its request (R21, R180) -/

theorem judgeFit_data {largest : Nat} (ht : header.toNat / 32 = 4) (hl : largestReply k = some largest)
    (hp : payload.length ≤ largest) :
    judgeFit k toggle b clock = ⟨.ok, b.noiseSeen, some ⟨payload, clock⟩, none, none⟩ := by
  unfold judgeFit
  simp only [h.header_eq, ht, hl, h.statedLength_eq, h.payload_eq]
  exact if_pos hp

theorem judgeFit_ack (ht : header.toNat / 32 = 5) (hw : isAddressedWrite k = true) (hp : payload = [])
    (hc : control.getLsbD 3 = toggle) : judgeFit k toggle b clock = ⟨.ok, b.noiseSeen, none, none, none⟩ := by
  unfold judgeFit
  simp only [h.header_eq, ht, h.statedLength_eq, h.control_eq]
  exact if_pos ⟨hw, by rw [hp]; rfl, hc⟩

theorem judgeFit_syncAck {address uid : Nat} {kind channels room : Byte} (hk : k = .probe address uid)
    (ht : header.toNat / 32 = 6) (hp : payload = [kind, channels, room])
    (hr : 1 ≤ channels.toNat ∧ channels.toNat ≤ 8 ∧ room.toNat ≤ 24) :
    judgeFit k toggle b clock = ⟨.ok, b.noiseSeen, none, some ⟨kind, channels.toNat, room.toNat⟩, none⟩ := by
  unfold judgeFit
  simp only [h.header_eq, ht, h.statedLength_eq, h.payload_eq, hk, hp]
  exact if_pos ⟨rfl, hr⟩

theorem judgeFit_refusal {reason : RefuseReason} (hk : mayRetry k = true) (ht : header.toNat / 32 = 7)
    (hp : payload = [refuseReasonCode (some reason)]) :
    judgeFit k toggle b clock = ⟨.refused, false, none, none, some reason⟩ := by
  have hcode : refuseReasonOfCode (field payload 0) = some reason :=
    refuseReasonOfCode_eq_some_iff.2 (by rw [hp]; rfl)
  unfold judgeFit
  simp only [h.header_eq, ht, h.statedLength_eq, h.payload_eq, hcode]
  exact if_pos ⟨hk, by rw [hp]; rfl⟩

/-- A reply that is none of these fits no request. -/
theorem judgeFit_otherwise
    (hdata : ¬ ∃ largest, largestReply k = some largest ∧ header.toNat / 32 = 4 ∧ payload.length ≤ largest)
    (hack : ¬(isAddressedWrite k = true ∧ header.toNat / 32 = 5 ∧ payload = [] ∧ control.getLsbD 3 = toggle))
    (hsync : ¬ ∃ address uid kind channels room, k = .probe address uid ∧ header.toNat / 32 = 6 ∧
      payload = [kind, channels, room] ∧ 1 ≤ channels.toNat ∧ channels.toNat ≤ 8 ∧ room.toNat ≤ 24)
    (hrefusal : ¬ ∃ reason, mayRetry k = true ∧ header.toNat / 32 = 7 ∧
      payload = [refuseReasonCode (some reason)]) : judgeFit k toggle b clock = plainResult .malformed := by
  unfold judgeFit
  simp only [h.header_eq, h.statedLength_eq, h.payload_eq, h.control_eq]
  split
  next ht =>
    cases hl : largestReply k with
    | none => rfl
    | some largest => exact if_neg fun hp => hdata ⟨largest, hl, ht, hp⟩
  next ht => exact if_neg fun ⟨hw, hp, hc⟩ => hack ⟨hw, ht, List.eq_nil_of_length_eq_zero hp, hc⟩
  next ht =>
    cases k with
    | probe address uid =>
      refine if_neg fun ⟨hlen, hr⟩ => ?_
      obtain ⟨kind, channels, room, hp⟩ := List.length_eq_three.1 hlen
      rw [hp] at hr
      exact hsync ⟨address, uid, kind, channels, room, rfl, ht, hp, hr⟩
    | _ => rfl
  next ht =>
    split
    next hretry =>
      obtain ⟨x, hp⟩ := List.length_eq_one_iff.1 hretry.2
      cases hcode : refuseReasonOfCode (field payload 0) with
      | none => rfl
      | some reason =>
        rw [hp] at hcode
        have hx : x = refuseReasonCode (some reason) := refuseReasonOfCode_eq_some_iff.1 hcode
        exact absurd ⟨reason, hretry.1, ht, by rw [hp, hx]⟩ hrefusal
    next => rfl
  next => rfl

end

/-! ### The counters of a judged reply (R39) -/

theorem judgeFit_verdict (k : OrderKind) (toggle : Bool) (b : ReceiveBuffer) (clock : Word32) :
    (judgeFit k toggle b clock).verdict ∈ [Verdict.ok, .refused, .malformed] := by
  unfold judgeFit
  dsimp only
  repeat' split
  all_goals simp [plainResult]

/-- A judgement is no timer's verdict, no break's and no contention's. -/
theorem judgeReply_verdict (k : OrderKind) (toggle : Bool) (b : ReceiveBuffer) (clock : Word32) :
    (judgeReply k toggle b clock).verdict ∈ [Verdict.ok, .refused, .framing, .badCrc, .misaddressed, .malformed] := by
  have hfit := judgeFit_verdict k toggle b clock
  unfold judgeReply
  dsimp only
  split
  · simp [plainResult]
  split
  · simp [plainResult]
  split
  · simp [plainResult]
  · simp only [List.mem_cons, List.not_mem_nil, or_false] at hfit ⊢
    tauto

/-- Of them BAD_CRC and FRAMING are counted by the line. -/
theorem countAttempt_judged {v : Verdict}
    (hv : v ∈ [Verdict.ok, .refused, .framing, .badCrc, .misaddressed, .malformed]) (c : LineCounters) :
    countAttempt v c = { c with
      crcErrors := if v = .badCrc then satInc c.crcErrors else c.crcErrors
      framingErrors := if v = .framing then satInc c.framingErrors else c.framingErrors } := by
  simp only [List.mem_cons, List.not_mem_nil, or_false] at hv
  rcases hv with rfl | rfl | rfl | rfl | rfl | rfl <;> rfl

end Sys2Proof.Machine
end

section
/-! SUPPORT. The last character of a reply: the judgement ends the attempt (R32 to R34), and a good reply to a poll is
stored (R50, R69, R82). -/

namespace Sys2Proof.Machine

open Sys2Proof

/-! ### The attempt a judgement ends (R33, R34) -/

/-- The line after a character's noise is counted (R137). -/
def noiseCounted (c : ReceivedCharacter) (x : Line) : Line := { x with counters := { x.counters with
  noiseFlags := if c.noisy then satInc x.counters.noiseFlags else x.counters.noiseFlags } }

/-- The line as a complete reply leaves it, judged and counted, before R34 decides. -/
def replyJudged (c : ReceivedCharacter) (v : Verdict) (x : Line) : Line := { x with
  sched := { x.sched with quiet := .running 352 }
  engine := { x.engine with buffer := storeCharacter c x.engine.buffer }
  counters := { x.counters with
    noiseFlags := if c.noisy then satInc x.counters.noiseFlags else x.counters.noiseFlags
    crcErrors := if v = .badCrc then satInc x.counters.crcErrors else x.counters.crcErrors
    framingErrors := if v = .framing then satInc x.counters.framingErrors else x.counters.framingErrors } }

/-- The judgement of the reply in a line's receive buffer and a further character. -/
def judgement (l : LineId) (o : Order) (c : ReceivedCharacter) (s : State) : AttemptResult :=
  judgeReply o.kind (s.line l).engine.sentToggle (storeCharacter c (s.line l).engine.buffer) s.msClock

section
variable {l : LineId} {periods : Periods} {s base : State} {c : ReceivedCharacter} {o : Order}
  {header control : Byte} {payload : List Byte} {check : Word16}

theorem exec_characterEnd_judged (hr : s.resetHeld = false) (hsignalled : Signalled l periods (.characterEnd c) s base)
    (hecho : c.echo = false) (hm : c.mark = false) (hs : (base.line l).engine.state = .receiving)
    (ho : (base.line l).engine.order = some o)
    (hf : HoldsFrame (storeCharacter c (base.line l).engine.buffer) header control payload check) :
    exec (.characterEnd l periods) s = .next (outbound (endAttempt l (judgement l o c base)
      (base.modifyLine l fun x => replyStored c (noiseCounted c x)))) := by
  obtain ⟨hlong, hcomplete⟩ := hf.complete
  have hline : (base.modifyLine l (noiseCounted c)).line l = noiseCounted c (base.line l) := modifyLine_line_same _ _ _
  have hstate : ((base.modifyLine l (noiseCounted c)).line l).engine.state = .receiving := by rwa [hline]
  rw [exec_characterEnd_signalled hr hsignalled, deliverCharacter_counts (base := base.modifyLine l (noiseCounted c)) rfl,
    hecho, if_neg Bool.false_ne_true, takeCharacter_reply (.inr ⟨hstate, hm⟩),
    takeReplyCharacter_completes (by rwa [hline]) (by rwa [hline]) (by rwa [hline]), hline, modifyLine_msClock,
    modifyLine_modifyLine]
  rfl

variable {r : AttemptResult}
  (hv : r.verdict ∈ [Verdict.ok, .refused, .framing, .badCrc, .misaddressed, .malformed])
include hv

theorem endAttempt_judged_settles (ho : (base.line l).engine.order = some o) (hf : isFailure r.verdict = true)
    (hretry : RetryFollows (base.line l) o) :
    endAttempt l r (base.modifyLine l fun x => replyStored c (noiseCounted c x)) =
      (base.modifyLine l (replyJudged c r.verdict)).modifyLine l fun x => { x with
        engine := settlingEngine r.verdict x.engine } := by
  rw [endAttempt_settles (o := o) (by rwa [modifyLine_line_same]) hf (by rwa [modifyLine_line_same])]
  simp only [countAttempt_judged hv, modifyLine_modifyLine]
  rfl

theorem endAttempt_judged_delivers (ho : (base.line l).engine.order = some o)
    (hend : ¬(isFailure r.verdict = true ∧ RetryFollows (base.line l) o)) :
    endAttempt l r (base.modifyLine l fun x => replyStored c (noiseCounted c x)) = deliverVerdict l
      { order := o, result := r, framesSent := (base.line l).engine.framesSent
        retries := (base.line l).engine.attempt - startAttempt o.kind } false
      ((base.modifyLine l (replyJudged c r.verdict)).modifyLine l fun x => { x with
        engine := endedEngine r.verdict x.engine
        counters := { x.counters with exchanges := satInc x.counters.exchanges } }) := by
  have hcontention : r.verdict ≠ .contention := by
    intro h
    simp [h] at hv
  rw [endAttempt_delivers (o := o) (by rwa [modifyLine_line_same]) (by rwa [modifyLine_line_same])]
  simp only [countAttempt_judged hv, countExchange_uncontended hcontention, modifyLine_modifyLine,
    modifyLine_line_same]
  rfl

end

/-! ### A good reply to a poll -/

section
variable {l : LineId} {s : State} {v : VerdictRecord} {r : SubRecord} {n : NodeRecord} {reply : Reply}

/-- An EVERY record with an empty queue whose reply has been stored (R69, R81, R84). -/
def firstSampleStored (round : Word16) (noisy : Bool) (reply : Reply) (q : SubRecord) : SubRecord :=
  { q with
    pollInFlight := false, resumed := false, notice := .queued, nextSequence := q.nextSequence + 1
    queue := [{ subId := q.id, sequence := q.nextSequence, round := round, captureTime := reply.captureTime
                resumed := q.resumed, noisy := noisy, payload := reply.payload }] }

theorem firstSampleStored_eq (hk : r.kind = .every) (hq : r.queue = []) (hnotice : r.notice = .none) (round : Word16)
    (noisy : Bool) (reply : Reply) :
    noticeRaised (sampleJoined (r.queue ++ [replySample r round noisy reply]) (answeredSub reply.payload r)) =
      firstSampleStored round noisy reply r := by
  simp [noticeRaised, sampleJoined, answeredSub, replyPassed, pollOver, replySample, firstSampleStored, hk, hq, hnotice]

/-- A poll answered: the sample and the notice first, then the node (R38). -/
theorem verdictTaken_answeredPoll (hk : v.order.kind = pollOf r n) (hv : v.result.verdict = .ok)
    (hreply : v.result.reply = some reply) (hids : (s.subs.map (·.id)).Nodup) (hr : r ∈ s.subs)
    (ha : r.state = .active) (hkind : r.kind = .every) (hq : r.queue = []) (hnotice : r.notice = .none)
    (hn : n ∈ (s.line l).nodes) (haddr : ((s.line l).nodes.map (·.address)).Nodup)
    (hs : n.state = .online ∨ n.state = .suspect) :
    verdictTaken l v s = withReports
      (if n.state = .suspect then
        joined (joined s.delivery.queue (.sampleReady r.id r.uid)) (.nodeState l n.address n.uid)
        else joined s.delivery.queue (.sampleReady r.id r.uid))
      { s.modifyLine l (fun x => { x with
          nodes := x.nodes.map fun k => if k = n then answeredNode false (verdictNoted v k) else k }) with
        freeBlocks := s.freeBlocks - 1
        subs := s.subs.map fun q => if q = r then
          firstSampleStored v.order.round v.result.noisy reply q else q } := by
  have hpasses : passesFilter r reply.payload = true := (passesFilter_iff r _).2 (.inl hkind)
  have howner : ownerTake l v s = withReports (joined s.delivery.queue (.sampleReady r.id r.uid)) { s with
      freeBlocks := s.freeBlocks - 1
      subs := s.subs.map fun q => if q = r then
        firstSampleStored v.order.round v.result.noisy reply q else q } := by
    unfold ownerTake
    rw [hk]
    refine (takePollVerdict_stores hids hr ha hv hreply hpasses (.inl hq)).trans ?_
    rw [readyQueue, if_pos hnotice]
    refine congrArg (fun subs => withReports _ { s with freeBlocks := s.freeBlocks - 1, subs := subs })
      (List.map_congr_left fun q _ => ?_)
    split
    next h => rw [h, firstSampleStored_eq hkind hq hnotice]
    next => rfl
  unfold verdictTaken
  rw [howner]
  generalize hbase : withReports (joined s.delivery.queue (.sampleReady r.id r.uid)) _ = base
  have hline : base.line l = s.line l := by rw [← hbase]; cases l <;> rfl
  have htaken : TakenFor l v n base :=
    ⟨by rwa [hline], by rwa [hline], by rw [hk]; rfl, by rw [hk]; rfl, by rw [hk]; rfl⟩
  have hflip : (isAddressedWrite v.order.kind && decide (v.result.verdict = .ok)) = false := by rw [hk]; rfl
  rw [takeNodeVerdict_answered htaken (by rw [hk]; rfl) hs (.inl hv), hflip]
  unfold nodeQueue
  rw [← hbase]
  cases l <;> rfl

end

/-! ### The command -/

section
variable {l : LineId} {periods : Periods} {s base : State} {c : ReceivedCharacter}

/-- A signal taken after the periods of its command has touched the port and the timers counted in periods. -/
theorem Signalled.base_eq {x : PortSignal} (h : Signalled l periods x s base) :
    ∃ idleWait quiet window gap settling port, base = s.modifyLine l fun x => { x with
      idleWait := idleWait, sched := { x.sched with quiet := quiet }
      engine := { x.engine with window := window, gap := gap, settling := settling }, port := port } := by
  obtain ⟨rest, -, rfl⟩ := h
  obtain ⟨idleWait, quiet, window, gap, settling, port, hline⟩ := playPeriods_line l periods s
  unfold playPeriods at hline ⊢
  rw [modifyLine_line_same] at hline
  rw [modifyLine_modifyLine]
  exact ⟨idleWait, quiet, window, gap, settling, { port with signals := rest },
    modifyLine_congr (by dsimp only; rw [hline])⟩

/-- The good DATA reply to a poll (R21, R33, R81). -/
theorem judgement_answeredPoll {o : Order} {r : SubRecord} {n : NodeRecord} {payload : List Byte}
    (hk : o.kind = pollOf r n) (hl : payload.length ≤ r.maxLength) (hc : r.channel ≤ 7) (ha : n.address ≤ 30)
    (hf : HoldsFrame (storeCharacter c (s.line l).engine.buffer) (byteOf (0x80 + n.address)) (byteOf r.channel) payload
      (crc16 (replyBody (byteOf (0x80 + n.address)) (byteOf r.channel) payload)))
    (hframing : ((s.line l).engine.buffer.framingSeen || !c.stop) = false) :
    judgement l o c s =
      ⟨.ok, (s.line l).engine.buffer.noiseSeen || c.noisy, some ⟨payload, s.msClock⟩, none, none⟩ := by
  have hheader : (byteOf (0x80 + n.address)).toNat = 128 + n.address := by
    rw [byteOf, BitVec.toNat_ofNat, Nat.mod_eq_of_lt (by omega)]
  have hcontrol : (byteOf r.channel).toNat = r.channel := by
    rw [byteOf, BitVec.toNat_ofNat, Nat.mod_eq_of_lt (by omega)]
  have haddress : orderAddress o.kind = n.address := by rw [hk]; rfl
  have hchannel : orderChannel o.kind = r.channel := by rw [hk]; rfl
  unfold judgement
  rw [judgeReply_checked hf _ hframing rfl, if_neg (by rw [haddress, hchannel, hheader, hcontrol]; omega)]
  exact judgeFit_data hf _ (by rw [hheader]; omega) (by rw [hk]; rfl) hl

end

/-- Settles O42: the judgement check by check, then the delivery of a good reply to a poll. -/
theorem pollReplyIsStoredAndCounted : Obligations.PollReplyIsStoredAndCounted := by
  unfold Obligations.PollReplyIsStoredAndCounted
  refine ⟨?judged, ?answered⟩
  case judged =>
    rintro l periods c s base o header control payload check hr hsignalled hecho hm hs ho hlen body noisy framing
      rfl hbytes rfl rfl
    have hf : HoldsFrame (storeCharacter c (base.line l).engine.buffer) header control payload check := ⟨hbytes, hlen⟩
    have hexec := exec_characterEnd_judged hr hsignalled hecho hm hs ho hf
    have hv : (judgement l o c base).verdict ∈
        [Verdict.ok, .refused, .framing, .badCrc, .misaddressed, .malformed] := judgeReply_verdict _ _ _ _
    refine ⟨judgement l o c base, fun h => judgeReply_framing (b := storeCharacter c _) _ h, fun hframing => ⟨judgeReply_badCrc hf _ hframing, fun hcrc =>
      ?checked⟩, fun ended hended => ⟨fun hfail hretry => ?_, fun hend => ?_⟩⟩
    case checked =>
      have hchecked := judgeReply_checked (k := o.kind) (toggle := (base.line l).engine.sentToggle) hf base.msClock
        hframing hcrc
      refine ⟨fun h => hchecked.trans (if_pos h), fun ha hc => ?_⟩
      have hfit : judgement l o c base = judgeFit o.kind (base.line l).engine.sentToggle
          (storeCharacter c (base.line l).engine.buffer) base.msClock := hchecked.trans (if_neg (by simp [ha, hc]))
      rw [hfit]
      exact ⟨fun largest hl ht hp => judgeFit_data hf _ ht hl hp, fun hw ht hp hc => judgeFit_ack hf _ ht hw hp hc,
        fun address uid kind channels room hk ht hp h1 h2 h3 => judgeFit_syncAck hf _ hk ht hp ⟨h1, h2, h3⟩,
        fun reason hk ht hp => judgeFit_refusal hf _ hk ht hp, judgeFit_otherwise hf _⟩
    · rw [hexec, endAttempt_judged_settles hv ho hfail hretry, hended]
      rfl
    · rw [hexec, endAttempt_judged_delivers hv ho hend, hended]
      rfl
  case answered =>
    intro l periods c s base r n round payload hr hsignalled hstop hm hecho hl hs ho hlen hmax hchannel _ haddress hbytes
      hframing hmem hids ha hkind hq hnotice hrl hrn hn haddr hstate
    obtain ⟨idleWait, quiet, window, gap, settling, port, hbase⟩ := hsignalled.base_eq
    have hline := congrArg (State.line · l) hbase
    simp only [modifyLine_line_same] at hline
    have hf : HoldsFrame (storeCharacter c (base.line l).engine.buffer) (byteOf (0x80 + n.address)) (byteOf r.channel)
        payload (crc16 (replyBody (byteOf (0x80 + n.address)) (byteOf r.channel) payload)) := by
      rw [hline]
      exact ⟨hbytes _ rfl, hlen.trans hmax⟩
    have hjudged := judgement_answeredPoll (o := ⟨pollOf r n, round⟩) rfl hlen hchannel haddress hf
      (by rw [hline]; simp [hframing, hstop])
    have hbo : (base.line l).engine.order = some ⟨pollOf r n, round⟩ := by rw [hline]; exact ho
    have hexec := exec_characterEnd_judged hr hsignalled hecho hm (by rw [hline]; exact hs) hbo hf
    rw [hjudged, endAttempt_judged_delivers (by simp) hbo (by simp [isFailure]),
      deliverVerdict_running (by rw [modifyLine_line_same, modifyLine_line_same, hline]; exact hl) Verdict.noConfusion]
      at hexec
    refine ⟨_, hexec, ?_⟩
    have hsubs : (base.modifyLine l (replyJudged c .ok)).subs = s.subs := by rw [hbase]; cases l <;> rfl
    rw [verdictTaken_answeredPoll (r := r) (n := n) (reply := ⟨payload, base.msClock⟩) rfl rfl rfl
      (by rw [modifyLine_subs, hsubs]; exact hids) (by rw [modifyLine_subs, hsubs]; exact hmem) ha hkind hq hnotice
      (by rw [modifyLine_line_same, modifyLine_line_same, hline]; exact hn)
      (by rw [modifyLine_line_same, modifyLine_line_same, hline]; exact haddr) hstate]
    clear hexec hbo hjudged hf hline hsignalled hsubs
    subst hbase
    simp only [answeredNode, verdictNoted, countNode, firstSampleStored]
    refine ⟨?_, ?_, ?_, ?_, ?_, ?_, ?_, ?_, ?_, ?_, fun k hk => ?other⟩
    case other =>
      cases l <;> cases k
      · exact absurd rfl hk
      · rfl
      · rfl
      · exact absurd rfl hk
    all_goals cases l <;> rfl

end Sys2Proof.Machine
end

section
/-! SUPPORT. CONTENTION (R29, R135): the end of the exchange, its verdict as the owner (R102), the Node Table (R52), the
Round Scheduler (R18) and Line Control (R121) take it, and the jam break. -/

namespace Sys2Proof.Machine

open Sys2Proof

/-! ### A contended transaction (R102) -/

/-- A record with the frames and the contention of its exchange counted (R99, R102). -/
def contentionNoted (framesSent : Nat) (t : TxnRecord) : TxnRecord :=
  { t with attempts := t.attempts + framesSent, contentionReturns := t.contentionReturns + 1 }

theorem contentionNoted_reference (framesSent : Nat) (t : TxnRecord) :
    (contentionNoted framesSent t).reference = t.reference := rfl

section
variable {l : LineId} {s : State} {v : VerdictRecord} {x : TxnRecord}

theorem isReturned_read {framesSent maxReply : Nat} (hk : x.kind = .read maxReply) :
    isReturned (contentionNoted framesSent x) = true ↔ x.contentionReturns + 1 < 3 := by
  simp [isReturned, contentionNoted, hk]

theorem isReturned_write {framesSent : Nat} {data : List Byte} (hk : x.kind = .write data) :
    isReturned (contentionNoted framesSent x) = true ↔
      x.contentionReturns + 1 < 3 ∧ x.attempts + framesSent = 0 := by
  simp [isReturned, contentionNoted, hk]

variable (hrefs : (s.txns.map (·.reference)).Nodup) (hx : x ∈ s.txns) (hv : v.result.verdict = .contention)
include hrefs hx hv

theorem takeTxnVerdict_contention (l : LineId) : takeTxnVerdict l x.reference v s =
    takeContention l (contentionNoted v.framesSent x)
      (updateTxn x.reference (contentionNoted v.framesSent) s) := by
  have hupdate : updateTxn x.reference (contentionNoted v.framesSent) s =
      updateTxn x.reference (fun t => { t with contentionReturns := t.contentionReturns + 1 })
        (updateTxn x.reference (framesCounted v.framesSent) s) :=
    (updateTxn_updateTxn (f := fun t => { t with contentionReturns := t.contentionReturns + 1 })
      (framesCounted_reference v.framesSent) s).symm
  unfold takeTxnVerdict
  rw [findTxn_of_mem hrefs hx, hupdate]
  simp only [hv]
  rfl

theorem takeTxnVerdict_returned (hr : isReturned (contentionNoted v.framesSent x) = true) :
    takeTxnVerdict l x.reference v s = { s with txns := s.txns.map fun k => if k = x then
        { contentionNoted v.framesSent k with state := .queued } else k }.modifyLine l fun y =>
      { y with txnQueue := x.reference :: y.txnQueue } := by
  rw [takeTxnVerdict_contention hrefs hx hv]
  refine (if_pos hr).trans ?_
  rw [contentionNoted_reference, updateTxn_updateTxn (contentionNoted_reference _), updateTxn_of_mem hrefs hx]

theorem takeTxnVerdict_contended (hr : ¬ isReturned (contentionNoted v.framesSent x) = true) :
    takeTxnVerdict l x.reference v s = withReports (joined s.delivery.queue (.txnDone x.reference))
      { s with txns := s.txns.map fun k => if k = x then
        { contentionNoted v.framesSent k with
          state := .done, result := some (failureResult x.kind), lastVerdict := some .contention
          refuseReason := none, reply := none } else k } := by
  rw [takeTxnVerdict_contention hrefs hx hv]
  refine (if_neg hr).trans ?_
  unfold completeTxn
  rw [contentionNoted_reference, updateTxn_updateTxn (contentionNoted_reference _), requestReport_withReports,
    updateTxn_of_mem hrefs hx]
  rfl

end

/-! ### The other three steps of the delivery -/

/-- The record of this address and unit has the verdict and its round, if it is the one the order was taken for (R47,
R52). -/
def contentionSeen (o : Order) (n : NodeRecord) : NodeRecord :=
  if isAddressed o.kind = true ∧ n.address = orderAddress o.kind ∧ n.uid = orderNodeUid o.kind then
    { n with lastVerdict := some .contention, lastRound := some o.round } else n

section
variable {l : LineId} {s : State} {v : VerdictRecord}

theorem takeNodeVerdict_contention (hv : v.result.verdict = .contention) : takeNodeVerdict l v s =
    s.modifyLine l fun x => { x with nodes := x.nodes.map (contentionSeen v.order) } := by
  have hsame (h : ∀ n ∈ (s.line l).nodes, contentionSeen v.order n = n) :
      s = s.modifyLine l fun x => { x with nodes := x.nodes.map (contentionSeen v.order) } := by
    have hnodes : (s.line l).nodes.map (contentionSeen v.order) = (s.line l).nodes := by
      rw [List.map_congr_left h, List.map_id']
    refine Eq.trans ?_ (modifyLine_congr (f := fun x => x) (by rw [hnodes]))
    cases l <;> rfl
  unfold takeNodeVerdict
  split
  next haddressed =>
    split
    next hnone =>
      refine hsame fun n hn => if_neg fun ⟨_, ha, hu⟩ => ?_
      have := List.find?_eq_none.1 hnone n hn
      simp [ha, hu] at this
    next n hfound =>
      obtain ⟨-, ha, hu⟩ := findNodeRecord_mem hfound
      have hseen : contentionSeen v.order = fun n =>
          if n.address = orderAddress v.order.kind ∧ n.uid = orderNodeUid v.order.kind then
            { n with lastVerdict := some .contention, lastRound := some v.order.round } else n := by
        funext n
        simp only [contentionSeen, haddressed, true_and]
      rw [actOnVerdict_contention hv, ha, hu, hseen]
      simp only [hv, countNode_contention hv]
      rfl
  next hother => exact hsame fun n _ => if_neg fun h => hother h.1

/-- The Round Scheduler counts a contention (R18). -/
def contentionCounted (l : LineId) (s : State) : State := s.modifyLine l fun x =>
  { x with sched := { x.sched with contentionCount := x.sched.contentionCount + 1 } }

theorem deliverVerdict_contention (hv : v.result.verdict = .contention) :
    deliverVerdict l v false s = lineControlTake l .contention false (contentionCounted l (verdictTaken l v s)) := by
  unfold deliverVerdict schedulerTake
  rw [hv, if_pos rfl]
  rfl

/-! Line Control on a CONTENTION (R118, R121). -/

theorem lineControlTake_holdoff (hl : (s.line l).lineState = .running) (hc : (s.line l).sched.contentionCount < 4) :
    lineControlTake l .contention false s = withReports (joined s.delivery.queue (.lineState l))
      (s.modifyLine l fun x => { x with lineState := .holdoff, cause := .contention }) := by
  unfold lineControlTake
  rw [hl]
  exact ((if_pos rfl).trans (if_pos hc)).trans (changeLineState_eq _ _ _ _)

theorem lineControlTake_limit (hl : (s.line l).lineState = .running) (hc : 4 ≤ (s.line l).sched.contentionCount) :
    lineControlTake l .contention false s = faulted l .contentionLimit s := by
  unfold lineControlTake
  rw [hl]
  exact ((if_pos rfl).trans (if_neg (Nat.not_lt.2 hc))).trans (enterFault_eq _ _ _)

theorem lineControlTake_unchanged (hl : (s.line l).lineState ≠ .running) :
    lineControlTake l .contention false s = s := by
  unfold lineControlTake
  split
  · rfl
  · exact absurd ‹_› hl
  all_goals rfl

theorem withReports_line (queue : List ReportRequest) (s : State) (l : LineId) :
    (withReports queue s).line l = s.line l := by cases l <;> rfl

/-- A request for a report of the line's state, and a change of the line, leave the transactions alone. -/
theorem lineReport_txnsQuiet (f : Line → Line) (s : State) :
    TxnsQuiet s (withReports (joined s.delivery.queue (.lineState l)) (s.modifyLine l f)) := by
  have h := requestReport_txnsQuiet (r := .lineState l) rfl (s.modifyLine l f)
  rw [requestReport_withReports, modifyLine_delivery] at h
  exact h.after (modifyLine_txnsQuiet l f s)

/-- Whatever Line Control does, the transactions and the rest of the line stay. -/
theorem lineControlTake_contention (l : LineId) (s : State) :
    TxnsQuiet s (lineControlTake l .contention false s) ∧
    ∃ state cause holdoff timer, (lineControlTake l .contention false s).line l = { s.line l with
      lineState := state, cause := cause, holdoffTimer := holdoff
      sched := { (s.line l).sched with roundTimer := timer } } := by
  by_cases hl : (s.line l).lineState = .running
  · rcases Nat.lt_or_ge (s.line l).sched.contentionCount 4 with hc | hc
    · rw [lineControlTake_holdoff hl hc]
      exact ⟨lineReport_txnsQuiet _ _, _, _, _, _, by rw [withReports_line, modifyLine_line_same]⟩
    · rw [lineControlTake_limit hl hc]
      have hfaulted : faulted l .contentionLimit s = withReports (joined s.delivery.queue (.lineState l))
          (s.modifyLine l fun x => { x with
            lineState := .fault, cause := .contentionLimit, holdoffTimer := .stopped
            sched := { x.sched with roundTimer := .stopped } }) := by cases l <;> rfl
      rw [hfaulted]
      exact ⟨lineReport_txnsQuiet _ _, _, _, _, _, by rw [withReports_line, modifyLine_line_same]⟩
  · rw [lineControlTake_unchanged hl]
    exact ⟨.refl s, _, _, _, _, rfl⟩

end

/-! ### The end of the exchange and the jam break (R29, R135) -/

section
variable {l : LineId} {periods : Periods} {s u : State} {o : Order}

theorem exec_contention_waits (hr : s.resetHeld = false)
    (h : mayContend ((playPeriods l periods s).line l).port = false) :
    exec (.contention l periods) s = .next (outbound s) := by
  have he : contention l (playPeriods l periods s) = none := if_neg (by rw [h]; exact Bool.false_ne_true)
  exact (perform_running hr).trans (by rw [afterPeriods_none he])

theorem exec_contention_ends (hr : s.resetHeld = false)
    (h : mayContend ((playPeriods l periods s).line l).port = true) :
    exec (.contention l periods) s = .next (outbound
      (sendBreak l true 352 (endAttempt l (plainResult .contention) (playPeriods l periods s)))) :=
  (perform_running hr).trans (by rw [afterPeriods_some (if_pos h)])

theorem mayContend_false {p : LinePort}
    (h : ∀ chars position, p.tx = .frame chars position false → p.echo = .failed → position < 176 * chars.length) :
    mayContend p = false := by
  unfold mayContend
  split
  next chars position htx hecho => exact decide_eq_false (Nat.not_le.2 (h _ _ htx hecho))
  all_goals rfl

theorem mayContend_true {p : LinePort} {chars : List (BitVec 9)} {position : Nat}
    (htx : p.tx = .frame chars position false) (hecho : p.echo = .failed) (hp : 176 * chars.length ≤ position) :
    mayContend p = true := by
  unfold mayContend
  rw [htx, hecho]
  exact decide_eq_true hp

/-- The record of an exchange that ends CONTENTION (R37). -/
def contentionRecord (l : LineId) (o : Order) (u : State) : VerdictRecord :=
  { order := o, result := plainResult .contention, framesSent := (u.line l).engine.framesSent
    retries := (u.line l).engine.attempt - startAttempt o.kind }

/-- The line whose exchange has ended CONTENTION, before the verdict is delivered (R38, R39). -/
def contentionOver (l : LineId) (u : State) : State := u.modifyLine l fun x => { x with
  engine := endedEngine .contention x.engine
  counters := { x.counters with
    exchanges := satInc x.counters.exchanges, contentions := satInc x.counters.contentions } }

/-- The verdict taken by the owner, the Node Table and the scheduler. -/
def contentionTaken (l : LineId) (o : Order) (u : State) : State :=
  contentionCounted l (verdictTaken l (contentionRecord l o u) (contentionOver l u))

theorem endAttempt_contention (ho : (u.line l).engine.order = some o) :
    endAttempt l (plainResult .contention) u = lineControlTake l .contention false (contentionTaken l o u) :=
  (endAttempt_delivers (r := plainResult .contention) ho fun h => Bool.false_ne_true h.1).trans (deliverVerdict_contention rfl)

/-- The owner of the verdict alone touches the transactions. -/
theorem contentionTaken_line (l : LineId) (o : Order) (u : State) : (contentionTaken l o u).line l = { u.line l with
    engine := endedEngine .contention (u.line l).engine
    counters := { (u.line l).counters with
      exchanges := satInc (u.line l).counters.exchanges, contentions := satInc (u.line l).counters.contentions }
    sched := { (u.line l).sched with contentionCount := (u.line l).sched.contentionCount + 1 }
    nodes := (u.line l).nodes.map (contentionSeen o)
    txnQueue := ((ownerTake l (contentionRecord l o u) (contentionOver l u)).line l).txnQueue } := by
  obtain ⟨queue, howner⟩ := ownerTake_line l (contentionRecord l o u) (contentionOver l u)
  have hover : (contentionOver l u).line l = _ := modifyLine_line_same _ _ _
  unfold contentionTaken contentionCounted verdictTaken
  rw [takeNodeVerdict_contention rfl, modifyLine_line_same, modifyLine_line_same, howner, hover]
  rfl

theorem contentionTaken_txnsQuiet (l : LineId) (o : Order) (u : State) :
    TxnsQuiet (ownerTake l (contentionRecord l o u) (contentionOver l u)) (contentionTaken l o u) := by
  unfold contentionTaken contentionCounted verdictTaken
  exact (takeNodeVerdict_txnsQuiet l (contentionRecord l o u) _).trans (modifyLine_txnsQuiet l _ _)

end

/-! ### What is left of the owner's act -/

section
variable {l : LineId} {s u t : State} {x : TxnRecord} {framesSent : Nat}

/-- The sample periods before the moment touch no transaction. -/
theorem TxnReturned.of_same (h : TxnReturned l x framesSent u t) (htxns : u.txns = s.txns)
    (hqueue : (u.line l).txnQueue = (s.line l).txnQueue) : TxnReturned l x framesSent s t :=
  ⟨by rw [h.queue, hqueue], by rw [h.records, htxns]⟩

theorem TxnContended.of_same {result : TxnResult} (h : TxnContended l x framesSent result u t)
    (htxns : u.txns = s.txns) (hqueue : (u.line l).txnQueue = (s.line l).txnQueue) :
    TxnContended l x framesSent result s t :=
  ⟨by rw [h.queue, hqueue], h.report, by rw [h.records, htxns]⟩

end

/-- The state `t` has the transactions as the owner of a verdict has left them. -/
structure OwnerKept (l : LineId) (owner t : State) : Prop where
  queue : (t.line l).txnQueue = (owner.line l).txnQueue
  txns : t.txns = owner.txns
  done : ∀ reference, .txnDone reference ∈ owner.delivery.queue → .txnDone reference ∈ t.delivery.queue

section
variable {l : LineId} {s t : State} {v : VerdictRecord} {x : TxnRecord}
  (h : OwnerKept l (takeTxnVerdict l x.reference v s) t) (hrefs : (s.txns.map (·.reference)).Nodup) (hx : x ∈ s.txns)
  (hv : v.result.verdict = .contention)
include h hrefs hx hv

theorem OwnerKept.returned (hr : isReturned (contentionNoted v.framesSent x) = true) :
    TxnReturned l x v.framesSent s t := by
  rw [takeTxnVerdict_returned hrefs hx hv hr] at h
  refine ⟨h.queue.trans ?_, h.txns.trans (modifyLine_txns _ _ _)⟩
  rw [modifyLine_line_same]
  cases l <;> rfl

theorem OwnerKept.contended (hr : ¬ isReturned (contentionNoted v.framesSent x) = true) :
    TxnContended l x v.framesSent (failureResult x.kind) s t := by
  rw [takeTxnVerdict_contended hrefs hx hv hr] at h
  exact ⟨h.queue.trans (by rw [withReports_line]; cases l <;> rfl), h.done _ (mem_joined _ _), h.txns⟩

end

section
variable {l : LineId} {s u t : State} {o : Order} {x : TxnRecord}

/-- The break that ends as another begins resets the toggle copies if it was long enough (R23). -/
theorem nodes_toggles (nodes : List NodeRecord) (long : Bool) :
    (if long = true then nodes.map fun n => { n with toggle := false } else nodes) =
      nodes.map fun n => { n with toggle := n.toggle && !long } := by
  cases long <;> simp

/-- A break that has begun to be sent leaves the rest of its line. -/
theorem SendingBegun.line_eq {tx : Transmitter} (h : SendingBegun l tx s t) : t.line l = { s.line l with
    engine := (t.line l).engine, port := (t.line l).port, nodes := (t.line l).nodes } :=
  (congrArg (State.line · l) h.rest).trans (setLine_line_same _ _ _)

theorem SendingBegun.tables_eq {tx : Transmitter} (h : SendingBegun l tx s t) :
    t.txns = s.txns ∧ t.delivery = s.delivery := by
  rw [h.rest]
  cases l <;> exact ⟨rfl, rfl⟩

theorem contention_ownerKept {tx : Transmitter}
    (h : SendingBegun l tx (lineControlTake l .contention false (contentionTaken l o u)) t) :
    OwnerKept l (ownerTake l (contentionRecord l o u) (contentionOver l u)) t := by
  obtain ⟨hcontrol, state, cause, holdoff, timer, hline⟩ := lineControlTake_contention l (contentionTaken l o u)
  obtain ⟨htxns, hdelivery⟩ := h.tables_eq
  have hquiet := (contentionTaken_txnsQuiet l o u).trans hcontrol
  refine ⟨?_, htxns.trans hquiet.txns, fun r hr => ?_⟩
  · rw [h.line_eq, hline, contentionTaken_line]
  · rw [hdelivery]
    exact (hquiet.done r).2 hr

/-- The line's state after a CONTENTION in RUNNING (R121). -/
theorem contention_running {tx : Transmitter}
    (h : SendingBegun l tx (lineControlTake l .contention false (contentionTaken l o u)) t)
    (hl : (u.line l).lineState = .running) : .lineState l ∈ t.delivery.queue ∧
      ((u.line l).sched.contentionCount + 1 < 4 →
        (t.line l).lineState = .holdoff ∧ (t.line l).cause = .contention) ∧
      (4 ≤ (u.line l).sched.contentionCount + 1 →
        (t.line l).lineState = .fault ∧ (t.line l).cause = .contentionLimit ∧
          (t.line l).sched.roundTimer = .stopped) := by
  have hstate : ((contentionTaken l o u).line l).lineState = .running := by rwa [contentionTaken_line]
  have hcount : ((contentionTaken l o u).line l).sched.contentionCount = (u.line l).sched.contentionCount + 1 := by
    rw [contentionTaken_line]
  rw [h.tables_eq.2, h.line_eq]
  rcases Nat.lt_or_ge ((u.line l).sched.contentionCount + 1) 4 with hc | hc
  · rw [lineControlTake_holdoff hstate (by rwa [hcount])]
    refine ⟨mem_joined _ _, fun _ => ?_, fun h => absurd hc (Nat.not_lt.2 h)⟩
    rw [withReports_line, modifyLine_line_same]
    exact ⟨rfl, rfl⟩
  · rw [lineControlTake_limit hstate (by rwa [hcount])]
    unfold faulted
    refine ⟨?_, fun h => absurd h (Nat.not_lt.2 hc), fun _ => ?_⟩
    · rw [modifyLine_delivery]
      exact mem_joined _ _
    · rw [modifyLine_line_same]
      exact ⟨rfl, rfl, rfl⟩

/-- The contended transaction of the exchange (R102). -/
theorem contention_transaction {tx : Transmitter}
    (h : SendingBegun l tx (lineControlTake l .contention false (contentionTaken l o u)) t)
    (howner : ownerTake l (contentionRecord l o u) (contentionOver l u) =
      takeTxnVerdict l x.reference (contentionRecord l o u) (contentionOver l u))
    (hrefs : (u.txns.map (·.reference)).Nodup) (hx : x ∈ u.txns) {framesSent : Nat}
    (hframes : (u.line l).engine.framesSent = framesSent) :
    (isReturned (contentionNoted framesSent x) = true → TxnReturned l x framesSent u t) ∧
      (¬ isReturned (contentionNoted framesSent x) = true →
        TxnContended l x framesSent (failureResult x.kind) u t) := by
  subst hframes
  have hkept := contention_ownerKept h
  rw [howner] at hkept
  have htxns : (contentionOver l u).txns = u.txns := modifyLine_txns _ _ _
  have hqueue : ((contentionOver l u).line l).txnQueue = (u.line l).txnQueue := by
    unfold contentionOver
    rw [modifyLine_line_same]
  refine ⟨fun hr => ?_, fun hr => ?_⟩
  · obtain ⟨q, k⟩ := hkept.returned (by rwa [htxns]) (by rwa [htxns]) rfl hr
    exact ⟨by rw [q, hqueue], by rw [k, htxns]; rfl⟩
  · obtain ⟨q, d, k⟩ := hkept.contended (by rwa [htxns]) (by rwa [htxns]) rfl hr
    exact ⟨by rw [q, hqueue], d, by rw [k, htxns]; rfl⟩

end

/-- Settles O50: the exchange's end and delivery first, on whose line the jam break begins. -/
theorem contentionEndsTheExchange : Obligations.ContentionEndsTheExchange := by
  unfold Obligations.ContentionEndsTheExchange
  rintro l periods s u hr rfl
  refine ⟨fun h => exec_contention_waits hr (mayContend_false h), fun o chars position htx hecho hp ho =>
    ⟨_, exec_contention_ends hr (mayContend_true htx hecho hp), ?_⟩⟩
  have hother := (((playPeriods_work (l := l) periods s).trans (endAttempt_work (plainResult .contention) _)).trans
    (sendBreak_work true 352 _)).other
  have hbegun := sendBreak_begun l true 352 (endAttempt l (plainResult .contention) (playPeriods l periods s))
  generalize sendBreak l true 352 _ = t at hother hbegun ⊢
  rw [endAttempt_contention ho] at hbegun
  have htxns : (playPeriods l periods s).txns = s.txns := modifyLine_txns _ _ _
  obtain ⟨idleWait, quiet, window, gap, settling, port, hperiods⟩ := playPeriods_line l periods s
  have hframes : ((playPeriods l periods s).line l).engine.framesSent = (s.line l).engine.framesSent := by
    rw [hperiods]
  have hqueue : ((playPeriods l periods s).line l).txnQueue = (s.line l).txnQueue := by rw [hperiods]
  clear hperiods
  generalize playPeriods l periods s = u at *
  obtain ⟨-, state, cause, holdoff, timer, hline⟩ := lineControlTake_contention l (contentionTaken l o u)
  rw [contentionTaken_line] at hline
  refine ⟨?engine, ?port, ?counters, ?count, contention_running hbegun, ?stopping, ?nodes, hother,
    fun x hx hrefs => ⟨?read, ?write⟩⟩
  case engine =>
    rw [hbegun.engine, hline]
    rfl
  case port => rw [hbegun.breakSent true 352 rfl, hline]
  case counters => rw [hbegun.line_eq, hline]
  case count => rw [hbegun.line_eq, hline]
  case stopping =>
    intro hl
    have hstate : ((contentionTaken l o u).line l).lineState = .stopping := by rwa [contentionTaken_line]
    rw [hbegun.line_eq, lineControlTake_unchanged (by rw [hstate]; exact LineState.noConfusion)]
    exact hstate
  case nodes =>
    refine (hbegun.toggles.trans ?_).trans
      (nodes_toggles ((u.line l).nodes.map (contentionSeen o)) ((u.line l).port.inBreak.any _))
    rw [hline]
  case read =>
    intro node uid channel maxReply start hk hkind
    have howner := contention_transaction (x := x) hbegun (by unfold ownerTake contentionRecord; rw [hk])
      (by rwa [htxns]) (by rwa [htxns]) hframes
    rw [isReturned_read hkind, hkind] at howner
    exact ⟨fun h => (howner.1 h).of_same htxns hqueue, fun h => (howner.2 (Nat.not_lt.2 h)).of_same htxns hqueue⟩
  case write =>
    intro node uid channel data start hk hkind
    have howner := contention_transaction (x := x) hbegun (by unfold ownerTake contentionRecord; rw [hk])
      (by rwa [htxns]) (by rwa [htxns]) hframes
    rw [isReturned_write hkind, hkind] at howner
    exact ⟨fun h h0 => (howner.1 ⟨h, h0⟩).of_same htxns hqueue,
      fun h => (howner.2 (by omega)).of_same htxns hqueue⟩

end Sys2Proof.Machine
end

section
/-! SUPPORT. The Node Table: every step keeps the records of both lines sound, and NODE_ADD and NODE_REMOVE by their
operands (R44, R45). -/

namespace Sys2Proof.Machine

open Sys2Proof

/-! ### The invariant of the Node Table (R42, R43, R59) -/

/-- A port is no part of a line's Node Table. -/
theorem NodesSound.withPort {x : Line} (h : NodesSound x) (port : LinePort) : NodesSound { x with port := port } :=
  h.congr rfl rfl

theorem pinReset_nodes (rate1 rate0 levelA levelB : PinLevel) (s : State) (k : LineId) :
    NodesSound ((pinReset rate1 rate0 levelA levelB s).line k) := by
  cases k
  · exact initial_nodesSound.withPort _
  · exact initial_nodesSound.withPort _

theorem holdInReset_nodes {s : State} (h : ∀ k, NodesSound (s.line k)) (k : LineId) :
    NodesSound ((holdInReset s).line k) := by
  cases k
  · exact (h .a).withPort _
  · exact (h .b).withPort _

/-- Settles O58: the parts of a step, by `step_keeps`; an event of a line keeps that line's table and touches no other,
and a request keeps both. -/
theorem stepsKeepTheNodeTable : Obligations.StepsKeepTheNodeTable := by
  unfold Obligations.StepsKeepTheNodeTable
  intro s t hs ht
  refine step_keeps (P := fun s => ∀ k, NodesSound (s.line k)) hs ht ?dequeued ?tick ?reset ?held ?granted ?line ?host
    ?request
  case dequeued => exact fun s rest h k => line_eq (s := s) rfl rfl k ▸ h k
  case tick => exact fun s h k => (h k).congr (clkTick_line s k).1.nodes (clkTick_line s k).1.config
  case reset => exact fun rate1 rate0 levelA levelB s _ => pinReset_nodes rate1 rate0 levelA levelB s
  case held => exact fun _ => holdInReset_nodes
  case granted => exact fun s h k => (outbound_deliveryWork s).lines k ▸ h k
  case line => exact fun l f s hf _ h => bothLines h (lineEvent_work hf s) ((nodesKeep l).event (h l) hf)
  case host => exact fun f s hf _ h k => (hostEvent_work hf s).lines k ▸ h k
  case request => exact fun accepts run s hr _ h => takeRequest_nodes hr h

/-! ### The line and the address of a request (R44, R45, R46) -/

theorem lineOfCode_lineCode (l : LineId) : lineOfCode (lineCode l).toNat = some l := by
  cases l <;> rfl

theorem lineOfCode_none {code : Nat} (h : 1 < code) : lineOfCode code = none := by
  match code with
  | 0 | 1 => omega
  | _ + 2 => rfl

theorem isNodeAddress_iff {n : Nat} : isNodeAddress n = true ↔ 1 ≤ n ∧ n ≤ 30 := by
  simp [isNodeAddress]

section

variable {run : LineId → Nat → State → State × List Byte} {s : State} {line address : Byte}

theorem onNode_runs (l : LineId) (h1 : 1 ≤ address.toNat) (h30 : address.toNat ≤ 30) :
    onNode [lineCode l, address] run s = run l address.toNat s := by
  unfold onNode onLine
  rw [show field [lineCode l, address] 0 = (lineCode l).toNat from rfl, lineOfCode_lineCode]
  exact if_pos (isNodeAddress_iff.2 ⟨h1, h30⟩)

theorem onNode_refuses (h : 1 < line.toNat ∨ address.toNat = 0 ∨ 30 < address.toNat) :
    onNode [line, address] run s = refuseWith .badField s := by
  unfold onNode onLine
  rw [show field [line, address] 0 = line.toNat from rfl]
  cases hl : lineOfCode line.toNat with
  | none => rfl
  | some l =>
    refine if_neg fun ha => ?_
    have hrange : 1 ≤ address.toNat ∧ address.toNat ≤ 30 := isNodeAddress_iff.1 ha
    rcases h with hline | haddress
    · exact absurd (hl.symm.trans (lineOfCode_none hline)) (Option.some_ne_none l)
    · omega

end

/-! ### A record of the table -/

theorem findNode_none {s : State} {l : LineId} {address : Nat} (h : ∀ n ∈ (s.line l).nodes, n.address ≠ address) :
    findNode s l address = none :=
  List.find?_eq_none.2 fun n hn => by simpa using h n hn

/-- A record that joins under a free address leaves the table in ascending order. -/
theorem insertNode_ascending {n : NodeRecord} {nodes : List NodeRecord} (hfree : ∀ k ∈ nodes, k.address ≠ n.address)
    (h : nodes.Pairwise fun p q => p.address < q.address) :
    (insertNode n nodes).Pairwise fun p q => p.address < q.address := by
  induction nodes with
  | nil => exact List.pairwise_singleton _ _
  | cons m rest ih =>
    obtain ⟨hm, hrest⟩ := List.pairwise_cons.1 h
    have hne : m.address ≠ n.address := hfree m List.mem_cons_self
    unfold insertNode
    split
    next hlt =>
      refine List.pairwise_cons.2 ⟨fun k hk => ?_, h⟩
      rcases List.mem_cons.1 hk with rfl | hk
      · exact hlt
      · exact hlt.trans (hm k hk)
    next hle =>
      refine List.pairwise_cons.2 ⟨fun k hk => ?_, ih (fun k hk => hfree k (List.mem_cons_of_mem _ hk)) hrest⟩
      rcases List.mem_cons.1 ((insertNode_perm n rest).mem_iff.1 hk) with rfl | hk
      · omega
      · exact hm k hk

/-- Addresses are distinct, so that the other records are those at other addresses (R42). -/
theorem filter_address_ne {nodes : List NodeRecord} (hn : (nodes.map (·.address)).Nodup) {n : NodeRecord}
    (h : n ∈ nodes) : nodes.filter (fun k => k.address ≠ n.address) = nodes.filter fun k => k ≠ n := by
  refine List.filter_congr fun k hk => decide_eq_decide.2 (not_congr ⟨?_, congrArg _⟩)
  exact List.inj_on_of_nodup_map hn hk h

theorem subsNaming_eq_zero {s : State} {l : LineId} {address : Nat} :
    subsNaming s l address = 0 ↔ ∀ r ∈ s.subs, ¬(r.line = l ∧ r.node = address) := by
  simp [subsNaming]

theorem txnsNaming_eq_zero {s : State} {l : LineId} {address : Nat} :
    txnsNaming s l address = 0 ↔ ∀ t ∈ s.txns, ¬(t.line = l ∧ t.node = address) := by
  simp [txnsNaming]

/-! ### The requests carried out -/

section

variable {s : State} {m : Message} {rest : List Message} {line address : Byte}

/-- A request of the Node Table is two bytes long, a line and an address (R177). -/
theorem takeNodeKind_ready {kind : Byte} {run : Service} (hkind : kind ∈ [kindNodeAdd, kindNodeRemove, kindNodeQuery])
    (h : Ready s m rest) (hk : m.kind = kind) (hp : m.payload = [line, address]) :
    perform (takeKind kind run) s = .next (outbound (completeRequest m (run [line, address] (headTaken s rest)))) := by
  have hallowed : kind ∈ requestKinds ∧ lengthAllowed kind [line, address] = true := by
    simp only [List.mem_cons, List.not_mem_nil, or_false] at hkind
    rcases hkind with rfl | rfl | rfl <;> exact ⟨by decide, rfl⟩
  obtain ⟨hin, hlength⟩ := hallowed
  rw [takeKind_ready h hk hin (hp ▸ hlength), hp]

theorem exec_nodeAdd (h : Ready s m rest) (hk : m.kind = 0x30) (hp : m.payload = [line, address]) :
    exec .nodeAdd s = .next (outbound (completeRequest m (runNodeAdd [line, address] (headTaken s rest)))) :=
  takeNodeKind_ready (by decide) h hk hp

theorem exec_nodeRemove (h : Ready s m rest) (hk : m.kind = 0x31) (hp : m.payload = [line, address]) :
    exec .nodeRemove s = .next (outbound (completeRequest m (runNodeRemove [line, address] (headTaken s rest)))) :=
  takeNodeKind_ready (by decide) h hk hp

end

/-- The inbox is no part of the Node Table. -/
theorem findNode_headTaken (s : State) (rest : List Message) (l : LineId) (address : Nat) :
    findNode (headTaken s rest) l address = findNode s l address := by
  cases l <;> rfl

/-! ### NODE_ADD (R44) -/

section

variable {s : State} {l : LineId} {address : Byte} (h1 : 1 ≤ address.toNat) (h30 : address.toNat ≤ 30)
include h1 h30

theorem runNodeAdd_free (hf : findNode s l address.toNat = none) :
    runNodeAdd [lineCode l, address] s = answerOk [] (addNode l address.toNat s) := by
  unfold runNodeAdd
  rw [onNode_runs l h1 h30, hf]
  rfl

theorem runNodeAdd_present {n : NodeRecord} (hf : findNode s l address.toNat = some n) :
    runNodeAdd [lineCode l, address] s = refuseWith .present s := by
  unfold runNodeAdd
  rw [onNode_runs l h1 h30, hf]
  rfl

end

theorem addNode_headTaken (l : LineId) (address : Nat) (s : State) (rest : List Message) :
    addNode l address (headTaken s rest) =
      { (headTaken s rest).modifyLine l fun x =>
          { x with nodes := insertNode (newNode address s.nextUid) (s.line l).nodes } with
        nextUid := s.nextUid + 1 } := by
  cases l <;> rfl

/-- Settles O25: the operands decide between the refusals and the new record, which `insertNode` puts in its place. -/
theorem nodeAddCreatesAPendingRecord : Obligations.NodeAddCreatesAPendingRecord := by
  unfold Obligations.NodeAddCreatesAPendingRecord
  refine ⟨fun s m rest line address h hk hp hline => ?noLine, fun s m rest l address h hk hp =>
    ⟨fun h1 h30 hfree => ?added, fun h1 h30 hpresent => ?present, fun haddress => ?badAddress⟩⟩
  case noLine =>
    rw [exec_nodeAdd h hk hp, runNodeAdd, onNode_refuses (.inl hline)]
    rfl
  case added =>
    refine ⟨insertNode (newNode address.toNat s.nextUid) (s.line l).nodes, ?_, insertNode_perm _ _,
      insertNode_ascending hfree⟩
    rw [exec_nodeAdd h hk hp, runNodeAdd_free h1 h30 ((findNode_headTaken s rest l _).trans (findNode_none hfree)),
      addNode_headTaken]
    rfl
  case present =>
    obtain ⟨n, hn, ha⟩ := hpresent
    cases hf : findNode s l address.toNat with
    | none => exact absurd (beq_iff_eq.2 ha) (List.find?_eq_none.1 hf n hn)
    | some k =>
      rw [exec_nodeAdd h hk hp, runNodeAdd_present h1 h30 ((findNode_headTaken s rest l _).trans hf)]
      rfl
  case badAddress =>
    rw [exec_nodeAdd h hk hp, runNodeAdd, onNode_refuses (.inr haddress)]
    rfl

/-! ### NODE_REMOVE (R45, R159) -/

section

variable {s : State} {l : LineId} {address : Byte} (h1 : 1 ≤ address.toNat) (h30 : address.toNat ≤ 30)
include h1 h30

theorem runNodeRemove_notFound (hf : findNode s l address.toNat = none) :
    runNodeRemove [lineCode l, address] s = refuseWith .notFound s := by
  unfold runNodeRemove
  rw [onNode_runs l h1 h30]
  rw [hf]

theorem runNodeRemove_inUse {n : NodeRecord} (hf : findNode s l address.toNat = some n)
    (hu : ¬(subsNaming s l address.toNat = 0 ∧ txnsNaming s l address.toNat = 0)) :
    runNodeRemove [lineCode l, address] s = refuseWith .inUse s := by
  unfold runNodeRemove
  rw [onNode_runs l h1 h30]
  rw [hf]
  exact if_neg hu

theorem runNodeRemove_unused {n : NodeRecord} (hf : findNode s l address.toNat = some n)
    (hu : subsNaming s l address.toNat = 0 ∧ txnsNaming s l address.toNat = 0) :
    runNodeRemove [lineCode l, address] s = answerOk [] (removeNode l n s) := by
  unfold runNodeRemove
  rw [onNode_runs l h1 h30]
  rw [hf]
  exact if_pos hu

end

/-- The one record goes, and its NODE_STATE request with it (R159). -/
theorem removeNode_headTaken {s : State} {l : LineId} (hn : ((s.line l).nodes.map (·.address)).Nodup) {n : NodeRecord}
    (h : n ∈ (s.line l).nodes) (rest : List Message) :
    removeNode l n (headTaken s rest) =
      { headTaken s rest with delivery := { s.delivery with
          queue := s.delivery.queue.filter fun r => r ≠ ReportRequest.nodeState l n.address n.uid } }.modifyLine l
        fun x => { x with nodes := x.nodes.filter fun k => k ≠ n } := by
  have hrecords :
      (headTaken s rest).modifyLine l (fun x => { x with nodes := x.nodes.filter fun k => k.address ≠ n.address }) =
        (headTaken s rest).modifyLine l fun x => { x with nodes := x.nodes.filter fun k => k ≠ n } := by
    refine modifyLine_congr (congrArg (fun nodes => { (headTaken s rest).line l with nodes := nodes }) ?_)
    rw [show (headTaken s rest).line l = s.line l from line_eq rfl rfl l]
    exact filter_address_ne hn h
  unfold removeNode
  rw [hrecords]
  cases l <;> rfl

/-- Settles O26: the operands, then the record at the address, then what names it decide the answer. -/
theorem nodeRemoveFreesAnUnusedRecord : Obligations.NodeRemoveFreesAnUnusedRecord := by
  unfold Obligations.NodeRemoveFreesAnUnusedRecord
  refine ⟨fun s m rest line address h hk hp hbad => ?badField, fun s m rest l address h hk hp h1 h30 hnodup =>
    ⟨fun hnone => ?notFound, fun n hn ha => ?found⟩⟩
  case badField =>
    rw [exec_nodeRemove h hk hp, runNodeRemove, onNode_refuses hbad]
    rfl
  case notFound =>
    rw [exec_nodeRemove h hk hp,
      runNodeRemove_notFound h1 h30 ((findNode_headTaken s rest l _).trans (findNode_none hnone))]
    rfl
  case found =>
    have hf : findNode (headTaken s rest) l address.toNat = some n :=
      (findNode_headTaken s rest l _).trans (ha ▸ findNode_of_mem hnodup hn)
    rw [exec_nodeRemove h hk hp, ha]
    refine ⟨fun hnamed => ?_, fun hsubs htxns => ?_⟩
    · have hused : ¬(subsNaming s l address.toNat = 0 ∧ txnsNaming s l address.toNat = 0) := by
        rintro ⟨hsubs, htxns⟩
        rcases hnamed with ⟨r, hr, hnames⟩ | ⟨t, ht, hnames⟩
        · exact subsNaming_eq_zero.1 hsubs r hr hnames
        · exact txnsNaming_eq_zero.1 htxns t ht hnames
      rw [runNodeRemove_inUse h1 h30 hf hused]
      rfl
    · rw [runNodeRemove_unused h1 h30 hf ⟨subsNaming_eq_zero.2 hsubs, txnsNaming_eq_zero.2 htxns⟩,
        removeNode_headTaken hnodup hn, ha]
      rfl

end Sys2Proof.Machine
end

section
/-! SUPPORT. The requests of the Subscription Table: SUB_OPEN by its fields and checks (R63 to R66), SUB_CLOSE by its
record (R74). -/

namespace Sys2Proof.Machine

open Sys2Proof

/-! ### The fields of SUB_OPEN (R63, R177) -/

theorem toNat_byteOf {n : Nat} (h : n < 256) : (byteOf n).toNat = n := by
  rw [byteOf, BitVec.toNat_ofNat, Nat.mod_eq_of_lt h]

theorem subKindOfCode_subKindCode (kind : SubKind) : subKindOfCode (subKindCode kind).toNat = some kind := by
  cases kind <;> rfl

theorem subKindOfCode_none {code : Nat} (h : 1 < code) : subKindOfCode code = none := by
  match code with
  | 0 | 1 => omega
  | _ + 2 => rfl

theorem policyOfCode_policyCode (policy : OverflowPolicy) : policyOfCode (policyCode policy).toNat = some policy := by
  cases policy <;> rfl

theorem policyOfCode_none {code : Nat} (h : 1 < code) : policyOfCode code = none := by
  match code with
  | 0 | 1 => omega
  | _ + 2 => rfl

theorem isChannel_iff {n : Nat} : isChannel n = true ↔ n ≤ 7 := decide_eq_true_iff

/-- The ranges of the numbers SUB_OPEN carries: check 1 of R64. -/
structure OpenFields.InRange (f : OpenFields) : Prop where
  node : 1 ≤ f.node ∧ f.node ≤ 30
  channel : f.channel ≤ 7
  period : 1 ≤ f.period ∧ f.period ≤ 64
  depth : 1 ≤ f.depth ∧ f.depth ≤ 8
  maxLength : f.maxLength ≤ 24

/-- The payload of SUB_OPEN (R177). -/
def OpenFields.payload (f : OpenFields) : List Byte :=
  [lineCode f.line, byteOf f.node, byteOf f.channel, subKindCode f.kind, byteOf f.period, byteOf f.depth,
    policyCode f.policy, byteOf f.maxLength]

/-- Fields read from a payload at the offsets and by the codes of R177. -/
structure OpenFields.ReadFrom (f : OpenFields) (p : List Byte) : Prop where
  line : lineOfCode (field p 0) = some f.line
  kind : subKindOfCode (field p 3) = some f.kind
  policy : policyOfCode (field p 6) = some f.policy
  node : f.node = field p 1
  channel : f.channel = field p 2
  period : f.period = field p 4
  depth : f.depth = field p 5
  maxLength : f.maxLength = field p 7

theorem openFieldsOf_eq_some_iff {p : List Byte} {f : OpenFields} :
    openFieldsOf p = some f ↔ f.ReadFrom p ∧ f.InRange := by
  constructor
  · intro h
    unfold openFieldsOf at h
    split at h
    next l kind policy hl hk ho =>
      obtain ⟨⟨hnode, hchannel, hp1, hp64, hd1, hd8, hlength⟩, hf⟩ := Option.ite_none_right_eq_some.1 h
      obtain rfl := Option.some.inj hf
      exact ⟨⟨hl, hk, ho, rfl, rfl, rfl, rfl, rfl⟩,
        ⟨isNodeAddress_iff.1 hnode, isChannel_iff.1 hchannel, ⟨hp1, hp64⟩, ⟨hd1, hd8⟩, hlength⟩⟩
    next => exact absurd h.symm (Option.some_ne_none f)
  · rintro ⟨hread, hrange⟩
    obtain ⟨line, node, channel, kind, period, depth, policy, maxLength⟩ := f
    obtain ⟨hl, hk, ho, rfl, rfl, rfl, rfl, rfl⟩ := hread
    unfold openFieldsOf
    rw [hl, hk, ho]
    exact if_pos ⟨isNodeAddress_iff.2 hrange.node, isChannel_iff.2 hrange.channel, hrange.period.1, hrange.period.2,
      hrange.depth.1, hrange.depth.2, hrange.maxLength⟩

theorem openFieldsOf_payload {f : OpenFields} (h : f.InRange) : openFieldsOf f.payload = some f := by
  have ⟨hnode, hchannel, hperiod, hdepth, hlength⟩ := h
  refine openFieldsOf_eq_some_iff.2 ⟨⟨lineOfCode_lineCode _, subKindOfCode_subKindCode _, policyOfCode_policyCode _,
    ?_, ?_, ?_, ?_, ?_⟩, h⟩
  all_goals exact (toNat_byteOf (by omega)).symm

theorem openFieldsOf_outOfRange {line node channel kind period depth policy maxLength : Byte}
    (h : 1 < line.toNat ∨ node.toNat = 0 ∨ 30 < node.toNat ∨ 7 < channel.toNat ∨ 1 < kind.toNat ∨
      period.toNat = 0 ∨ 64 < period.toNat ∨ depth.toNat = 0 ∨ 8 < depth.toNat ∨ 1 < policy.toNat ∨
      24 < maxLength.toNat) :
    openFieldsOf [line, node, channel, kind, period, depth, policy, maxLength] = none := by
  refine Option.eq_none_iff_forall_ne_some.2 fun f hf => ?_
  obtain ⟨hread, hrange⟩ := openFieldsOf_eq_some_iff.1 hf
  have hline : ¬ 1 < line.toNat := fun hc => Option.some_ne_none _ (hread.line.symm.trans (lineOfCode_none hc))
  have hkind : ¬ 1 < kind.toNat := fun hc => Option.some_ne_none _ (hread.kind.symm.trans (subKindOfCode_none hc))
  have hpolicy : ¬ 1 < policy.toNat := fun hc =>
    Option.some_ne_none _ (hread.policy.symm.trans (policyOfCode_none hc))
  have hnode : f.node = node.toNat := hread.node
  have hchannel : f.channel = channel.toNat := hread.channel
  have hperiod : f.period = period.toNat := hread.period
  have hdepth : f.depth = depth.toNat := hread.depth
  have hlength : f.maxLength = maxLength.toNat := hread.maxLength
  obtain ⟨_, _, _, _, _⟩ := hrange
  omega

/-! ### The checks of SUB_OPEN (R64) -/

theorem fitsProfile_iff {profile : Option Profile} {channel length : Nat} :
    fitsProfile profile channel length = true ↔
      ∀ p, profile = some p → channel < p.channels ∧ length ≤ p.maxPayload := by
  cases profile with
  | none => simp [fitsProfile]
  | some p => simp [fitsProfile]

theorem channelTaken_iff {s : State} {f : OpenFields} : channelTaken s f = true ↔
    ∃ r ∈ s.subs, r.state ≠ .closing ∧ r.line = f.line ∧ r.node = f.node ∧ r.channel = f.channel := by
  simp [channelTaken, SubRecord.isOpen, and_assoc]

theorem findSub_eq_none_iff {s : State} {id : Nat} : findSub s id = none ↔ ∀ r ∈ s.subs, r.id ≠ id := by
  simp [findSub]

theorem findSub_isNone_eq_false_iff {s : State} {id : Nat} :
    (findSub s id).isNone = false ↔ ∃ r ∈ s.subs, r.id = id := by
  simp [findSub]

/-- Every id is held (R62). -/
theorem lowestFreeId_none {s : State} (h : ∀ id, 1 ≤ id → id ≤ 48 → ∃ r ∈ s.subs, r.id = id) :
    lowestFreeId s = none := by
  refine List.find?_eq_none.2 fun id hid => ?_
  obtain ⟨k, hk, rfl⟩ := List.mem_map.1 hid
  rw [findSub_isNone_eq_false_iff.2 (h (k + 1) (by omega) (List.mem_range.1 hk))]
  exact Bool.false_ne_true

theorem lowestFreeId_some {s : State} {id : Nat} (h1 : 1 ≤ id) (h48 : id ≤ 48) (hfree : ∀ r ∈ s.subs, r.id ≠ id)
    (hlower : ∀ k, 1 ≤ k → k < id → ∃ r ∈ s.subs, r.id = k) : lowestFreeId s = some id := by
  obtain ⟨place, rfl⟩ : ∃ place, id = place + 1 := ⟨id - 1, by omega⟩
  unfold lowestFreeId
  rw [List.find?_map, List.find?_range_eq_some.2 ⟨?_, List.mem_range.2 h48, fun k hk => ?_⟩]
  · rfl
  · exact Option.isNone_iff_eq_none.2 (findSub_eq_none_iff.2 hfree)
  · rw [Function.comp, findSub_isNone_eq_false_iff.2 (hlower (k + 1) (by omega) (by omega))]
    rfl

/-- The reservations not yet in use (R79). -/
theorem emptyOpen_eq (s : State) :
    emptyOpen s = (s.subs.filter fun r => r.state != .closing && r.queue == []).length := by
  unfold emptyOpen
  congr 2
  funext r
  cases r.queue <;> rfl

section

variable {f : OpenFields} {s : State} {n : NodeRecord}

theorem judgeOpen_notFound (hnode : findNode s f.line f.node = none) : judgeOpen f s = refuseWith .notFound s := by
  unfold judgeOpen
  rw [hnode]

theorem judgeOpen_unfit (hnode : findNode s f.line f.node = some n)
    (hfit : fitsProfile n.profile f.channel f.maxLength = false) : judgeOpen f s = refuseWith .badField s := by
  unfold judgeOpen
  rw [hnode]
  exact if_pos hfit

theorem judgeOpen_present (hnode : findNode s f.line f.node = some n)
    (hfit : fitsProfile n.profile f.channel f.maxLength = true) (htaken : channelTaken s f = true) :
    judgeOpen f s = refuseWith .present s := by
  unfold judgeOpen
  rw [hnode]
  dsimp only
  rw [hfit, htaken]
  rfl

/-- Checks 2 to 4 passed, the free ids and the free blocks decide (R65, R79). -/
theorem judgeOpen_room (hnode : findNode s f.line f.node = some n)
    (hfit : fitsProfile n.profile f.channel f.maxLength = true) (htaken : channelTaken s f = false) :
    judgeOpen f s = match lowestFreeId s with
      | none => refuseWith .noRoom s
      | some id =>
        if emptyOpen s < s.freeBlocks then answerOk [byteOf id] (openSub id f n s) else refuseWith .noRoom s := by
  unfold judgeOpen
  rw [hnode]
  dsimp only
  rw [hfit, htaken]
  rfl

theorem judgeOpen_noRoom (hnode : findNode s f.line f.node = some n)
    (hfit : fitsProfile n.profile f.channel f.maxLength = true) (htaken : channelTaken s f = false)
    (hroom : lowestFreeId s = none ∨ s.freeBlocks ≤ emptyOpen s) : judgeOpen f s = refuseWith .noRoom s := by
  rw [judgeOpen_room hnode hfit htaken]
  cases hid : lowestFreeId s with
  | none => rfl
  | some id => exact if_neg (Nat.not_lt.2 (hroom.resolve_left (hid ▸ Option.some_ne_none id)))

theorem judgeOpen_opens (hnode : findNode s f.line f.node = some n)
    (hfit : fitsProfile n.profile f.channel f.maxLength = true) (htaken : channelTaken s f = false) {id : Nat}
    (hid : lowestFreeId s = some id) (hroom : emptyOpen s < s.freeBlocks) :
    judgeOpen f s = answerOk [byteOf id] (openSub id f n s) := by
  rw [judgeOpen_room hnode hfit htaken, hid]
  exact if_pos hroom

end

/-! ### The record SUB_OPEN creates (R61, R65, R66) -/

/-- ACTIVE with the next round due if its node is in service, WAITING if not. -/
def openedSub (id uid : Nat) (f : OpenFields) (nodeState : NodeState) (round : Word16) : SubRecord :=
  { newSub id uid f with
    state := if nodeState = .online ∨ nodeState = .suspect then .active else .waiting
    phase := if nodeState = .online ∨ nodeState = .suspect then some ((round + 1).toNat % f.period) else none
    resumed := nodeState == .online || nodeState == .suspect }

theorem openSub_eq (id : Nat) (f : OpenFields) (n : NodeRecord) (s : State) : openSub id f n s = { s with
    subs := insertSub (openedSub id s.nextUid f n.state (s.line f.line).sched.roundNumber) s.subs
    nextUid := s.nextUid + 1 } := by
  have hrecord : (if n.state.inService then enterActive (s.line f.line).sched.roundNumber (newSub id s.nextUid f)
      else newSub id s.nextUid f) = openedSub id s.nextUid f n.state (s.line f.line).sched.roundNumber := by
    cases n.state <;> rfl
  exact congrArg (fun r => { s with subs := insertSub r s.subs, nextUid := s.nextUid + 1 }) hrecord

/-! ### SUB_OPEN carried out -/

section

variable {s : State} {m : Message} {rest : List Message}

theorem exec_subOpen (h : Ready s m rest) (hk : m.kind = 0x40) (hlength : m.payload.length = 8) :
    exec .subOpen s = .next (outbound (completeRequest m (runSubOpen m.payload (headTaken s rest)))) :=
  takeKind_ready h hk (by decide) (beq_iff_eq.2 hlength)

theorem exec_subOpen_inRange {f : OpenFields} (h : Ready s m rest) (hk : m.kind = 0x40) (hp : m.payload = f.payload)
    (hf : f.InRange) :
    exec .subOpen s = .next (outbound (completeRequest m (judgeOpen f (headTaken s rest)))) := by
  rw [exec_subOpen h hk (hp ▸ rfl), hp]
  unfold runSubOpen
  rw [openFieldsOf_payload hf]

end

/-- Settles O28: the checks of R64 in their order, each by the lemma of its answer; the message taken from the inbox is
no part of what they read. -/
theorem subOpenCreatesTheSubscription : Obligations.SubOpenCreatesTheSubscription := by
  unfold Obligations.SubOpenCreatesTheSubscription
  refine ⟨fun s m rest l kind policy node channel period depth maxLength h hk hp hn1 hn30 hchannel hp1 hp64 hd1 hd8
    hlength => ?inRange, fun s m rest line node channel kind period depth policy maxLength h hk hp hbad => ?outOfRange⟩
  case inRange =>
    let f : OpenFields := ⟨l, node, channel, kind, period, depth, policy, maxLength⟩
    rw [exec_subOpen_inRange (f := f) h hk hp ⟨⟨hn1, hn30⟩, hchannel, ⟨hp1, hp64⟩, ⟨hd1, hd8⟩, hlength⟩]
    refine ⟨fun hnone => ?notFound, fun n hn ha hnodup => ?found⟩
    case notFound =>
      rw [judgeOpen_notFound ((findNode_headTaken s rest l node).trans (findNode_none hnone))]
      rfl
    case found =>
      have hnode : findNode (headTaken s rest) f.line f.node = some n :=
        (findNode_headTaken s rest l node).trans (ha ▸ findNode_of_mem hnodup hn)
      refine ⟨fun p hprofile hunfit => ?unfit, fun hfits => ?fit⟩
      case unfit =>
        have hfit : fitsProfile n.profile channel maxLength = false := by
          refine Bool.eq_false_iff.2 fun hc => ?_
          have hp := fitsProfile_iff.1 hc p hprofile
          omega
        rw [judgeOpen_unfit hnode hfit]
        rfl
      case fit =>
        have hfit : fitsProfile n.profile channel maxLength = true := fitsProfile_iff.2 hfits
        refine ⟨fun htaken => ?present, fun hfree => ?free⟩
        case present =>
          rw [judgeOpen_present hnode hfit (channelTaken_iff.2 htaken)]
          rfl
        case free =>
          have htaken : channelTaken (headTaken s rest) f = false :=
            Bool.eq_false_iff.2 fun hc => by
              obtain ⟨r, hr, hopen⟩ := channelTaken_iff.1 hc
              exact hfree r hr hopen
          refine ⟨fun hroom => ?noRoom, fun id hi1 hi48 hid hlower hroom => ?opened⟩
          case noRoom =>
            have hnoRoom : lowestFreeId (headTaken s rest) = none ∨ s.freeBlocks ≤ emptyOpen (headTaken s rest) :=
              hroom.imp (fun hheld => lowestFreeId_none hheld) fun hblocks => (emptyOpen_eq _).symm ▸ hblocks
            rw [judgeOpen_noRoom hnode hfit htaken hnoRoom]
            rfl
          case opened =>
            have hlowest : lowestFreeId (headTaken s rest) = some id := lowestFreeId_some hi1 hi48 hid hlower
            refine ⟨insertSub (openedSub id s.nextUid f n.state (s.line l).sched.roundNumber) s.subs, ?_,
              insertSub_perm _ _⟩
            rw [judgeOpen_opens hnode hfit htaken hlowest ((emptyOpen_eq _).symm ▸ hroom), openSub_eq,
              show (headTaken s rest).line f.line = s.line l from line_eq rfl rfl l]
            rfl
  case outOfRange =>
    rw [exec_subOpen h hk (hp ▸ rfl), hp]
    unfold runSubOpen
    rw [openFieldsOf_outOfRange hbad]
    rfl

/-! ### SUB_CLOSE (R74, R94, R159) -/

/-- Two withdrawals leave what neither names (R159). -/
theorem withdrawReport_withdrawReport (r q : ReportRequest) (s : State) : withdrawReport q (withdrawReport r s) =
    { s with delivery := { s.delivery with queue := s.delivery.queue.filter fun x => x ≠ r ∧ x ≠ q } } := by
  have hqueue : (s.delivery.queue.filter (· ≠ r)).filter (· ≠ q) = s.delivery.queue.filter fun x => x ≠ r ∧ x ≠ q := by
    rw [List.filter_filter]
    exact List.filter_congr fun x _ => by rw [Bool.decide_and, Bool.and_comm]
  exact congrArg (fun queue => { s with delivery := { s.delivery with queue := queue } }) hqueue

theorem prunePolls_singleton (l : LineId) (id : Nat) (s : State) : prunePolls l [id] s = s.modifyLine l fun x =>
    { x with sched := { x.sched with pollList := x.sched.pollList.filter fun k => k ≠ id } } := by
  simp [prunePolls]

/-- A record that is freed takes its update with it. -/
theorem freeSub_updateSub {id uid : Nat} {g : SubRecord → SubRecord} (hg : KeepsKey g) (s : State) :
    freeSub id uid (updateSub id uid g s) = freeSub id uid s := by
  rw [freeSub_eq, freeSub_eq, updateSub_eq]
  congr 1
  dsimp only
  induction s.subs with
  | nil => rfl
  | cons r rest ih =>
    by_cases h : r.id = id ∧ r.uid = uid
    · rw [List.map_cons, if_pos h, List.filter_cons_of_neg (by simp [h, hg r]), ih,
        List.filter_cons_of_neg (by simp [h])]
    · rw [List.map_cons, if_neg h, List.filter_cons_of_pos (by simp [h]), ih,
        List.filter_cons_of_pos (by simp [h])]

/-- Ids are distinct, so that freeing a record leaves all others (R62). -/
theorem freeSub_of_mem {s : State} (hn : (s.subs.map (·.id)).Nodup) {r : SubRecord} (hr : r ∈ s.subs) :
    freeSub r.id r.uid s = { s with subs := s.subs.filter fun q => q ≠ r } := by
  rw [freeSub_eq]
  congr 1
  refine List.filter_congr fun q hq => decide_eq_decide.2 (not_congr ⟨fun h => ?_, ?_⟩)
  · exact List.inj_on_of_nodup_map hn hq hr h.1
  · rintro rfl
    exact ⟨rfl, rfl⟩

/-- Steps 1 to 3 of R74 but for the record: its blocks are free, its reports are withdrawn and its poll list entry is
gone. -/
def subReleased (r : SubRecord) (s : State) : State :=
  { s with
    freeBlocks := s.freeBlocks + r.queue.length
    delivery := { s.delivery with queue := s.delivery.queue.filter fun x =>
      x ≠ ReportRequest.sampleReady r.id r.uid ∧ x ≠ ReportRequest.subState r.id r.uid } }.modifyLine r.line
    fun x => { x with sched := { x.sched with pollList := x.sched.pollList.filter fun k => k ≠ r.id } }

/-- A record without samples, its notice NONE. -/
def subEmptied (q : SubRecord) : SubRecord := { q with queue := [], notice := .none }

theorem subEmptied_key : KeepsKey subEmptied := fun _ => ⟨rfl, rfl⟩

/-- The record of a subscription closed while its poll is in flight. -/
def subClosing (q : SubRecord) : SubRecord :=
  { q with state := .closing, faultReason := none, queue := [], notice := .none }

/-- What SUB_CLOSE releases and what becomes of the record are apart. -/
theorem closeSub_eq (r : SubRecord) (s : State) : closeSub r s =
    subReleased r (if r.pollInFlight then updateSub r.id r.uid subClosing s else freeSub r.id r.uid s) := by
  have hclosing : updateSub r.id r.uid subClosing s =
      updateSub r.id r.uid (fun q => { q with state := .closing, faultReason := none })
        (updateSub r.id r.uid subEmptied s) := by
    rw [updateSub_updateSub subEmptied_key]
    rfl
  unfold closeSub
  dsimp only
  rw [withdrawReport_withdrawReport, prunePolls_singleton, hclosing, ← freeSub_updateSub subEmptied_key s]
  unfold subReleased
  cases r.pollInFlight <;> cases r.line <;> rfl

/-- Ids are distinct, so that only the record closed changes or goes (R62). -/
theorem closeSub_of_mem {s : State} (hn : (s.subs.map (·.id)).Nodup) {r : SubRecord} (hr : r ∈ s.subs) :
    closeSub r s = subReleased r { s with
      subs := if r.pollInFlight then s.subs.map fun q => if q = r then subClosing q else q
        else s.subs.filter fun q => q ≠ r } := by
  rw [closeSub_eq, updateSub_of_mem hn hr, freeSub_of_mem hn hr]
  cases r.pollInFlight <;> rfl

theorem runSubClose_notOpen {s : State} {id : Byte} (h : ∀ r ∈ s.subs, r.id = id.toNat → r.state = .closing) :
    runSubClose [id] s = refuseWith .notFound s := by
  unfold runSubClose
  rw [show field [id] 0 = id.toNat from rfl]
  cases hf : findSub s id.toNat with
  | none => rfl
  | some r =>
    obtain ⟨hr, hi⟩ := findSub_mem hf
    have hclosed : r.isOpen = false := by rw [SubRecord.isOpen, h r hr hi]; rfl
    exact if_neg (hclosed ▸ Bool.false_ne_true)

theorem runSubClose_open {s : State} (hn : (s.subs.map (·.id)).Nodup) {r : SubRecord} (hr : r ∈ s.subs) {id : Byte}
    (hi : r.id = id.toNat) (hopen : r.state ≠ .closing) : runSubClose [id] s = answerOk [] (closeSub r s) := by
  unfold runSubClose
  rw [show field [id] 0 = r.id from hi.symm, findSub_of_mem hn hr]
  exact if_pos (bne_iff_ne.2 hopen)

theorem exec_subClose {s : State} {m : Message} {rest : List Message} {id : Byte} (h : Ready s m rest)
    (hk : m.kind = 0x41) (hp : m.payload = [id]) :
    exec .subClose s = .next (outbound (completeRequest m (runSubClose [id] (headTaken s rest)))) :=
  (takeKind_ready h hk (by decide) (hp ▸ rfl)).trans (by rw [hp])

/-- Settles O29: the record the id finds decides between NOT_FOUND and the close. -/
theorem subCloseReleasesTheSubscription : Obligations.SubCloseReleasesTheSubscription := by
  unfold Obligations.SubCloseReleasesTheSubscription
  refine fun s m rest id h hk hp hnodup => ⟨fun hclosing => ?notFound, fun r hr hi hopen => ?closed⟩
  case notFound =>
    rw [exec_subClose h hk hp, runSubClose_notOpen (s := headTaken s rest) hclosing]
    rfl
  case closed =>
    rw [exec_subClose h hk hp, runSubClose_open (s := headTaken s rest) hnodup hr hi hopen,
      closeSub_of_mem (s := headTaken s rest) hnodup hr]
    rfl

end Sys2Proof.Machine
end

section
/-! SUPPORT. The Sample Store: every step keeps the pool of blocks, SUB_FETCH takes the oldest samples (R89 to R92), and
the overflow policies of an offer without room (R83, R84). -/

namespace Sys2Proof.Machine

open Sys2Proof

/-! ### The invariant of the pool (R78, R79, R82, R86) -/

theorem clkTick_pool {s : State} (h : PoolConserved s) : PoolConserved (clkTick s) := by
  unfold clkTick
  dsimp only
  split
  · exact h
  · split
    · exact h.congr rfl rfl
    · exact h.congr rfl rfl

/-- Settles O57: the parts of a step, by `step_keeps`. The blocks and the records change only in a reset, which empties
the table, in a verdict or another event of a line, and in a request. -/
theorem stepsKeepTheSamplePool : Obligations.StepsKeepTheSamplePool := by
  unfold Obligations.StepsKeepTheSamplePool
  intro s t hs ht
  refine step_keeps (P := PoolConserved) hs ht ?dequeued ?tick ?reset ?held ?granted ?line ?host ?request
  case dequeued => exact fun _ _ h => h.congr rfl rfl
  case tick => exact fun _ => clkTick_pool
  case reset => exact fun _ _ _ _ _ _ => reset_poolConserved.congr rfl rfl
  case held => exact fun _ h => h.congr rfl rfl
  case granted => exact fun _ => outbound_pool
  case line => exact fun l _ _ hf _ h => (poolKeeps l).event h hf
  case host => exact fun _ _ hf _ => hostEvent_pool hf
  case request => exact fun _ _ _ hr _ => takeRequest_pool hr

/-! ### What a fetch takes (R90) -/

/-- The bytes samples take in the response to a fetch. -/
def fetchBytes (xs : List Sample) : Nat := (xs.map fun x => 10 + x.payload.length).sum

theorem fetchBytes_cons (x : Sample) (xs : List Sample) :
    fetchBytes (x :: xs) = 10 + x.payload.length + fetchBytes xs := rfl

/-- Samples taken from the head of a queue up to a count and a room in bytes, as many as either allows. -/
structure TakesOldest (count room : Nat) (queue taken left : List Sample) : Prop where
  split : queue = taken ++ left
  count_le : taken.length ≤ count
  fits : fetchBytes taken ≤ room
  stops : taken.length = count ∨ left = [] ∨
    ∃ x after, left = x :: after ∧ room < fetchBytes taken + (10 + x.payload.length)

/-- Nothing is taken where one of the conditions to stop holds at once. -/
theorem TakesOldest.none {count room : Nat} {queue : List Sample}
    (h : count = 0 ∨ queue = [] ∨ ∃ x after, queue = x :: after ∧ room < 10 + x.payload.length) :
    TakesOldest count room queue [] queue where
  split := rfl
  count_le := Nat.zero_le _
  fits := Nat.zero_le _
  stops := by
    rw [show fetchBytes [] = 0 from rfl]
    simpa [eq_comm] using h

/-- A sample that fits is taken before the ones that fit in the rest of the room. -/
theorem TakesOldest.cons {count room : Nat} {x : Sample} {queue taken left : List Sample}
    (hx : 10 + x.payload.length ≤ room)
    (h : TakesOldest count (room - (10 + x.payload.length)) queue taken left) :
    TakesOldest (count + 1) room (x :: queue) (x :: taken) left where
  split := congrArg (x :: ·) h.split
  count_le := Nat.succ_le_succ h.count_le
  fits := by
    have := h.fits
    rw [fetchBytes_cons]
    omega
  stops := by
    rw [fetchBytes_cons]
    refine h.stops.imp (congrArg (· + 1)) (Or.imp_right ?_)
    rintro ⟨y, after, hleft, hy⟩
    exact ⟨y, after, hleft, by omega⟩

theorem fetchCount_takesOldest (count room : Nat) (queue : List Sample) :
    TakesOldest count room queue (queue.take (fetchCount count room queue))
      (queue.drop (fetchCount count room queue)) := by
  induction count, room, queue using fetchCount.induct with
  | case1 room queue =>
    rw [fetchCount]
    exact .none (.inl rfl)
  | case2 count room hcount =>
    rw [List.take_nil, List.drop_nil]
    exact .none (.inr (.inl rfl))
  | case3 room count x rest hx ih =>
    rw [fetchCount, if_pos hx, Nat.add_comm 1]
    exact .cons hx ih
  | case4 room count x rest hx =>
    rw [fetchCount, if_neg hx]
    exact .none (.inr (.inr ⟨x, rest, rfl, Nat.lt_of_not_le hx⟩))

/-! ### The notice after a fetch (R92) -/

/-- Of an update of one record only its value at that record matters. -/
theorem updateSub_congr {s : State} (hn : (s.subs.map (·.id)).Nodup) {r : SubRecord} (hr : r ∈ s.subs)
    {f g : SubRecord → SubRecord} (h : f r = g r) : updateSub r.id r.uid f s = updateSub r.id r.uid g s := by
  rw [updateSub_of_mem hn hr, updateSub_of_mem hn hr]
  refine congrArg (fun subs => { s with subs := subs }) (List.map_congr_left fun q _ => ?_)
  by_cases hq : q = r
  · rw [if_pos hq, if_pos hq, hq, h]
  · rw [if_neg hq, if_neg hq]

/-- The report queue after a fetch: a QUEUED entry is withdrawn, and SAMPLE_READY is requested again for samples left. -/
def settledReports (r : SubRecord) (left : List Sample) (queue : List ReportRequest) : List ReportRequest :=
  (if r.notice = .queued then queue.filter fun x => x ≠ ReportRequest.sampleReady r.id r.uid else queue) |>
    fun queue => if left = [] then queue else joined queue (.sampleReady r.id r.uid)

/-- A record after a fetch: the samples left, and a notice that says whether there are any. -/
def subFetched (left : List Sample) (q : SubRecord) : SubRecord :=
  { q with queue := left, notice := if left = [] then .none else .queued }

/-- The notice of a record whose queue has just been cut. -/
theorem settleNotice_updateSub {s : State} (hn : (s.subs.map (·.id)).Nodup) {r : SubRecord} (hr : r ∈ s.subs)
    (left : List Sample) :
    settleNotice r left (updateSub r.id r.uid (fun q => { q with queue := left }) s) =
      withReports (settledReports r left s.delivery.queue) (updateSub r.id r.uid (subFetched left) s) := by
  have hcut : KeepsKey fun q => { q with queue := left } := fun _ => ⟨rfl, rfl⟩
  have hnone : KeepsKey fun q => { q with queue := left, notice := .none } := fun _ => ⟨rfl, rfl⟩
  unfold settleNotice settledReports
  dsimp only
  generalize hw : (if r.notice = .queued then _ else s.delivery.queue) = queue
  have hwithdrawn : (if r.notice = .queued then withdrawReport (.sampleReady r.id r.uid)
        (updateSub r.id r.uid (fun q => { q with queue := left }) s)
      else updateSub r.id r.uid (fun q => { q with queue := left }) s) =
      updateSub r.id r.uid (fun q => { q with queue := left }) (withReports queue s) := by
    subst hw
    split <;> rfl
  rw [hwithdrawn, updateSub_updateSub hcut]
  by_cases hleft : left = []
  · rw [if_pos hleft, if_pos hleft]
    unfold subFetched
    rw [if_pos hleft]
    rfl
  · rw [if_neg hleft, if_neg hleft]
    have hraise := raiseNotice_of_mem
      (s := updateSub r.id r.uid (fun q => { q with queue := left, notice := .none }) (withReports queue s))
      (r := { r with queue := left, notice := .none }) (by rwa [updateSub_ids hnone])
      (mem_updateSub (s := withReports queue s) hr _)
    rw [updateSub_updateSub hnone] at hraise
    refine hraise.trans ?_
    unfold subFetched
    rw [if_neg hleft]
    rfl

theorem takeSamples_of_mem {s : State} (hn : (s.subs.map (·.id)).Nodup) {r : SubRecord} (hr : r ∈ s.subs) (n : Nat) :
    takeSamples r n s = withReports (settledReports r (r.queue.drop n) s.delivery.queue) { s with
      freeBlocks := s.freeBlocks + (r.queue.take n).length
      subs := s.subs.map fun q => if q = r then subFetched (r.queue.drop n) q else q } := by
  unfold takeSamples
  rw [updateSub_congr hn hr (g := fun q => { q with queue := r.queue.drop n }) rfl]
  exact (settleNotice_updateSub (s := { s with freeBlocks := s.freeBlocks + (r.queue.take n).length }) hn hr _).trans
    (congrArg (withReports _)
      (updateSub_of_mem (s := { s with freeBlocks := s.freeBlocks + (r.queue.take n).length }) hn hr _))

/-! ### SUB_FETCH carried out (R89, R91) -/

section

variable {s : State} {id count : Byte}

theorem runSubFetch_badField (h : count.toNat = 0 ∨ 8 < count.toNat) :
    runSubFetch [id, count] s = refuseWith .badField s := if_pos h

theorem runSubFetch_notOpen (h1 : 1 ≤ count.toNat) (h8 : count.toNat ≤ 8)
    (h : ∀ r ∈ s.subs, r.id = id.toNat → r.state = .closing) :
    runSubFetch [id, count] s = refuseWith .notFound s := by
  unfold runSubFetch
  rw [show field [id, count] 1 = count.toNat from rfl, show field [id, count] 0 = id.toNat from rfl,
    if_neg (by omega)]
  cases hf : findSub s id.toNat with
  | none => rfl
  | some r =>
    obtain ⟨hr, hi⟩ := findSub_mem hf
    have hclosed : r.isOpen = false := by rw [SubRecord.isOpen, h r hr hi]; rfl
    exact if_neg (hclosed ▸ Bool.false_ne_true)

theorem runSubFetch_open (h1 : 1 ≤ count.toNat) (h8 : count.toNat ≤ 8) (hn : (s.subs.map (·.id)).Nodup)
    {r : SubRecord} (hr : r ∈ s.subs) (hi : r.id = id.toNat) (hopen : r.state ≠ .closing) :
    runSubFetch [id, count] s =
      answerOk (fetchContent r (fetchCount count.toNat 232 r.queue))
        (takeSamples r (fetchCount count.toNat 232 r.queue) s) := by
  unfold runSubFetch
  rw [show field [id, count] 1 = count.toNat from rfl, show field [id, count] 0 = r.id from hi.symm,
    if_neg (by omega), findSub_of_mem hn hr]
  exact if_pos (bne_iff_ne.2 hopen)

theorem exec_subFetch {m : Message} {rest : List Message} (h : Ready s m rest) (hk : m.kind = 0x42)
    (hp : m.payload = [id, count]) :
    exec .subFetch s = .next (outbound (completeRequest m (runSubFetch [id, count] (headTaken s rest)))) :=
  (takeKind_ready h hk (by decide) (hp ▸ rfl)).trans (by rw [hp])

end

/-- Settles O30: the checks of R89 in their order; what a served fetch takes is `fetchCount_takesOldest`, and what it
leaves behind `takeSamples_of_mem`. -/
theorem subFetchTakesTheOldestSamples : Obligations.SubFetchTakesTheOldestSamples := by
  unfold Obligations.SubFetchTakesTheOldestSamples
  refine fun s m rest id count h hk hp hnodup =>
    ⟨fun hcount => ?badField, fun h1 h8 hclosing => ?notFound, fun h1 h8 r hr hi hopen => ?served⟩
  case badField =>
    rw [exec_subFetch h hk hp, runSubFetch_badField hcount]
    rfl
  case notFound =>
    rw [exec_subFetch h hk hp, runSubFetch_notOpen (s := headTaken s rest) h1 h8 hclosing]
    rfl
  case served =>
    have htakes := fetchCount_takesOldest count.toNat 232 r.queue
    refine ⟨_, _, htakes.split, htakes.count_le, htakes.fits, htakes.stops, ?_⟩
    rw [exec_subFetch h hk hp, runSubFetch_open (s := headTaken s rest) h1 h8 hnodup hr hi hopen,
      takeSamples_of_mem (s := headTaken s rest) hnodup hr]
    rfl

/-! ### An offer without room (R83, R84) -/

theorem passesFilter_of_change {r : SubRecord} {payload : List Byte}
    (h : r.kind = .change → r.resumed = true ∨ r.referencePayload ≠ some payload) :
    passesFilter r payload = true := by
  refine (passesFilter_iff r payload).2 ?_
  cases hk : r.kind with
  | every => exact .inl rfl
  | change => exact .inr (h hk)

/-- The reply is offered to the record it has passed into, which is as full as before. -/
theorem full_replyPassed {s : State} {r : SubRecord} (payload : List Byte)
    (h : r.depth ≤ r.queue.length ∨ spareBlocks s = 0) :
    (replyPassed payload r).depth ≤ (replyPassed payload r).queue.length ∨
      spareBlocks (updateSub r.id r.uid (replyPassed payload) s) = 0 := by
  rwa [spareBlocks_updateSub (f := replyPassed payload) fun _ => ⟨rfl, rfl⟩]

/-- A record whose offered sample was dropped. -/
def sampleDropped (r : SubRecord) : SubRecord :=
  { r with nextSequence := r.nextSequence + 1, dropped := satInc r.dropped }

/-- Without room KEEP_OLDEST drops the sample offered (R84). -/
theorem offerSample_drops {s : State} (hn : (s.subs.map (·.id)).Nodup) {r : SubRecord} (hr : r ∈ s.subs)
    (x : Sample) (hq : r.queue ≠ []) (h : r.depth ≤ r.queue.length ∨ spareBlocks s = 0)
    (hp : r.policy = .keepOldest) :
    offerSample r.id r.uid x s = updateSub r.id r.uid sampleDropped s := by
  have hdrop : offerOutcome r s = .drop := by
    unfold offerOutcome
    rw [if_neg hq, if_neg (by omega), hp]
  unfold offerSample
  rw [findSubRecord_of_mem hn hr]
  dsimp only
  rw [hdrop]
  rfl

section

variable {s : State} {r : SubRecord} {reply : Reply}

theorem takeOkReply_drops (hn : (s.subs.map (·.id)).Nodup) (hr : r ∈ s.subs)
    (hpass : passesFilter r reply.payload = true) (hq : r.queue ≠ [])
    (h : r.depth ≤ r.queue.length ∨ spareBlocks s = 0) (hp : r.policy = .keepOldest) (round : Word16) (noisy : Bool) :
    takeOkReply r round noisy reply s =
      updateSub r.id r.uid (fun q => sampleDropped (replyPassed reply.payload q)) s := by
  rw [takeOkReply_passes hpass, ← updateSub_updateSub (replyPassed_key _)]
  exact offerSample_drops (by rwa [updateSub_ids (replyPassed_key _)]) (mem_updateSub hr _) _ hq
    (full_replyPassed _ h) hp

theorem takeOkReply_replaces (hn : (s.subs.map (·.id)).Nodup) (hr : r ∈ s.subs)
    (hpass : passesFilter r reply.payload = true) (hq : r.queue ≠ [])
    (h : r.depth ≤ r.queue.length ∨ spareBlocks s = 0) (hp : r.policy = .keepNewest) (round : Word16) (noisy : Bool) :
    takeOkReply r round noisy reply s = withReports (readyQueue r s) (updateSub r.id r.uid (fun q =>
      noticeRaised (sampleReplaced (q.queue.tail ++ [replySample r round noisy reply]) (replyPassed reply.payload q)))
        s) := by
  rw [takeOkReply_passes hpass]
  exact (offerSample_replaces (by rwa [updateSub_ids (replyPassed_key _)]) (mem_updateSub hr _) _ hq
      (full_replyPassed _ h) hp).trans
    (congrArg (withReports (readyQueue r s)) (updateSub_updateSub (replyPassed_key _) s))

end

/-- Settles O53: the offer by `takeOkReply_drops`; the payload dropped is the reference at which the CHANGE filter stops
the same reply. -/
theorem keepOldestDropsTheSample : Obligations.KeepOldestDropsTheSample := by
  unfold Obligations.KeepOldestDropsTheSample
  rintro s r round noisy reply hr hn hp hq hfull hchange kept rfl
  have hdrops := takeOkReply_drops hn hr (passesFilter_of_change hchange) hq hfull hp round noisy
  refine ⟨?record, ?spare, fun hk again other clock => takeOkReply_filtered ?again _ _ _⟩
  case record =>
    rw [hdrops, ← updateSub_of_mem hn hr fun _ => _]
    refine updateSub_congr hn hr ?_
    unfold sampleDropped replyPassed
    cases r.kind <;> rfl
  case spare =>
    rw [hdrops]
    exact spareBlocks_updateSub (f := fun q => sampleDropped (replyPassed reply.payload q)) (fun _ => ⟨rfl, rfl⟩) s
  case again =>
    intro hpass
    rcases (passesFilter_iff _ _).1 hpass with hevery | hresumed | hreference
    · exact SubKind.noConfusion (hk.symm.trans hevery)
    · exact Bool.noConfusion hresumed
    · exact hreference (if_pos hk)

/-- A record that held samples and holds samples has no reservation to come or to go (R79). -/
theorem emptyOpen_replaced {s : State} (hn : (s.subs.map (·.id)).Nodup) {r : SubRecord} (hr : r ∈ s.subs)
    {f : SubRecord → SubRecord} (hq : r.queue ≠ []) (hf : (f r).queue ≠ []) :
    emptyOpen (updateSub r.id r.uid f s) = emptyOpen s := by
  have held : ∀ {q : SubRecord}, q.queue ≠ [] → reservation q = 0 := fun h => by simp [reservation, h]
  have hsum := replaceSub_sum hn hr f reservation
  rw [held hq, held hf] at hsum
  rw [emptyOpen_sum, emptyOpen_sum, updateSub_subs]
  exact hsum

/-- Settles O54: the offer by `takeOkReply_replaces`, read field by field. -/
theorem keepNewestReplacesTheOldestSample : Obligations.KeepNewestReplacesTheOldestSample := by
  unfold Obligations.KeepNewestReplacesTheOldestSample
  rintro s t r round noisy reply oldest x others hr hn hp hqueue hfull hchange rfl rfl
  have hq : r.queue ≠ [] := hqueue ▸ List.cons_ne_nil _ _
  rw [takeOkReply_replaces hn hr (passesFilter_of_change hchange) hq hfull hp round noisy]
  have hjoined : r.queue.tail ++ [replySample r round noisy reply] = others ++ [replySample r round noisy reply] := by
    rw [hqueue]
    rfl
  refine ⟨_, mem_updateSub hr _, rfl, rfl, hjoined, ?length, rfl, rfl, ?spare, ?gone, ?alone, ?others⟩
  case length =>
    refine (congrArg List.length hjoined).trans ?_
    rw [hqueue, List.length_append]
    rfl
  case spare =>
    refine congrArg (s.freeBlocks - ·) (emptyOpen_replaced hn hr hq ?_)
    exact List.append_ne_nil_of_right_ne_nil _ (List.cons_ne_nil _ _)
  case gone =>
    intro hdistinct y hy
    have hy : y ∈ others ++ [replySample r round noisy reply] := hjoined ▸ hy
    rw [hqueue, List.map_cons, List.cons_append, List.nodup_cons] at hdistinct
    intro he
    refine hdistinct.1 (he ▸ ?_)
    rcases List.mem_append.1 hy with hy | hy
    · exact List.mem_append_left _ (List.mem_map_of_mem hy)
    · exact List.mem_append_right _ (List.mem_singleton.1 hy ▸ List.mem_singleton_self _)
  case alone =>
    intro hdepth hlength
    have hnone : others = [] := by
      rw [hqueue, hdepth, List.length_cons] at hlength
      exact List.eq_nil_of_length_eq_zero (by omega)
    exact hjoined.trans (congrArg (· ++ _) hnone)
  case others =>
    intro q hqs hne
    refine List.mem_map.2 ⟨q, hqs, if_neg fun h => hne ?_⟩
    exact List.inj_on_of_nodup_map hn hqs hr h.1

end Sys2Proof.Machine
end

section
/-! SUPPORT. The Transaction Queues: every step keeps the life of the records, and TXN_SUBMIT and TXN_CANCEL by their
operands and checks (R97, R98, R106). -/

namespace Sys2Proof.Machine

open Sys2Proof

/-! ### What a step can do -/

/-- What a command makes of the state it is taken in: an edge of RESET_N, nothing while RESET_N is low, or an event or a
request and then a grant of the outbound arbiter. -/
inductive CommandEffect (s : State) : State → Prop
  | reset (rate1 rate0 levelA levelB : PinLevel) : CommandEffect s (pinReset rate1 rate0 levelA levelB s)
  | held : CommandEffect s (holdInReset s)
  | ignored : CommandEffect s s
  | line {l : LineId} {f : State → State} (hf : LineEvent l f) (hr : s.resetHeld = false) :
    CommandEffect s (outbound (f s))
  | host {f : State → State} (hf : HostEvent f) : CommandEffect s (outbound (f s))
  | request {run : Service} (accepts : Byte → Bool) (hr : RequestService run) :
    CommandEffect s (outbound (takeRequest accepts run s))

theorem perform_cases {f : State → State} {s t : State} (h : perform f s = .next t) :
    t = s ∨ s.resetHeld = false ∧ t = outbound (f s) := by
  cases hr : s.resetHeld with
  | false =>
    rw [perform_running hr] at h
    injection h with h
    exact .inr ⟨rfl, h.symm⟩
  | true =>
    unfold perform at h
    injection h with h
    exact .inl (h.symm.trans (if_pos hr))

theorem exec_effect {c : Instr} {s t : State} (h : exec c s = .next t) : CommandEffect s t := by
  rcases exec_cases c s with
    ⟨rate1, rate0, levelA, levelB, he⟩ | he | ⟨l, f, hf, he⟩ | ⟨f, hf, he⟩ | ⟨accepts, run, hr, he⟩ <;> rw [he] at h
  · injection h with h
    exact h ▸ .reset rate1 rate0 levelA levelB
  · injection h with h
    exact h ▸ .held
  · obtain rfl | ⟨hrun, rfl⟩ := perform_cases h
    · exact .ignored
    · exact .line hf hrun
  · obtain rfl | ⟨-, rfl⟩ := perform_cases h
    · exact .ignored
    · exact .host hf
  · obtain rfl | ⟨-, rfl⟩ := perform_cases h
    · exact .ignored
    · exact .request accepts hr

/-- A step is a period of CLKIN or the effect of the command at the front of the queue. -/
theorem step_cases {s t : State} (h : step s = .next t) :
    t = clkTick s ∨ ∃ rest, CommandEffect { s with pending := rest } t := by
  unfold step at h
  split at h
  · injection h with h
    exact .inl h.symm
  · exact .inr ⟨_, exec_effect h⟩

/-! ### The invariant of the transactions (R95, R96, R99, R103, R104) -/

theorem pinReset_txns (rate1 rate0 levelA levelB : PinLevel) (s : State) :
    TxnsSound (pinReset rate1 rate0 levelA levelB s) :=
  .empty rfl rfl rfl fun l => by cases l <;> exact ⟨rfl, rfl⟩

/-- RESET_N low releases the drivers, which the records do not see. -/
theorem holdInReset_txns {s : State} (h : TxnsSound s) : TxnsSound (holdInReset s) :=
  h.quiet (.same rfl rfl) fun l => by cases l <;> exact ⟨rfl, rfl⟩

theorem lineEvent_txns {l : LineId} {f : State → State} (hf : LineEvent l f) {s : State} (hl : LineSound (s.line l))
    (h : TxnsSound s) : TxnsSound (f s) :=
  (lineEvent_flow hf hl).sound (lineEvent_work hf s).other h

/-- Only an event of a line needs that line sound: an order ends or begins where the engine says (R96, R99). -/
theorem commandEffect_txns {s t : State} (he : CommandEffect s t) (hs : LinesSound s) (h : TxnsSound s) :
    TxnsSound t := by
  cases he with
  | reset rate1 rate0 levelA levelB => exact pinReset_txns rate1 rate0 levelA levelB s
  | held => exact holdInReset_txns h
  | ignored => exact h
  | line hf hr => exact outbound_txns (lineEvent_txns hf (hs hr _) h)
  | host hf => exact outbound_txns (hostEvent_txns hf h)
  | request accepts hr => exact outbound_txns (takeRequest_txns hr h)

/-- Settles O60: a period of CLKIN moves no record, and every effect of a command keeps the records sound. -/
theorem stepsKeepTheTransactions : Obligations.StepsKeepTheTransactions := by
  unfold Obligations.StepsKeepTheTransactions
  intro s t hs h ht
  obtain rfl | ⟨rest, he⟩ := step_cases ht
  · exact clkTick_txns h
  · refine commandEffect_txns he (fun hr l => ?_) (h.quietLines (.same rfl rfl) fun l => line_eq rfl rfl l)
    rw [show State.line { s with pending := rest } l = s.line l from line_eq rfl rfl l]
    exact hs hr l

/-! ### A reference in a payload (R177) -/

theorem field16_be16 (reference : Word16) (after : List Byte) : field16 (be16 reference ++ after) 0 = reference :=
  (BitVec.extractLsb'_append_extractLsb'_eq_extractLsb' (by decide)).trans BitVec.extractLsb'_eq_self

/-! ### TXN_CANCEL (R106) -/

theorem findTxn_eq_none_iff {s : State} {reference : Word16} :
    findTxn s reference = none ↔ ∀ t ∈ s.txns, t.reference ≠ reference := by
  simp [findTxn]

section

variable {s : State} {reference : Word16}

theorem runTxnCancel_badField : runTxnCancel (be16 0) s = refuseWith .badField s := rfl

/-- A reference other than 0 is answered by the record it finds. -/
theorem runTxnCancel_nonzero (h0 : reference ≠ 0) : runTxnCancel (be16 reference) s =
    match findTxn s reference with
    | none => refuseWith .notFound s
    | some t => if t.state = .queued then answerOk [] (cancelTxn t s) else refuseWith .tooLate s := by
  unfold runTxnCancel
  rw [show field16 (be16 reference) 0 = reference from field16_be16 reference [], if_neg h0]
  cases findTxn s reference with
  | none => rfl
  | some t => cases h : t.state <;> simp [h]

theorem exec_txnCancel {m : Message} {rest : List Message} (h : Ready s m rest) (hk : m.kind = 0x51)
    (hp : m.payload = be16 reference) :
    exec .txnCancel s = .next (outbound (completeRequest m (runTxnCancel (be16 reference) (headTaken s rest)))) :=
  (takeKind_ready h hk (by decide) (hp ▸ rfl)).trans (by rw [hp])

end

/-- References are distinct, so that one record completes (R95, R103). -/
theorem cancelTxn_headTaken {s : State} (hn : (s.txns.map (·.reference)).Nodup) {t : TxnRecord} (ht : t ∈ s.txns)
    (rest : List Message) : cancelTxn t (headTaken s rest) = { headTaken s rest with
      txns := s.txns.map fun x => if x = t then
        { x with
          state := .done, result := some .cancelled, lastVerdict := none, refuseReason := none
          reply := none } else x
      delivery := { s.delivery with queue := joined s.delivery.queue (.txnDone t.reference) } }.modifyLine t.line
    fun x => { x with txnQueue := x.txnQueue.filter fun r => r ≠ t.reference } := by
  have htxns : (leaveQueue t.line t.reference (headTaken s rest)).txns = s.txns := modifyLine_txns _ _ _
  unfold cancelTxn
  rw [completeTxn_of_mem (htxns.symm ▸ hn) (htxns.symm ▸ ht), htxns]
  unfold leaveQueue
  cases t.line <;> rfl

/-- Settles O32: the record the reference finds, and its state, decide the answer. -/
theorem txnCancelByState : Obligations.TxnCancelByState := by
  unfold Obligations.TxnCancelByState
  refine fun s m rest reference h hk hp =>
    ⟨fun hzero => ?badField, fun h0 hfree => ?notFound, fun t ht hreference h0 hn => ?found⟩
  case badField =>
    rw [exec_txnCancel h hk hp, hzero, runTxnCancel_badField]
    rfl
  case notFound =>
    rw [exec_txnCancel h hk hp, runTxnCancel_nonzero h0,
      (findTxn_eq_none_iff (s := headTaken s rest)).2 hfree]
    rfl
  case found =>
    have hfind : findTxn (headTaken s rest) reference = some t :=
      hreference ▸ findTxn_of_mem (s := headTaken s rest) hn ht
    rw [exec_txnCancel h hk hp, runTxnCancel_nonzero h0, hfind]
    refine ⟨fun hstate => ?tooLate, fun hstate => ?cancelled⟩
    case tooLate =>
      dsimp only
      rw [if_neg hstate]
      rfl
    case cancelled =>
      dsimp only
      rw [if_pos hstate, cancelTxn_headTaken hn ht, hreference]
      rfl

/-! ### The fields of TXN_SUBMIT (R97, R177) -/

/-- What check 1 of R97 asks of a payload whose kind is read as READ or WRITE. -/
theorem submitKind_isSome_iff {p : List Byte} : (submitKind p).isSome = true ↔
    field p 5 = 0 ∧ field p 6 ≤ 24 ∧ field p 7 = 0 ∧ field p 3 ≠ 0 ∨ field p 5 = 1 ∧ field p 7 ≤ 24 := by
  unfold submitKind
  match field p 5 with
  | 0 | 1 => simp [Config.maxPayload]
  | _ + 2 => simp

/-- Fields read from a payload at the offsets and by the codes of R177. -/
structure SubmitFields.ReadFrom (f : SubmitFields) (p : List Byte) : Prop where
  reference : f.reference = field16 p 0
  line : lineOfCode (field p 2) = some f.line
  node : f.node = field p 3
  channel : f.channel = field p 4
  kind : submitKind p = some f.kind

theorem submitFieldsOf_eq_some_iff {p : List Byte} {f : SubmitFields} :
    submitFieldsOf p = some f ↔ f.ReadFrom p ∧ f.reference ≠ 0 ∧ f.node ≤ 30 ∧ f.channel ≤ 7 := by
  constructor
  · intro h
    unfold submitFieldsOf at h
    split at h
    next l kind hl hk =>
      obtain ⟨⟨h0, hnode, hchannel⟩, hf⟩ := Option.ite_none_right_eq_some.1 h
      obtain rfl := Option.some.inj hf
      exact ⟨⟨rfl, hl, rfl, rfl, hk⟩, h0, hnode, isChannel_iff.1 hchannel⟩
    next => exact absurd h.symm (Option.some_ne_none f)
  · rintro ⟨hread, h0, hnode, hchannel⟩
    obtain ⟨reference, line, node, channel, kind⟩ := f
    obtain ⟨rfl, hl, rfl, rfl, hk⟩ := hread
    unfold submitFieldsOf
    rw [hl, hk]
    exact if_pos ⟨h0, hnode, isChannel_iff.2 hchannel⟩

/-- A payload of the right length with every field in its range. -/
structure SubmitFields.SentAs (f : SubmitFields) (p : List Byte) : Prop where
  length : lengthAllowed kindTxnSubmit p = true
  fields : submitFieldsOf p = some f

/-- The length byte counts the data (R177). -/
theorem lengthAllowed_submit {a b line node channel kind reply : Byte} {data : List Byte} (h : data.length < 256) :
    lengthAllowed kindTxnSubmit ([a, b, line, node, channel, kind, reply, byteOf data.length] ++ data) = true := by
  have hlength : field ([a, b, line, node, channel, kind, reply, byteOf data.length] ++ data) 7 = data.length :=
    toNat_byteOf h
  unfold lengthAllowed
  rw [if_pos rfl, hlength, List.length_append]
  simp

section

variable {reference : Word16} {l : LineId} {node channel : Nat} (h0 : reference ≠ 0) (hnode : node ≤ 30)
  (hchannel : channel ≤ 7)
include h0 hnode hchannel

/-- The fields every TXN_SUBMIT has, before what its kind says. -/
theorem submitFields_sentAs {kind : TxnKind} {code reply : Byte} {data : List Byte} (hdata : data.length < 256)
    (hkind : submitKind (be16 reference ++ [lineCode l, byteOf node, byteOf channel, code, reply, byteOf data.length]
      ++ data) = some kind) :
    (SubmitFields.mk reference l node channel kind).SentAs
      (be16 reference ++ [lineCode l, byteOf node, byteOf channel, code, reply, byteOf data.length] ++ data) where
  length := lengthAllowed_submit hdata
  fields := submitFieldsOf_eq_some_iff.2 ⟨⟨(field16_be16 reference _).symm, lineOfCode_lineCode l,
    (toNat_byteOf (show node < 256 by omega)).symm, (toNat_byteOf (show channel < 256 by omega)).symm, hkind⟩,
    h0, hnode, hchannel⟩

theorem read_sentAs {maxReply : Nat} (h1 : 1 ≤ node) (hreply : maxReply ≤ 24) :
    (SubmitFields.mk reference l node channel (.read maxReply)).SentAs
      (be16 reference ++ [lineCode l, byteOf node, byteOf channel, 0, byteOf maxReply, 0]) := by
  refine submitFields_sentAs (data := []) h0 hnode hchannel (by decide) ?_
  have hr : (byteOf maxReply).toNat = maxReply := toNat_byteOf (by omega)
  have hn : (byteOf node).toNat = node := toNat_byteOf (by omega)
  have hfits : (byteOf maxReply).toNat ≤ 24 ∧ 0 = 0 ∧ (byteOf node).toNat ≠ 0 := ⟨by omega, rfl, by omega⟩
  exact (if_pos hfits).trans (congrArg (fun n => some (TxnKind.read n)) hr)

theorem write_sentAs {data : List Byte} (hdata : data.length ≤ 24) (unread : Byte) :
    (SubmitFields.mk reference l node channel (.write data)).SentAs
      (be16 reference ++ [lineCode l, byteOf node, byteOf channel, 1, unread, byteOf data.length] ++ data) := by
  refine submitFields_sentAs h0 hnode hchannel (by omega) ?_
  have hl : (byteOf data.length).toNat = data.length := toNat_byteOf (by omega)
  have hfits : (byteOf data.length).toNat ≤ 24 := by omega
  refine (if_pos hfits).trans (congrArg (fun xs => some (TxnKind.write xs)) ?_)
  exact (congrArg data.take hl).trans List.take_length

end

theorem submitFieldsOf_outOfRange {high low line node channel kind reply : Byte} {data : List Byte}
    (hdata : data.length < 256)
    (h : (high ++ low).toNat = 0 ∨ 1 < line.toNat ∨ 30 < node.toNat ∨ 7 < channel.toNat ∨ 1 < kind.toNat ∨
       kind.toNat = 0 ∧ (node.toNat = 0 ∨ 24 < reply.toNat ∨ data ≠ []) ∨
       kind.toNat = 1 ∧ 24 < data.length) :
    submitFieldsOf ([high, low, line, node, channel, kind, reply, byteOf data.length] ++ data) = none := by
  refine Option.eq_none_iff_forall_ne_some.2 fun f hf => ?_
  obtain ⟨hread, h0, hnode, hchannel⟩ := submitFieldsOf_eq_some_iff.1 hf
  have hreference : (high ++ low).toNat ≠ 0 := fun hc =>
    h0 (hread.reference.trans (BitVec.eq_of_toNat_eq hc))
  have hline : ¬ 1 < line.toNat := fun hc => Option.some_ne_none _ (hread.line.symm.trans (lineOfCode_none hc))
  have hn : f.node = node.toNat := hread.node
  have hc : f.channel = channel.toNat := hread.channel
  have hlength : (byteOf data.length).toNat = data.length := toNat_byteOf hdata
  have hkind : kind.toNat = 0 ∧ reply.toNat ≤ 24 ∧ (byteOf data.length).toNat = 0 ∧ node.toNat ≠ 0 ∨
      kind.toNat = 1 ∧ (byteOf data.length).toNat ≤ 24 :=
    submitKind_isSome_iff.1 (Option.isSome_of_eq_some hread.kind)
  rw [← List.length_pos_iff] at h
  omega

/-! ### The checks of TXN_SUBMIT (R97) -/

theorem roomForTxn_iff {s : State} {l : LineId} : roomForTxn s l = true ↔
    s.txns.length < 16 ∧ (s.line l).txnQueue.length + inFlightCount s l < 8 := by
  simp [roomForTxn, Config.txnSlots, Config.txnPerLine]

section

variable {f : SubmitFields} {s : State}

theorem judgeSubmit_present (h : ∃ t ∈ s.txns, t.reference = f.reference) :
    judgeSubmit f s = refuseWith .present s := by
  refine if_pos (Option.isSome_iff_ne_none.2 fun hc => ?_)
  obtain ⟨t, ht, hreference⟩ := h
  exact findTxn_eq_none_iff.1 hc t ht hreference

variable (hfree : ∀ t ∈ s.txns, t.reference ≠ f.reference)
include hfree

/-- A free reference leaves checks 3 and 4 to the node's record, which node 0 does not need. -/
theorem judgeSubmit_free : judgeSubmit f s =
    if f.node = 0 then if roomForTxn s f.line then answerOk [] (submitTxn f s) else refuseWith .noRoom s
    else match findNode s f.line f.node with
      | none => refuseWith .notFound s
      | some n =>
        if fitsProfile n.profile f.channel (kindLength f.kind) = false then refuseWith .badField s
        else if roomForTxn s f.line then answerOk [] (submitTxn f s)
        else refuseWith .noRoom s := by
  unfold judgeSubmit
  rw [findTxn_eq_none_iff.2 hfree]
  rfl

theorem judgeSubmit_notFound (h0 : f.node ≠ 0) (hnode : findNode s f.line f.node = none) :
    judgeSubmit f s = refuseWith .notFound s := by
  rw [judgeSubmit_free hfree, if_neg h0, hnode]

theorem judgeSubmit_unfit (h0 : f.node ≠ 0) {n : NodeRecord} (hnode : findNode s f.line f.node = some n)
    (hfit : fitsProfile n.profile f.channel (kindLength f.kind) = false) :
    judgeSubmit f s = refuseWith .badField s := by
  rw [judgeSubmit_free hfree, if_neg h0, hnode]
  exact if_pos hfit

/-- Checks 2 to 4 passed, the room in the table and on the line decides. -/
theorem judgeSubmit_room (hnode : f.node = 0 ∨ ∃ n, findNode s f.line f.node = some n ∧
      fitsProfile n.profile f.channel (kindLength f.kind) = true) :
    judgeSubmit f s = if roomForTxn s f.line then answerOk [] (submitTxn f s) else refuseWith .noRoom s := by
  rw [judgeSubmit_free hfree]
  by_cases h0 : f.node = 0
  · exact if_pos h0
  · obtain ⟨n, hn, hfit⟩ := hnode.resolve_left h0
    rw [if_neg h0, hn]
    dsimp only
    rw [hfit]
    rfl

end

/-! ### TXN_SUBMIT carried out -/

section

variable {s : State} {m : Message} {rest : List Message}

theorem exec_txnSubmit (h : Ready s m rest) (hk : m.kind = 0x50)
    (hlength : lengthAllowed kindTxnSubmit m.payload = true) :
    exec .txnSubmit s = .next (outbound (completeRequest m (runTxnSubmit m.payload (headTaken s rest)))) :=
  takeKind_ready h hk (by decide) hlength

theorem exec_txnSubmit_inRange {f : SubmitFields} (h : Ready s m rest) (hk : m.kind = 0x50)
    (hf : f.SentAs m.payload) :
    exec .txnSubmit s = .next (outbound (completeRequest m (judgeSubmit f (headTaken s rest)))) := by
  rw [exec_txnSubmit h hk hf.length]
  unfold runTxnSubmit
  rw [hf.fields]

end

theorem roomForTxn_headTaken (s : State) (rest : List Message) (l : LineId) :
    roomForTxn (headTaken s rest) l = roomForTxn s l := by
  cases l <;> rfl

theorem submitTxn_headTaken (f : SubmitFields) (s : State) (rest : List Message) :
    submitTxn f (headTaken s rest) = { headTaken s rest with txns := s.txns ++ [newTxn f] }.modifyLine f.line
      fun x => { x with txnQueue := x.txnQueue ++ [f.reference] } := by
  unfold submitTxn
  cases f.line <;> rfl

/-- Settles O31: the checks of R97 in their order, each by the lemma of its answer. -/
theorem txnSubmitQueuesTheRecord : Obligations.TxnSubmitQueuesTheRecord := by
  unfold Obligations.TxnSubmitQueuesTheRecord
  refine ⟨fun s m rest l reference node channel kind h hk h0 hnode30 hchannel hpayload => ?inRange,
    fun s m rest high low line node channel kind reply data h hk hdata hp hbad => ?outOfRange⟩
  case inRange =>
    let f : SubmitFields := ⟨reference, l, node, channel, kind⟩
    have hf : f.SentAs m.payload := by
      cases kind with
      | read maxReply =>
        obtain ⟨hreply, h1, hp⟩ := hpayload
        exact hp ▸ read_sentAs h0 hnode30 hchannel h1 hreply
      | write data =>
        obtain ⟨hdata, unread, hp⟩ := hpayload
        exact hp ▸ write_sentAs h0 hnode30 hchannel hdata unread
    rw [exec_txnSubmit_inRange h hk hf]
    refine ⟨fun hlive => ?present, fun hfree => ⟨fun hn0 hnone => ?notFound, fun n hn ha hn0 hnodup hunfit => ?unfit,
      fun hknown => ?known⟩⟩
    case present =>
      rw [judgeSubmit_present (f := f) (s := headTaken s rest) hlive]
      rfl
    case notFound =>
      rw [judgeSubmit_notFound (f := f) (s := headTaken s rest) hfree hn0
        ((findNode_headTaken s rest l node).trans (findNode_none hnone))]
      rfl
    case unfit =>
      obtain ⟨p, hprofile, hexceeds⟩ := hunfit
      have hfit : fitsProfile n.profile channel (kindLength kind) = false :=
        Bool.eq_false_iff.2 fun hc => by
          have hp := fitsProfile_iff.1 hc p hprofile
          omega
      rw [judgeSubmit_unfit (f := f) (s := headTaken s rest) hfree hn0
        ((findNode_headTaken s rest l node).trans (ha ▸ findNode_of_mem hnodup hn)) hfit]
      rfl
    case known =>
      have hfits : node = 0 ∨ ∃ n, findNode (headTaken s rest) l node = some n ∧
          fitsProfile n.profile channel (kindLength kind) = true := by
        refine hknown.imp_right ?_
        rintro ⟨hnodup, n, hn, ha, hprofile⟩
        exact ⟨n, (findNode_headTaken s rest l node).trans (ha ▸ findNode_of_mem hnodup hn),
          fitsProfile_iff.2 hprofile⟩
      rw [judgeSubmit_room (f := f) (s := headTaken s rest) hfree hfits, roomForTxn_headTaken]
      refine ⟨fun hfull => ?noRoom, fun hslots hline => ?queued⟩
      case noRoom =>
        have hroom : ¬ roomForTxn s l = true := fun hc => by
          obtain ⟨hslots, hline⟩ := roomForTxn_iff.1 hc
          exact hfull.elim (Nat.not_le.2 hslots) (Nat.not_le.2 hline)
        rw [if_neg hroom]
        rfl
      case queued =>
        rw [if_pos (roomForTxn_iff.2 ⟨hslots, hline⟩), submitTxn_headTaken]
        rfl
  case outOfRange =>
    rw [exec_txnSubmit h hk (hp ▸ lengthAllowed_submit (by omega)), hp]
    unfold runTxnSubmit
    rw [submitFieldsOf_outOfRange (by omega) hbad]
    rfl

end Sys2Proof.Machine
end

section
/-! SUPPORT. The requests of Line Control by their operands: LINE_RESYNC (R119), LINE_SET (R113) and the queries (R46,
R76, R120). -/

namespace Sys2Proof.Machine

open Sys2Proof

/-! ### The line of a request (R147) -/

/-- A line is read back from its code, and from no other. -/
theorem lineOfCode_eq_some_iff {code : Byte} {l : LineId} : lineOfCode code.toNat = some l ↔ code = lineCode l := by
  constructor
  · intro h
    refine BitVec.eq_of_toNat_eq ?_
    unfold lineOfCode at h
    split at h
    next hc => obtain rfl := Option.some.inj h; exact hc
    next hc => obtain rfl := Option.some.inj h; exact hc
    next => exact absurd h.symm (Option.some_ne_none l)
  · rintro rfl
    exact lineOfCode_lineCode l

section

variable {run : LineId → State → State × List Byte} {s : State} {code : Byte}

theorem onLine_runs (l : LineId) : onLine (lineCode l).toNat run s = run l s := by
  unfold onLine
  rw [lineOfCode_lineCode]

theorem onLine_refuses (h : ∀ l, code ≠ lineCode l) : onLine code.toNat run s = refuseWith .badField s := by
  unfold onLine
  rw [Option.eq_none_iff_forall_ne_some.2 fun l hl => h l (lineOfCode_eq_some_iff.1 hl)]

end

theorem ne_lineCode_of_lt {code : Byte} (h : 1 < code.toNat) (l : LineId) : code ≠ lineCode l := fun hc =>
  Option.some_ne_none l ((lineOfCode_eq_some_iff.2 hc).symm.trans (lineOfCode_none h))

/-- The inbox is no part of a line. -/
theorem headTaken_line (s : State) (rest : List Message) (l : LineId) : (headTaken s rest).line l = s.line l := by
  cases l <;> rfl

/-! ### The requests carried out -/

section

variable {s : State} {m : Message} {rest : List Message}

theorem exec_lineSet (h : Ready s m rest) (hk : m.kind = 0x20) (hlength : m.payload.length = 10) :
    exec .lineSet s = .next (outbound (completeRequest m (runLineSet m.payload (headTaken s rest)))) :=
  takeKind_ready h hk (by decide) (beq_iff_eq.2 hlength)

theorem exec_lineStart {line : Byte} (h : Ready s m rest) (hk : m.kind = 0x21) (hp : m.payload = [line]) :
    exec .lineStart s = .next (outbound (completeRequest m (runLineStart [line] (headTaken s rest)))) :=
  (takeKind_ready h hk (by decide) (hp ▸ rfl)).trans (by rw [hp])

theorem exec_lineStop {line flag : Byte} (h : Ready s m rest) (hk : m.kind = 0x22) (hp : m.payload = [line, flag]) :
    exec .lineStop s = .next (outbound (completeRequest m (runLineStop [line, flag] (headTaken s rest)))) :=
  (takeKind_ready h hk (by decide) (hp ▸ rfl)).trans (by rw [hp])

theorem exec_lineResync {line : Byte} (h : Ready s m rest) (hk : m.kind = 0x23) (hp : m.payload = [line]) :
    exec .lineResync s = .next (outbound (completeRequest m (runLineResync [line] (headTaken s rest)))) :=
  (takeKind_ready h hk (by decide) (hp ▸ rfl)).trans (by rw [hp])

theorem exec_lineQuery {line : Byte} (h : Ready s m rest) (hk : m.kind = 0x24) (hp : m.payload = [line]) :
    exec .lineQuery s = .next (outbound (completeRequest m (runLineQuery [line] (headTaken s rest)))) :=
  (takeKind_ready h hk (by decide) (hp ▸ rfl)).trans (by rw [hp])

theorem exec_nodeQuery {line address : Byte} (h : Ready s m rest) (hk : m.kind = 0x32)
    (hp : m.payload = [line, address]) :
    exec .nodeQuery s = .next (outbound (completeRequest m (runNodeQuery [line, address] (headTaken s rest)))) :=
  takeNodeKind_ready (by decide) h hk hp

theorem exec_subQuery {id : Byte} (h : Ready s m rest) (hk : m.kind = 0x43) (hp : m.payload = [id]) :
    exec .subQuery s = .next (outbound (completeRequest m (runSubQuery [id] (headTaken s rest)))) :=
  (takeKind_ready h hk (by decide) (hp ▸ rfl)).trans (by rw [hp])

end

/-! ### LINE_RESYNC (R119) -/

section

variable {s : State} {l : LineId}

theorem runLineResync_noLine {line : Byte} (h : ∀ l, line ≠ lineCode l) :
    runLineResync [line] s = refuseWith .badField s := onLine_refuses h

theorem runLineResync_requests (h : (s.line l).lineState = .running ∨ (s.line l).lineState = .holdoff) :
    runLineResync [lineCode l] s = answerOk [] (requestResync l s) := by
  refine (onLine_runs l).trans ?_
  rcases h with h | h <;> rw [h]

theorem runLineResync_wrongState
    (h : (s.line l).lineState = .stopped ∨ (s.line l).lineState = .fault ∨ (s.line l).lineState = .stopping) :
    runLineResync [lineCode l] s = refuseWith .wrongState s := by
  refine (onLine_runs l).trans ?_
  rcases h with h | h | h <;> rw [h]

end

/-- Settles O23: the line's state decides between the request and WRONG_STATE. -/
theorem lineResyncSetsTheRequest : Obligations.LineResyncSetsTheRequest := by
  unfold Obligations.LineResyncSetsTheRequest
  refine fun s m rest h hk hlength => ⟨fun l hp hl => ?requested, fun l hp hl => ?wrongState, fun hnone => ?noLine⟩
  case requested =>
    rw [exec_lineResync h hk hp, runLineResync_requests (by rwa [headTaken_line])]
    rfl
  case wrongState =>
    rw [exec_lineResync h hk hp, runLineResync_wrongState (by rwa [headTaken_line])]
    rfl
  case noLine =>
    obtain ⟨line, hp⟩ := List.length_eq_one_iff.1 hlength
    have hline (l : LineId) : line ≠ lineCode l := fun hc => hnone l (hp.trans (by rw [hc]))
    rw [exec_lineResync h hk hp, runLineResync_noLine hline]
    rfl

/-! ### LINE_SET (R112, R113, R177) -/

theorem bitRateOfCode_eq_some_iff {code : Byte} {rate : BitRate} :
    bitRateOfCode code.toNat = some rate ↔ code = bitRateCode rate := by
  constructor
  · intro h
    unfold bitRateOfCode at h
    split at h <;> cases h <;> exact BitVec.eq_of_toNat_eq ‹_›
  · rintro rfl
    cases rate <;> rfl

/-- The values of R112. -/
structure ConfigInRange (c : LineConfig) : Prop where
  responseWindow : 2 ≤ c.responseWindow
  retryLimit : c.retryLimit ≤ 3
  failureThreshold : 1 ≤ c.failureThreshold ∧ c.failureThreshold ≤ 15
  roundPeriod : 2 ≤ c.roundPeriod ∧ c.roundPeriod ≤ 5000
  allowance : c.allowance ≤ 8
  holdoff : 1 ≤ c.holdoff

/-- The record is read from a payload at the offsets and by the codes of R177. -/
structure ConfigReadFrom (c : LineConfig) (p : List Byte) : Prop where
  bitRate : bitRateOfCode (field p 1) = some c.bitRate
  responseWindow : c.responseWindow = field p 2
  retryLimit : c.retryLimit = field p 3
  failureThreshold : c.failureThreshold = field p 4
  roundPeriod : c.roundPeriod = (field16 p 5).toNat
  allowance : c.allowance = field p 7
  holdoff : c.holdoff = field p 8
  echoCheck : c.echoCheck = (p.getD 9 0).getLsbD 0
  roundBroadcast : c.roundBroadcast = (p.getD 9 0).getLsbD 1

theorem configOf_eq_some_iff {p : List Byte} {c : LineConfig} :
    configOf p = some c ↔ ConfigReadFrom c p ∧ ConfigInRange c ∧ field p 9 ≤ 3 := by
  constructor
  · intro h
    unfold configOf at h
    split at h
    next => exact absurd h.symm (Option.some_ne_none c)
    next rate hrate =>
      obtain ⟨⟨hwindow, hretry, ht1, ht15, hp2, hp5000, hallowance, hholdoff, hflags⟩, hc⟩ :=
        Option.ite_none_right_eq_some.1 h
      obtain rfl := Option.some.inj hc
      exact ⟨⟨hrate, rfl, rfl, rfl, rfl, rfl, rfl, rfl, rfl⟩,
        ⟨hwindow, hretry, ⟨ht1, ht15⟩, ⟨hp2, hp5000⟩, hallowance, hholdoff⟩, hflags⟩
  · rintro ⟨hread, hrange, hflags⟩
    obtain ⟨rate, window, retries, threshold, period, allowance, holdoff, echo, broadcast⟩ := c
    obtain ⟨hrate, rfl, rfl, rfl, rfl, rfl, rfl, rfl, rfl⟩ := hread
    unfold configOf
    rw [hrate]
    exact if_pos ⟨hrange.responseWindow, hrange.retryLimit, hrange.failureThreshold.1, hrange.failureThreshold.2,
      hrange.roundPeriod.1, hrange.roundPeriod.2, hrange.allowance, hrange.holdoff, hflags⟩

/-- The option flags: echo check in bit 0, round broadcast in bit 1, and no other (R176). -/
theorem optionFlags_iff {flags : Byte} {echo broadcast : Bool} :
    (echo = flags.getLsbD 0 ∧ broadcast = flags.getLsbD 1 ∧ flags.toNat ≤ 3) ↔
      flags = byteOf ((if echo then 1 else 0) + if broadcast then 2 else 0) := by
  constructor
  · rintro ⟨rfl, rfl, h⟩
    have hcases : flags = 0 ∨ flags = 1 ∨ flags = 2 ∨ flags = 3 := by bv_omega
    rcases hcases with rfl | rfl | rfl | rfl <;> rfl
  · rintro rfl
    cases echo <;> cases broadcast <;> decide

theorem toNat_word16Of (high low : Byte) : (word16Of high low).toNat = 256 * high.toNat + low.toNat := by
  rw [word16Of, BitVec.toNat_append, ← Nat.shiftLeft_add_eq_or_of_lt low.isLt, Nat.shiftLeft_eq, Nat.mul_comm]

section

variable {p : List Byte} {s : State} {l : LineId}

theorem field_zero_of_head {code : Byte} (h : p.head? = some code) : field p 0 = code.toNat := by
  obtain ⟨rest, rfl⟩ := List.head?_eq_some_iff.1 h
  rfl

theorem runLineSet_noLine {code : Byte} (hhead : p.head? = some code) (h : ∀ l, code ≠ lineCode l) :
    runLineSet p s = refuseWith .badField s := by
  unfold runLineSet
  rw [field_zero_of_head hhead, onLine_refuses h]

theorem runLineSet_wrongState (hhead : p.head? = some (lineCode l)) (h : (s.line l).lineState ≠ .stopped) :
    runLineSet p s = refuseWith .wrongState s := by
  unfold runLineSet
  rw [field_zero_of_head hhead, onLine_runs]
  exact if_pos h

theorem runLineSet_badField (hhead : p.head? = some (lineCode l)) (h : (s.line l).lineState = .stopped)
    (hc : configOf p = none) : runLineSet p s = refuseWith .badField s := by
  unfold runLineSet
  rw [field_zero_of_head hhead, onLine_runs, hc]
  exact if_neg (not_not_intro h)

theorem runLineSet_sets (hhead : p.head? = some (lineCode l)) (h : (s.line l).lineState = .stopped) {c : LineConfig}
    (hc : configOf p = some c) : runLineSet p s = answerOk [] (setConfig l c s) := by
  unfold runLineSet
  rw [field_zero_of_head hhead, onLine_runs, hc]
  exact if_neg (not_not_intro h)

end

theorem setConfig_entered (l : LineId) (c : LineConfig) {s : State} (hn : ((s.line l).nodes.map (·.address)).Nodup) :
    EnteredPending l (fun n => n.state == .suspect && decide (c.failureThreshold ≤ n.failures))
      (s.modifyLine l fun x => { x with config := c }) (setConfig l c s) :=
  nodesToPending_entered l _ _ (by rwa [modifyLine_line_same])

/-- Settles O20: the line, its state and then the record as `configOf` reads it decide the answer. -/
theorem lineSetReplacesTheRecord : Obligations.LineSetReplacesTheRecord := by
  unfold Obligations.LineSetReplacesTheRecord
  refine ⟨fun s m rest l h hk hlength => ?answer,
    fun line rate window retries threshold high low allowance holdoff flags c => ?fields⟩
  case answer =>
    rw [exec_lineSet h hk hlength, ← headTaken_line s rest l]
    refine ⟨fun hhead hl => ⟨fun c hc hnodup => ?sets, fun hc => ?badField⟩, fun hhead hl => ?wrongState,
      fun hnone => ?noLine⟩
    case sets =>
      refine ⟨setConfig l c (headTaken s rest), ?_, setConfig_entered l c hnodup⟩
      rw [runLineSet_sets hhead hl hc]
      rfl
    case badField =>
      rw [runLineSet_badField hhead hl hc]
      rfl
    case wrongState =>
      rw [runLineSet_wrongState hhead hl]
      rfl
    case noLine =>
      obtain ⟨code, after, hp⟩ := List.exists_of_length_succ _ hlength
      have hhead : m.payload.head? = some code := by rw [hp]; rfl
      rw [runLineSet_noLine hhead fun k hc => hnone k (hhead.trans (congrArg some hc))]
      rfl
  case fields =>
    rw [configOf_eq_some_iff]
    constructor
    · rintro ⟨hread, hrange, hflags⟩
      have hperiod : c.roundPeriod = 256 * high.toNat + low.toNat := hread.roundPeriod.trans (toNat_word16Of high low)
      exact ⟨bitRateOfCode_eq_some_iff.1 hread.bitRate,
        hread.responseWindow, hrange.responseWindow.trans_eq hread.responseWindow,
        hread.retryLimit, hread.retryLimit.ge.trans hrange.retryLimit,
        hread.failureThreshold, hrange.failureThreshold.1.trans_eq hread.failureThreshold,
        hread.failureThreshold.ge.trans hrange.failureThreshold.2,
        hperiod, hrange.roundPeriod.1, hrange.roundPeriod.2,
        hread.allowance, hread.allowance.ge.trans hrange.allowance,
        hread.holdoff, hrange.holdoff.trans_eq hread.holdoff,
        optionFlags_iff.1 ⟨hread.echoCheck, hread.roundBroadcast, hflags⟩⟩
    · rintro ⟨hrate, hwindow, hwindow2, hretry, hretry3, hthreshold, hthreshold1, hthreshold15, hperiod, hperiod2,
        hperiod5000, hallowance, hallowance8, hholdoff, hholdoff1, hflags⟩
      obtain ⟨hecho, hbroadcast, hflags3⟩ := optionFlags_iff.2 hflags
      exact ⟨⟨bitRateOfCode_eq_some_iff.2 hrate, hwindow, hretry, hthreshold,
          hperiod.trans (toNat_word16Of high low).symm, hallowance, hholdoff, hecho, hbroadcast⟩,
        ⟨hwindow2.trans_eq hwindow.symm, hretry.le.trans hretry3,
          ⟨hthreshold1.trans_eq hthreshold.symm, hthreshold.le.trans hthreshold15⟩, ⟨hperiod2, hperiod5000⟩,
          hallowance.le.trans hallowance8, hholdoff1.trans_eq hholdoff.symm⟩, hflags3⟩

/-! ### The queries (R46, R76, R120) -/

theorem runLineQuery_noLine {line : Byte} (h : ∀ l, line ≠ lineCode l) (s : State) :
    runLineQuery [line] s = refuseWith .badField s := onLine_refuses h

theorem runLineQuery_answers (l : LineId) (s : State) :
    runLineQuery [lineCode l] s = answerOk (lineReport l s) s := onLine_runs l

section

variable {s : State} {l : LineId} {address : Byte} (h1 : 1 ≤ address.toNat) (h30 : address.toNat ≤ 30)
include h1 h30

theorem runNodeQuery_notFound (hf : findNode s l address.toNat = none) :
    runNodeQuery [lineCode l, address] s = refuseWith .notFound s := by
  unfold runNodeQuery
  rw [onNode_runs l h1 h30, hf]

theorem runNodeQuery_answers {n : NodeRecord} (hf : findNode s l address.toNat = some n) :
    runNodeQuery [lineCode l, address] s = answerOk (nodeReport l n s) s := by
  unfold runNodeQuery
  rw [onNode_runs l h1 h30, hf]

end

section

variable {s : State} {id : Byte}

theorem runSubQuery_notFound (h : ∀ r ∈ s.subs, r.id ≠ id.toNat) : runSubQuery [id] s = refuseWith .notFound s := by
  unfold runSubQuery
  rw [show field [id] 0 = id.toNat from rfl, findSub_eq_none_iff.2 h]

theorem runSubQuery_answers (hn : (s.subs.map (·.id)).Nodup) {r : SubRecord} (hr : r ∈ s.subs)
    (hi : r.id = id.toNat) : runSubQuery [id] s = answerOk (subReport r) s := by
  unfold runSubQuery
  rw [show field [id] 0 = r.id from hi.symm, findSub_of_mem hn hr]

end

/-- A flag alone in its byte. -/
theorem byteOf_bit_zero (b : Bool) : byteOf (bit b 0) = if b then 1 else 0 := by cases b <;> rfl

/-- A transaction of the line is IN_FLIGHT: bit 2 of the line flags. -/
theorem inFlightCount_bne_zero (s : State) (l : LineId) :
    (inFlightCount s l != 0) = s.txns.any fun t => t.line == l && t.state == .inFlight := by
  rw [Bool.eq_iff_iff, bne_iff_ne, inFlightCount, ← Nat.pos_iff_ne_zero, List.length_pos_iff_exists_mem]
  simp [List.any_eq_true]

/-- Settles O24: each query answers the report of the record it finds, with the state as it is. -/
theorem queriesReadTheRecord : Obligations.QueriesReadTheRecord := by
  unfold Obligations.QueriesReadTheRecord
  refine ⟨fun s m rest line address h => ⟨fun hk hp hline => ?noLine, fun hk hp hbad => ?badNode⟩,
    fun s m rest l h hk hp => ?line,
    fun s m rest h => ⟨fun l address hk hp h1 h30 => ?node, fun id hk hp => ⟨fun hnone => ?noSub,
      fun r hr hi hnodup => ?sub⟩⟩⟩
  case noLine =>
    rw [exec_lineQuery h hk hp, runLineQuery_noLine (ne_lineCode_of_lt hline)]
    rfl
  case badNode =>
    rw [exec_nodeQuery h hk hp, runNodeQuery, onNode_refuses hbad]
    rfl
  case line =>
    rw [exec_lineQuery h hk hp, runLineQuery_answers]
    unfold lineReport
    rw [inFlightCount_bne_zero, headTaken_line]
    rfl
  case node =>
    have hbyte : (byteOf address).toNat = address := toNat_byteOf (by omega)
    refine ⟨fun hnone => ?noNode, fun n hn ha hnodup => ?found⟩
    case noNode =>
      rw [exec_nodeQuery h hk hp, runNodeQuery_notFound (by rwa [hbyte]) (by rwa [hbyte])
        (by rw [hbyte, findNode_headTaken, findNode_none hnone])]
      rfl
    case found =>
      have hfind : findNode (headTaken s rest) l (byteOf address).toNat = some n := by
        rw [hbyte, findNode_headTaken, ← ha, findNode_of_mem hnodup hn]
      rw [exec_nodeQuery h hk hp, runNodeQuery_answers (by rwa [hbyte]) (by rwa [hbyte]) hfind, ← ha]
      unfold nodeReport
      rw [byteOf_bit_zero]
      rfl
  case noSub =>
    rw [exec_subQuery h hk hp, runSubQuery_notFound (s := headTaken s rest) hnone]
    rfl
  case sub =>
    rw [exec_subQuery h hk hp, runSubQuery_answers (s := headTaken s rest) hnodup hr hi]
    unfold subReport
    rw [byteOf_bit_zero]
    cases r.phase <;> rfl

end Sys2Proof.Machine
end

section
/-! SUPPORT. The changes of a line's state by LINE_START, LINE_STOP and the timers of Line Control (R115 to R118, R122,
R124). -/

namespace Sys2Proof.Machine

open Sys2Proof

/-! ### A change of the line's state (R121 to R125) -/

/-- A change of state is the new state and a LINE_STATE request (R125). -/
theorem changeLineState_joined (l : LineId) (state : LineState) (cause : Cause) (s : State) :
    changeLineState l state cause s = { s with delivery := { s.delivery with
      queue := joined s.delivery.queue (.lineState l) } }.modifyLine l fun x =>
        { x with lineState := state, cause := cause } := by
  rw [changeLineState_eq]
  cases l <;> rfl

theorem joined_of_mem {queue : List ReportRequest} {r : ReportRequest} (h : r ∈ queue) : joined queue r = queue :=
  if_pos h

/-- With LINE_STATE requested already, entry to FAULT is a change of the line alone. -/
theorem faulted_of_mem {l : LineId} {s : State} (h : .lineState l ∈ s.delivery.queue) (cause : Cause) :
    faulted l cause s = s.modifyLine l fun x => { x with
      lineState := .fault, cause := cause, holdoffTimer := .stopped
      sched := { x.sched with roundTimer := .stopped } } := by
  unfold faulted
  rw [joined_of_mem h]

theorem checkStuck_faults {l : LineId} {s : State} (hl : (s.line l).lineState = .running)
    (hp : (s.line l).port.stuck = true) (he : (s.line l).engine.state = .idle) :
    checkStuck l s = faulted l .stuck s := by
  rw [← enterFault_eq]
  exact if_pos ⟨hl, hp, he⟩

theorem checkStuck_same {l : LineId} {s : State}
    (h : ¬((s.line l).port.stuck = true ∧ (s.line l).engine.state = .idle)) : checkStuck l s = s :=
  if_neg fun hc => h hc.2

/-! ### Entry to PENDING and the round start (R5, R57) -/

/-- The reports requested before are requested still (R158). -/
theorem nodesToPending_keepsReport (l : LineId) (test : NodeRecord → Bool) {s : State} {r : ReportRequest}
    (h : r ∈ s.delivery.queue) : r ∈ (nodesToPending l test s).delivery.queue := by
  obtain ⟨added, hd, -⟩ := (nodesToPending_work (l := l) test s).reports
  rw [hd]
  exact List.mem_append_left _ h

theorem startRound_eq (l : LineId) (s : State) :
    startRound l s = s.modifyLine l fun x => { x with
      counters := { x.counters with rounds := satInc x.counters.rounds }
      sched := { x.sched with
        roundNumber := x.sched.roundNumber + 1, roundTimer := .running x.config.roundPeriod
        pollList := buildPollList l ((s.line l).sched.roundNumber + 1) s, broadcastSent := false
        probeDone := false, allowanceUsed := 0, alternation := .none, contentionCount := 0 } } := rfl

/-! ### LINE_START (R115) -/

section

variable {s : State}

theorem runLineStart_noLine {line : Byte} (h : ∀ l, line ≠ lineCode l) :
    runLineStart [line] s = refuseWith .badField s := onLine_refuses h

theorem runLineStart_starts {l : LineId} (h : (s.line l).lineState = .stopped) :
    runLineStart [lineCode l] s = answerOk [] (startLine l s) := (onLine_runs l).trans (if_pos h)

theorem runLineStart_wrongState {l : LineId} (h : (s.line l).lineState ≠ .stopped) :
    runLineStart [lineCode l] s = refuseWith .wrongState s := (onLine_runs l).trans (if_neg h)

end

/-- A round started in RUNNING, and a stuck input then found: the line's state, its cause and two timers tell whether
it has gone on to FAULT. LINE_STATE is requested already. -/
theorem checkStuck_startRound {l : LineId} {u : State} {cause : Cause} (hl : (u.line l).lineState = .running)
    (hc : (u.line l).cause = cause) (hq : .lineState l ∈ u.delivery.queue) :
    checkStuck l (startRound l u) = u.modifyLine l fun x => { x with
      counters := { x.counters with rounds := satInc x.counters.rounds }
      lineState := if x.port.stuck ∧ x.engine.state = .idle then .fault else .running
      cause := if x.port.stuck ∧ x.engine.state = .idle then .stuck else cause
      holdoffTimer := if x.port.stuck ∧ x.engine.state = .idle then .stopped else x.holdoffTimer
      sched := { x.sched with
        roundNumber := x.sched.roundNumber + 1
        pollList := buildPollList l ((u.line l).sched.roundNumber + 1) u, broadcastSent := false
        probeDone := false, allowanceUsed := 0, alternation := .none, contentionCount := 0
        roundTimer := if x.port.stuck ∧ x.engine.state = .idle then .stopped
          else .running x.config.roundPeriod } } := by
  have hline := modifyLine_line_same u l
  by_cases hstuck : (u.line l).port.stuck = true ∧ (u.line l).engine.state = .idle
  · rw [checkStuck_faults, faulted_of_mem, startRound_eq, modifyLine_modifyLine]
    · refine modifyLine_congr ?_
      simp only [if_pos hstuck]
    · rwa [startRound_eq, modifyLine_delivery]
    all_goals rw [startRound_eq, hline]
    exacts [hl, hstuck.1, hstuck.2]
  · rw [checkStuck_same, startRound_eq]
    · refine modifyLine_congr ?_
      simp only [if_neg hstuck]
      rw [← hl, ← hc]
    · rwa [startRound_eq, hline]

/-- The steps of R115 up to the round start: RUNNING, with LINE_STATE requested, and every node PENDING. -/
theorem startLine_starts {l : LineId} {s : State} (hnodup : ((s.line l).nodes.map (·.address)).Nodup) :
    ∃ u, EnteredPending l (fun n => n.state != .pending) (changeLineState l .running .request s) u ∧
      (u.line l).lineState = .running ∧ (u.line l).cause = .request ∧ .lineState l ∈ u.delivery.queue ∧
      startLine l s = checkStuck l (startRound l u) := by
  unfold startLine
  generalize hbase : changeLineState l .running .request s = base
  have hline : base.line l = { s.line l with lineState := .running, cause := .request } :=
    hbase ▸ changeLineState_line _ _ _ _
  have hreport : .lineState l ∈ base.delivery.queue := by
    rw [← hbase, changeLineState_joined, modifyLine_delivery]
    exact mem_joined _ _
  have hpended : EnteredPending l (fun n => n.state != .pending) base
      (nodesToPending l (fun n => n.state != .pending) base) := nodesToPending_entered l _ base (by rwa [hline])
  refine ⟨_, hpended, ?_, ?_, nodesToPending_keepsReport l _ hreport, rfl⟩
  all_goals rw [hpended.line, hline]

/-- Settles O21: the line's state decides between WRONG_STATE and the steps of R115, the last of them the check for a
stuck input. -/
theorem lineStartEntersRunning : Obligations.LineStartEntersRunning := by
  unfold Obligations.LineStartEntersRunning
  refine ⟨fun s m rest line h hk hp hline => ?noLine,
    fun s m rest l h hk hp => ⟨fun hl hnodup => ?starts, fun hl => ?wrongState⟩⟩
  case noLine =>
    rw [exec_lineStart h hk hp, runLineStart_noLine (ne_lineCode_of_lt hline)]
    rfl
  case starts =>
    rw [← headTaken_line s rest] at hl hnodup
    obtain ⟨u, hpended, hrunning, hcause, hreport, hstarted⟩ := startLine_starts hnodup
    rw [changeLineState_joined] at hpended
    refine ⟨u, _, _, ?_, hpended, buildPollList_spec l _ u, checkStuck_startRound hrunning hcause hreport⟩
    rw [exec_lineStart h hk hp, runLineStart_starts hl, hstarted]
    rfl
  case wrongState =>
    rw [exec_lineStart h hk hp, runLineStart_wrongState (by rwa [headTaken_line])]
    rfl

/-! ### LINE_STOP (R116 to R118) -/

/-- The purge a LINE_STOP asks for by its flag (R117). -/
def purgeAsked (l : LineId) (flag : Byte) (s : State) : State := if flag = 0 then s else purged l s

theorem purgeAsked_line (l : LineId) (flag : Byte) (s : State) :
    ∃ queue, (purgeAsked l flag s).line l = { s.line l with txnQueue := queue } := by
  unfold purgeAsked
  split
  · exact ⟨_, rfl⟩
  · exact ⟨[], by cases l <;> rfl⟩

theorem purgeOfFlag_eq (l : LineId) (flag : Byte) (s : State) :
    (if (flag != 0) = true then purgeLine l s else s) = purgeAsked l flag s := by
  rw [purgeLine_eq, purgeAsked, ← ite_not]
  simp

theorem sendingBreakNow_iff {p : LinePort} :
    sendingBreakNow p = true ↔ ∃ jam left, p.tx = .sendingBreak jam left := by
  unfold sendingBreakNow
  cases p.tx <;> simp

theorem enterStopping_eq (l : LineId) (purge : Bool) (s : State) : enterStopping l purge s =
    { s with delivery := { s.delivery with queue := joined s.delivery.queue (.lineState l) } }.modifyLine l
      fun x => { x with
        lineState := .stopping, cause := .request, purgePending := purge, holdoffTimer := .stopped
        idleWait := .stopped } := by
  unfold enterStopping
  rw [changeLineState_eq]
  cases l <;> rfl

theorem stopCompleted_noPurge {l : LineId} {s : State} (h : (s.line l).purgePending = false) : stopCompleted l s =
    { s with delivery := { s.delivery with queue := joined s.delivery.queue (.lineState l) } }.modifyLine l
      fun x => { x with
        lineState := .stopped, cause := .request, holdoffTimer := .stopped, idleWait := .stopped
        sched := { x.sched with roundTimer := .stopped, pollList := [], resyncRequest := false } } := by
  unfold stopCompleted
  dsimp only
  rw [if_neg (h ▸ Bool.false_ne_true)]
  refine modifyLine_congr ?_
  rw [← h]
  cases l <;> rfl

section

variable {l : LineId} {flag : Byte} {s u : State} (hu : purgeAsked l flag s = u)
include hu

theorem stopLine_stopped (hl : (u.line l).lineState = .stopped) : stopLine l (flag != 0) s = u := by
  unfold stopLine
  rw [purgeOfFlag_eq, hu]
  dsimp only
  rw [hl]

/-- With nothing in flight, and no break being sent, the line stops at once. -/
theorem stopLine_stops (hl : (u.line l).lineState = .running ∧ (u.line l).engine.state = .idle ∨
      (u.line l).lineState = .holdoff ∨ (u.line l).lineState = .fault)
    (hb : ¬ sendingBreakNow (u.line l).port = true) : stopLine l (flag != 0) s = enterStopped l u := by
  unfold stopLine
  rw [purgeOfFlag_eq, hu]
  dsimp only
  rcases hl with ⟨hl, hidle⟩ | hl | hl <;> rw [hl]
  · exact if_pos ⟨hidle, Bool.eq_false_iff.2 hb⟩
  · exact if_neg hb
  · exact if_neg hb

/-- An exchange in flight or a break being sent is waited for in STOPPING. -/
theorem stopLine_waits (hl : (u.line l).lineState = .running ∧ (u.line l).engine.state ≠ .idle ∨
      ((u.line l).lineState = .running ∨ (u.line l).lineState = .holdoff ∨ (u.line l).lineState = .fault) ∧
        sendingBreakNow (u.line l).port = true) :
    stopLine l (flag != 0) s = enterStopping l (flag != 0) u := by
  unfold stopLine
  rw [purgeOfFlag_eq, hu]
  dsimp only
  rcases hl with ⟨hl, hengaged⟩ | ⟨hl | hl | hl, hb⟩ <;> rw [hl]
  · exact if_neg fun hc => hengaged hc.1
  · exact if_neg fun hc => Bool.false_ne_true (hc.2.symm.trans hb)
  · exact if_pos hb
  · exact if_pos hb

theorem stopLine_stopping (hl : (u.line l).lineState = .stopping) :
    stopLine l (flag != 0) s = u.modifyLine l fun x => { x with purgePending := x.purgePending || flag != 0 } := by
  unfold stopLine
  rw [purgeOfFlag_eq, hu]
  dsimp only
  rw [hl]

end

theorem runLineStop_noLine {line : Byte} (h : ∀ l, line ≠ lineCode l) (flag : Byte) (s : State) :
    runLineStop [line, flag] s = refuseWith .badField s := onLine_refuses h

theorem toNat_bne_zero (flag : Byte) : (flag.toNat != 0) = (flag != 0) := by
  rw [Bool.eq_iff_iff, bne_iff_ne, bne_iff_ne]
  exact not_congr ⟨fun h => BitVec.eq_of_toNat_eq h, fun h => h ▸ rfl⟩

theorem runLineStop_stops (l : LineId) (flag : Byte) (s : State) :
    runLineStop [lineCode l, flag] s = answerOk [] (stopLine l (flag != 0) s) := by
  rw [← toNat_bne_zero]
  exact onLine_runs l

/-- Settles O22: the line's state after the purge, which no purge changes, decides where the stop leads. -/
theorem lineStopByState : Obligations.LineStopByState := by
  unfold Obligations.LineStopByState
  refine ⟨fun s m rest line flag h hk hp hline => ?noLine, fun s m rest l flag h hk hp => ?line⟩
  case noLine =>
    rw [exec_lineStop h hk hp, runLineStop_noLine (ne_lineCode_of_lt hline)]
    rfl
  case line =>
    obtain ⟨u, hu⟩ : ∃ u, purgeAsked l flag (headTaken s rest) = u := ⟨_, rfl⟩
    obtain ⟨queue, hline⟩ := purgeAsked_line l flag (headTaken s rest)
    rw [hu, headTaken_line] at hline
    have hstate : (s.line l).lineState = (u.line l).lineState := by rw [hline]
    have hengine : (s.line l).engine = (u.line l).engine := by rw [hline]
    have hport : (s.line l).port = (u.line l).port := by rw [hline]
    have hpending : (s.line l).purgePending = (u.line l).purgePending := by rw [hline]
    rw [exec_lineStop h hk hp, runLineStop_stops, hstate, hengine, hport, hpending]
    refine ⟨u, hu.symm, fun hl => ?stopped, fun hpurge hl hbreak => ?stops, fun hl => ?waits, fun hl => ?stopping⟩
    case stopped =>
      rw [stopLine_stopped hu hl]
      rfl
    case stops =>
      have hnoBreak : ¬ sendingBreakNow (u.line l).port = true := fun hc => by
        obtain ⟨jam, left, htx⟩ := sendingBreakNow_iff.1 hc
        exact hbreak jam left htx
      rw [stopLine_stops hu hl hnoBreak, enterStopped_eq, stopCompleted_noPurge hpurge]
      rfl
    case waits =>
      rw [stopLine_waits hu (hl.imp_right (And.imp_right sendingBreakNow_iff.2)), enterStopping_eq]
      rfl
    case stopping =>
      rw [stopLine_stopping hu hl]
      rfl

/-! ### The timers of Line Control (R122, R124) -/

section

variable {l : LineId} {s : State}

theorem holdoffRunsOut_expired (hl : (s.line l).lineState = .holdoff) (ht : (s.line l).holdoffTimer = .running 0) :
    holdoffRunsOut l s = checkStuck l ((changeLineState l .running .holdoffEnd s).modifyLine l fun x =>
      { x with holdoffTimer := .stopped }) :=
  if_pos ⟨hl, hasExpired_iff.2 ht⟩

theorem holdoffRunsOut_waits (h : (s.line l).lineState ≠ .holdoff ∨ (s.line l).holdoffTimer ≠ .running 0) :
    holdoffRunsOut l s = s :=
  if_neg fun ⟨hl, ht⟩ => h.elim (· hl) (· (hasExpired_iff.1 ht))

theorem idleWaitRunsOut_expired (hl : (s.line l).lineState = .fault) (ht : (s.line l).idleWait = .running 0) :
    idleWaitRunsOut l s = recoverLine l s :=
  if_pos ⟨hl, hasExpired_iff.2 ht⟩

theorem idleWaitRunsOut_waits (h : (s.line l).lineState ≠ .fault ∨ (s.line l).idleWait ≠ .running 0) :
    idleWaitRunsOut l s = s :=
  if_neg fun ⟨hl, ht⟩ => h.elim (· hl) (· (hasExpired_iff.1 ht))

end

/-- The recovery without a stuck input: RUNNING, the nodes in service PENDING, and a round start (R58, R124). -/
theorem recoverLine_starts {l : LineId} {s : State} (hnodup : ((s.line l).nodes.map (·.address)).Nodup)
    (hstuck : (s.line l).port.stuck = false) :
    ∃ t, EnteredPending l (fun n => n.state.inService)
        ((changeLineState l .running .recovered s).modifyLine l fun x => { x with idleWait := .stopped }) t ∧
      (t.line l).sched.roundNumber = (s.line l).sched.roundNumber ∧ recoverLine l s = startRound l t := by
  unfold recoverLine pendInService
  generalize hbase :
    (changeLineState l .running .recovered s).modifyLine l (fun x => { x with idleWait := .stopped }) = base
  have hline : base.line l = { s.line l with
      lineState := .running, cause := .recovered, idleWait := .stopped } := by
    rw [← hbase, modifyLine_line_same, changeLineState_line]
  have hpended : EnteredPending l (fun n => n.state.inService) base
      (nodesToPending l (fun n => n.state.inService) base) := nodesToPending_entered l _ base (by rwa [hline])
  refine ⟨_, hpended, by rw [hpended.line, hline], checkStuck_same ?_⟩
  rw [startRound_eq, modifyLine_line_same, hpended.line, hline]
  exact fun hc => Bool.false_ne_true (hstuck.symm.trans hc.1)

/-- Settles O52: each command by its line's state and its timer, and a stuck input as the line enters RUNNING. -/
theorem holdoffAndIdleWaitReturnToRunning : Obligations.HoldoffAndIdleWaitReturnToRunning := by
  unfold Obligations.HoldoffAndIdleWaitReturnToRunning
  intro l s hr
  have run (f : State → State) : perform f s = .next (outbound (f s)) := perform_running hr
  refine ⟨fun base hl ht hbase => ?holdoffEnds, fun h => ?holdoffWaits, fun hl ht hstuck hnodup => ?recovers,
    fun h => ?idleWaitWaits⟩
  case holdoffEnds =>
    have hexec : exec (.holdoffExpiry l) s = .next (outbound (checkStuck l base)) := by
      refine (run _).trans ?_
      rw [holdoffRunsOut_expired hl ht, changeLineState_joined, modifyLine_modifyLine, hbase]
    have hline : base.line l = { s.line l with
        lineState := .running, cause := .holdoffEnd, holdoffTimer := .stopped } := by
      rw [hbase]
      cases l <;> rfl
    refine ⟨fun hstuck => ?_, fun hstuck hidle => ?_⟩
    · rw [hexec, checkStuck_same]
      rw [hline]
      exact fun hc => Bool.false_ne_true (hstuck.symm.trans hc.1)
    · rw [hexec, checkStuck_faults] <;> rw [hline]
      exacts [hstuck, hidle]
  case holdoffWaits => exact (run _).trans (by rw [holdoffRunsOut_waits h])
  case recovers =>
    obtain ⟨t, hpended, hround, hrecovered⟩ := recoverLine_starts hnodup hstuck
    rw [changeLineState_joined, modifyLine_modifyLine] at hpended
    have hpolls := buildPollList_spec l ((t.line l).sched.roundNumber + 1) t
    refine ⟨t, buildPollList l ((t.line l).sched.roundNumber + 1) t, hpended, hround ▸ hpolls, (run _).trans ?_⟩
    rw [idleWaitRunsOut_expired hl ht, hrecovered]
    rfl
  case idleWaitWaits => exact (run _).trans (by rw [idleWaitRunsOut_waits h])

end Sys2Proof.Machine
end

section
/-! SUPPORT. The start bits, breaks and stuck inputs that the port signals, as the engine, the Node Table and Line
Control take them (R23, R31, R123, R124, R128, R130, R131). -/

namespace Sys2Proof.Machine

open Sys2Proof

/-! ### A command takes its signal (log 2, log 3, log 20) -/

section
variable {l : LineId} {periods : Periods} {s base : State} {x : PortSignal}
  {effect : PortSignal → Option (State → State)} {run : State → State}

theorem takeSignal_signalled (h : Signalled l periods x s base) (he : effect x = some run) :
    takeSignal l effect (playPeriods l periods s) = some (run base) := by
  obtain ⟨rest, hsignals, rfl⟩ := h
  unfold takeSignal
  rw [hsignals]
  exact congrArg (Option.map _) he

theorem takeSignal_unsignalled
    (h : ∀ x run, effect x = some run → ∀ base, ¬ Signalled l periods x s base) :
    takeSignal l effect (playPeriods l periods s) = none := by
  refine Option.eq_none_iff_forall_not_mem.2 fun t ht => ?_
  obtain ⟨x, rest, run, hsignals, he, -⟩ := takeSignal_some ht
  exact h x run he _ ⟨rest, hsignals, rfl⟩

/-- The command of a signal the port has given acts on the state with that signal taken. -/
theorem perform_signalled (hr : s.resetHeld = false) (h : Signalled l periods x s base) (he : effect x = some run) :
    perform (afterPeriods l periods (takeSignal l effect)) s = .next (outbound (run base)) :=
  (perform_running hr).trans (by rw [afterPeriods_some (takeSignal_signalled h he)])

/-- Without a signal of its own the command does nothing. -/
theorem perform_unsignalled (hr : s.resetHeld = false)
    (h : ∀ x run, effect x = some run → ∀ base, ¬ Signalled l periods x s base) :
    perform (afterPeriods l periods (takeSignal l effect)) s = .next (outbound s) :=
  (perform_running hr).trans (by rw [afterPeriods_none (takeSignal_unsignalled h)])

end

/-! ### Start bits and the return high (R128, R130) -/

/-- START_BEGUN takes the two kinds of start bit and nothing else. -/
theorem startBegun_takes {l : LineId} {x : PortSignal} {run : State → State} (h : startBegun l x = some run) :
    x = .startBegun ∨ x = .echoBegun := by
  cases x with
  | startBegun => exact .inl rfl
  | echoBegun => exact .inr rfl
  | _ => cases h

theorem falseStart_takes {l : LineId} {x : PortSignal} {run : State → State} (h : falseStart l x = some run) :
    x = .falseStart := by
  cases x with
  | falseStart => rfl
  | _ => cases h

theorem returnHigh_takes {x : PortSignal} {run : State → State} (h : returnHigh x = some run) : x = .returnHigh := by
  cases x with
  | returnHigh => rfl
  | _ => cases h

section
variable {l : LineId} {periods : Periods} {s base : State}

theorem returnHighEvent_signalled (h : Signalled l periods .returnHigh s base) (signals : List PortSignal) :
    returnHighEvent l signals (playPeriods l periods s) = some base := by
  unfold returnHighEvent
  rw [takeSignal_signalled h rfl]
  rfl

/-- Of a return high of no signal RETURN_HIGH carries the periods (log 28). -/
theorem returnHighEvent_unsignalled (h : ∀ base, ¬ Signalled l periods .returnHigh s base)
    (signals : List PortSignal) : returnHighEvent l signals (playPeriods l periods s) =
      unsignalledHigh l signals (playPeriods l periods s) := by
  unfold returnHighEvent
  rw [takeSignal_unsignalled fun x run hx => returnHigh_takes hx ▸ h]

end

/-- Settles O46: each command takes its signal; without one RETURN_HIGH looks at the input and the signals given. -/
theorem startBitsHoldTheTimers : Obligations.StartBitsHoldTheTimers := by
  unfold Obligations.StartBitsHoldTheTimers
  intro l periods s hr
  refine ⟨fun base h => perform_signalled (effect := startBegun l) hr h rfl,
    fun base h => perform_signalled (effect := startBegun l) hr h rfl,
    fun h => perform_unsignalled hr fun x run hx => ?_, fun base h => ?_, fun h u hu => ⟨fun hi hs => ?_, fun hl => ?_⟩,
    fun left => ⟨rfl, rfl, rfl⟩⟩
  · rcases startBegun_takes hx with rfl | rfl
    · exact fun base => (h base).1
    · exact fun base => (h base).2
  · exact (perform_running hr).trans (by rw [afterPeriods_some (returnHighEvent_signalled h _)])
  · subst hu
    exact (perform_running hr).trans
      (by rw [afterPeriods_some ((returnHighEvent_unsignalled h _).trans (if_pos ⟨hi, hs⟩))])
  · subst hu
    have hnot : ¬(((playPeriods l periods s).line l).port.input = .high ∧
        ((playPeriods l periods s).line l).port.signals = (s.line l).port.signals) := fun ⟨hi, hs⟩ =>
      hl.elim (fun hlow => PinLevel.noConfusion (hi.symm.trans hlow)) (· hs)
    exact (perform_running hr).trans
      (by rw [afterPeriods_none ((returnHighEvent_unsignalled h _).trans (if_neg hnot))])

/-- Settles O47: the hold ends as every hold does. -/
theorem falseStartResumesTheTimer : Obligations.FalseStartResumesTheTimer := by
  unfold Obligations.FalseStartResumesTheTimer
  intro l periods s hr
  exact ⟨fun h => perform_unsignalled hr fun x run hx => falseStart_takes hx ▸ h,
    fun base h => ⟨_, perform_signalled hr h rfl, resumeTimers_holdEnded l base⟩⟩

/-! ### Breaks (R23, R31, R130) -/

theorem breakDetected_takes {l : LineId} {x : PortSignal} {run : State → State} (h : breakDetected l x = some run) :
    x = .breakDetected := by
  cases x with
  | breakDetected => rfl
  | _ => cases h

theorem breakEnd_takes {l : LineId} {x : PortSignal} {run : State → State} (h : breakEnd l x = some run) :
    ∃ duration, x = .breakEnd duration := by
  cases x with
  | breakEnd duration => exact ⟨duration, rfl⟩
  | _ => cases h

section
variable {l : LineId} {s t base : State} {o : Order}

/-- A break is counted, if it is a new one, and then seen by the engine. -/
theorem takeBreak_eq {newBreak : Bool} (hbase : base = s.modifyLine l fun x => { x with counters := { x.counters with
      breaksSeen := if newBreak = true then satInc x.counters.breaksSeen else x.counters.breaksSeen } }) :
    takeBreak l newBreak s = base.modifyLine l fun x => { x with engine := engineBreak x.engine } := by
  rw [hbase, modifyLine_modifyLine]
  unfold takeBreak countBreak
  cases newBreak <;> rfl

theorem engineBreak_attempt {e : Engine} (h : e.state = .awaiting ∨ e.state = .receiving) :
    engineBreak e = { e with
      window := .stopped, gap := .stopped, breakHold := true, breakSeen := true, lastVerdict := some .lineBreak
      buffer := { bytes := [], noiseSeen := false, framingSeen := false } } := by
  unfold engineBreak
  rcases h with h | h <;> rw [h] <;> rfl

theorem engineBreak_settling {e : Engine} (h : e.state = .settling) : engineBreak e = { e with breakSeen := true } := by
  unfold engineBreak
  rw [h]

theorem engineBreak_unconcerned {e : Engine} (h : e.state = .idle ∨ e.state = .sending) : engineBreak e = e := by
  unfold engineBreak
  rcases h with h | h <;> rw [h]

/-- A break an idle or sending engine does not see leaves the line as counted. -/
theorem takeBreak_unconcerned (h : (base.line l).engine.state = .idle ∨ (base.line l).engine.state = .sending) :
    (base.modifyLine l fun x => { x with engine := engineBreak x.engine }) = base := by
  refine (modifyLine_congr (g := fun x => x) ?_).trans (setLine_line_self base l)
  rw [engineBreak_unconcerned h]

/-- The Node Table takes the end of a break by its duration (R23). -/
theorem breakEnded_eq (l : LineId) (duration : Nat) (s : State) : breakEnded l duration s =
    s.modifyLine l fun x => { x with
      nodes := if 352 ≤ duration then x.nodes.map fun n => { n with toggle := false } else x.nodes } := by
  unfold breakEnded
  by_cases h : 352 ≤ duration
  · refine (if_pos h).trans (modifyLine_congr ?_)
    rw [if_pos h]
  · refine (if_neg h).trans ((setLine_line_self s l).symm.trans ?_)
    refine modifyLine_congr (f := fun x => x) ?_
    rw [if_neg h]

theorem engineBreakEnd_ends (ho : (s.line l).engine.order = some o) (hb : (s.line l).engine.breakHold = true) :
    AttemptEnds l o .lineBreak s (engineBreakEnd l s) := by
  unfold engineBreakEnd
  rw [if_pos hb]
  exact endAttempt_uncounted ho rfl fun _ => rfl

theorem engineBreakEnd_resumes (hb : (s.line l).engine.breakHold = false) :
    engineBreakEnd l s = resumeTimers l s := if_neg (hb ▸ Bool.false_ne_true)

theorem resumeTimers_unconcerned (h : (s.line l).engine.state = .idle ∨ (s.line l).engine.state = .sending) :
    resumeTimers l s = s := by
  unfold resumeTimers
  rcases h with h | h <;> simp only [h]

end

/-- Settles O48: a break by the engine's state, and its end by the attempt held. -/
theorem breaksAreCountedAndEndTheAttempt : Obligations.BreaksAreCountedAndEndTheAttempt := by
  unfold Obligations.BreaksAreCountedAndEndTheAttempt
  intro l periods s hr
  refine ⟨fun h => perform_unsignalled hr fun x run hx => breakDetected_takes hx ▸ h,
    fun taken base h hbase => ?detected, fun h => perform_unsignalled hr fun x run hx => ?unended, fun duration taken base h hbase => ?ended⟩
  case unended =>
    obtain ⟨duration, rfl⟩ := breakEnd_takes hx
    exact h duration
  case detected =>
    have hexec : exec (.breakDetected l periods) s =
        .next (outbound (base.modifyLine l fun x => { x with engine := engineBreak x.engine })) := by
      rw [← takeBreak_eq (newBreak := true) hbase]
      exact perform_signalled (effect := breakDetected l) hr h rfl
    rw [hexec]
    refine ⟨fun hs => ?_, fun hs => ?_, fun hs => ?_⟩
    · congr 2
      refine modifyLine_congr ?_
      rw [engineBreak_attempt hs]
    · congr 2
      refine modifyLine_congr ?_
      rw [engineBreak_settling hs]
    · rw [takeBreak_unconcerned hs]
  case ended =>
    have hexec : exec (.breakEnd l periods) s = .next (outbound (engineBreakEnd l base)) := by
      rw [hbase, ← breakEnded_eq]
      exact perform_signalled (effect := breakEnd l) (run := breakOver l duration) hr h rfl
    refine ⟨fun hs hb => ?_, fun o ho hb => ⟨_, hexec, engineBreakEnd_ends ho hb⟩, fun _ hb => ⟨_, hexec, ?_⟩⟩
    · rw [hexec, engineBreakEnd_resumes hb, resumeTimers_unconcerned hs]
    · rw [engineBreakEnd_resumes hb]
      exact resumeTimers_holdEnded l base

/-! ### Stuck inputs (R31, R123, R124, R131) -/

theorem stuckInput_takes {l : LineId} {x : PortSignal} {run : State → State} (h : stuckInput l x = some run) :
    ∃ newBreak, x = .stuck newBreak := by
  cases x with
  | stuck newBreak => exact ⟨newBreak, rfl⟩
  | _ => cases h

theorem stuckEnd_takes {l : LineId} {x : PortSignal} {run : State → State} (h : stuckEnd l x = some run) :
    ∃ duration, x = .stuckEnd duration := by
  cases x with
  | stuckEnd duration => exact ⟨duration, rfl⟩
  | _ => cases h

/-- The record of an exchange that a stuck input has ended with this verdict (R31, R37). -/
def stuckRecord (l : LineId) (o : Order) (v : Verdict) (s : State) : VerdictRecord :=
  { order := o, result := plainResult v, framesSent := (s.line l).engine.framesSent
    retries := (s.line l).engine.attempt - startAttempt o.kind }

/-- The line whose exchange a stuck input has ended, before the verdict is delivered (R31, R38, R39). -/
def stuckOver (l : LineId) (v : Verdict) (s : State) : State := s.modifyLine l fun x => { x with
  engine := { endedEngine v x.engine with
    breakSeen := true
    buffer := if x.engine.state = .settling then x.engine.buffer
      else { bytes := [], noiseSeen := false, framingSeen := false } }
  counters := { x.counters with exchanges := satInc x.counters.exchanges } }

/-- The verdict a stuck input ends an exchange with: BREAK for an attempt in flight, and from SETTLING the last
attempt's (R31). -/
def StuckVerdict (e : Engine) (v : Verdict) : Prop :=
  (e.state = .awaiting ∨ e.state = .receiving) ∧ v = .lineBreak ∨
    e.state = .settling ∧ e.lastVerdict = some v ∧ v ≠ .contention

theorem StuckVerdict.not_contention {e : Engine} {v : Verdict} (h : StuckVerdict e v) : v ≠ .contention := by
  rcases h with ⟨-, rfl⟩ | ⟨-, -, h⟩
  · exact Verdict.noConfusion
  · exact h

section
variable {l : LineId} {s base : State} {o : Order} {v : Verdict}

theorem reportStuck_engine (h : (s.line l).engine.state = .awaiting ∨ (s.line l).engine.state = .receiving) :
    reportStuck l s = finishExchange l (plainResult .lineBreak) true s := by
  unfold reportStuck engineStuck
  rcases h with h | h <;> simp only [h]

theorem reportStuck_settling (h : (s.line l).engine.state = .settling) (hv : (s.line l).engine.lastVerdict = some v) :
    reportStuck l s = finishExchange l (plainResult v) true s := by
  unfold reportStuck engineStuck
  simp only [h, hv, Option.getD_some]

theorem reportStuck_sending (h : (s.line l).engine.state = .sending) : reportStuck l s = s := by
  unfold reportStuck
  rw [h]

/-- With the engine IDLE only a line in RUNNING or HOLDOFF goes to FAULT (R123). -/
theorem reportStuck_faults (h : (s.line l).engine.state = .idle)
    (hl : (s.line l).lineState = .running ∨ (s.line l).lineState = .holdoff) :
    reportStuck l s = faulted l .stuck s := by
  unfold reportStuck stuckToLineControl
  rw [← enterFault_eq]
  rcases hl with hl | hl <;> simp only [h, hl]

theorem reportStuck_stays (h : (s.line l).engine.state = .idle)
    (hl : (s.line l).lineState = .stopped ∨ (s.line l).lineState = .fault ∨ (s.line l).lineState = .stopping) :
    reportStuck l s = s := by
  unfold reportStuck stuckToLineControl
  rcases hl with hl | hl | hl <;> simp only [h, hl]

/-- An exchange ends: its verdict record is delivered (R38). -/
theorem finishExchange_delivers {r : AttemptResult} {stuckEnded : Bool} (ho : (s.line l).engine.order = some o) :
    finishExchange l r stuckEnded s = deliverVerdict l
      { order := o, result := r, framesSent := (s.line l).engine.framesSent
        retries := (s.line l).engine.attempt - startAttempt o.kind } stuckEnded
      (s.modifyLine l fun x => { x with
        engine := idleEngine x.engine, counters := countExchange r.verdict x.counters }) := by
  unfold finishExchange
  simp only [ho]

/-- A stuck input ends the exchange in flight. -/
theorem reportStuck_delivers (ho : (base.line l).engine.order = some o) (hv : StuckVerdict (base.line l).engine v) :
    reportStuck l (base.modifyLine l fun x => { x with engine := engineBreak x.engine }) =
      deliverVerdict l (stuckRecord l o v base) true (stuckOver l v base) := by
  have hcount := countExchange_uncontended hv.not_contention (base.line l).counters
  have hbroken := modifyLine_line_same base l fun x => { x with engine := engineBreak x.engine }
  rcases hv with ⟨hs, rfl⟩ | ⟨hs, hlast, -⟩
  · rw [engineBreak_attempt hs] at hbroken
    have hnot : (base.line l).engine.state ≠ .settling := by rcases hs with h | h <;> simp [h]
    rw [reportStuck_engine (by rwa [hbroken]), finishExchange_delivers (o := o) (by rwa [hbroken]), hbroken,
      modifyLine_modifyLine]
    refine congrArg (deliverVerdict l _ true) (modifyLine_congr ?_)
    dsimp only [plainResult]
    rw [hcount, engineBreak_attempt hs, if_neg hnot]
    rfl
  · rw [engineBreak_settling hs] at hbroken
    rw [reportStuck_settling (v := v) (by rwa [hbroken]) (by rwa [hbroken]),
      finishExchange_delivers (o := o) (by rwa [hbroken]), hbroken, modifyLine_modifyLine]
    refine congrArg (deliverVerdict l _ true) (modifyLine_congr ?_)
    dsimp only [plainResult]
    rw [hcount, engineBreak_settling hs, if_pos hs]
    unfold idleEngine endedEngine
    rw [hlast]

/-- Line Control takes the line to FAULT or completes the stop as the verdict of a stuck input is delivered (R118,
R123). -/
theorem deliverVerdict_stuck (hv : v ≠ .contention) (s : State) :
    ((s.line l).lineState = .running → deliverVerdict l (stuckRecord l o v base) true s =
      faulted l .stuck (verdictTaken l (stuckRecord l o v base) s)) ∧
    ((s.line l).lineState = .stopping → deliverVerdict l (stuckRecord l o v base) true s =
      stopCompleted l (verdictTaken l (stuckRecord l o v base) s)) := by
  have hstate := verdictTaken_lineState l (stuckRecord l o v base) s
  unfold deliverVerdict
  rw [schedulerTake_uncontended hv]
  exact ⟨fun hl => (lineControlTake_running (hstate.trans hl) hv true).trans (if_pos rfl),
    fun hl => lineControlTake_stopping (hstate.trans hl) hv true⟩

theorem faulted_line (l : LineId) (cause : Cause) (s : State) :
    (faulted l cause s).line l = faultLine cause (s.line l) := by
  rw [← enterFault_eq, enterFault_line]

theorem stopCompleted_line (l : LineId) (s : State) : (stopCompleted l s).line l = stoppedLine (s.line l) := by
  rw [← enterStopped_eq, enterStopped_line]

theorem faulted_requests (l : LineId) (cause : Cause) (s : State) :
    .lineState l ∈ (faulted l cause s).delivery.queue := by
  unfold faulted
  rw [modifyLine_delivery]
  exact mem_joined _ _

theorem stopCompleted_requests (l : LineId) (s : State) : .lineState l ∈ (stopCompleted l s).delivery.queue := by
  unfold stopCompleted
  dsimp only
  rw [modifyLine_delivery]
  split
  · rw [← purgeLine_eq]
    obtain ⟨added, hd, -⟩ := (purgeLine_work (l := l) { s with delivery := { s.delivery with
      queue := joined s.delivery.queue (.lineState l) } }).reports
    rw [hd]
    exact List.mem_append_left _ (mem_joined _ _)
  · exact mem_joined _ _

/-- What the verdict of a stuck input leaves of its line in RUNNING and in STOPPING. -/
theorem stuckDelivered_line {t : State} (hv : v ≠ .contention)
    (ht : t = deliverVerdict l (stuckRecord l o v base) true (stuckOver l v base))
    (hl : (base.line l).lineState = .running ∨ (base.line l).lineState = .stopping) :
    ((t.line l).engine = ((stuckOver l v base).line l).engine ∧ (t.line l).port = (base.line l).port ∧
      (t.line l).counters = { (base.line l).counters with exchanges := satInc (base.line l).counters.exchanges } ∧
      (t.line l).sched.roundTimer = .stopped ∧ .lineState l ∈ t.delivery.queue) ∧
    ((base.line l).lineState = .running → (t.line l).lineState = .fault ∧ (t.line l).cause = .stuck) ∧
    ((base.line l).lineState = .stopping → (t.line l).lineState = .stopped ∧ (t.line l).cause = .request ∧
      (t.line l).purgePending = false ∧ (t.line l).sched.pollList = []) := by
  obtain ⟨hrunning, hstopping⟩ := deliverVerdict_stuck (l := l) (o := o) (base := base) hv (stuckOver l v base)
  obtain ⟨queue, nodes, polls, htaken⟩ := verdictTaken_line l (stuckRecord l o v base) (stuckOver l v base)
  have hover : (stuckOver l v base).line l = _ := modifyLine_line_same _ _ _
  have hstate : ((stuckOver l v base).line l).lineState = (base.line l).lineState := by rw [hover]
  rw [hstate] at hrunning hstopping
  rcases hl with hl | hl
  · rw [hrunning hl] at ht
    have hline : t.line l = _ := ht ▸ faulted_line _ _ _
    rw [htaken] at hline
    rw [hline, ht]
    exact ⟨⟨rfl, by rw [hover]; rfl, by rw [hover]; rfl, rfl, faulted_requests _ _ _⟩, fun _ => ⟨rfl, rfl⟩,
      fun h => LineState.noConfusion (hl.symm.trans h)⟩
  · rw [hstopping hl] at ht
    have hline : t.line l = _ := ht ▸ stopCompleted_line _ _
    rw [htaken] at hline
    rw [hline, ht]
    exact ⟨⟨rfl, by rw [hover]; rfl, by rw [hover]; rfl, rfl, stopCompleted_requests _ _⟩,
      fun h => LineState.noConfusion (hl.symm.trans h), fun _ => ⟨rfl, rfl, rfl, rfl⟩⟩

/-- Stuck end in FAULT: the idle wait starts, unless it has or the input is low again (R124). -/
theorem ensureIdleWait_eq (l : LineId) (s : State) : ensureIdleWait l s = s.modifyLine l fun x => { x with
    idleWait := if x.lineState = .fault ∧ x.idleWait = .stopped ∧ x.port.input = .high then
      .running x.config.holdoff else x.idleWait } := by
  have hsame (h : ¬((s.line l).lineState = .fault ∧ (s.line l).idleWait = .stopped ∧
      (s.line l).port.input = .high)) : s = s.modifyLine l fun x => { x with
        idleWait := if x.lineState = .fault ∧ x.idleWait = .stopped ∧ x.port.input = .high then
          .running x.config.holdoff else x.idleWait } := by
    refine (setLine_line_self s l).symm.trans (modifyLine_congr (f := fun x => x) ?_)
    rw [if_neg h]
  unfold ensureIdleWait
  split
  next h =>
    by_cases hf : (s.line l).lineState = .fault
    · refine modifyLine_congr ?_
      rw [if_pos hf, if_pos ⟨hf, h.2, h.1⟩]
    · refine Eq.trans ?_ (hsame fun hc => hf hc.1)
      refine (modifyLine_congr (g := fun x => x) ?_).trans (setLine_line_self s l)
      exact if_neg hf
  next h => exact hsame fun hc => h ⟨hc.2.2, hc.2.1⟩

end

/-- Settles O49: the report by the engine's state, and its end by the attempt held. -/
theorem stuckInputsFaultTheLine : Obligations.StuckInputsFaultTheLine := by
  unfold Obligations.StuckInputsFaultTheLine
  intro l periods s hr
  refine ⟨fun h => perform_unsignalled hr fun x run hx => ?unreported, fun newBreak taken base h hbase => ?reported,
    fun h => perform_unsignalled hr fun x run hx => ?unended,
    fun duration taken base waiting h hbase hwaiting => ?ended⟩
  case unreported =>
    obtain ⟨newBreak, rfl⟩ := stuckInput_takes hx
    exact h newBreak
  case unended =>
    obtain ⟨duration, rfl⟩ := stuckEnd_takes hx
    exact h duration
  case reported =>
    have hexec : exec (.stuck l periods) s =
        .next (outbound (reportStuck l (base.modifyLine l fun x => { x with engine := engineBreak x.engine }))) := by
      rw [← takeBreak_eq hbase]
      exact perform_signalled (effect := stuckInput l) (run := takeStuck l newBreak) hr h rfl
    have hother (k : LineId) (hk : k ≠ l) : base.line k = s.line k := by
      obtain ⟨rest, -, htaken⟩ := h
      rw [hbase, htaken, modifyLine_line_other _ _ hk, modifyLine_line_other _ _ hk]
      exact modifyLine_line_other _ _ hk
    refine ⟨fun hs => ?_, fun hs => ?_, fun o v t ho hv ht => ?_⟩
    · rw [hexec, takeBreak_unconcerned (.inl hs)]
      exact ⟨fun hl => by rw [reportStuck_faults hs hl], fun hl => by rw [reportStuck_stays hs hl]⟩
    · rw [hexec, takeBreak_unconcerned (.inr hs), reportStuck_sending hs]
    · have hend : StuckVerdict (base.line l).engine v := hv
      refine ⟨by rw [hexec, reportStuck_delivers ho hend, ht]; rfl, fun hl => ?_⟩
      obtain ⟨⟨hengine, hport, hcounters, htimer, hreport⟩, hfault, hstopped⟩ :=
        stuckDelivered_line hend.not_contention ht hl
      rw [hengine, stuckOver, modifyLine_line_same]
      refine ⟨rfl, rfl, rfl, hfault, hstopped, htimer, hport, hcounters, hreport, fun k hk => ?_⟩
      rw [ht, (deliverVerdict_work (l := l) _ true _).other k hk, modifyLine_line_other _ _ hk, hother k hk]
  case ended =>
    have hexec : exec (.stuckEnd l periods) s = .next (outbound (waiting (engineBreakEnd l base))) := by
      rw [hbase, ← breakEnded_eq, hwaiting, ← ensureIdleWait_eq]
      exact perform_signalled (effect := stuckEnd l)
        (run := fun s => ensureIdleWait l (breakOver l duration s)) hr h rfl
    refine ⟨fun hs hb => ?_, fun o ho hb => ⟨_, hexec, engineBreakEnd_ends ho hb⟩, fun hb => ⟨_, hexec, ?_⟩⟩
    · rw [hexec, engineBreakEnd_resumes hb, resumeTimers_unconcerned hs]
    · rw [engineBreakEnd_resumes hb]
      exact resumeTimers_holdEnded l base

end Sys2Proof.Machine
end

section
/-! SUPPORT. The ends of the jam break and of the break order (R12, R23, R28, R118, R121, R124, R133). -/

namespace Sys2Proof.Machine

open Sys2Proof

/-- The line at the end of a break sent, with no timer of the engine to hold (R12, R23, R133). -/
def breakSentLine (x : Line) : Line := { x with
  port := releasedPort x.port, sched := { x.sched with quiet := .running 352 }
  nodes := x.nodes.map fun n => { n with toggle := false } }

section
variable {l : LineId} {periods : Periods} {s u base : State}

/-- While nothing but a break is sent the engine runs no timer that the release could hold (R25, R128). -/
theorem LineSound.breakTimersStopped {x : Line} {jam : Bool} {left : Nat} (h : LineSound x)
    (htx : x.port.tx = .sendingBreak jam left) :
    x.engine.window = .stopped ∧ x.engine.gap = .stopped ∧ x.engine.settling = .stopped := by
  have hfits := h.transmit
  rw [htx] at hfits
  cases jam with
  | true => exact h.timersStopped (.inl hfits)
  | false => exact h.timersStopped (.inr hfits.1)

theorem breakSent_eq (hw : (u.line l).engine.window = .stopped) (hg : (u.line l).engine.gap = .stopped)
    (ht : (u.line l).engine.settling = .stopped) : breakSent l u = u.modifyLine l breakSentLine := by
  unfold breakSent resetToggles restartQuiet
  rw [releaseDriver_eq, modifySched_modifyLine, modifyLine_modifyLine, modifyLine_modifyLine]
  refine modifyLine_congr ?_
  dsimp only
  rw [releasedEngine_stopped hw hg ht]
  rfl

/-! ### The jam break (R121, R133, R135) -/

theorem exec_jamBreakEnd_ends (hr : s.resetHeld = false)
    (htx : ((playPeriods l periods s).line l).port.tx = .sendingBreak true 0) :
    exec (.jamBreakEnd l periods) s = .next (outbound (afterJam l (breakSent l (playPeriods l periods s)))) := by
  have he : jamBreakEnd l (playPeriods l periods s) = some (afterJam l (breakSent l (playPeriods l periods s))) := by
    unfold jamBreakEnd
    rw [htx]
  exact (perform_running hr).trans (by rw [afterPeriods_some he])

theorem exec_jamBreakEnd_waits (hr : s.resetHeld = false)
    (htx : ((playPeriods l periods s).line l).port.tx ≠ .sendingBreak true 0) :
    exec (.jamBreakEnd l periods) s = .next (outbound s) := by
  have he : jamBreakEnd l (playPeriods l periods s) = none := by
    unfold jamBreakEnd
    split
    · exact absurd ‹_› htx
    all_goals rfl
  exact (perform_running hr).trans (by rw [afterPeriods_none he])

theorem afterJam_holdoff (h : (s.line l).lineState = .holdoff) :
    afterJam l s = s.modifyLine l fun x => { x with holdoffTimer := .running x.config.holdoff } := by
  unfold afterJam
  rw [h]

/-- In FAULT the idle wait starts if the input is high (R124). -/
theorem afterJam_fault (h : (s.line l).lineState = .fault) : afterJam l s = s.modifyLine l fun x => { x with
    idleWait := if x.port.input = .high then .running x.config.holdoff else x.idleWait } := by
  unfold afterJam
  rw [h]
  by_cases hi : (s.line l).port.input = .high
  · refine (if_pos hi).trans (modifyLine_congr ?_)
    rw [if_pos h, if_pos hi]
  · refine (if_neg hi).trans ((setLine_line_self s l).symm.trans (modifyLine_congr (f := fun x => x) ?_))
    rw [if_neg hi]

theorem afterJam_stopping (h : (s.line l).lineState = .stopping) : afterJam l s = stopCompleted l s := by
  unfold afterJam
  rw [h]
  exact enterStopped_eq l s

theorem afterJam_stays (h : (s.line l).lineState = .stopped ∨ (s.line l).lineState = .running) :
    afterJam l s = s := by
  unfold afterJam
  rcases h with h | h <;> rw [h]

/-! ### The break order (R28, R58, R118, R133) -/

theorem exec_breakOrderEnd_ends (hr : s.resetHeld = false)
    (htx : ((playPeriods l periods s).line l).port.tx = .sendingBreak false 0) :
    exec (.breakOrderEnd l periods) s = .next (outbound
      (completeStop l (pendInService l (breakSent l (endOrder l (playPeriods l periods s)))))) := by
  have he : breakOrderEnd l (playPeriods l periods s) =
      some (completeStop l (pendInService l (breakSent l (endOrder l (playPeriods l periods s))))) := by
    unfold breakOrderEnd
    rw [htx]
  exact (perform_running hr).trans (by rw [afterPeriods_some he])

theorem exec_breakOrderEnd_waits (hr : s.resetHeld = false)
    (htx : ((playPeriods l periods s).line l).port.tx ≠ .sendingBreak false 0) :
    exec (.breakOrderEnd l periods) s = .next (outbound s) := by
  have he : breakOrderEnd l (playPeriods l periods s) = none := by
    unfold breakOrderEnd
    split
    · exact absurd ‹_› htx
    all_goals rfl
  exact (perform_running hr).trans (by rw [afterPeriods_none he])

/-- The engine is IDLE and the driver released. -/
theorem breakSent_endOrder (hw : (u.line l).engine.window = .stopped) (hg : (u.line l).engine.gap = .stopped)
    (ht : (u.line l).engine.settling = .stopped) : breakSent l (endOrder l u) =
      u.modifyLine l fun x => { breakSentLine x with engine := { x.engine with state := .idle, order := none } } := by
  have hline : (endOrder l u).line l = _ := modifyLine_line_same _ _ _
  rw [breakSent_eq (by rwa [hline]) (by rwa [hline]) (by rwa [hline])]
  unfold endOrder
  rw [modifyEngine_modifyLine, modifyLine_modifyLine]
  rfl

theorem completeStop_eq (l : LineId) (s : State) :
    completeStop l s = if (s.line l).lineState = .stopping then stopCompleted l s else s := by
  unfold completeStop
  rw [enterStopped_eq]

end

/-- Settles O51: each break's end by the line's state after it. -/
theorem endsOfTheBreaksSent : Obligations.EndsOfTheBreaksSent := by
  unfold Obligations.EndsOfTheBreaksSent
  refine ⟨?jam, ?order⟩
  case jam =>
    rintro l periods s u hr hs rfl
    refine ⟨fun base htx hbase => ?_, exec_jamBreakEnd_waits hr⟩
    obtain ⟨hw, hg, ht⟩ := (playPeriods_lineSound periods hs).breakTimersStopped htx
    have hexec := exec_jamBreakEnd_ends hr htx
    have hsent : (playPeriods l periods s).modifyLine l breakSentLine = base := hbase.symm
    rw [breakSent_eq hw hg ht, hsent] at hexec
    have hstate : ((playPeriods l periods s).line l).lineState = (base.line l).lineState := by
      rw [hbase, modifyLine_line_same]
    rw [hexec, hstate]
    exact ⟨fun hl => by rw [afterJam_holdoff hl], fun hl => by rw [afterJam_fault hl],
      fun hl => by rw [afterJam_stopping hl], fun hl => by rw [afterJam_stays hl]⟩
  case order =>
    rintro l periods s u hr hs rfl hnodup
    refine ⟨fun htx => ?_, exec_breakOrderEnd_waits hr⟩
    obtain ⟨hw, hg, ht⟩ := (playPeriods_lineSound periods hs).breakTimersStopped htx
    have hnodes : ((playPeriods l periods s).line l).nodes = (s.line l).nodes := by
      obtain ⟨idleWait, quiet, window, gap, settling, port, h⟩ := playPeriods_line l periods s
      rw [h]
    have hexec := exec_breakOrderEnd_ends hr htx
    rw [completeStop_eq, breakSent_endOrder hw hg ht] at hexec
    generalize hbase : (playPeriods l periods s).modifyLine l _ = base at hexec
    have hline := congrArg (State.line · l) hbase
    dsimp only at hline
    rw [modifyLine_line_same] at hline
    have hpended : EnteredPending l (fun n => n.state.inService) base (pendInService l base) := by
      refine nodesToPending_entered l _ base ?_
      rw [← hline]
      simpa [breakSentLine, hnodes, List.map_map, Function.comp_def] using hnodup
    have hstate : ((pendInService l base).line l).lineState = ((playPeriods l periods s).line l).lineState :=
      (congrArg Line.lineState hpended.line).trans (by rw [← hline]; rfl)
    rw [hstate] at hexec
    exact ⟨pendInService l base, by subst hbase; exact hpended, hexec⟩

end Sys2Proof.Machine
end

section
/-! SUPPORT. The Line Port sample by sample (R126 to R131, R138): the low time and the signals that pass by whatever is
received, a character from its falling edge to the stop-bit decision, and the wait for the return high. -/

namespace Sys2Proof.Machine

open Sys2Proof

/-! ### What passes by in a sample period, whatever is received -/

/-- The part of a sample period that comes before the sample is taken (R129, R134). -/
def beforeSample (echo : Bool) (level : PinLevel) (p : LinePort) : LinePort :=
  reachDeadline (endCharacter echo { p with input := level })

/-- The part that comes before the receiver acts on the sample (R131). -/
def beforeReceive (echo : Bool) (level : PinLevel) (p : LinePort) : LinePort :=
  countLow level (beforeSample echo level p)

/-- A sample period in which the receiver does not act. -/
def passPeriod (echo : Bool) (level : PinLevel) (p : LinePort) : LinePort := sendPeriod (beforeReceive echo level p)

/-- The signals the port has given, and those that wait for the nominal end of a character (R129). -/
def owedSignals (echo : Bool) (p : LinePort) : List PortSignal :=
  p.signals ++ match p.ended with
    | none => []
    | some e => .characterEnd e.character :: if e.startWaits then [begunSignal echo] else []

/-- The character decided ends within n sample periods. -/
def EndsWithin (n : Nat) (p : LinePort) : Prop := ∀ e, p.ended = some e → 1 ≤ n ∧ e.left ≤ n

/-- No low period disturbs the character, no start bit of the part begins, and the input is not stuck at this sample. -/
structure Undisturbed (echoCheck : Bool) (level : PinLevel) (p : LinePort) : Prop where
  inBreak : p.inBreak = none
  noEcho : startsEcho echoCheck p = false
  unstuck : p.tx = .idle → (countLow level p).lowTime ≤ 704

section
variable {echo : Bool} {level : PinLevel} {p : LinePort} {n : Nat}

theorem endCharacter_changes (echo : Bool) (p : LinePort) :
    ∃ ended signals, endCharacter echo p = { p with ended := ended, signals := signals } := by
  unfold endCharacter
  split
  · exact ⟨_, _, rfl⟩
  · split
    · dsimp only
      split <;> exact ⟨_, _, rfl⟩
    · exact ⟨_, _, rfl⟩

theorem reachDeadline_changes (p : LinePort) : ∃ e, reachDeadline p = { p with echo := e } := by
  unfold reachDeadline
  split <;> exact ⟨_, rfl⟩

theorem endCharacter_owed (echo : Bool) (p : LinePort) :
    owedSignals echo (endCharacter echo p) = owedSignals echo p := by
  unfold endCharacter owedSignals
  cases hended : p.ended with
  | none => simp [hended]
  | some e =>
    by_cases hleft : e.left ≤ 1
    · cases hwaits : e.startWaits <;> simp [hleft, hwaits, signal]
    · simp [hleft]

theorem endCharacter_endsWithin (h : EndsWithin (n + 1) p) : EndsWithin n (endCharacter echo p) := by
  unfold endCharacter
  intro e
  cases hended : p.ended with
  | none => simp [hended]
  | some e' =>
    have hleft := (h e' hended).2
    by_cases h1 : e'.left ≤ 1
    · cases hwaits : e'.startWaits <;> simp [h1, hwaits, signal]
    · simp only [h1, if_false, Option.some.injEq]
      rintro rfl
      dsimp only
      omega

theorem EndsWithin.ended (h : EndsWithin 0 p) : p.ended = none :=
  Option.eq_none_iff_forall_not_mem.2 fun e he => absurd (h e he).1 (by decide)

theorem EndsWithin.of_none (h : p.ended = none) : EndsWithin n p := fun _ he => nomatch h.symm.trans he

theorem owedSignals_none (h : p.ended = none) : owedSignals echo p = p.signals := by
  unfold owedSignals
  rw [h]
  exact List.append_nil _

theorem countLow_changes (level : PinLevel) (p : LinePort) : ∃ lowTime lowRate lowPhase inBreak,
    countLow level p = { p with
      lowTime := lowTime, lowRate := lowRate, lowPhase := lowPhase, inBreak := inBreak } ∧
    (p.inBreak = none → inBreak = none) := by
  unfold countLow
  split
  · exact ⟨_, _, _, _, rfl, id⟩
  · split
    all_goals
      refine ⟨_, _, _, _, rfl, fun h => ?_⟩
      rw [h]
      rfl

theorem sendPeriod_changes (p : LinePort) : ∃ tx, sendPeriod p = { p with tx := tx } := by
  unfold sendPeriod
  split <;> exact ⟨_, rfl⟩

theorem beforeSample_changes (echo : Bool) (level : PinLevel) (p : LinePort) : ∃ ended signals e,
    beforeSample echo level p = { p with input := level, ended := ended, signals := signals, echo := e } := by
  obtain ⟨ended, signals, hended⟩ := endCharacter_changes echo { p with input := level }
  obtain ⟨e, hecho⟩ := reachDeadline_changes (endCharacter echo { p with input := level })
  exact ⟨ended, signals, e, hecho.trans (by rw [hended])⟩

theorem beforeSample_owed : owedSignals echo (beforeSample echo level p) = owedSignals echo p := by
  obtain ⟨e, hecho⟩ := reachDeadline_changes (endCharacter echo { p with input := level })
  unfold beforeSample
  rw [hecho]
  exact endCharacter_owed echo { p with input := level }

theorem beforeSample_endsWithin (h : EndsWithin (n + 1) p) : EndsWithin n (beforeSample echo level p) := by
  have hends : EndsWithin n (endCharacter echo { p with input := level }) := endCharacter_endsWithin h
  obtain ⟨e, hecho⟩ := reachDeadline_changes (endCharacter echo { p with input := level })
  unfold beforeSample
  rw [hecho]
  exact hends

theorem countLow_owed : owedSignals echo (countLow level p) = owedSignals echo p := by
  obtain ⟨_, _, _, _, h, -⟩ := countLow_changes level p
  rw [h]
  rfl

theorem countLow_endsWithin (h : EndsWithin n p) : EndsWithin n (countLow level p) := by
  obtain ⟨_, _, _, _, hc, -⟩ := countLow_changes level p
  rw [hc]
  exact h

theorem sendPeriod_owed : owedSignals echo (sendPeriod p) = owedSignals echo p := by
  obtain ⟨tx, h⟩ := sendPeriod_changes p
  rw [h]
  rfl

theorem sendPeriod_endsWithin (h : EndsWithin n p) : EndsWithin n (sendPeriod p) := by
  obtain ⟨tx, hs⟩ := sendPeriod_changes p
  rw [hs]
  exact h

/-- The low time does not rest on the character that ends or on the echo. -/
theorem beforeReceive_low (echo : Bool) (level : PinLevel) (p : LinePort) :
    (beforeReceive echo level p).lowTime = (countLow level p).lowTime ∧
    (beforeReceive echo level p).lowRate = (countLow level p).lowRate ∧
    (beforeReceive echo level p).lowPhase = (countLow level p).lowPhase ∧
    (beforeReceive echo level p).inBreak = (countLow level p).inBreak := by
  obtain ⟨_, _, _, h⟩ := beforeSample_changes echo level p
  unfold beforeReceive
  rw [h]
  unfold countLow
  cases level with
  | high => exact ⟨rfl, rfl, rfl, rfl⟩
  | low =>
    dsimp only
    split <;> exact ⟨rfl, rfl, rfl, rfl⟩

end

/-! ### What the receiver leaves alone -/

/-- The receiver does not count the low time, and a failed echo stays failed. -/
structure ReceiverKeeps (p q : LinePort) : Prop where
  lowTime : q.lowTime = p.lowTime
  failed : p.echo = .failed → q.echo = .failed

theorem ReceiverKeeps.after {p q r : LinePort} (k : ReceiverKeeps q r) (h : ReceiverKeeps p q) : ReceiverKeeps p r :=
  ⟨k.lowTime.trans h.lowTime, fun e => k.failed (h.failed e)⟩

theorem beginCharacter_keeps (echo : Bool) (p : LinePort) : ReceiverKeeps p (beginCharacter echo p) := by
  unfold beginCharacter
  dsimp only
  split <;> exact ⟨rfl, id⟩

theorem detectBreak_keeps (p : LinePort) : ReceiverKeeps p (detectBreak p) := by
  have hfail : p.echo = .failed → failEcho p.echo = .failed := fun h => by rw [h]; rfl
  unfold detectBreak
  dsimp only
  split <;> exact ⟨rfl, hfail⟩

theorem decideCharacter_keeps (echo : Bool) (p : LinePort) : ReceiverKeeps p (decideCharacter echo p) := by
  unfold decideCharacter
  split
  · exact detectBreak_keeps p
  · exact ⟨rfl, fun h => by dsimp only; rw [h]; rfl⟩

theorem decideBit_keeps (configured : BitRate) (echo : Bool) (votes : List PinLevel) (p : LinePort) :
    ReceiverKeeps p (decideBit configured echo votes p) := by
  unfold decideBit
  split
  · split <;> exact ⟨rfl, id⟩
  · dsimp only
    split
    · exact (decideCharacter_keeps _ _).after ⟨rfl, id⟩
    · exact ⟨rfl, id⟩

theorem bitSample_keeps (configured : BitRate) (echo : Bool) (level : PinLevel) (p : LinePort) :
    ReceiverKeeps p (bitSample configured echo level p) := by
  unfold bitSample
  dsimp only
  split
  · exact ⟨rfl, id⟩
  · split
    · exact (decideBit_keeps _ _ _ _).after ⟨rfl, id⟩
    · exact ⟨rfl, id⟩

theorem endMeasuredBreak_keeps (level : PinLevel) (p : LinePort) : ReceiverKeeps p (endMeasuredBreak level p) := by
  unfold endMeasuredBreak
  split <;> exact ⟨rfl, id⟩

theorem receive_keeps (configured : BitRate) (echo : Bool) (level : PinLevel) (edge : Bool) (p : LinePort) :
    ReceiverKeeps p (receive configured echo level edge p) := by
  unfold receive
  split
  · split
    · exact beginCharacter_keeps _ _
    · exact ⟨rfl, id⟩
  · exact (bitSample_keeps _ _ _ _).after (endMeasuredBreak_keeps _ _)
  · exact (bitSample_keeps _ _ _ _).after (endMeasuredBreak_keeps _ _)
  · split <;> exact ⟨rfl, id⟩
  · exact ⟨rfl, id⟩

section
variable {configured : BitRate} {echoCheck : Bool} {level : PinLevel} {p : LinePort}

theorem findStuck_calm (h : p.tx = .idle → p.lowTime ≤ 704) : findStuck p = p :=
  if_neg fun ⟨htx, _, hlow⟩ => Nat.not_le.2 hlow (h htx)

theorem echoing_congr {q : LinePort} (h : q.tx = p.tx) : echoing echoCheck q = echoing echoCheck p := by
  unfold echoing
  rw [h]

theorem startsEcho_congr {q : LinePort} (h : q.tx = p.tx) : startsEcho echoCheck q = startsEcho echoCheck p := by
  unfold startsEcho
  rw [h]

/-- A sample period by its parts. -/
theorem samplePort_parts (configured : BitRate) (echoCheck : Bool) (level : PinLevel) (p : LinePort) :
    samplePort configured echoCheck level p = sendPeriod (if p.rxPhase = .muted then
        beforeSample (echoing echoCheck p) level p
      else takeSample configured echoCheck level (beforeSample (echoing echoCheck p) level p)) := by
  obtain ⟨_, _, _, h⟩ := beforeSample_changes (echoing echoCheck p) level p
  have hphase : p.rxPhase = (beforeSample (echoing echoCheck p) level p).rxPhase := by rw [h]
  rw [hphase]
  rfl

/-- A sample with no start bit of the part is received as it stands. -/
theorem takeSample_receives (h : startsEcho echoCheck p = false) : takeSample configured echoCheck level p =
    findStuck (receive configured (echoing echoCheck p) level (level == .low && p.lowTime == 0)
      (countLow level p)) := by
  unfold takeSample
  rw [h]
  rfl

/-- A sample period by its parts, with no start bit of the part and no stuck input. -/
theorem samplePort_receives (hm : p.rxPhase ≠ .muted) (hecho : startsEcho echoCheck p = false)
    (hstuck : p.tx = .idle → (countLow level p).lowTime ≤ 704) :
    samplePort configured echoCheck level p = sendPeriod (receive configured (echoing echoCheck p) level
      (level == .low && p.lowTime == 0) (beforeReceive (echoing echoCheck p) level p)) := by
  have hlow := (beforeReceive_low (echoing echoCheck p) level p).1
  obtain ⟨_, _, _, hbefore⟩ := beforeSample_changes (echoing echoCheck p) level p
  have htx : (beforeSample (echoing echoCheck p) level p).tx = p.tx := by rw [hbefore]
  have htime : (beforeSample (echoing echoCheck p) level p).lowTime = p.lowTime := by rw [hbefore]
  rw [samplePort_parts, if_neg hm, takeSample_receives ((startsEcho_congr htx).trans hecho), echoing_congr htx, htime]
  refine congrArg sendPeriod (findStuck_calm fun h => ?_)
  have hwork := ((countLow_work level (beforeSample (echoing echoCheck p) level p)).trans
    (receive_work configured (echoing echoCheck p) level (level == .low && p.lowTime == 0) _)).tx
  rw [(receive_keeps _ _ _ _ _).lowTime]
  exact (le_of_eq hlow).trans (hstuck (htx.symm.trans (hwork.symm.trans h)))

end

/-! ### A character sample by sample (R128, R129) -/

/-- The number of bits decided by sample n of a character, one at each sample 16k + 9. -/
def decidedCount (n : Nat) : Nat := (n + 7) / 16

/-- The samples of the bit being decided that have been taken by sample n. -/
def votesTaken (levels : Nat → PinLevel) (n : Nat) : List PinLevel :=
  if n % 16 = 7 then [levels n] else if n % 16 = 8 then [levels (n - 1), levels n] else []

/-- A port whose receiver has taken sample n of a character with these samples, its start bit not refused. -/
def duringCharacter (levels : Nat → PinLevel) (n : Nat) (p : LinePort) : LinePort :=
  { p with
    rxPhase := if n ≤ 8 then .qualify else .bits, samplePosition := n - 1
    rxBits := (List.range (decidedCount n)).map (bitValue levels)
    rxVotes := votesTaken levels n
    rxNoise := (List.range (decidedCount n)).any fun k => disagree (bitSamples levels k) }

theorem majority_bitSamples (levels : Nat → PinLevel) (k : Nat) : majority (bitSamples levels k) = bitValue levels k :=
  rfl

section
variable {levels : Nat → PinLevel} {configured : BitRate} {echo : Bool} {n k : Nat} {p : LinePort}

/-- The third sample of a bit completes its three. -/
theorem votesTaken_append (h : n = 16 * k + 8) : votesTaken levels n ++ [levels (n + 1)] = bitSamples levels k := by
  subst h
  have h7 : ¬(16 * k + 8) % 16 = 7 := by omega
  have h8 : (16 * k + 8) % 16 = 8 := by omega
  unfold votesTaken bitSamples
  rw [if_neg h7, if_pos h8]
  rfl

theorem decidedCount_bit (h : n = 16 * k + 8) : decidedCount n = k ∧ decidedCount (n + 1) = k + 1 := by
  unfold decidedCount
  omega

theorem decidedCount_same (h : n % 16 ≠ 8) : decidedCount (n + 1) = decidedCount n := by
  unfold decidedCount
  omega

/-- The sample by its place in a bit. -/
theorem bitSample_byPlace (level : PinLevel) (h1 : 1 ≤ n) :
    bitSample configured echo level (duringCharacter levels n p) =
      if n % 16 = 6 ∨ n % 16 = 7 then { duringCharacter levels n p with
        samplePosition := n, rxVotes := votesTaken levels n ++ [level] }
      else if n % 16 = 8 then decideBit configured echo (votesTaken levels n ++ [level])
        { duringCharacter levels n p with samplePosition := n, rxVotes := [] }
      else { duringCharacter levels n p with samplePosition := n } := by
  obtain ⟨m, rfl⟩ := Nat.exists_eq_add_of_le' h1
  rfl

/-- Where no bit is decided the next sample but adds its vote. -/
theorem duringCharacter_succ (h : n % 16 ≠ 8) : duringCharacter levels (n + 1) p =
    { duringCharacter levels n p with samplePosition := n, rxVotes := votesTaken levels (n + 1) } := by
  have hphase : (if n + 1 ≤ 8 then RxPhase.qualify else .bits) = if n ≤ 8 then .qualify else .bits :=
    if_congr (by omega) rfl rfl
  unfold duringCharacter
  rw [decidedCount_same h, hphase]
  rfl

/-- A sample that decides nothing. -/
theorem bitSample_undecided (h1 : 1 ≤ n) (h : n % 16 ≠ 8) :
    bitSample configured echo (levels (n + 1)) (duringCharacter levels n p) = duringCharacter levels (n + 1) p := by
  rw [bitSample_byPlace _ h1, duringCharacter_succ h]
  by_cases hv : n % 16 = 6 ∨ n % 16 = 7
  · have hvotes : votesTaken levels n ++ [levels (n + 1)] = votesTaken levels (n + 1) := by
      unfold votesTaken
      rcases hv with hv | hv
      · rw [if_neg (by omega), if_neg h, if_pos (by omega)]
        rfl
      · rw [if_pos hv, if_neg (by omega), if_pos (by omega)]
        rfl
    rw [if_pos hv, hvotes]
  · have hvotes : votesTaken levels (n + 1) = votesTaken levels n := by
      unfold votesTaken
      rw [if_neg (by omega), if_neg (by omega), if_neg (by omega), if_neg h]
    rw [if_neg hv, if_neg h, hvotes]
    rfl

/-- A third sample decides a bit (R129). -/
theorem bitSample_decides (h : n = 16 * k + 8) :
    bitSample configured echo (levels (n + 1)) (duringCharacter levels n p) = decideBit configured echo
      (bitSamples levels k) { duringCharacter levels n p with samplePosition := n, rxVotes := [] } := by
  rw [bitSample_byPlace _ (by omega), if_neg (by omega), if_pos (by omega), votesTaken_append h]

/-- Sample 9: a start bit of 1 is refused (R128). -/
theorem bitSample_refuses (h : bitValue levels 0 = true) :
    bitSample configured echo (levels 9) (duringCharacter levels 8 p) =
      signal .falseStart { clearCharacter p with rxPhase := .hunt } := by
  rw [bitSample_decides (k := 0) rfl]
  refine (if_pos rfl).trans ((if_pos ?_).trans rfl)
  rw [majority_bitSamples, h]

/-- Sample 9: a start bit of 0 qualifies, at the rate configured unless the part sends (R128, R138). -/
theorem bitSample_qualifies (h : bitValue levels 0 = false) :
    bitSample configured echo (levels 9) (duringCharacter levels 8 p) =
      duringCharacter levels 9 (p.withRate (if p.tx = .idle then configured else p.rate)) := by
  rw [bitSample_decides (k := 0) rfl]
  refine (if_pos rfl).trans ((if_neg ?_).trans ?_)
  · rw [majority_bitSamples, h]
    exact Bool.false_ne_true
  · have hbits : (List.range (decidedCount 9)).map (bitValue levels) = [false] := by rw [← h]; rfl
    have hnoise : ((List.range (decidedCount 9)).any fun k => disagree (bitSamples levels k)) =
        disagree (bitSamples levels 0) := Bool.or_false _
    unfold duringCharacter
    rw [hbits, hnoise]
    rfl

/-- Sample 16k + 9 of a bit after the start bit: its value and its noise are kept (R129). -/
theorem decideBit_keepsBit (hk : 1 ≤ k) (h : n = 16 * k + 8) :
    decideBit configured echo (bitSamples levels k)
        { duringCharacter levels n p with samplePosition := n, rxVotes := [] } =
      if n + 1 = 169 then decideCharacter echo (duringCharacter levels (n + 1) p)
      else duringCharacter levels (n + 1) p := by
  obtain ⟨hcount, hnext⟩ := decidedCount_bit h
  have hphase : ¬ n ≤ 8 := by omega
  have hkept : { duringCharacter levels n p with
      samplePosition := n, rxVotes := []
      rxBits := (duringCharacter levels n p).rxBits ++ [majority (bitSamples levels k)]
      rxNoise := (duringCharacter levels n p).rxNoise || disagree (bitSamples levels k) } =
      duringCharacter levels (n + 1) p := by
    have hvotes : votesTaken levels (n + 1) = [] := by
      unfold votesTaken
      rw [if_neg (by omega), if_neg (by omega)]
    unfold duringCharacter
    rw [hcount, hnext, hvotes, if_neg hphase, if_neg (by omega : ¬ n + 1 ≤ 8), List.range_succ, List.map_append,
      List.any_append, majority_bitSamples]
    simp
  rw [← hkept]
  unfold decideBit
  have hbits :
      ({ duringCharacter levels n p with samplePosition := n, rxVotes := [] } : LinePort).rxPhase ≠ .qualify := by
    show (if n ≤ 8 then RxPhase.qualify else .bits) ≠ .qualify
    rw [if_neg hphase]
    exact RxPhase.noConfusion
  rw [if_neg hbits]

/-- A sample of a character but the last one of the start bit and of the stop bit. -/
theorem bitSample_during (h1 : 1 ≤ n) (h8 : n ≠ 8) (h168 : n ≠ 168) :
    bitSample configured echo (levels (n + 1)) (duringCharacter levels n p) = duringCharacter levels (n + 1) p := by
  by_cases h : n % 16 = 8
  · obtain ⟨k, hk⟩ : ∃ k, n = 16 * k + 8 := ⟨n / 16, by omega⟩
    rw [bitSample_decides hk, decideBit_keepsBit (by omega) hk, if_neg (by omega)]
  · exact bitSample_undecided h1 h

/-- Sample 169: the stop-bit decision. -/
theorem bitSample_stops : bitSample configured echo (levels 169) (duringCharacter levels 168 p) =
    decideCharacter echo (duringCharacter levels 169 p) := by
  rw [bitSample_decides (k := 10) rfl, decideBit_keepsBit (k := 10) (by decide) rfl, if_pos rfl]

end

/-! ### The character decided (R129, R130) -/

theorem numberOf_testBit (bits : List Bool) (i : Nat) : (numberOf bits).testBit i = bits.getD i false := by
  induction bits generalizing i with
  | nil => simp [numberOf]
  | cons bit rest ih =>
    cases i with
    | zero => cases bit <;> simp [numberOf, Nat.testBit_zero]
    | succ i =>
      have hhalf : (bit.toNat + 2 * numberOf rest) / 2 = numberOf rest := by
        have := bit.toNat_lt
        omega
      rw [numberOf, Nat.testBit_succ, hhalf, ih]
      rfl

/-- The character these samples give, received as an echo or not. -/
def sampledCharacter (levels : Nat → PinLevel) (echo : Bool) : ReceivedCharacter :=
  { data := dataOf ((List.range 11).map (bitValue levels)), stop := bitValue levels 10
    noisy := (List.range 11).any fun k => disagree (bitSamples levels k), echo := echo }

theorem sampledCharacter_sampledAs (levels : Nat → PinLevel) (echo : Bool) :
    SampledAs levels (sampledCharacter levels echo) where
  data i hi := by
    show (BitVec.ofNat 9 (numberOf _)).getLsbD i = _
    rw [BitVec.getLsbD_ofNat, numberOf_testBit, decide_eq_true hi, Bool.true_and, List.getD_eq_getElem?_getD,
      List.getElem?_drop, List.getElem?_map, List.getElem?_range (by omega), Nat.add_comm]
    rfl
  stop := rfl
  noisy := by
    show ((List.range 11).any fun k => disagree (bitSamples levels k)) = true ↔ _
    simp only [List.any_eq_true, List.mem_range, disagree, Bool.and_eq_true, List.contains_iff_mem, Nat.lt_succ_iff]

section
variable {levels : Nat → PinLevel} {echo : Bool} {p : LinePort}

theorem allBits_false_iff : ((duringCharacter levels 169 p).rxBits.all (!·)) = true ↔
    ∀ k, k ≤ 10 → bitValue levels k = false := by
  show (((List.range 11).map (bitValue levels)).all (!·)) = true ↔ _
  simp [List.all_eq_true, Nat.lt_succ_iff]

/-- A character that is no break is decided (R129). -/
theorem decideCharacter_decides (h : ∃ k, k ≤ 10 ∧ bitValue levels k = true) :
    decideCharacter echo (duringCharacter levels 169 p) = { clearCharacter p with
      rxPhase := if (sampledCharacter levels echo).stop then .hunt else .waitHigh
      echo := judgeEcho (sampledCharacter levels echo) p.echo
      ended := some { character := sampledCharacter levels echo, left := 7, startWaits := false } } := by
  refine (if_neg fun hall => ?_).trans rfl
  obtain ⟨k, hk, hv⟩ := h
  exact Bool.false_ne_true ((allBits_false_iff.1 hall k hk).symm.trans hv)

/-- Eleven bits of 0 are a break (R130). -/
theorem decideCharacter_break (h : ∀ k, k ≤ 10 → bitValue levels k = false) (hb : p.inBreak = none) :
    decideCharacter echo (duringCharacter levels 169 p) = signal .breakDetected { clearCharacter p with
      rxPhase := .waitHigh, echo := failEcho p.echo
      inBreak := some (if p.lowRate = p.rate then 169 else p.lowTime) } := by
  refine (if_pos (allBits_false_iff.2 h)).trans ?_
  unfold detectBreak
  have hnone : (duringCharacter levels 169 p).inBreak = none := hb
  rw [hnone]
  rfl

end

end Sys2Proof.Machine
end

section
/-! SUPPORT. Runs of sample periods: the receiver that hunts, a character from its falling edge to its stop-bit
decision, and a port that does not transmit (R127 to R131, R138). -/

namespace Sys2Proof.Machine

open Sys2Proof

/-! ### A sample period inside a character -/

section
variable {levels : Nat → PinLevel} {configured : BitRate} {echoCheck echo : Bool} {level : PinLevel} {n : Nat}
  {p : LinePort}

theorem endCharacter_during : endCharacter echo (duringCharacter levels n p) =
    duringCharacter levels n (endCharacter echo p) := by
  unfold endCharacter duringCharacter
  dsimp only
  split
  · rfl
  · split
    · split <;> rfl
    · rfl

theorem reachDeadline_during : reachDeadline (duringCharacter levels n p) =
    duringCharacter levels n (reachDeadline p) := by
  unfold reachDeadline duringCharacter
  dsimp only
  split <;> rfl

theorem countLow_during : countLow level (duringCharacter levels n p) =
    duringCharacter levels n (countLow level p) := by
  unfold countLow duringCharacter
  cases level with
  | high => rfl
  | low =>
    dsimp only
    split <;> rfl

theorem sendPeriod_during : sendPeriod (duringCharacter levels n p) = duringCharacter levels n (sendPeriod p) := by
  unfold sendPeriod duringCharacter
  dsimp only
  split <;> rfl

theorem beforeReceive_during : beforeReceive echo level (duringCharacter levels n p) =
    duringCharacter levels n (beforeReceive echo level p) := by
  unfold beforeReceive beforeSample
  rw [← countLow_during, ← reachDeadline_during, ← endCharacter_during]
  rfl

theorem endMeasuredBreak_none (h : p.inBreak = none) : endMeasuredBreak level p = p := by
  unfold endMeasuredBreak
  rw [h]
  cases level <;> rfl

theorem duringCharacter_phase : (duringCharacter levels n p).rxPhase = .qualify ∨
    (duringCharacter levels n p).rxPhase = .bits := by
  show (if n ≤ 8 then RxPhase.qualify else .bits) = .qualify ∨ (if n ≤ 8 then RxPhase.qualify else .bits) = .bits
  split
  · exact .inl rfl
  · exact .inr rfl

theorem receive_inside {edge : Bool} (hphase : p.rxPhase = .qualify ∨ p.rxPhase = .bits) (h : p.inBreak = none) :
    receive configured echo level edge p = bitSample configured echo level p := by
  unfold receive
  rcases hphase with hphase | hphase <;> simp only [hphase, endMeasuredBreak_none h]

theorem Undisturbed.beforeReceive (h : Undisturbed echoCheck level p) :
    (beforeReceive echo level p).inBreak = none := by
  obtain ⟨_, _, _, _, hlow, hnone⟩ := countLow_changes level p
  rw [(beforeReceive_low echo level p).2.2.2, hlow]
  exact hnone h.inBreak

/-- A sample period inside a character is a sample of it. -/
theorem samplePort_during (h : Undisturbed echoCheck level p) :
    samplePort configured echoCheck level (duringCharacter levels n p) =
      sendPeriod (bitSample configured (echoing echoCheck p) level
        (duringCharacter levels n (beforeReceive (echoing echoCheck p) level p))) := by
  have hphase := duringCharacter_phase (levels := levels) (n := n) (p := p)
  have hmuted : (duringCharacter levels n p).rxPhase ≠ .muted := by
    rcases hphase with hphase | hphase <;> rw [hphase] <;> exact RxPhase.noConfusion
  have hstuck : p.tx = .idle → (countLow level (duringCharacter levels n p)).lowTime ≤ 704 := by
    rw [countLow_during]
    exact h.unstuck
  rw [samplePort_receives hmuted ((startsEcho_congr rfl).trans h.noEcho) hstuck, beforeReceive_during,
    receive_inside duringCharacter_phase h.beforeReceive]
  rfl

/-- The transmitter goes on alike whatever the receiver has made of its character. -/
theorem sendPeriod_cleared (x : PortSignal) (phase : RxPhase) (p : LinePort) :
    sendPeriod (signal x { clearCharacter p with rxPhase := phase }) =
      signal x { clearCharacter (sendPeriod p) with rxPhase := phase } := by
  unfold sendPeriod signal clearCharacter
  dsimp only
  split <;> rfl

theorem sendPeriod_withRate (rate : BitRate) (p : LinePort) :
    sendPeriod (p.withRate rate) = (sendPeriod p).withRate rate := by
  unfold sendPeriod LinePort.withRate
  dsimp only
  split <;> rfl

theorem sendPeriod_idle_iff : (sendPeriod p).tx = .idle ↔ p.tx = .idle := by
  unfold sendPeriod
  cases p.tx <;> simp [Transmitter.count]

theorem sendPeriod_rate (p : LinePort) : (sendPeriod p).rate = p.rate := by
  obtain ⟨tx, h⟩ := sendPeriod_changes p
  rw [h]

theorem withRate_self (p : LinePort) : p.withRate p.rate = p := by
  unfold LinePort.withRate
  rw [if_pos rfl]

end

/-! ### A run of sample periods -/

/-- What holds of the port at each sample is kept by the sample periods up to sample N, apart from what is received, and
nothing disturbs a character. -/
structure KeptUpTo (echoCheck : Bool) (levels : Nat → PinLevel) (N : Nat) (Q : Nat → LinePort → Prop) : Prop where
  undisturbed : ∀ n q, n < N → Q n q → Undisturbed echoCheck (levels (n + 1)) q
  pass : ∀ n q, n < N → Q n q → Q (n + 1) (passPeriod (echoing echoCheck q) (levels (n + 1)) q)

/-- No start bit waits for the nominal end of a character. -/
def NoStartWaits (p : LinePort) : Prop := ∀ e, p.ended = some e → e.startWaits = false

/-- The receiver hunts with the input high. -/
structure Hunting (p : LinePort) : Prop where
  phase : p.rxPhase = .hunt
  lowTime : p.lowTime = 0
  noStartWaits : NoStartWaits p

/-- A start bit has begun: it is signalled, or waits for the nominal end of the character before (R128, R129). -/
def announced (echo : Bool) (p : LinePort) : LinePort :=
  match p.ended with
  | none => signal (begunSignal echo) p
  | some e => { p with ended := some { e with startWaits := true } }

section
variable {echo : Bool} {level : PinLevel} {p : LinePort} {n : Nat}

theorem announced_changes (echo : Bool) (p : LinePort) :
    ∃ ended signals, announced echo p = { p with ended := ended, signals := signals } := by
  unfold announced
  split <;> exact ⟨_, _, rfl⟩

theorem announced_owed (h : NoStartWaits p) :
    owedSignals echo (announced echo p) = owedSignals echo p ++ [begunSignal echo] := by
  unfold announced owedSignals
  cases hended : p.ended with
  | none => simp [signal, hended]
  | some e => simp [h e hended]

theorem announced_endsWithin (h : EndsWithin n p) : EndsWithin n (announced echo p) := by
  unfold announced
  cases hended : p.ended with
  | none => exact .of_none hended
  | some e =>
    rintro e' h'
    cases h'
    exact h e hended

/-- The falling edge is sample 1 of a character. -/
theorem beginCharacter_during (levels : Nat → PinLevel) (echo : Bool) (p : LinePort) :
    beginCharacter echo p = duringCharacter levels 1 (announced echo p) := by
  unfold beginCharacter announced
  cases hended : p.ended <;> simp [clearCharacter, hended, signal] <;> rfl

theorem endCharacter_noStartWaits (h : NoStartWaits p) : NoStartWaits (endCharacter echo p) := by
  unfold endCharacter
  intro e
  cases hended : p.ended with
  | none => simp [hended]
  | some e' =>
    have hwaits := h e' hended
    by_cases h1 : e'.left ≤ 1
    · simp [h1, hwaits, signal]
    · simp only [h1, if_false, Option.some.injEq]
      rintro rfl
      exact hwaits

theorem passPeriod_noStartWaits (h : NoStartWaits p) : NoStartWaits (passPeriod echo level p) := by
  have hends : NoStartWaits (endCharacter echo { p with input := level }) := endCharacter_noStartWaits h
  obtain ⟨e, hecho⟩ := reachDeadline_changes (endCharacter echo { p with input := level })
  obtain ⟨_, _, _, _, hlow, -⟩ := countLow_changes level (beforeSample echo level p)
  obtain ⟨tx, hsend⟩ := sendPeriod_changes (beforeReceive echo level p)
  unfold passPeriod
  rw [hsend]
  unfold beforeReceive
  rw [hlow]
  unfold beforeSample
  rw [hecho]
  exact hends

theorem passPeriod_owed : owedSignals echo (passPeriod echo level p) = owedSignals echo p := by
  unfold passPeriod beforeReceive
  rw [sendPeriod_owed, countLow_owed, beforeSample_owed]

theorem passPeriod_endsWithin (h : EndsWithin (n + 1) p) : EndsWithin n (passPeriod echo level p) :=
  sendPeriod_endsWithin (countLow_endsWithin (beforeSample_endsWithin h))

/-- What a passing sample period leaves of the port. -/
theorem passPeriod_changes (echo : Bool) (level : PinLevel) (p : LinePort) :
    ∃ lowTime lowRate lowPhase inBreak ended signals e tx, passPeriod echo level p = { p with
      input := level, lowTime := lowTime, lowRate := lowRate, lowPhase := lowPhase, inBreak := inBreak
      ended := ended, signals := signals, echo := e, tx := tx } := by
  obtain ⟨_, _, _, hbefore⟩ := beforeSample_changes echo level p
  obtain ⟨_, _, _, _, hlow, -⟩ := countLow_changes level (beforeSample echo level p)
  obtain ⟨_, hsend⟩ := sendPeriod_changes (beforeReceive echo level p)
  unfold passPeriod
  rw [hsend]
  unfold beforeReceive
  rw [hlow, hbefore]
  exact ⟨_, _, _, _, _, _, _, _, rfl⟩

theorem passPeriod_low (echo : Bool) (level : PinLevel) (p : LinePort) :
    (passPeriod echo level p).lowTime = (countLow level p).lowTime ∧
    (passPeriod echo level p).lowRate = (countLow level p).lowRate ∧
    (passPeriod echo level p).lowPhase = (countLow level p).lowPhase ∧
    (passPeriod echo level p).inBreak = (countLow level p).inBreak := by
  obtain ⟨_, hsend⟩ := sendPeriod_changes (beforeReceive echo level p)
  unfold passPeriod
  rw [hsend]
  exact beforeReceive_low echo level p

end

section
variable {configured : BitRate} {echoCheck : Bool} {levels : Nat → PinLevel} {run : Nat → LinePort} {N : Nat}
  {Q : Nat → LinePort → Prop} {n m : Nat} {q : LinePort}

/-- The receiver that hunts goes on while the input is high. -/
theorem samplePort_hunts (h : Hunting q) (hu : Undisturbed echoCheck .high q) :
    samplePort configured echoCheck .high q = passPeriod (echoing echoCheck q) .high q ∧
      Hunting (passPeriod (echoing echoCheck q) .high q) := by
  have hphase : (beforeReceive (echoing echoCheck q) .high q).rxPhase = .hunt := by
    obtain ⟨_, _, _, hb⟩ := beforeSample_changes (echoing echoCheck q) .high q
    exact (congrArg LinePort.rxPhase (congrArg (countLow .high) hb)).trans h.phase
  refine ⟨?_, ?_, ?_, passPeriod_noStartWaits h.noStartWaits⟩
  · rw [samplePort_receives (by rw [h.phase]; exact RxPhase.noConfusion) hu.noEcho hu.unstuck]
    refine congrArg sendPeriod ?_
    unfold receive
    rw [hphase]
    rfl
  · obtain ⟨_, _, _, _, _, _, _, _, hpass⟩ := passPeriod_changes (echoing echoCheck q) .high q
    rw [hpass]
    exact h.phase
  · exact (passPeriod_low _ _ _).1

/-- A low sample after a high one begins a character. -/
theorem samplePort_begins (levels : Nat → PinLevel) (h : Hunting q) (hu : Undisturbed echoCheck .low q) :
    samplePort configured echoCheck .low q = duringCharacter levels 1
      (sendPeriod (announced (echoing echoCheck q) (beforeReceive (echoing echoCheck q) .low q))) := by
  have hphase : (beforeReceive (echoing echoCheck q) .low q).rxPhase = .hunt := by
    obtain ⟨_, _, _, hb⟩ := beforeSample_changes (echoing echoCheck q) .low q
    obtain ⟨_, _, _, _, hlow, -⟩ := countLow_changes .low (beforeSample (echoing echoCheck q) .low q)
    unfold beforeReceive
    rw [hlow, hb]
    exact h.phase
  rw [samplePort_receives (by rw [h.phase]; exact RxPhase.noConfusion) hu.noEcho hu.unstuck, ← sendPeriod_during,
    ← beginCharacter_during, h.lowTime]
  refine congrArg sendPeriod ?_
  unfold receive
  rw [hphase]
  rfl

variable (hrun : ∀ n, run (n + 1) = samplePort configured echoCheck (levels (n + 1)) (run n))
  (hk : KeptUpTo echoCheck levels N Q)
include hrun hk

theorem hunting_run (h : Hunting (run m)) (hq : Q m (run m)) (hn : m + n ≤ N)
    (high : ∀ k, m < k → k ≤ m + n → levels k = .high) : Hunting (run (m + n)) ∧ Q (m + n) (run (m + n)) := by
  induction n with
  | zero => exact ⟨h, hq⟩
  | succ n ih =>
    obtain ⟨hh, hq⟩ := ih (by omega) fun k h1 h2 => high k h1 (by omega)
    have hlevel : levels (m + n + 1) = .high := high _ (by omega) (by omega)
    have hu := hk.undisturbed _ _ (by omega) hq
    have hpass := hk.pass _ _ (by omega) hq
    rw [hlevel] at hu hpass
    obtain ⟨hs, hh⟩ := samplePort_hunts (configured := configured) hh hu
    rw [← Nat.add_assoc, hrun, hlevel, hs]
    exact ⟨hh, hpass⟩

/-- A character up to sample n, its start bit not refused, under a rate that does not change. -/
theorem character_run (h1 : run 1 = duringCharacter levels 1 q) (hq : Q 1 q) (hn : 1 ≤ n) (h168 : n ≤ 168)
    (hN : n ≤ N) (hstart : 8 < n → bitValue levels 0 = false ∧ ∀ m q, Q m q → q.tx = .idle → q.rate = configured) :
    ∃ q, run n = duringCharacter levels n q ∧ Q n q := by
  induction n, hn using Nat.le_induction with
  | base => exact ⟨q, h1, hq⟩
  | succ n hn ih =>
    obtain ⟨q, hr, hq⟩ := ih (by omega) (by omega) fun h => hstart (by omega)
    have hu := hk.undisturbed _ _ (by omega) hq
    have hpass := hk.pass _ _ (by omega) hq
    refine ⟨_, ?_, hpass⟩
    rw [hrun, hr, samplePort_during hu]
    by_cases h8 : n = 8
    · subst h8
      obtain ⟨hzero, hrate⟩ := hstart (by omega)
      rw [bitSample_qualifies hzero, sendPeriod_during, sendPeriod_withRate]
      have hpassRate : (passPeriod (echoing echoCheck q) (levels 9) q).rate =
          (beforeReceive (echoing echoCheck q) (levels 9) q).rate := sendPeriod_rate _
      have hsame : (if (beforeReceive (echoing echoCheck q) (levels 9) q).tx = .idle then configured
          else (beforeReceive (echoing echoCheck q) (levels 9) q).rate) =
          (passPeriod (echoing echoCheck q) (levels 9) q).rate := by
        split
        next htx => exact (hrate _ _ hpass (sendPeriod_idle_iff.2 htx)).symm
        next => exact hpassRate.symm
      rw [hsame]
      exact congrArg (duringCharacter levels 9) (withRate_self _)
    · rw [bitSample_during hn h8 (by omega), sendPeriod_during]
      rfl

/-- Sample 9 of a character whose start bit is 1: a false start (R128). -/
theorem character_refused (h1 : run 1 = duringCharacter levels 1 q) (hq : Q 1 q) (hN : 9 ≤ N)
    (h0 : bitValue levels 0 = true) :
    ∃ q, run 9 = signal .falseStart { clearCharacter q with rxPhase := .hunt } ∧ Q 9 q := by
  obtain ⟨q, hr, hq⟩ := character_run hrun hk h1 hq (n := 8) (by decide) (by decide) (by omega)
    fun h => absurd h (by decide)
  have hu := hk.undisturbed _ _ (by omega) hq
  refine ⟨_, ?_, hk.pass _ _ (by omega) hq⟩
  rw [hrun, hr, samplePort_during hu, bitSample_refuses h0, sendPeriod_cleared]
  rfl

/-- Sample 9 of a character whose start bit is 0: it qualifies (R128, R138). -/
theorem character_qualified (h1 : run 1 = duringCharacter levels 1 q) (hq : Q 1 q) (hN : 9 ≤ N)
    (h0 : bitValue levels 0 = false) :
    ∃ q, run 9 = duringCharacter levels 9 (q.withRate (if q.tx = .idle then configured else q.rate)) ∧ Q 9 q := by
  obtain ⟨q, hr, hq⟩ := character_run hrun hk h1 hq (n := 8) (by decide) (by decide) (by omega)
    fun h => absurd h (by decide)
  have hu := hk.undisturbed _ _ (by omega) hq
  refine ⟨_, ?_, hk.pass _ _ (by omega) hq⟩
  rw [hrun, hr, samplePort_during hu, bitSample_qualifies h0, sendPeriod_during, sendPeriod_withRate]
  unfold passPeriod
  rw [sendPeriod_rate, if_congr sendPeriod_idle_iff rfl rfl]

/-- Sample 169 of a character (R129). -/
theorem character_decided (h1 : run 1 = duringCharacter levels 1 q) (hq : Q 1 q) (hN : 169 ≤ N)
    (h0 : bitValue levels 0 = false) (hrate : ∀ m q, Q m q → q.tx = .idle → q.rate = configured) :
    ∃ q, run 169 = sendPeriod (decideCharacter (echoing echoCheck q)
      (duringCharacter levels 169 (beforeReceive (echoing echoCheck q) (levels 169) q))) ∧ Q 168 q ∧
      Undisturbed echoCheck (levels 169) q := by
  obtain ⟨q, hr, hq⟩ := character_run hrun hk h1 hq (n := 168) (by decide) (by decide) (by omega) fun _ => ⟨h0, hrate⟩
  have hu := hk.undisturbed _ _ (by omega) hq
  refine ⟨q, ?_, hq, hu⟩
  rw [hrun, hr, samplePort_during hu, bitSample_stops]

end

/-! ### A port that does not transmit -/

theorem hertz_pos (rate : BitRate) : 0 < hertz rate := by cases rate <;> decide

/-- At one rate a low sample adds one sample period to the low time (R131, R138). -/
theorem countLow_one {p : LinePort} (hrate : p.lowRate = p.rate) (hphase : p.lowPhase = 0) (hlow : p.lowTime ≠ 0) :
    countLow .low p = { p with lowTime := p.lowTime + 1, inBreak := p.inBreak.map (· + 1) } := by
  have hpos := hertz_pos p.rate
  unfold countLow
  dsimp only
  rw [if_neg hlow, hrate, hphase, Nat.zero_add, Nat.div_self hpos, Nat.mod_self]

/-- A low period is counted at the rate in force. -/
def LowSteady (p : LinePort) : Prop := p.lowTime ≠ 0 → p.lowRate = p.rate ∧ p.lowPhase = 0

theorem countLow_steady {p : LinePort} (level : PinLevel) (h : LowSteady p) :
    (countLow level p).lowTime ≤ p.lowTime + 1 ∧ LowSteady (countLow level p) ∧
      (p.lowRate = p.rate ∨ level = .low → (countLow level p).lowRate = p.rate) := by
  cases level with
  | high => exact ⟨Nat.zero_le _, fun h => absurd rfl h, fun h => h.elim id PinLevel.noConfusion⟩
  | low =>
    by_cases hlow : p.lowTime = 0
    · unfold countLow
      dsimp only
      rw [if_pos hlow, hlow]
      exact ⟨Nat.le_refl _, fun _ => ⟨rfl, rfl⟩, fun _ => rfl⟩
    · obtain ⟨hrate, hphase⟩ := h hlow
      rw [countLow_one hrate hphase hlow]
      exact ⟨Nat.le_refl _, fun _ => ⟨hrate, hphase⟩, fun _ => hrate⟩

/-- What an idle port `p` keeps while it receives: n sample periods later `owed` has been signalled or waits for the
nominal end of the character decided. -/
structure IdlePort (p : LinePort) (owed : List PortSignal) (n : Nat) (q : LinePort) : Prop where
  tx : q.tx = .idle
  inBreak : q.inBreak = none
  rate : q.rate = p.rate
  divider : q.divider = p.divider
  lowTime : q.lowTime ≤ n
  steady : LowSteady q
  owed : owedSignals false q = owed
  ends : EndsWithin (7 - n) q

section
variable {p q : LinePort} {owed : List PortSignal} {n : Nat} {echoCheck : Bool}

theorem IdlePort.noEcho (h : IdlePort p owed n q) : echoing echoCheck q = false := by
  unfold echoing
  rw [h.tx]

theorem IdlePort.undisturbed (h : IdlePort p owed n q) (hn : n < 704) (level : PinLevel) :
    Undisturbed echoCheck level q where
  inBreak := h.inBreak
  noEcho := by
    unfold startsEcho
    rw [h.tx]
  unstuck _ := (countLow_steady level h.steady).1.trans (by have := h.lowTime; omega)

/-- From the seventh sample on all signals owed have been given. -/
theorem IdlePort.signals (h : IdlePort p owed n q) (hn : 7 ≤ n) : q.ended = none ∧ q.signals = owed := by
  have hended : q.ended = none := EndsWithin.ended (by simpa [Nat.sub_eq_zero_of_le hn] using h.ends)
  exact ⟨hended, (owedSignals_none hended).symm.trans h.owed⟩

theorem EndsWithin.mono {m k : Nat} (h : EndsWithin m p) (hm : m ≤ k) : EndsWithin k p := fun e he =>
  ⟨(h e he).1.trans hm, (h e he).2.trans hm⟩

theorem IdlePort.beforeReceive (h : IdlePort p owed n q) (level : PinLevel) :
    IdlePort p owed (n + 1) (beforeReceive false level q) := by
  obtain ⟨hle, hsteady, -⟩ := countLow_steady level h.steady
  obtain ⟨hlow, hrate, hphase, hbreak⟩ := beforeReceive_low false level q
  obtain ⟨_, _, _, _, hcount, hnone⟩ := countLow_changes level q
  obtain ⟨_, _, _, hbefore⟩ := beforeSample_changes false level q
  have hfields : (Machine.beforeReceive false level q).tx = q.tx ∧ (Machine.beforeReceive false level q).rate = q.rate ∧
      (Machine.beforeReceive false level q).divider = q.divider := by
    obtain ⟨_, _, _, _, hcount, -⟩ := countLow_changes level (beforeSample false level q)
    unfold Machine.beforeReceive
    rw [hcount, hbefore]
    exact ⟨rfl, rfl, rfl⟩
  obtain ⟨htx, hr, hd⟩ := hfields
  refine ⟨htx.trans h.tx, ?_, hr.trans h.rate, hd.trans h.divider, ?_, ?_, ?_, ?_⟩
  · rw [hbreak, hcount]
    exact hnone h.inBreak
  · rw [hlow]
    exact hle.trans (Nat.succ_le_succ h.lowTime)
  · intro hz
    rw [hlow] at hz
    obtain ⟨a, b⟩ := hsteady hz
    rw [hrate, hphase, hr]
    exact ⟨a.trans (by rw [hcount]), b⟩
  · exact (countLow_owed.trans beforeSample_owed).trans h.owed
  · exact countLow_endsWithin (beforeSample_endsWithin (h.ends.mono (by omega)))

/-- An idle transmitter stays idle. -/
theorem sendPeriod_idle (h : p.tx = .idle) : sendPeriod p = p := by
  unfold sendPeriod
  rw [h]
  dsimp only
  rw [Transmitter.count, ← h]

theorem IdlePort.pass (h : IdlePort p owed n q) (level : PinLevel) :
    IdlePort p owed (n + 1) (passPeriod false level q) := by
  have hb := h.beforeReceive level
  unfold passPeriod
  rwa [sendPeriod_idle hb.tx]

/-- The rate of a low period is the rate in force, once it is. -/
theorem IdlePort.pass_lowRate (h : IdlePort p owed n q) (level : PinLevel) (hr : q.lowRate = q.rate) :
    (passPeriod false level q).lowRate = (passPeriod false level q).rate := by
  have hrate := (h.pass level).rate
  rw [(passPeriod_low _ _ _).2.1, (countLow_steady level h.steady).2.2 (.inl hr), hrate, h.rate]

theorem idlePort_kept (echoCheck : Bool) (levels : Nat → PinLevel) (p : LinePort) (owed : List PortSignal) :
    KeptUpTo echoCheck levels 704 (IdlePort p owed) where
  undisturbed _ _ hn h := h.undisturbed hn _
  pass _ _ _ h := by
    rw [h.noEcho]
    exact h.pass _

/-- The same during a character, whose falling edge is sample `start + 1`. -/
theorem idleCharacter_kept (echoCheck : Bool) (levels : Nat → PinLevel) (p : LinePort) (owed : List PortSignal)
    (start : Nat) : KeptUpTo echoCheck levels (704 - start) fun n q =>
      IdlePort p owed (start + n) q ∧ q.lowRate = q.rate where
  undisturbed _ _ hn h := h.1.undisturbed (by omega) _
  pass _ _ _ h := by
    rw [h.1.noEcho]
    exact ⟨h.1.pass _, h.1.pass_lowRate _ h.2⟩

/-- A start bit begun is owed as well. -/
theorem IdlePort.announced (h : IdlePort p owed n q) (hwaits : NoStartWaits q) :
    IdlePort p (owed ++ [.startBegun]) n (announced false q) := by
  have howed := announced_owed (echo := false) hwaits
  have hended := announced_endsWithin (echo := false) h.ends
  obtain ⟨_, _, hannounced⟩ := announced_changes false q
  rw [h.owed] at howed
  rw [hannounced] at howed hended ⊢
  exact ⟨h.tx, h.inBreak, h.rate, h.divider, h.lowTime, h.steady, howed, hended⟩

/-- The first low sample begins a character and is signalled or waits (R128, R129). -/
theorem IdlePort.begins (levels : Nat → PinLevel) {configured : BitRate} (h : IdlePort p owed n q) (hn : n < 704)
    (hh : Hunting q) : ∃ r, samplePort configured echoCheck .low q = duringCharacter levels 1 r ∧
      IdlePort p (owed ++ [.startBegun]) (n + 1) r ∧ r.lowRate = r.rate := by
  have hb := h.beforeReceive .low
  have hwaits : NoStartWaits (Machine.beforeReceive false .low q) := by
    have := passPeriod_noStartWaits (echo := false) (level := .low) hh.noStartWaits
    rwa [passPeriod, sendPeriod_idle hb.tx] at this
  have hport := hb.announced hwaits
  refine ⟨_, ?_, hport, ?_⟩
  · rw [samplePort_begins levels hh (h.undisturbed hn _), h.noEcho, sendPeriod_idle hport.tx]
  · have hrate := (countLow_steady .low h.steady).2.2 (.inr rfl)
    obtain ⟨_, _, hannounced⟩ := announced_changes false (Machine.beforeReceive false .low q)
    rw [hport.rate, hannounced]
    exact ((beforeReceive_low _ _ _).2.1.trans hrate).trans h.rate

/-- A port in HUNT with the input high and no break under way. -/
theorem IdlePort.start (htx : p.tx = .idle) (hlow : p.lowTime = 0) (hb : p.inBreak = none) (hends : EndsWithin 7 p) :
    IdlePort p (owedSignals false p) 0 p :=
  ⟨htx, hb, rfl, rfl, le_of_eq hlow, fun h => absurd hlow h, rfl, hends⟩

end

/-! ### The wait for the return high (R130, R131) -/

theorem endCharacter_none {p : LinePort} (h : p.ended = none) (echo : Bool) : endCharacter echo p = p := by
  unfold endCharacter
  rw [h]

section
variable {configured : BitRate} {echoCheck : Bool} {p : LinePort} {run : Nat → LinePort} {levels : Nat → PinLevel}
  (htx : p.tx = .idle) (hended : p.ended = none) (hphase : p.rxPhase = .waitHigh)
include htx hended

theorem beforeSample_idle (echo : Bool) (level : PinLevel) : beforeSample echo level p = { p with input := level } := by
  unfold beforeSample
  rw [endCharacter_none (p := { p with input := level }) hended]
  unfold reachDeadline
  dsimp only
  rw [htx]

include hphase

theorem samplePort_waitHigh (level : PinLevel) : samplePort configured echoCheck level p = findStuck (receive configured
    (echoing echoCheck p) level (level == .low && p.lowTime == 0) (countLow level { p with input := level })) := by
  have hmuted : p.rxPhase ≠ .muted := by
    rw [hphase]
    exact RxPhase.noConfusion
  have hnoEcho : startsEcho echoCheck p = false := by
    unfold startsEcho
    rw [htx]
  have hwork := ((countLow_work level { p with input := level }).trans (receive_work configured (echoing echoCheck p)
    level (level == .low && p.lowTime == 0) _)).trans (findStuck_work _)
  rw [samplePort_parts, if_neg hmuted, beforeSample_idle htx hended,
    takeSample_receives (p := { p with input := level }) ((startsEcho_congr rfl).trans hnoEcho)]
  exact sendPeriod_idle (hwork.tx.trans htx)

/-- The first high sample is the return high. -/
theorem samplePort_returnsHigh : samplePort configured echoCheck .high p =
    returnedHigh { p with input := .high, lowTime := 0, lowPhase := 0 } := by
  rw [samplePort_waitHigh htx hended hphase]
  refine (findStuck_calm fun _ => ?_).trans ?_
  · rw [(receive_keeps _ _ _ _ _).lowTime]
    exact Nat.zero_le _
  · unfold receive countLow
    dsimp only
    rw [hphase]
    exact if_pos rfl

/-- A low sample is counted, in the low time and in the break (R130, R131). -/
theorem samplePort_staysLow (hrate : p.lowRate = p.rate) (hlowPhase : p.lowPhase = 0) (hlow : p.lowTime ≠ 0) :
    samplePort configured echoCheck .low p = findStuck { p with
      input := .low, lowTime := p.lowTime + 1, inBreak := p.inBreak.map (· + 1) } := by
  rw [samplePort_waitHigh htx hended hphase, countLow_one (p := { p with input := .low }) hrate hlowPhase hlow]
  unfold receive
  dsimp only
  rw [hphase]
  rfl

/-- The low period sample by sample, until the input is stuck. -/
theorem lowPeriod_run (hrun : ∀ n, run (n + 1) = samplePort configured echoCheck (levels (n + 1)) (run n))
    (h0 : run 0 = p) (hrate : p.lowRate = p.rate) (hlowPhase : p.lowPhase = 0) (hlow : 1 ≤ p.lowTime) (n : Nat)
    (low : ∀ k, 1 ≤ k → k ≤ n → levels k = .low) (hstuck : p.stuck = true ∨ p.lowTime + n ≤ 704) :
    ∃ input, run n = { p with
      input := input, lowTime := p.lowTime + n, inBreak := p.inBreak.map (· + n) } := by
  induction n with
  | zero =>
    refine ⟨p.input, h0.trans ?_⟩
    have hsame : p.inBreak.map (· + 0) = p.inBreak := by simp
    rw [hsame]
    rfl
  | succ n ih =>
    obtain ⟨input, hr⟩ := ih (fun k h1 h2 => low k h1 (by omega)) (hstuck.imp_right (by omega))
    refine ⟨.low, ?_⟩
    rw [hrun, low _ (by omega) (Nat.le_refl _), hr]
    refine (samplePort_staysLow (p := { p with
      input := input, lowTime := p.lowTime + n, inBreak := p.inBreak.map (· + n) }) htx hended hphase hrate hlowPhase
      (by show p.lowTime + n ≠ 0; omega)).trans ((if_neg ?_).trans ?_)
    · rintro ⟨-, hs, hl⟩
      rcases hstuck with h | h
      · exact Bool.false_ne_true (hs.symm.trans h)
      · exact absurd hl (Nat.not_lt.2 h)
    · have hmap : (p.inBreak.map (· + n)).map (· + 1) = p.inBreak.map (· + (n + 1)) := by
        cases p.inBreak <;> rfl
      dsimp only
      rw [hmap]
      rfl

/-- The 705th low sample: the input is stuck, which is a break as well (R131). -/
theorem samplePort_stuck (hrate : p.lowRate = p.rate) (hlowPhase : p.lowPhase = 0) (hlow : p.lowTime = 704)
    (hstuck : p.stuck = false) : samplePort configured echoCheck .low p = signal (.stuck p.inBreak.isNone)
      { clearCharacter p with
        input := .low, lowTime := 705, rxPhase := .waitHigh, stuck := true
        inBreak := some ((p.inBreak.map (· + 1)).getD 705) } := by
  rw [samplePort_staysLow htx hended hphase hrate hlowPhase (by rw [hlow]; decide)]
  have hlong : 704 < p.lowTime + 1 := by omega
  refine (if_pos ⟨htx, hstuck, hlong⟩).trans ?_
  rw [hlow]
  cases hb : p.inBreak <;> rfl

end

/-! ### What the receiver makes of the samples -/

section
variable {configured : BitRate} {echoCheck : Bool} {levels : Nat → PinLevel} {p q : LinePort} {run : Nat → LinePort}
  (hrun : ∀ n, run (n + 1) = samplePort configured echoCheck (levels (n + 1)) (run n))
  (h1 : run 1 = duringCharacter levels 1 q) (hq : IdlePort p (p.signals ++ [.startBegun]) 1 q)
  (hrate : q.lowRate = q.rate)
include hrun h1 hq hrate

/-- A start bit of 1 is a false start (R128). -/
theorem idle_falseStart (h0 : bitValue levels 0 = true) :
    (run 9).rxPhase = .hunt ∧ (run 9).ended = none ∧ (run 9).inBreak = none ∧ (run 9).rate = p.rate ∧
      (run 9).signals = p.signals ++ [.startBegun, .falseStart] := by
  have hkept := idleCharacter_kept echoCheck levels p (p.signals ++ [.startBegun]) 0
  obtain ⟨r, hr, hidle, -⟩ := character_refused hrun hkept h1 ⟨by simpa using hq, hrate⟩ (by decide) h0
  obtain ⟨hended, hsignals⟩ := hidle.signals (by decide)
  have hnone : (clearCharacter r).ended = none := by
    show r.ended.map _ = none
    rw [hended]
    rfl
  rw [hr]
  refine ⟨rfl, hnone, hidle.inBreak, hidle.rate, ?_⟩
  show r.signals ++ [.falseStart] = _
  rw [hsignals]
  simp

/-- A start bit of 0 qualifies, and the rate configured is in force (R128, R138). -/
theorem idle_qualifies (h0 : bitValue levels 0 = false) :
    (run 9).rxPhase = .bits ∧ (run 9).rate = configured ∧
      (run 9).divider = (if configured = p.rate then p.divider else 0) ∧
      (run 9).signals = p.signals ++ [.startBegun] := by
  have hkept := idleCharacter_kept echoCheck levels p (p.signals ++ [.startBegun]) 0
  obtain ⟨r, hr, hidle, -⟩ := character_qualified hrun hkept h1 ⟨by simpa using hq, hrate⟩ (by decide) h0
  rw [hr, if_pos hidle.tx]
  refine ⟨rfl, rfl, ?_, (hidle.signals (by decide)).2⟩
  show (if configured = r.rate then r.divider else 0) = _
  rw [hidle.rate, hidle.divider]

/-- Sample 169 in a port that does not transmit. -/
theorem idle_decided (hconfigured : p.rate = configured) (h0 : bitValue levels 0 = false) :
    ∃ r, run 169 = decideCharacter false (duringCharacter levels 169 r) ∧
      r.inBreak = none ∧ r.lowRate = r.rate ∧ r.ended = none ∧ r.signals = p.signals ++ [.startBegun] := by
  have hkept := idleCharacter_kept echoCheck levels p (p.signals ++ [.startBegun]) 0
  obtain ⟨r, hr, ⟨hidle, hlow⟩, -⟩ := character_decided hrun hkept h1 ⟨by simpa using hq, hrate⟩ (by decide) h0
    fun _ _ h _ => h.1.rate.trans hconfigured
  have hb := hidle.beforeReceive (levels 169)
  have hbrate : (beforeReceive false (levels 169) r).lowRate = (beforeReceive false (levels 169) r).rate := by
    have h := hidle.pass_lowRate (levels 169) hlow
    rwa [passPeriod, sendPeriod_idle hb.tx] at h
  obtain ⟨hended, hsignals⟩ := hb.signals (by decide)
  refine ⟨_, ?_, hb.inBreak, hbrate, hended, hsignals⟩
  rw [hr, hidle.noEcho]
  exact sendPeriod_idle ((decideCharacter_work _ _).tx.trans hb.tx)

end

/-- Settles O44: a character from its falling edge, one that ends while the receiver hunts, and the wait for the return
high. -/
theorem samplesMakeCharactersAndBreaks : Obligations.SamplesMakeCharactersAndBreaks := by
  unfold Obligations.SamplesMakeCharactersAndBreaks
  intro configured echoCheck levels p htx after hafter
  have hrun (n : Nat) : after (n + 1) = samplePort configured echoCheck (levels (n + 1)) (after n) := by
    rw [hafter, hafter]
    rfl
  have h0 : after 0 = p := hafter 0
  refine ⟨fun hphase hlow hended hbreak hlevel => ?character, fun c hended hphase hlow hbreak => ?ending,
    fun hphase hended => ⟨fun hlevel => ?returns, fun hlow hrate hlowPhase => ⟨fun n low hstuck => ?low,
      fun hlevel hstuck hlong => ?stuck⟩⟩⟩
  case character =>
    have hhunt : Hunting p := ⟨hphase, hlow, fun e he => nomatch hended.symm.trans he⟩
    have hstart := IdlePort.start htx hlow hbreak (.of_none hended)
    rw [owedSignals_none hended] at hstart
    obtain ⟨q, h1, hq, hqrate⟩ := hstart.begins (echoCheck := echoCheck) (configured := configured) levels
      (by decide) hhunt
    rw [← h0, ← hlevel, ← hrun 0] at h1
    refine ⟨idle_falseStart hrun h1 hq hqrate, fun hzero => ⟨idle_qualifies hrun h1 hq hqrate hzero,
      fun hconfigured hone => ?_, fun hconfigured hall => ?_⟩⟩
    · obtain ⟨r, hr, hrbreak, -, -, hrsignals⟩ := idle_decided hrun h1 hq hqrate hconfigured hzero
      rw [decideCharacter_decides hone] at hr
      rw [hr]
      exact ⟨_, sampledCharacter_sampledAs levels false, rfl, rfl, rfl, hrbreak, hrsignals⟩
    · obtain ⟨r, hr, hrbreak, hrrate, hrended, hrsignals⟩ := idle_decided hrun h1 hq hqrate hconfigured hzero
      rw [decideCharacter_break hall hrbreak, if_pos hrrate] at hr
      rw [hr]
      refine ⟨?_, rfl, rfl, ?_⟩
      · show r.ended.map _ = none
        rw [hrended]
        rfl
      · show r.signals ++ [.breakDetected] = _
        rw [hrsignals]
        simp
  case ending =>
    have hhunt : Hunting p := ⟨hphase, hlow, fun e he => by cases hended.symm.trans he; rfl⟩
    have hends : EndsWithin 7 p := fun e he => by cases hended.symm.trans he; exact ⟨by decide, Nat.le_refl _⟩
    have hstart := IdlePort.start htx hlow hbreak hends
    have howed : owedSignals false p = p.signals ++ [.characterEnd c] := by
      unfold owedSignals
      rw [hended]
      rfl
    rw [howed] at hstart
    have hkept := idlePort_kept echoCheck levels p (p.signals ++ [.characterEnd c])
    have hhunting (n : Nat) (hn : n ≤ 7) (high : ∀ k, 1 ≤ k → k ≤ n → levels k = .high) :
        Hunting (after n) ∧ IdlePort p (p.signals ++ [.characterEnd c]) n (after n) := by
      have h := hunting_run hrun hkept (m := 0) (n := n) (h0 ▸ hhunt) (h0 ▸ hstart) (by omega)
        fun k hk1 hk2 => high k hk1 (by omega)
      rwa [Nat.zero_add] at h
    refine ⟨fun high => ?_, fun k hk1 hk7 high hlevel => ?_⟩
    · obtain ⟨hh, hidle⟩ := hhunting 7 (Nat.le_refl _) high
      exact ⟨(hidle.signals (Nat.le_refl _)).1, hh.phase, (hidle.signals (Nat.le_refl _)).2⟩
    · obtain ⟨m, rfl⟩ := Nat.exists_eq_add_of_le' hk1
      obtain ⟨hh, hidle⟩ := hhunting m (by omega) fun j hj1 hj2 => high j hj1 (by omega)
      obtain ⟨q, h1, hq, hqrate⟩ := hidle.begins (echoCheck := echoCheck) (configured := configured)
        (fun j => levels (m + j)) (by omega) hh
      rw [← hlevel, ← hrun m] at h1
      obtain ⟨r, hr, hridle, -⟩ := character_run (run := fun j => after (m + j)) (n := 7 - m) (fun j => hrun (m + j))
        (idleCharacter_kept echoCheck _ p _ m) h1 ⟨hq, hqrate⟩ (by omega) (by omega) (by omega)
        fun h => absurd h (by omega)
      have h7 : m + (7 - m) = 7 := by omega
      rw [h7] at hr hridle
      obtain ⟨hrended, hrsignals⟩ := hridle.signals (Nat.le_refl _)
      rw [hr]
      refine ⟨hrended, if_pos (by omega), ?_, hrsignals.trans (by simp)⟩
      show 7 - m - 1 = 7 - (m + 1)
      omega
  case returns =>
    rw [hrun 0, h0, hlevel, samplePort_returnsHigh htx hended hphase]
    refine ⟨rfl, rfl, rfl, rfl, ?_⟩
    unfold returnedHigh
    cases hb : p.inBreak <;> rfl
  case low =>
    obtain ⟨input, hn⟩ := lowPeriod_run htx hended hphase hrun h0 hrate hlowPhase hlow n low hstuck
    rw [hn]
    exact ⟨hphase, rfl, rfl, rfl, rfl⟩
  case stuck =>
    rw [hrun 0, h0, hlevel, samplePort_stuck htx hended hphase hrate hlowPhase hlong hstuck]
    refine ⟨rfl, rfl, rfl, ?_, rfl⟩
    cases hb : p.inBreak <;> rfl

end Sys2Proof.Machine
end

section
/-! SUPPORT. What the part sends, sample by sample, and the echo check (R126, R132 to R135). -/

namespace Sys2Proof.Machine

open Sys2Proof

/-! ### The transmit output (R126, R132, R133) -/

/-- The part of a character that is sent at a transmit position. -/
theorem transmitPlace (i bit part : Nat) (hbit : bit ≤ 10) (hpart : part < 16) :
    (176 * i + 16 * bit + part) / 176 = i ∧ (176 * i + 16 * bit + part) % 176 / 16 = bit := by
  omega

theorem characterLevel_eq (c : BitVec 9) {bit : Nat} (h : bit ≤ 10) : characterLevel c bit =
    if bit = 0 then .low else if bit = 10 ∨ c.getLsbD (bit - 1) = true then .high else .low := by
  unfold characterLevel
  by_cases h0 : bit = 0
  · rw [if_pos h0, if_pos h0]
  · rw [if_neg h0, if_neg h0]
    by_cases h9 : bit ≤ 9
    · rw [if_pos h9]
      exact if_congr ⟨.inr, fun h => h.resolve_left (by omega)⟩ rfl rfl
    · rw [if_neg h9, if_pos (.inl (by omega))]

section
variable {p : LinePort} {chars : List (BitVec 9)} {position : Nat} {finishing : Bool}

theorem transmitOutput_bit (htx : p.tx = .frame chars position finishing) {i bit part : Nat} {c : BitVec 9}
    (hc : chars[i]? = some c) (hbit : bit ≤ 10) (hpart : part < 16) (hp : position = 176 * i + 16 * bit + part) :
    transmitOutput p = characterLevel c bit := by
  obtain ⟨hplace, hof⟩ := transmitPlace i bit part hbit hpart
  rw [← hp] at hplace hof
  unfold transmitOutput
  rw [htx]
  dsimp only [Config.characterSamples]
  rw [hplace, hof, hc]

theorem transmitOutput_sent (htx : p.tx = .frame chars position finishing) (h : 176 * chars.length ≤ position) :
    transmitOutput p = .high := by
  have hnone : chars[position / 176]? = none := List.getElem?_eq_none (by omega)
  unfold transmitOutput
  rw [htx]
  dsimp only [Config.characterSamples]
  rw [hnone]

end

/-! ### A MUTED receiver (R132, R133) -/

section
variable {configured : BitRate} {echoCheck : Bool} {level : PinLevel} {p : LinePort} (hmuted : p.rxPhase = .muted)
  (hended : p.ended = none)
include hmuted hended

theorem samplePort_muted :
    samplePort configured echoCheck level p = sendPeriod (reachDeadline { p with input := level }) := by
  rw [samplePort_parts, if_pos hmuted]
  unfold beforeSample
  rw [endCharacter_none (p := { p with input := level }) hended]

theorem samplePort_mutedBreak {jam : Bool} {left : Nat} (htx : p.tx = .sendingBreak jam left) :
    samplePort configured echoCheck level p = { p with input := level, tx := .sendingBreak jam (left - 1) } := by
  rw [samplePort_muted hmuted hended]
  unfold reachDeadline sendPeriod
  dsimp only
  rw [htx]
  rfl

theorem samplePort_mutedFrame {chars : List (BitVec 9)} {position : Nat} {finishing : Bool}
    (htx : p.tx = .frame chars position finishing) (hecho : p.echo = .none) (hp : position + 1 ≤ 176 * chars.length) :
    samplePort configured echoCheck level p =
      { p with input := level, tx := .frame chars (position + 1) finishing } := by
  rw [samplePort_muted hmuted hended]
  unfold reachDeadline sendPeriod
  dsimp only
  rw [htx]
  dsimp only [Config.characterSamples]
  rw [hecho, if_neg (by exact Echo.noConfusion), Nat.min_eq_left hp]
  rfl

end

/-! ### A frame under echo check (R134, R135) -/

/-- What the port keeps while character i of a frame is sent and its echo `c` is expected: `sent` sample periods of the
character have been sent and `taken` samples taken, and `owed` has been signalled or waits for the nominal end of the
character decided before. -/
structure EchoPort (chars : List (BitVec 9)) (i : Nat) (c : BitVec 9) (owed : List PortSignal) (sent taken : Nat)
    (q : LinePort) : Prop where
  tx : q.tx = .frame chars (176 * i + sent) false
  echo : q.echo = .expecting c (176 * (i + 1))
  inBreak : q.inBreak = none
  owed : owedSignals true q = owed
  ends : EndsWithin (7 - taken) q

/-- The transmitter in a sample period within character i: once the echo has failed that character is the last
(R135). -/
theorem sendPeriod_frame {p : LinePort} {chars : List (BitVec 9)} {i sent : Nat} (hi : i < chars.length)
    (htx : p.tx = .frame chars (176 * i + sent) false) (hs : sent < 176) : sendPeriod p = { p with
      tx := .frame (if p.echo = .failed then chars.take (i + 1) else chars) (176 * i + sent + 1) false } := by
  have hplace : (176 * i + sent) / 176 = i := by omega
  unfold sendPeriod
  rw [htx]
  dsimp only [Config.characterSamples]
  rw [hplace, Nat.min_eq_left (by omega)]

section
variable {chars : List (BitVec 9)} {i n sent taken : Nat} {c : BitVec 9} {owed : List PortSignal} {q : LinePort}

theorem EchoPort.echoing (h : EchoPort chars i c owed sent taken q) : echoing true q = true := by
  unfold Machine.echoing
  rw [h.tx]

/-- Within a character no start bit of the part begins. -/
theorem noStart_within (htx : q.tx = .frame chars (176 * i + sent) false) (h1 : 0 < sent) (hs : sent < 176) :
    startsEcho true q = false := by
  have hplace : (176 * i + sent) % 176 ≠ 0 := by omega
  unfold startsEcho
  rw [htx]
  dsimp only [Config.characterSamples]
  rw [beq_eq_false_iff_ne.2 hplace]
  rfl

theorem EchoPort.undisturbed (h : EchoPort chars i c owed sent taken q) (h1 : 0 < sent) (hs : sent < 176)
    (level : PinLevel) : Undisturbed true level q where
  inBreak := h.inBreak
  noEcho := noStart_within h.tx h1 hs
  unstuck htx := nomatch h.tx.symm.trans htx

/-- From the seventh sample on all signals owed have been given. -/
theorem EchoPort.signals (h : EchoPort chars i c owed sent taken q) (ht : 7 ≤ taken) :
    q.ended = none ∧ q.signals = owed := by
  have hended : q.ended = none := EndsWithin.ended (by simpa [Nat.sub_eq_zero_of_le ht] using h.ends)
  exact ⟨hended, (owedSignals_none hended).symm.trans h.owed⟩

theorem EchoPort.sendPeriod (h : EchoPort chars i c owed sent taken q) (hi : i < chars.length) (hs : sent < 176) :
    EchoPort chars i c owed (sent + 1) taken (sendPeriod q) := by
  rw [sendPeriod_frame hi h.tx hs, if_neg (by rw [h.echo]; exact Echo.noConfusion)]
  exact ⟨rfl, h.echo, h.inBreak, h.owed, h.ends⟩

/-- The fields of the port before the receiver acts, in a character whose echo is expected. -/
theorem beforeReceive_frame (echo : Bool) (level : PinLevel) (htx : q.tx = .frame chars (176 * i + sent) false) :
    (beforeReceive echo level q).tx = .frame chars (176 * i + sent) false ∧
    (beforeReceive echo level q).echo = missEcho (176 * i + sent + 1) q.echo ∧
    (beforeReceive echo level q).rxPhase = q.rxPhase ∧
    (beforeReceive echo level q).samplePosition = q.samplePosition ∧
    (q.inBreak = none → (beforeReceive echo level q).inBreak = none) := by
  obtain ⟨ended, signals, hend⟩ := endCharacter_changes echo { q with input := level }
  have hbefore : beforeSample echo level q = { q with
      input := level, ended := ended, signals := signals, echo := missEcho (176 * i + sent + 1) q.echo } := by
    unfold beforeSample
    rw [hend]
    unfold reachDeadline
    dsimp only
    rw [htx]
  obtain ⟨_, _, _, _, hcount, hnone⟩ := countLow_changes level (beforeSample echo level q)
  rw [hbefore] at hnone
  unfold beforeReceive
  rw [hcount, hbefore]
  exact ⟨htx, rfl, rfl, rfl, hnone⟩

theorem EchoPort.beforeReceive (h : EchoPort chars i c owed sent taken q) (hs : sent + 1 < 176) (level : PinLevel) :
    EchoPort chars i c owed sent (taken + 1) (beforeReceive true level q) := by
  obtain ⟨htx, hecho, -, -, hbreak⟩ := beforeReceive_frame true level h.tx
  refine ⟨htx, hecho.trans ?_, hbreak h.inBreak, (countLow_owed.trans beforeSample_owed).trans h.owed,
    countLow_endsWithin (beforeSample_endsWithin (h.ends.mono (by omega)))⟩
  rw [h.echo]
  exact if_neg (by omega)

/-- The echo's start bit is signalled, or waits for the nominal end of the character before. -/
theorem EchoPort.announced (h : EchoPort chars i c owed sent taken q) (hwaits : NoStartWaits q) :
    EchoPort chars i c (owed ++ [.echoBegun]) sent taken (announced true q) := by
  have howed := announced_owed (echo := true) hwaits
  have hended := announced_endsWithin (echo := true) h.ends
  obtain ⟨_, _, hannounced⟩ := announced_changes true q
  rw [h.owed] at howed
  rw [hannounced] at howed hended ⊢
  exact ⟨h.tx, h.echo, h.inBreak, howed, hended⟩

/-- From the start bit sent on, the sample periods keep what is owed and the echo expected. -/
theorem echoPort_kept (hi : i < chars.length) (levels : Nat → PinLevel) (c : BitVec 9) (owed : List PortSignal)
    (start : Nat) : KeptUpTo true levels (175 - start) fun n q =>
      0 < n ∧ EchoPort chars i c owed (start + n) (start + n) q where
  undisturbed _ _ hn h := h.2.undisturbed (by omega) (by omega) _
  pass _ _ hn h := by
    rw [h.2.echoing]
    exact ⟨Nat.succ_pos _, (h.2.beforeReceive (by omega) _).sendPeriod hi (by omega)⟩

/-! ### The start bit sent (R134) -/

theorem clearCharacter_owed {echo : Bool} (h : NoStartWaits q) (phase : RxPhase) (inBreak : Option Nat) (e : Echo) :
    owedSignals echo { clearCharacter q with rxPhase := phase, inBreak := inBreak, echo := e } =
      owedSignals echo q := by
  unfold owedSignals clearCharacter
  cases hended : q.ended with
  | none => rfl
  | some e => simp [h e hended]

/-- The receiver starts again with the start bit sent. -/
theorem restartForEcho_starts (htx : q.tx = .frame chars (176 * i) false) (hc : chars[i]? = some c)
    (hwaits : NoStartWaits q) (hends : EndsWithin 6 q) :
    EchoPort chars i c (owedSignals true q) 0 1 (restartForEcho q) ∧
      NoStartWaits (restartForEcho q) ∧ (restartForEcho q).rxPhase = .hunt := by
  have hplace : 176 * i / 176 = i := by omega
  have hexpected : expectedEcho chars i = .expecting c (176 * (i + 1)) := by
    unfold expectedEcho
    rw [hc]
  have hrestart : restartForEcho q = { clearCharacter q with
      rxPhase := .hunt, inBreak := none, echo := .expecting c (176 * (i + 1)) } := by
    unfold restartForEcho
    rw [htx]
    dsimp only [Config.characterSamples]
    rw [hplace, hexpected]
  have hended (e : EndedCharacter) (he : q.ended.map (fun e => { e with startWaits := false }) = some e) :
      ∃ e', q.ended = some e' ∧ e.left = e'.left ∧ e.startWaits = false := by
    obtain ⟨e', he', rfl⟩ := Option.map_eq_some_iff.1 he
    exact ⟨e', he', rfl, rfl⟩
  rw [hrestart]
  refine ⟨⟨htx, rfl, rfl, clearCharacter_owed hwaits _ _ _, fun e he => ?_⟩, fun e he => ?_, rfl⟩
  · obtain ⟨e', he', hleft, -⟩ := hended e he
    exact ⟨by decide, hleft ▸ (hends e' he').2⟩
  · obtain ⟨e', -, -, hwaits⟩ := hended e he
    exact hwaits

end

section
variable {configured : BitRate} {levels : Nat → PinLevel} {chars : List (BitVec 9)} {i : Nat} {c : BitVec 9}
  {p : LinePort} (htx : p.tx = .frame chars (176 * i) false) (hc : chars[i]? = some c) (hmuted : p.rxPhase ≠ .muted)
  (hwaits : NoStartWaits p) (hends : EndsWithin 7 p)
include htx hc hmuted

/-- The sample period of a start bit sent: the receiver takes its sample anew. -/
theorem samplePort_restarts (level : PinLevel) : samplePort configured true level p =
    sendPeriod (receive configured true level (level == .low)
      (countLow level (restartForEcho (beforeSample true level p)))) := by
  have hlength : i < chars.length := (List.getElem?_eq_some_iff.1 hc).1
  have hecho : echoing true p = true := by
    unfold echoing
    rw [htx]
  obtain ⟨_, _, _, hbefore⟩ := beforeSample_changes true level p
  have hbtx : (beforeSample true level p).tx = .frame chars (176 * i) false := by rw [hbefore]; exact htx
  have hstart : startsEcho true (beforeSample true level p) = true := by
    unfold startsEcho
    rw [hbtx]
    simp [Config.characterSamples, hlength]
  have hwork := ((restartForEcho_work (beforeSample true level p)).trans (countLow_work level _)).trans
    (receive_work configured true level (level == .low) _)
  rw [samplePort_parts, if_neg hmuted, hecho]
  unfold takeSample
  dsimp only
  rw [hstart, echoing_congr (hbtx.trans htx.symm), hecho, if_pos rfl, Bool.true_or, Bool.and_true]
  exact congrArg sendPeriod (findStuck_calm fun h => nomatch (hwork.tx.trans hbtx).symm.trans h)

include hwaits hends

omit hmuted in
theorem beforeSample_restarts (level : PinLevel) :
    EchoPort chars i c (owedSignals true p) 0 1 (countLow level (restartForEcho (beforeSample true level p))) ∧
      NoStartWaits (countLow level (restartForEcho (beforeSample true level p))) ∧
      (countLow level (restartForEcho (beforeSample true level p))).rxPhase = .hunt := by
  obtain ⟨_, _, _, hbefore⟩ := beforeSample_changes true level p
  have hbtx : (beforeSample true level p).tx = .frame chars (176 * i) false := by rw [hbefore]; exact htx
  have hbwaits : NoStartWaits (beforeSample true level p) := by
    obtain ⟨e, hecho⟩ := reachDeadline_changes (endCharacter true { p with input := level })
    unfold beforeSample
    rw [hecho]
    exact endCharacter_noStartWaits (p := { p with input := level }) hwaits
  obtain ⟨hport, hnone, hphase⟩ := restartForEcho_starts hbtx hc hbwaits (beforeSample_endsWithin hends)
  rw [beforeSample_owed] at hport
  obtain ⟨_, _, _, _, hcount, hbreak⟩ := countLow_changes level (restartForEcho (beforeSample true level p))
  have howed := countLow_owed (echo := true) (level := level) (p := restartForEcho (beforeSample true level p))
  have hended := countLow_endsWithin (level := level) hport.ends
  rw [hcount] at howed hended ⊢
  exact ⟨⟨hport.tx, hport.echo, hbreak hport.inBreak, howed.trans hport.owed, hended⟩, hnone, hphase⟩

/-- With the input high the receiver hunts for the echo. -/
theorem startBit_hunts : Hunting (samplePort configured true .high p) ∧
    EchoPort chars i c (owedSignals true p) 1 1 (samplePort configured true .high p) := by
  have hlength : i < chars.length := (List.getElem?_eq_some_iff.1 hc).1
  obtain ⟨hport, hnone, hphase⟩ := beforeSample_restarts htx hc hwaits hends .high
  have hlow : (countLow .high (restartForEcho (beforeSample true .high p))).lowTime = 0 := rfl
  rw [samplePort_restarts htx hc hmuted]
  generalize countLow .high (restartForEcho (beforeSample true .high p)) = q at *
  have hreceive : receive configured true .high (PinLevel.high == .low) q = q := by
    unfold receive
    rw [hphase]
    rfl
  rw [hreceive]
  refine ⟨?_, hport.sendPeriod hlength (by decide)⟩
  rw [sendPeriod_frame hlength hport.tx (by decide)]
  exact ⟨hphase, hlow, hnone⟩

/-- With the input low the echo begins at once. -/
theorem startBit_begins (samples : Nat → PinLevel) : ∃ q,
    samplePort configured true .low p = duringCharacter samples 1 q ∧
      EchoPort chars i c (owedSignals true p ++ [.echoBegun]) 1 1 q := by
  have hlength : i < chars.length := (List.getElem?_eq_some_iff.1 hc).1
  obtain ⟨hport, hnone, hphase⟩ := beforeSample_restarts htx hc hwaits hends .low
  rw [samplePort_restarts htx hc hmuted]
  generalize countLow .low (restartForEcho (beforeSample true .low p)) = q at *
  have hreceive : receive configured true .low (PinLevel.low == .low) q = beginCharacter true q := by
    unfold receive
    rw [hphase]
    rfl
  rw [hreceive, beginCharacter_during samples, sendPeriod_during]
  exact ⟨_, rfl, (hport.announced hnone).sendPeriod hlength (by decide)⟩

variable {run : Nat → LinePort} (h0 : run 0 = p)
  (hrun : ∀ n, run (n + 1) = samplePort configured true (levels (n + 1)) (run n))
include h0 hrun

/-- With the input high the receiver hunts on. -/
theorem echo_hunts {n : Nat} (hn : n < 175) (high : ∀ k, 1 ≤ k → k ≤ n + 1 → levels k = .high) :
    Hunting (run (n + 1)) ∧ EchoPort chars i c (owedSignals true p) (n + 1) (n + 1) (run (n + 1)) := by
  have hlength : i < chars.length := (List.getElem?_eq_some_iff.1 hc).1
  have h1 : run 1 = samplePort configured true .high p := by rw [hrun 0, h0, high 1 (by decide) (by omega)]
  obtain ⟨hhunt, hport⟩ := startBit_hunts (configured := configured) htx hc hmuted hwaits hends
  rw [← h1] at hhunt hport
  obtain ⟨hh, -, hp⟩ := hunting_run hrun (echoPort_kept hlength levels c (owedSignals true p) 0) (m := 1) (n := n) hhunt
    ⟨by decide, hport⟩ (by omega) fun k hk1 hk2 => high k (by omega) (by omega)
  rw [Nat.zero_add, Nat.add_comm 1] at hp
  rw [Nat.add_comm 1] at hh
  exact ⟨hh, hp⟩

/-- The echo begins with the first low sample. -/
theorem echo_begins {delay : Nat} (hdelay : delay < 175) (high : ∀ k, 1 ≤ k → k ≤ delay → levels k = .high)
    (hlow : levels (delay + 1) = .low) (samples : Nat → PinLevel) :
    ∃ q, run (delay + 1) = duringCharacter samples 1 q ∧
      EchoPort chars i c (owedSignals true p ++ [.echoBegun]) (delay + 1) (delay + 1) q := by
  have hlength : i < chars.length := (List.getElem?_eq_some_iff.1 hc).1
  rw [hrun delay, hlow]
  cases delay with
  | zero =>
    rw [h0]
    exact startBit_begins htx hc hmuted hwaits hends samples
  | succ n =>
    obtain ⟨hh, hp⟩ := echo_hunts htx hc hmuted hwaits hends h0 hrun (n := n) (by omega) high
    refine ⟨_, samplePort_begins samples hh (hp.undisturbed (by omega) (by omega) _), ?_⟩
    rw [hp.echoing]
    have hwaits : NoStartWaits (beforeReceive true .low (run (n + 1))) := by
      have h := passPeriod_noStartWaits (echo := true) (level := .low) hh.noStartWaits
      obtain ⟨_, hsend⟩ := sendPeriod_changes (beforeReceive true .low (run (n + 1)))
      rwa [passPeriod, hsend] at h
    exact ((hp.beforeReceive (by omega) _).announced hwaits).sendPeriod hlength (by omega)

end

/-! ### The stop-bit decision of an echo (R134, R135) -/

theorem judgeEcho_passes {x : ReceivedCharacter} {c : BitVec 9} {deadline : Nat} (h : x.data = c ∧ x.stop = true) :
    judgeEcho x (.expecting c deadline) = .none := if_pos h

theorem judgeEcho_fails {x : ReceivedCharacter} {c : BitVec 9} {deadline : Nat} (h : ¬(x.data = c ∧ x.stop = true)) :
    judgeEcho x (.expecting c deadline) = .failed := if_neg h

section
variable {configured : BitRate} {samples : Nat → PinLevel} {chars : List (BitVec 9)} {i delay : Nat}
  {c : BitVec 9} {owed : List PortSignal} {q : LinePort} {run : Nat → LinePort}
  (hrun : ∀ n, run (n + 1) = samplePort configured true (samples (n + 1)) (run n)) (hi : i < chars.length)
  (h1 : run 1 = duringCharacter samples 1 q)
  (hq : EchoPort chars i c owed (delay + 1) (delay + 1) q) (hdelay : delay ≤ 6)
include hrun hi h1 hq hdelay

/-- An echo of up to 6 sample periods is decided before its deadline. -/
theorem echo_decided (h0 : bitValue samples 0 = false) : ∃ r d,
    d = decideCharacter true (duringCharacter samples 169 r) ∧
      run 169 = { d with
        tx := .frame (if d.echo = .failed then chars.take (i + 1) else chars) (176 * i + delay + 169) false } ∧
      r.echo = .expecting c (176 * (i + 1)) ∧ r.inBreak = none ∧
      r.ended = none ∧ r.signals = owed := by
  obtain ⟨r, hr, ⟨-, hport⟩, -⟩ := character_decided hrun (echoPort_kept hi samples c owed delay) h1
    ⟨by decide, hq⟩ (by omega) h0 fun _ _ h htx => nomatch h.2.tx.symm.trans htx
  have hb := hport.beforeReceive (by omega) (samples 169)
  have hwork := decideCharacter_work true (duringCharacter samples 169 (beforeReceive true (samples 169) r))
  have hposition : 176 * i + (delay + 168) + 1 = 176 * i + delay + 169 := by omega
  rw [hport.echoing, sendPeriod_frame hi (hwork.tx.trans hb.tx) (by omega), hposition] at hr
  exact ⟨_, _, rfl, hr, hb.echo, hb.inBreak, hb.signals (by omega)⟩

/-- The echo passes with the data bits sent and a stop bit of 1, and fails otherwise. -/
theorem echo_judged (h0 : bitValue samples 0 = false) (hone : ∃ k, k ≤ 10 ∧ bitValue samples k = true) :
    (run 169).ended = some { character := sampledCharacter samples true, left := 7, startWaits := false } ∧
      (run 169).signals = owed ∧
      (((sampledCharacter samples true).data = c ∧ (sampledCharacter samples true).stop = true) →
        (run 169).echo = .none ∧ (run 169).tx = .frame chars (176 * i + delay + 169) false) ∧
      (¬((sampledCharacter samples true).data = c ∧ (sampledCharacter samples true).stop = true) →
        (run 169).echo = .failed ∧ (run 169).tx = .frame (chars.take (i + 1)) (176 * i + delay + 169) false) := by
  obtain ⟨r, d, hd, hr, hecho, -, -, hsignals⟩ := echo_decided hrun hi h1 hq hdelay h0
  rw [decideCharacter_decides hone, hecho] at hd
  rw [hr, hd]
  refine ⟨rfl, hsignals, fun hpass => ?_, fun hfail => ?_⟩
  · rw [judgeEcho_passes hpass]
    exact ⟨rfl, rfl⟩
  · rw [judgeEcho_fails hfail]
    exact ⟨rfl, rfl⟩

/-- An echo that is a break fails. -/
theorem echo_break (hall : ∀ k, k ≤ 10 → bitValue samples k = false) :
    (run 169).ended = none ∧ (run 169).inBreak.isSome = true ∧ (run 169).signals = owed ++ [.breakDetected] ∧
      (run 169).echo = .failed ∧ (run 169).tx = .frame (chars.take (i + 1)) (176 * i + delay + 169) false := by
  obtain ⟨r, d, hd, hr, hecho, hbreak, hended, hsignals⟩ := echo_decided hrun hi h1 hq hdelay (hall 0 (by decide))
  rw [decideCharacter_break hall hbreak, hecho] at hd
  rw [hr, hd]
  refine ⟨?_, rfl, congrArg (· ++ [PortSignal.breakDetected]) hsignals, rfl, rfl⟩
  show r.ended.map _ = none
  rw [hended]
  rfl

/-- A start bit of 1 is a false start. -/
theorem echo_falseStart (h0 : bitValue samples 0 = true) :
    ∃ r, run 9 = signal .falseStart { clearCharacter r with rxPhase := .hunt } ∧
      EchoPort chars i c owed (delay + 9) (delay + 9) r := by
  obtain ⟨r, hr, -, hport⟩ := character_refused hrun (echoPort_kept hi samples c owed delay) h1 ⟨by decide, hq⟩
    (by omega) h0
  exact ⟨r, hr, hport⟩

end

/-! ### An echo too late (R134) -/

/-- The port n samples after the start bit sent, with no echo begun that could be decided before the deadline. -/
structure EchoLate (chars : List (BitVec 9)) (i : Nat) (c : BitVec 9) (n : Nat) (q : LinePort) : Prop where
  tx : q.tx = .frame chars (176 * i + n) false
  echo : q.echo = .expecting c (176 * (i + 1))
  inBreak : q.inBreak = none
  receiver : q.rxPhase = .hunt ∨ (q.rxPhase = .qualify ∨ q.rxPhase = .bits) ∧ q.samplePosition + 8 ≤ n

section
variable {configured : BitRate} {echo : Bool} {level : PinLevel} {p : LinePort}

theorem receive_hunts {edge : Bool} (h : p.rxPhase = .hunt) :
    receive configured echo level edge p = if edge then beginCharacter echo p else p := by
  unfold receive
  rw [h]

/-- A sample before the last one of a character leaves the echo and any break alone. -/
theorem bitSample_beforeStop (hphase : p.rxPhase = .qualify ∨ p.rxPhase = .bits) (hp : p.samplePosition ≠ 167) :
    (bitSample configured echo level p).echo = p.echo ∧ (bitSample configured echo level p).inBreak = p.inBreak ∧
      ((bitSample configured echo level p).rxPhase = .hunt ∨
        ((bitSample configured echo level p).rxPhase = .qualify ∨ (bitSample configured echo level p).rxPhase = .bits) ∧
          (bitSample configured echo level p).samplePosition = p.samplePosition + 1) := by
  unfold bitSample
  dsimp only
  split
  · exact ⟨rfl, rfl, .inr ⟨hphase, rfl⟩⟩
  · split
    · unfold decideBit
      split
      · split
        · exact ⟨rfl, rfl, .inl rfl⟩
        · exact ⟨rfl, rfl, .inr ⟨.inr rfl, rfl⟩⟩
      · dsimp only [Config.decisionSamples]
        rw [if_neg (by omega)]
        exact ⟨rfl, rfl, .inr ⟨hphase, rfl⟩⟩
    · exact ⟨rfl, rfl, .inr ⟨hphase, rfl⟩⟩

end

section
variable {configured : BitRate} {levels : Nat → PinLevel} {chars : List (BitVec 9)} {i n : Nat} {c : BitVec 9}
  {q : LinePort} {run : Nat → LinePort}

/-- Such a sample period by its parts. -/
theorem EchoLate.samplePort_receives (h : EchoLate chars i c n q) (h1 : 0 < n) (hn : n < 176) (level : PinLevel) :
    samplePort configured true level q = sendPeriod (receive configured true level
      (level == .low && q.lowTime == 0) (beforeReceive true level q)) := by
  have hmuted : q.rxPhase ≠ .muted := by
    rcases h.receiver with hphase | ⟨hphase | hphase, -⟩ <;> rw [hphase] <;> exact RxPhase.noConfusion
  have hecho : echoing true q = true := by
    unfold echoing
    rw [h.tx]
  rw [Machine.samplePort_receives hmuted (noStart_within h.tx h1 hn) (fun htx => nomatch h.tx.symm.trans htx), hecho]

theorem EchoLate.step (h : EchoLate chars i c n q) (hi : i < chars.length) (h7 : 7 ≤ n) (hn : n < 175)
    (level : PinLevel) : EchoLate chars i c (n + 1) (samplePort configured true level q) := by
  rw [h.samplePort_receives (by omega) (by omega)]
  obtain ⟨htx, hecho, hphase, hposition, hbreak⟩ := beforeReceive_frame true level h.tx
  have hexpecting : (beforeReceive true level q).echo = .expecting c (176 * (i + 1)) := by
    rw [hecho, h.echo]
    exact if_neg (by omega)
  have hnone := hbreak h.inBreak
  have hreceiver := h.receiver
  rw [← hphase, ← hposition] at hreceiver
  have hsent (r : LinePort) (hr : r.tx = .frame chars (176 * i + n) false) (he : r.echo = .expecting c (176 * (i + 1)))
      (hb : r.inBreak = none) (hp : r.rxPhase = .hunt ∨
        (r.rxPhase = .qualify ∨ r.rxPhase = .bits) ∧ r.samplePosition + 8 ≤ n + 1) :
      EchoLate chars i c (n + 1) (sendPeriod r) := by
    rw [sendPeriod_frame hi hr (by omega), if_neg (by rw [he]; exact Echo.noConfusion)]
    exact ⟨rfl, he, hb, hp⟩
  generalize beforeReceive true level q = b at *
  generalize (level == .low && q.lowTime == 0) = edge
  have hwork := receive_work configured true level edge b
  rcases hreceiver with hhunt | ⟨hinside, hlate⟩
  · rw [receive_hunts hhunt] at hwork ⊢
    cases edge with
    | false => exact hsent _ htx hexpecting hnone (.inl hhunt)
    | true =>
      obtain ⟨_, _, hannounced⟩ := announced_changes true b
      rw [if_pos rfl, beginCharacter_during (fun _ => level), hannounced] at hwork ⊢
      exact hsent _ htx hexpecting hnone (.inr ⟨.inl rfl, Nat.succ_le_succ h7⟩)
  · rw [receive_inside hinside hnone] at hwork ⊢
    obtain ⟨he, hb, hr⟩ := bitSample_beforeStop (configured := configured) (echo := true) (level := level) hinside
      (by omega)
    exact hsent _ (hwork.tx.trans htx) (he.trans hexpecting) (hb.trans hnone)
      (hr.imp_right (And.imp_right fun h => by omega))

/-- At the deadline the echo has failed, whatever the sample makes of it. -/
theorem EchoLate.fails (h : EchoLate chars i c 175 q) (hi : i < chars.length) (level : PinLevel) :
    (samplePort configured true level q).echo = .failed ∧
      (samplePort configured true level q).tx = .frame (chars.take (i + 1)) (176 * (i + 1)) false := by
  rw [h.samplePort_receives (by decide) (by decide)]
  obtain ⟨htx, hecho, -, -, -⟩ := beforeReceive_frame true level h.tx
  have hfailed : (beforeReceive true level q).echo = .failed := by
    rw [hecho, h.echo]
    exact if_pos (by omega)
  have hwork := receive_work configured true level (level == .low && q.lowTime == 0) (beforeReceive true level q)
  have hkeeps := receive_keeps configured true level (level == .low && q.lowTime == 0) (beforeReceive true level q)
  rw [sendPeriod_frame hi (hwork.tx.trans htx) (by decide), if_pos (hkeeps.failed hfailed)]
  exact ⟨hkeeps.failed hfailed, rfl⟩

/-- Up to the deadline the echo is expected, and at it it fails. -/
theorem EchoLate.missed (hrun : ∀ n, run (n + 1) = samplePort configured true (levels (n + 1)) (run n))
    (h : EchoLate chars i c n (run n)) (hi : i < chars.length) (h7 : 7 ≤ n) (hn : n ≤ 175) :
    ((run 175).echo = .expecting c (176 * (i + 1)) ∧ (run 175).tx = .frame chars (176 * i + 175) false) ∧
      (run 176).echo = .failed ∧ (run 176).tx = .frame (chars.take (i + 1)) (176 * (i + 1)) false := by
  have hlate (m : Nat) (hm : n ≤ m) (h175 : m ≤ 175) : EchoLate chars i c m (run m) := by
    induction m, hm using Nat.le_induction with
    | base => exact h
    | succ m hm ih =>
      rw [hrun]
      exact (ih (by omega)).step hi (by omega) (by omega) _
  have h175 := hlate 175 hn (Nat.le_refl _)
  exact ⟨⟨h175.echo, h175.tx⟩, hrun 175 ▸ h175.fails hi _⟩

end

/-- Settles O45: the output by the bit sent, a MUTED receiver by its transmitter, and the echo by the moment it
begins. -/
theorem framesAreSentAndEchoesChecked : Obligations.FramesAreSentAndEchoesChecked := by
  unfold Obligations.FramesAreSentAndEchoesChecked
  intro configured echoCheck levels p after hafter
  have hrun (n : Nat) : after (n + 1) = samplePort configured echoCheck (levels (n + 1)) (after n) := by
    rw [hafter, hafter]
    rfl
  have h0 : after 0 = p := hafter 0
  refine ⟨fun htx => ?idle, fun jam left htx => ?sendingBreak, fun chars position finishing htx =>
    ⟨fun i c bit part hc hbit hpart hp => ?bit, fun hp => transmitOutput_sent htx hp⟩,
    fun hmuted hended => ⟨fun jam left n htx hlevels hn => ?mutedBreak,
      fun chars position finishing n htx hecho hp hlevels hn => ?mutedFrame⟩,
    fun chars i c before htx hc hcheck hrate hphase hends hbefore => ?echo⟩
  case idle =>
    unfold transmitOutput
    rw [htx]
  case sendingBreak =>
    unfold transmitOutput
    rw [htx]
  case bit => rw [transmitOutput_bit htx hc hbit hpart hp, characterLevel_eq c hbit]
  case mutedBreak =>
    induction n, hn using Nat.le_induction with
    | base => rw [hrun 0, h0, samplePort_mutedBreak hmuted hended htx]
    | succ n hn ih =>
      rw [hrun, ih, hlevels (n + 1)]
      exact samplePort_mutedBreak (p := { p with input := levels 1, tx := .sendingBreak jam (left - n) })
        hmuted hended rfl
  case mutedFrame =>
    induction n, hn using Nat.le_induction with
    | base => rw [hrun 0, h0, samplePort_mutedFrame hmuted hended htx hecho hp]
    | succ n hn ih =>
      rw [hrun, ih (by omega), hlevels (n + 1)]
      exact samplePort_mutedFrame (p := { p with input := levels 1, tx := .frame chars (position + n) finishing })
        hmuted hended rfl hecho hp
  case echo =>
    subst hcheck
    have hi : i < chars.length := (List.getElem?_eq_some_iff.1 hc).1
    have hwaits : NoStartWaits p := fun e he => (hends e he).2
    have hends7 : EndsWithin 7 p := fun e he => ⟨by decide, (hends e he).1⟩
    have howed : owedSignals true p = before := by
      rw [hbefore]
      unfold owedSignals
      cases hended : p.ended with
      | none => rfl
      | some e => simp [hwaits e hended]
    refine ⟨fun delay delayed hdelay hdelayed high hlow => ?begun, fun high => ?late⟩
    case begun =>
      have hshift (n : Nat) :
          after (delay + (n + 1)) = samplePort configured true (delayed (n + 1)) (after (delay + n)) := by
        rw [hdelayed]
        exact hrun (delay + n)
      obtain ⟨q, h1, hq⟩ := echo_begins htx hc hphase hwaits hends7 h0 hrun (by omega) high
        ((hdelayed 1).symm.trans hlow) delayed
      rw [howed] at hq
      refine ⟨fun hzero => ⟨fun hone => ?_, fun hall => ?_⟩, fun hone => ?_⟩
      · obtain ⟨hended, hsignals, hpass, hfail⟩ :=
          echo_judged (run := fun n => after (delay + n)) hshift hi h1 hq hdelay hzero hone
        exact ⟨_, sampledCharacter_sampledAs delayed true, rfl, hended, hsignals, hpass, hfail⟩
      · obtain ⟨hended, hbreak, hsignals, hecho, hsent⟩ :=
          echo_break (run := fun n => after (delay + n)) hshift hi h1 hq hdelay hall
        exact ⟨hended, hbreak, by rw [hsignals]; simp, hecho, hsent⟩
      · obtain ⟨r, hr, hport⟩ := echo_falseStart (run := fun n => after (delay + n)) hshift hi h1 hq hdelay hone
        have hlate : EchoLate chars i c (delay + 9) (after (delay + 9)) := by
          rw [hr]
          exact ⟨hport.tx, hport.echo, hport.inBreak, .inl rfl⟩
        obtain ⟨⟨hexpecting, -⟩, hfailed, hsent⟩ := hlate.missed hrun hi (by omega) (by omega)
        refine ⟨by rw [hr]; rfl, ?_, hexpecting, hfailed, hsent⟩
        rw [hr]
        show r.signals ++ [.falseStart] = _
        rw [(hport.signals (by omega)).2]
        simp
    case late =>
      obtain ⟨hh, hport⟩ := echo_hunts htx hc hphase hwaits hends7 h0 hrun (n := 6) (by decide) high
      have hlate : EchoLate chars i c 7 (after 7) := ⟨hport.tx, hport.echo, hport.inBreak, .inl hh.phase⟩
      obtain ⟨⟨hexpecting, hsending⟩, hfailed, hsent⟩ := hlate.missed hrun hi (by decide) (by decide)
      refine ⟨hexpecting, hsending, hfailed, hsent, fun hhigh => ?_⟩
      obtain ⟨hh, hport⟩ := echo_hunts htx hc hphase hwaits hends7 h0 hrun (n := 174) (by decide)
        fun k hk1 hk2 => hhigh k hk1 (by omega)
      have hended : (passPeriod true .high (after 175)).ended = none :=
        EndsWithin.ended (passPeriod_endsWithin (hport.ends.mono (by decide)))
      rw [hrun 175, hhigh 176 (by decide) (by decide),
        (samplePort_hunts hh (hport.undisturbed (by decide) (by decide) _)).1, hport.echoing,
        ← owedSignals_none (echo := true) hended, passPeriod_owed, hport.owed, howed]

end Sys2Proof.Machine
end

section
/-! SUPPORT. The bounds of the host link, the report queue and the report window: each part of a step keeps them (R144,
R148, R150, R158, R161, R168). -/

namespace Sys2Proof.Machine

open Sys2Proof

/-! ### A period of CLKIN and an event of a line -/

/-- The window's order rests on Report Delivery and the link state alone. -/
theorem WindowOrdered.of_same {s t : State} (h : WindowOrdered s) (hd : t.delivery = s.delivery)
    (hl : t.link.linkState = s.link.linkState) : WindowOrdered t :=
  h.congr (by rw [hd]) (by rw [hd]) (by rw [hd]) (by rw [hd]; exact id) (by rw [hd]) hl

theorem clkTick_bounded {s : State} (h : LinkBounded s) : LinkBounded (clkTick s) := by
  obtain ⟨hinbox, hresponses, hcache, -, -⟩ := clkTick_link s
  exact h.congr hinbox hresponses (.inl hcache)

theorem clkTick_distinct {s : State} (h : QueueDistinct s) : QueueDistinct (clkTick s) := by
  obtain ⟨timer, hd, -, -⟩ := clkTick_delivery s
  unfold QueueDistinct
  rw [hd]
  exact h

/-- A millisecond timer that counts keeps running, and one that is stopped stays so (R1). -/
theorem clkTick_ordered {s : State} (h : WindowOrdered s) : WindowOrdered (clkTick s) := by
  obtain ⟨timer, hd, hruns, hstopped⟩ := clkTick_delivery s
  obtain ⟨-, -, -, hlink, -⟩ := clkTick_link s
  refine h.congr ?_ ?_ ?_ (fun hs => ?_) ?_ hlink <;> rw [hd]
  exacts [hruns, hstopped hs]

theorem lineEvent_bounded {l : LineId} {f : State → State} (hf : LineEvent l f) {s : State} (h : LinkBounded s) :
    LinkBounded (f s) := by
  have hlink := (lineEvent_work hf s).link
  exact h.congr (congrArg _ hlink) (congrArg _ hlink) (.inl (congrArg _ hlink))

theorem lineEvent_distinct {l : LineId} {f : State → State} (hf : LineEvent l f) {s : State} (h : QueueDistinct s) :
    QueueDistinct (f s) := by
  obtain ⟨added, hd, hnodup⟩ := (lineEvent_work hf s).reports
  unfold QueueDistinct
  rw [hd]
  exact hnodup h

/-- The work of a line only adds report requests to Report Delivery. -/
theorem lineEvent_ordered {l : LineId} {f : State → State} (hf : LineEvent l f) {s : State} (h : WindowOrdered s) :
    WindowOrdered (f s) := by
  have hw := lineEvent_work hf s
  obtain ⟨added, hd, -⟩ := hw.reports
  exact h.congr (by rw [hd]) (by rw [hd]) (by rw [hd]) (by rw [hd]; exact id) (by rw [hd]) (by rw [hw.link])

/-! ### A step -/

theorem step_bounded {s t : State} (h : LinkBounded s) (hs : step s = .next t) : LinkBounded t := by
  refine step_keeps h hs ?dequeued ?tick ?reset ?held ?granted ?line ?host ?request
  case dequeued => exact fun _ _ h => h.congr rfl rfl (.inl rfl)
  case tick => exact fun _ => clkTick_bounded
  case reset => exact fun _ _ _ _ _ _ => reset_linkBounded.congr rfl rfl (.inl rfl)
  case held => exact fun _ h => h.congr rfl rfl (.inl rfl)
  case granted => exact fun _ => outbound_bounded
  case line => exact fun _ _ _ hf _ => lineEvent_bounded hf
  case host => exact fun _ _ hf _ => hostEvent_bounded hf
  case request => exact fun _ _ _ hr _ => takeRequest_bounded hr

theorem step_distinct {s t : State} (h : QueueDistinct s) (hs : step s = .next t) : QueueDistinct t := by
  refine step_keeps h hs ?dequeued ?tick ?reset ?held ?granted ?line ?host ?request
  case dequeued => exact fun _ _ h => h
  case tick => exact fun _ => clkTick_distinct
  case reset => exact fun _ _ _ _ _ _ => List.nodup_nil
  case held => exact fun _ h => h
  case granted => exact fun _ => outbound_distinct
  case line => exact fun _ _ _ hf _ => lineEvent_distinct hf
  case host => exact fun _ s hf _ h => (congrArg List.Nodup (hostEvent_queue hf s)).mpr h
  case request => exact fun _ _ _ hr _ => takeRequest_distinct hr

theorem step_ordered {s t : State} (h : WindowOrdered s) (hs : step s = .next t) : WindowOrdered t := by
  refine step_keeps h hs ?dequeued ?tick ?reset ?held ?granted ?line ?host ?request
  case dequeued => exact fun _ _ h => h.of_same rfl rfl
  case tick => exact fun _ => clkTick_ordered
  case reset => exact fun _ _ _ _ _ _ => .empty rfl rfl rfl
  case held => exact fun _ h => h.of_same rfl rfl
  case granted => exact fun _ => outbound_ordered
  case line => exact fun _ _ _ hf _ => lineEvent_ordered hf
  case host => exact fun _ _ hf _ => hostEvent_ordered hf
  case request => exact fun _ _ _ hr _ => takeRequest_ordered hr

/-- Settles O56: each of the three invariants by the parts of a step. -/
theorem stepsKeepTheLinkBounds : Obligations.StepsKeepTheLinkBounds := by
  unfold Obligations.StepsKeepTheLinkBounds
  exact fun s t hs => ⟨fun h => step_bounded h hs, fun h => step_distinct h hs, fun h => step_ordered h hs⟩

end Sys2Proof.Machine
end

section
/-! SUPPORT. The pins and the bytes of the host link (R139 to R144, R156): what the two edges of RESET_N do, and what
the message receiver makes of a byte, of a framing error, of the gap and of a whole message. -/

namespace Sys2Proof.Machine

open Sys2Proof

/-! ### RESET_N (R139, R156) -/

/-- While RESET_N is low the part does nothing (R139). -/
theorem perform_held {f : State → State} {s : State} (h : s.resetHeld = true) : perform f s = .next s := by
  unfold perform
  rw [h]
  rfl

/-- A low input as RESET_N rises is a falling edge (R127, log 32). -/
theorem portAtReset_eq (level : PinLevel) : portAtReset level =
    if level = .high then LinePort.initial
    else { LinePort.initial with input := .low, rxPhase := .qualify, lowTime := 1 } := by
  cases level <;> rfl

/-- The straps' rate (R139). -/
theorem strapRate_eq (rate1 rate0 : PinLevel) : strapRate rate1 rate0 =
    if rate1 = .low then (if rate0 = .low then .r115200 else .r230400)
    else (if rate0 = .low then .r460800 else .r921600) := by
  cases rate1 <;> cases rate0 <;> rfl

/-- Settles O4: the two edges by their definitions, and every other command by `perform`. -/
theorem pinResetLoadsResetValues : Obligations.PinResetLoadsResetValues := by
  unfold Obligations.PinResetLoadsResetValues
  refine ⟨fun rate1 rate0 levelA levelB s => ?_, fun s => rfl, fun c s hr hlow hrise => ?_⟩
  · rw [← portAtReset_eq, ← portAtReset_eq, ← strapRate_eq]
    rfl
  · cases c with
    | pinReset rate1 rate0 levelA levelB => exact absurd rfl (hrise rate1 rate0 levelA levelB)
    | resetNLow => exact absurd rfl hlow
    | _ => exact perform_held hr

/-! ### The gap of a message (R142) -/

theorem messageGapRunsOut_expired {s : State} (ht : s.link.gapTimer = .running 0) (hp : s.link.rxPhase ≠ .hunt) :
    messageGapRunsOut s =
      (s.modifyLink huntMessage).countLink fun c => { c with gapDiscards := satInc c.gapDiscards } :=
  if_pos ⟨hasExpired_iff.2 ht, hp⟩

theorem messageGapRunsOut_waits {s : State} (h : s.link.gapTimer ≠ .running 0 ∨ s.link.rxPhase = .hunt) :
    messageGapRunsOut s = s := by
  refine if_neg ?_
  rintro ⟨hexpired, hphase⟩
  exact h.elim (fun ht => ht (hasExpired_iff.1 hexpired)) hphase

/-- Settles O9: the gap timer and the phase decide. -/
theorem messageGapDiscardsTheMessage : Obligations.MessageGapDiscardsTheMessage := by
  unfold Obligations.MessageGapDiscardsTheMessage
  refine fun s hr => ⟨fun ht hp => (perform_running hr).trans ?_, fun h => (perform_running hr).trans ?_⟩
  · rw [messageGapRunsOut_expired ht hp]
    rfl
  · rw [messageGapRunsOut_waits h]

/-! ### A whole message (R143, R144) -/

section

variable {m : Message} {check : Word16} {s : State}

theorem judgeMessage_wrongCheck (h : crc16 (coveredBytes m) ≠ check) : judgeMessage m check s =
    (s.modifyLink huntMessage).countLink fun c => { c with crcErrors := satInc c.crcErrors } := if_neg h

theorem judgeMessage_good (h : crc16 (coveredBytes m) = check) : judgeMessage m check s =
    passMessage m ((s.modifyLink huntMessage).countLink fun c => { c with received := satInc c.received }) :=
  if_pos h

theorem passMessage_joins (hk : m.kind ≠ 0x0A) (h : s.link.inbox.length < 4) :
    passMessage m s = s.modifyLink fun k => { k with inbox := k.inbox ++ [m] } :=
  (if_neg hk).trans (if_pos h)

theorem passMessage_full (hk : m.kind ≠ 0x0A) (h : 4 ≤ s.link.inbox.length) :
    passMessage m s = refuseMessage m s :=
  (if_neg hk).trans (if_neg (Nat.not_lt.2 h))

/-- The inbox being full, BUSY is answered when the link is ATTACHED, or to a HELLO, and there is room (R144). -/
theorem refuseMessage_eq (m : Message) (s : State) : refuseMessage m s =
    if (s.link.linkState = .attached ∨ m.kind = 0x10) ∧ s.link.responses.length < 6 then
      queueResponse (statusOnly m .busy) (s.countLink fun c => { c with busy := satInc c.busy })
    else s.countLink fun c => { c with dropped := satInc c.dropped } := by
  have hheard : ¬ (s.link.linkState = .detached ∧ m.kind ≠ kindHello) ↔
      s.link.linkState = .attached ∨ m.kind = 0x10 := by
    cases s.link.linkState <;> simp [kindHello]
  unfold refuseMessage
  by_cases hd : s.link.linkState = .detached ∧ m.kind ≠ kindHello
  · rw [if_pos hd, if_neg fun h => hheard.2 h.1 hd]
  · rw [if_neg hd]
    exact if_congr (and_iff_right (hheard.1 hd)).symm rfl rfl

end

/-- A message that its length byte can announce is judged; HLRX has been high (R139, R140, log 16). -/
theorem takeReceivedMessage_fits {r : ReceivedMessage} (h : r.payload.length ≤ 238) (s : State) :
    takeReceivedMessage r s = judgeMessage ⟨r.kind, r.tag, r.payload⟩ r.check (endHighWait s) :=
  if_pos (decide_eq_true h)

/-- Settles O8: the check value, the inbox, and then the link's state and the response queue decide. -/
theorem messageReceivedIsJudged : Obligations.MessageReceivedIsJudged := by
  unfold Obligations.MessageReceivedIsJudged
  have run {r : ReceivedMessage} {s : State} (hr : s.resetHeld = false) (hlength : r.payload.length ≤ 238) :
      exec (.messageReceived r) s =
        .next (outbound (judgeMessage ⟨r.kind, r.tag, r.payload⟩ r.check (endHighWait s))) :=
    (perform_running hr).trans (by rw [takeReceivedMessage_fits hlength])
  refine ⟨fun r s hr hlength hk => ⟨fun hcheck => ?_, fun hcheck hroom => ?_⟩, fun r s hr hlength hk hcheck hfull => ?_⟩
  · rw [run hr hlength, judgeMessage_wrongCheck hcheck]
    rfl
  · rw [run hr hlength, judgeMessage_good hcheck, passMessage_joins]
    exacts [rfl, hk, hroom]
  · rw [run hr hlength, judgeMessage_good hcheck, passMessage_full, refuseMessage_eq]
    exacts [rfl, hk, hfull]

/-! ### A byte by the phase of the receiver (R141) -/

section

variable {x : Byte} {b : SampledByte} {s : State}

/-- The receiver in this phase, with so many bytes expected and these taken, its gap timer started (R141, R142). -/
def receiving (phase : MsgPhase) (expected : Nat) (taken : List Byte) (s : State) : State :=
  { s with link := { s.link with
    rxPhase := phase, rxExpected := expected, rxTaken := taken, rxWaitHigh := false, gapTimer := .running 5 } }

theorem takeSampledByte_waits (hw : s.link.rxWaitHigh = true) (hb : .high ∉ b.before) : takeSampledByte b s = s :=
  if_pos ⟨hw, hb⟩

/-- The input has been high: the samples end a byte, a framing error, or nothing (R139). -/
theorem takeSampledByte_looks (h : s.link.rxWaitHigh = false ∨ .high ∈ b.before) : takeSampledByte b s =
    if b.bits.getLsbD 0 = false then
      if b.stop then takeByte b.byte (endHighWait s) else takeFramingError (endHighWait s)
    else endHighWait s := by
  have hn : ¬ (s.link.rxWaitHigh = true ∧ .high ∉ b.before) := by
    rintro ⟨hw, hb⟩
    exact h.elim (fun hf => Bool.noConfusion (hw.symm.trans hf)) hb
  unfold takeSampledByte
  rw [if_neg hn]
  exact if_congr (by simp [SampledByte.wellFormed]) rfl rfl

theorem takeFramingError_eq (s : State) : takeFramingError s = { s with link := { s.link with
    counters := { s.link.counters with framingErrors := satInc s.link.counters.framingErrors }
    rxPhase := .hunt, rxWaitHigh := true
    rxExpected := if s.link.rxPhase = .hunt then s.link.rxExpected else 0
    rxTaken := if s.link.rxPhase = .hunt then s.link.rxTaken else []
    gapTimer := if s.link.rxPhase = .hunt then s.link.gapTimer else .stopped } } := by
  obtain ⟨_, _, _, _, _, _, _, _, link, _, _, _⟩ := s
  obtain ⟨_, phase, _, _, _, _, _, _, _, _, _, _⟩ := link
  cases phase <;> rfl

theorem takeByte_hunt (hp : s.link.rxPhase = .hunt) : takeByte x (endHighWait s) =
    if x = 0x5A then receiving .length 1 [] s else endHighWait s := by
  unfold takeByte
  simp only [endHighWait, modifyLink_link, hp]
  rfl

theorem takeByte_length (hp : s.link.rxPhase = .length) : takeByte x (endHighWait s) =
    if 2 ≤ x.toNat ∧ x.toNat ≤ 240 then receiving .body x.toNat (s.link.rxTaken ++ [x]) s
    else ((endHighWait s).modifyLink huntMessage).countLink fun c =>
      { c with lengthErrors := satInc c.lengthErrors } := by
  unfold takeByte
  simp only [endHighWait, modifyLink_link, hp]
  rfl

theorem takeByte_body (hp : s.link.rxPhase = .body) : takeByte x (endHighWait s) =
    receiving (if s.link.rxExpected ≤ 1 then .check else .body)
      (if s.link.rxExpected ≤ 1 then 2 else s.link.rxExpected - 1) (s.link.rxTaken ++ [x]) s := by
  unfold takeByte
  simp only [endHighWait, modifyLink_link, hp]
  split <;> rfl

theorem takeByte_highCheck (hp : s.link.rxPhase = .check) (he : s.link.rxExpected = 2) :
    takeByte x (endHighWait s) = receiving .check 1 (s.link.rxTaken ++ [x]) s := by
  unfold takeByte
  simp only [endHighWait, modifyLink_link, hp, he]
  rfl

/-- The low check byte completes the message that the bytes before it spell. -/
theorem takeByte_lowCheck {length kind tag high : Byte} {payload : List Byte} (hp : s.link.rxPhase = .check)
    (he : s.link.rxExpected = 1) (ht : s.link.rxTaken = length :: kind :: tag :: (payload ++ [high])) :
    takeByte x (endHighWait s) = judgeMessage ⟨kind, tag, payload⟩ (word16Of high x) (endHighWait s) := by
  have hmessage : takenMessage s.link.rxTaken = ⟨kind, tag, payload⟩ := by
    rw [ht]
    simp [takenMessage]
  have hhigh : s.link.rxTaken.getLastD 0 = high := by
    rw [ht]
    exact List.getLastD_concat (l := length :: kind :: tag :: payload)
  unfold takeByte
  simp only [endHighWait, modifyLink_link, hp, he, hmessage, hhigh]
  rfl

end

/-- Settles O6: the wait for a high input and the samples of the byte first, then the phase of the receiver. -/
theorem byteReceivedByPhase : Obligations.ByteReceivedByPhase := by
  unfold Obligations.ByteReceivedByPhase
  intro b s hr
  have run : exec (.byteReceived b) s = .next (outbound (takeSampledByte b s)) := perform_running hr
  have taken (h : s.link.rxWaitHigh = false ∨ .high ∈ b.before) (hstart : b.bits.getLsbD 0 = false)
      (hstop : b.stop = true) : takeSampledByte b s = takeByte b.byte (endHighWait s) := by
    rw [takeSampledByte_looks h, if_pos hstart, if_pos hstop]
  refine ⟨fun hw hb => ?waits, fun h hstart => ?noStart, fun h hstart => ⟨fun hstop => ?framing,
    fun hstop hp => ?hunt, fun hstop hp => ?length, fun hstop hp => ?body, fun hstop hp he => ?highCheck,
    fun length kind tag payload high hstop hp he hlength ht => ?lowCheck⟩⟩
  case waits => rw [run, takeSampledByte_waits hw hb]
  case noStart =>
    rw [run, takeSampledByte_looks h, if_neg (by rw [hstart]; decide)]
    rfl
  case framing =>
    rw [run, takeSampledByte_looks h, if_pos hstart, if_neg (by rw [hstop]; decide), takeFramingError_eq]
    rfl
  case hunt =>
    rw [run, taken h hstart hstop, takeByte_hunt hp]
    rfl
  case length =>
    rw [run, taken h hstart hstop, takeByte_length hp]
    rfl
  case body =>
    rw [run, taken h hstart hstop, takeByte_body hp]
    rfl
  case highCheck =>
    rw [run, taken h hstart hstop, takeByte_highCheck hp he, ← hp]
    rfl
  case lowCheck =>
    rw [run, taken h hstart hstop, takeByte_lowCheck hp he ht]
    exact ((perform_running hr).trans (by rw [takeReceivedMessage_fits hlength])).symm

end Sys2Proof.Machine
end

section
/-! SUPPORT. A message sent byte by byte (R139 to R141): the bytes leave the receiver in the phases of R141, open no
grant of the outbound arbiter, and end in the judgement of the whole message. -/

namespace Sys2Proof.Machine

open Sys2Proof

/-! ### No grant is open (R151) -/

/-- With the transmitter free a resend waits ahead of everything else (R151). -/
theorem outbound_resends {s : State} {x : Snapshot} (hfree : s.link.transmitter = none)
    (h : resendWaits s = some x) : outbound s = resendSnapshot x s := by
  unfold outbound
  rw [hfree, h]
  rfl

/-- Then the responses, and the new reports last (R151). -/
theorem outbound_noResend {s : State} (hfree : s.link.transmitter = none) (h : resendWaits s = none) :
    outbound s =
      if s.link.responses ≠ [] then grantResponse s else if reportWaits s then composeReport s else s := by
  unfold outbound
  rw [hfree, h]
  rfl

theorem grantResponse_cons {s : State} {m : Message} {rest : List Message} (h : s.link.responses = m :: rest) :
    grantResponse s = { s with link := { s.link with transmitter := some m, responses := rest } } := by
  unfold grantResponse
  rw [h]
  rfl

/-- The transmitter is busy, or no source of the outbound arbiter waits (R151). -/
def NoGrant (s : State) : Prop :=
  s.link.transmitter ≠ none ∨ resendWaits s = none ∧ s.link.responses = [] ∧ reportWaits s = false

theorem outbound_of_noGrant {s : State} (h : NoGrant s) : outbound s = s := by
  unfold outbound
  rcases h with hbusy | ⟨hresend, hresponses, hreport⟩
  · exact if_pos (Option.isSome_iff_ne_none.2 hbusy)
  · rw [hresend, hresponses, hreport]
    exact ite_self s

/-- Whatever is granted leaves a free transmitter busy, but for an entry without owner, which leaves the report queue:
a state that the arbiter leaves as it is has no grant open. -/
theorem noGrant_of_outbound {s : State} (h : outbound s = s) : NoGrant s := by
  rw [NoGrant, or_iff_not_imp_left, not_not]
  intro hfree
  have busy {t : State} (ht : outbound s = t) {m : Message} (hm : t.link.transmitter = some m) : False := by
    rw [← ht, h, hfree] at hm
    exact Option.some_ne_none m hm.symm
  cases hresend : resendWaits s with
  | some x => exact (busy (outbound_resends hfree hresend) rfl).elim
  | none =>
    have hout := outbound_noResend hfree hresend
    cases hresponses : s.link.responses with
    | cons m rest =>
      rw [if_pos (by rw [hresponses]; exact List.cons_ne_nil _ _), grantResponse_cons hresponses] at hout
      exact (busy hout rfl).elim
    | nil =>
      refine ⟨rfl, rfl, Bool.eq_false_iff.2 fun hreport => ?_⟩
      rw [if_neg (not_not.2 hresponses), if_pos hreport] at hout
      cases hqueue : s.delivery.queue with
      | nil => simp [reportWaits, hqueue] at hreport
      | cons r queue =>
        unfold composeReport at hout
        rw [hqueue] at hout
        dsimp only at hout
        split at hout
        · have hlost := congrArg (fun t => t.delivery.queue.length) (h.symm.trans hout)
          simp [hqueue] at hlost
        · exact busy hout rfl

/-- The arbiter reads nothing of the message receiver. -/
theorem outbound_receiving {s : State} (h : NoGrant s) (phase : MsgPhase) (expected : Nat) (taken : List Byte) :
    outbound (receiving phase expected taken s) = receiving phase expected taken s :=
  outbound_of_noGrant h

/-! ### A byte without noise (R139) -/

/-- The bits of the byte's samples: start bit 0, the data bits, stop bit 1. -/
theorem byteSamples_getLsbD (x : Byte) (k : Nat) : (byteSamples x).bits.getLsbD k =
    if k < 1 then (0#1).getLsbD k else if k < 9 then x.getLsbD (k - 1) else (1#1).getLsbD (k - 9) := by
  have hbits : (byteSamples x).bits = (1#1 ++ (x ++ 0#1) : BitVec (1 + (8 + 1))) := by
    simp [byteSamples, SampledByte.bits]
  rw [hbits, BitVec.getLsbD_append, BitVec.getLsbD_append]
  by_cases h1 : k < 1
  · simp [h1, show k < 9 by omega]
  · by_cases h9 : k < 9 <;> simp [h1, h9]

theorem byteSamples_start (x : Byte) : (byteSamples x).bits.getLsbD 0 = false := byteSamples_getLsbD x 0

theorem byteSamples_stop (x : Byte) : (byteSamples x).stop = true := byteSamples_getLsbD x 9

theorem byteSamples_byte (x : Byte) : (byteSamples x).byte = x := by
  refine BitVec.eq_of_getLsbD_eq fun i hi => ?_
  rw [SampledByte.byte, BitVec.getLsbD_extractLsb', byteSamples_getLsbD, if_neg (by omega), if_pos (by omega),
    Nat.add_sub_cancel_left, decide_eq_true hi, Bool.true_and]

theorem takeSampledByte_byteSamples (x : Byte) (s : State) :
    takeSampledByte (byteSamples x) s = takeByte x (endHighWait s) := by
  rw [takeSampledByte_looks (.inr (List.mem_singleton.2 rfl)), if_pos (byteSamples_start x),
    if_pos (byteSamples_stop x), byteSamples_byte]

/-! ### The bytes of a message, one after the other (R141) -/

section

variable {s : State} (hr : s.resetHeld = false)
include hr

theorem sendBytes_cons {x : Byte} {t : State} (h : outbound (takeByte x (endHighWait s)) = t) (rest : List Byte) :
    sendBytes (x :: rest) s = sendBytes rest t := by
  have he : exec (.byteReceived (byteSamples x)) s = .next t :=
    (perform_running hr).trans (by rw [takeSampledByte_byteSamples, h])
  rw [sendBytes, he]

theorem sendBytes_sync (hg : NoGrant s) (hp : s.link.rxPhase = .hunt) (rest : List Byte) :
    sendBytes (0x5A :: rest) s = sendBytes rest (receiving .length 1 [] s) :=
  sendBytes_cons hr (by rw [takeByte_hunt hp, if_pos rfl, outbound_receiving hg]) rest

theorem sendBytes_length (hg : NoGrant s) {x : Byte} (hx : 2 ≤ x.toNat ∧ x.toNat ≤ 240) (rest : List Byte) :
    sendBytes (x :: rest) (receiving .length 1 [] s) = sendBytes rest (receiving .body x.toNat [x] s) :=
  sendBytes_cons (s := receiving .length 1 [] s) hr
    (by rw [takeByte_length rfl, if_pos hx]; exact outbound_receiving hg _ _ _) rest

/-- The body up to its last byte, as many bytes as are expected. -/
theorem sendBytes_body (hg : NoGrant s) {body : List Byte} (hbody : body ≠ []) (taken rest : List Byte) :
    sendBytes (body ++ rest) (receiving .body body.length taken s) =
      sendBytes rest (receiving .check 2 (taken ++ body) s) := by
  induction body generalizing taken with
  | nil => exact absurd rfl hbody
  | cons x body ih =>
    have hnext (phase : MsgPhase) (expected : Nat)
        (h : (if (x :: body).length ≤ 1 then MsgPhase.check else .body) = phase ∧
          (if (x :: body).length ≤ 1 then 2 else (x :: body).length - 1) = expected) :
        sendBytes (x :: (body ++ rest)) (receiving .body (x :: body).length taken s) =
          sendBytes (body ++ rest) (receiving phase expected (taken ++ [x]) s) := by
      obtain ⟨rfl, rfl⟩ := h
      exact sendBytes_cons (s := receiving .body (x :: body).length taken s) hr
        (by rw [takeByte_body rfl]; exact outbound_receiving hg _ _ _) _
    rw [List.cons_append]
    cases body with
    | nil => exact hnext .check 2 ⟨rfl, rfl⟩
    | cons y body =>
      rw [hnext .body (y :: body).length ⟨if_neg (by simp), if_neg (by simp)⟩, ih (List.cons_ne_nil _ _),
        List.append_assoc]
      rfl

theorem sendBytes_highCheck (hg : NoGrant s) (x : Byte) (taken rest : List Byte) :
    sendBytes (x :: rest) (receiving .check 2 taken s) = sendBytes rest (receiving .check 1 (taken ++ [x]) s) :=
  sendBytes_cons (s := receiving .check 2 taken s) hr
    (by rw [takeByte_highCheck rfl rfl]; exact outbound_receiving hg _ _ _) rest

/-- The low check byte brings the judgement, in which nothing is left of the bytes taken (R141, R143). -/
theorem sendBytes_lowCheck (length kind tag high low : Byte) (payload : List Byte) :
    sendBytes [low] (receiving .check 1 (length :: kind :: tag :: (payload ++ [high])) s) =
      .next (outbound (judgeMessage ⟨kind, tag, payload⟩ (word16Of high low) (endHighWait s))) :=
  sendBytes_cons (s := receiving .check 1 (length :: kind :: tag :: (payload ++ [high])) s) hr
    (by rw [takeByte_lowCheck rfl rfl rfl]; rfl) []

end

/-- The check bytes, most significant first, are the check value (1.6). -/
theorem word16Of_be16 (w : Word16) : word16Of (w.extractLsb' 8 8) (w.extractLsb' 0 8) = w := field16_be16 w []

/-- Settles O7: sync, length, kind, tag and payload, and the two check bytes, each in its phase. -/
theorem bytesOfAMessageActAsTheMessage : Obligations.BytesOfAMessageActAsTheMessage := by
  unfold Obligations.BytesOfAMessageActAsTheMessage
  intro m s hr hp hlength hout
  have hg := noGrant_of_outbound hout
  have hbyte : (byteOf (m.payload.length + 2)).toNat = (m.kind :: m.tag :: m.payload).length :=
    toNat_byteOf (by omega)
  have hrange : 2 ≤ (byteOf (m.payload.length + 2)).toNat ∧ (byteOf (m.payload.length + 2)).toNat ≤ 240 := by
    rw [hbyte, List.length_cons, List.length_cons]
    omega
  have hbytes : messageBytes m = 0x5A :: byteOf (m.payload.length + 2) :: ((m.kind :: m.tag :: m.payload) ++
      [(crc16 (coveredBytes m)).extractLsb' 8 8, (crc16 (coveredBytes m)).extractLsb' 0 8]) := rfl
  rw [hbytes, sendBytes_sync hr hg hp, sendBytes_length hr hg hrange, hbyte,
    sendBytes_body hr hg (List.cons_ne_nil _ _), sendBytes_highCheck hr hg]
  refine (sendBytes_lowCheck hr _ m.kind m.tag _ _ m.payload).trans ?_
  rw [word16Of_be16]
  exact ((perform_running hr).trans (by rw [takeReceivedMessage_fits hlength])).symm

end Sys2Proof.Machine
end

section
/-! SUPPORT. The outbound arbiter's resends and responses (R151, R152), and the level on HLTX (R139). -/

namespace Sys2Proof.Machine

open Sys2Proof

/-! ### The grants (R151, R152) -/

section

variable {s : State}

/-- No resend waits in DETACHED, nor without a marked snapshot (R151). -/
theorem resendWaits_none (h : s.link.linkState = .detached ∨ ∀ x ∈ s.delivery.window, x.resendMark = false) :
    resendWaits s = none := by
  unfold resendWaits
  rcases h with h | h
  · exact if_neg (by rw [h]; decide)
  · refine ite_eq_right_iff.2 fun _ => List.find?_eq_none.2 fun x hx => ?_
    rw [h x hx]
    exact Bool.false_ne_true

theorem oldestMarked_append {older newer : List Snapshot} {x : Snapshot} (hx : x.resendMark = true)
    (ho : ∀ y ∈ older, y.resendMark = false) : oldestMarked (older ++ x :: newer) = some x := by
  unfold oldestMarked
  rw [List.find?_append, List.find?_eq_none.2 fun y hy => by rw [ho y hy]; exact Bool.false_ne_true]
  exact List.find?_cons_of_pos hx

theorem clearOldestMark_append {older newer : List Snapshot} {x : Snapshot} (hx : x.resendMark = true)
    (ho : ∀ y ∈ older, y.resendMark = false) :
    clearOldestMark (older ++ x :: newer) = older ++ { x with resendMark := false } :: newer := by
  induction older with
  | nil => exact if_pos hx
  | cons y older ih =>
    rw [List.cons_append, clearOldestMark, ho y List.mem_cons_self, if_neg Bool.false_ne_true,
      ih fun z hz => ho z (List.mem_cons_of_mem _ hz)]
    rfl

theorem outbound_responds {m : Message} {rest : List Message} (hfree : s.link.transmitter = none)
    (hresend : resendWaits s = none) (h : s.link.responses = m :: rest) :
    outbound s = { s with link := { s.link with transmitter := some m, responses := rest } } := by
  rw [outbound_noResend hfree hresend, if_pos (by rw [h]; exact List.cons_ne_nil _ _), grantResponse_cons h]

/-- No new report may be granted in DETACHED, with a full window, or without a request (R151). -/
theorem reportWaits_false
    (h : s.link.linkState = .detached ∨ 4 ≤ s.delivery.window.length ∨ s.delivery.queue = []) :
    reportWaits s = false := by
  unfold reportWaits
  rcases h with h | h | h
  · simp [h]
  · simp [Config.windowSize, Nat.not_lt.2 h]
  · simp [h]

end

/-! ### The level on HLTX (R139) -/

/-- The level of bit `bit` of byte `i`, ten bit times to a byte. -/
theorem hostOutput_bit {m : Message} {i bit : Nat} {x : Byte} (hx : (messageBytes m)[i]? = some x) (hbit : bit ≤ 9) :
    hostOutput (some m) (10 * i + bit) = hostBitLevel x bit := by
  have hplace : (10 * i + bit) / 10 = i ∧ (10 * i + bit) % 10 = bit := by omega
  unfold hostOutput
  dsimp only
  rw [hplace.1, hplace.2, hx]

theorem hostOutput_sent {m : Message} {bitTime : Nat} (h : 10 * (messageBytes m).length ≤ bitTime) :
    hostOutput (some m) bitTime = .high := by
  have hnone : (messageBytes m)[bitTime / 10]? = none := List.getElem?_eq_none (by omega)
  unfold hostOutput
  dsimp only
  rw [hnone]

theorem hostBitLevel_eq {x : Byte} {bit : Nat} (h : bit ≤ 9) : hostBitLevel x bit =
    if bit = 0 then .low else if bit = 9 ∨ x.getLsbD (bit - 1) = true then .high else .low := by
  unfold hostBitLevel
  by_cases h9 : bit = 9
  · subst h9
    rfl
  · simp only [show bit ≤ 8 by omega, if_true, h9, false_or]

/-- Settles O13: the sources of the arbiter in their order, and the level by the bit of the byte under way. -/
theorem transmitterGrantsResendsThenResponses : Obligations.TransmitterGrantsResendsThenResponses := by
  unfold Obligations.TransmitterGrantsResendsThenResponses
  refine ⟨fun s hr => perform_running hr, fun s => ⟨fun hbusy => outbound_of_noGrant (.inl hbusy),
    fun older x newer hfree hattached hwindow hx ho => ?resend,
    fun m rest hfree hmarks hresponses => outbound_responds hfree (resendWaits_none hmarks) hresponses,
    fun hfree hmarks hresponses hreports =>
      outbound_of_noGrant (.inr ⟨resendWaits_none hmarks, hresponses, reportWaits_false hreports⟩)⟩,
    fun _ => rfl, fun m i x bit hx hbit => ?bit, fun m bitTime => hostOutput_sent⟩
  case resend =>
    have hwaits : resendWaits s = some x := by
      unfold resendWaits
      rw [if_pos hattached, hwindow, oldestMarked_append hx ho]
    rw [outbound_resends hfree hwaits, ← clearOldestMark_append hx ho, ← hwindow]
    rfl
  case bit => rw [hostOutput_bit hx hbit, hostBitLevel_eq hbit]

end Sys2Proof.Machine
end

section
/-! SUPPORT. The request processor: the checks that answer without execution (R146), and the end of an executed request
(R147, R148). -/

namespace Sys2Proof.Machine

open Sys2Proof

/-! ### The message a command takes (R145) -/

/-- A request's command takes a message of its kind, and UNKNOWN_REQUEST one of a kind the part does not know. -/
theorem exec_takesMessage {c : Instr} {m : Message}
    (h : requestKindOf c = some m.kind ∨ (c = .unknownRequest ∧ m.kind ∉ requestKinds)) :
    ∃ accepts run, accepts m.kind = true ∧ ∀ s, exec c s = perform (takeRequest accepts run) s := by
  rcases h with h | ⟨rfl, hk⟩
  · obtain ⟨run, he⟩ := exec_of_requestKind h
    exact ⟨(· == m.kind), run, beq_self_eq_true m.kind, he⟩
  · exact ⟨_, _, decide_eq_true hk, fun _ => rfl⟩

theorem requestKindOf_mem {c : Instr} {k : Byte} (h : requestKindOf c = some k) : k ∈ requestKinds := by
  cases c <;> first
    | exact absurd h (Option.some_ne_none k).symm
    | (obtain rfl := Option.some.inj h; decide)

theorem takeRequest_judges {accepts : Byte → Bool} {run : Service} {s : State} {m : Message} {rest : List Message}
    (hhead : s.link.inbox = m :: rest) (hroom : s.link.responses.length ≤ 4) (ha : accepts m.kind = true) :
    takeRequest accepts run s = judgeRequest run m (headTaken s rest) := by
  unfold takeRequest
  rw [hhead]
  exact if_pos ⟨ha, hroom⟩

theorem responseKind_request {kind : Byte} (h : kind ∈ requestKinds) : responseKind kind = kind + 0x80 := if_pos h

theorem responseKind_unknown {kind : Byte} (h : kind ∉ requestKinds) : responseKind kind = 0xFF := if_neg h

/-! ### The checks ahead of execution (R146) -/

section

variable {run : Service} {m : Message} {s : State}

theorem judgeRequest_notAttached (hl : s.link.linkState = .detached) (hk : m.kind ≠ 0x10) :
    judgeRequest run m s = queueResponse (statusOnly m .notAttached) s := if_pos ⟨hl, hk⟩

/-- Tags are distinct in the cache up to the entry, so that it is the one the tag finds. -/
theorem cacheHit_append {older newer : List CacheEntry} {e : CacheEntry} (h0 : m.tag ≠ 0) (ht : e.tag = m.tag)
    (hk : e.kind = m.kind) (ho : ∀ x ∈ older, x.tag ≠ m.tag) : cacheHit m (older ++ e :: newer) = some e := by
  have holder : older.find? (fun x => x.tag == m.tag && x.kind == m.kind) = none :=
    List.find?_eq_none.2 fun x hx => by simp [ho x hx]
  have hentry : (e.tag == m.tag && e.kind == m.kind) = true := by simp [ht, hk]
  unfold cacheHit
  rw [if_neg h0, List.find?_append, holder, Option.none_or, List.find?_cons]
  simp only [hentry]

theorem judgeRequest_cached {e : CacheEntry} (ha : s.link.linkState = .attached ∨ m.kind = 0x10)
    (he : cacheHit m s.link.cache = some e) : judgeRequest run m s =
      queueResponse e.response (s.countLink fun c => { c with duplicates := satInc c.duplicates }) := by
  have hn : ¬ (s.link.linkState = .detached ∧ m.kind ≠ kindHello) := by
    rintro ⟨hl, hk⟩
    exact ha.elim (fun h => LinkState.noConfusion (hl.symm.trans h)) hk
  unfold judgeRequest
  rw [if_neg hn, he]

end

/-- Settles O16: the first check that applies answers; the lengths are those of `lengthAllowed`. -/
theorem checksAnswerWithoutExecution : Obligations.ChecksAnswerWithoutExecution := by
  unfold Obligations.ChecksAnswerWithoutExecution
  refine ⟨fun c s m rest hr hhead hroom hc => ?_, fun p => ⟨beq_iff_eq, beq_iff_eq, beq_iff_eq, beq_iff_eq, beq_iff_eq,
    beq_iff_eq, beq_iff_eq, beq_iff_eq, beq_iff_eq, beq_iff_eq, beq_iff_eq, beq_iff_eq, beq_iff_eq, beq_iff_eq,
    (Bool.and_eq_true _ _).to_iff.trans (and_congr decide_eq_true_iff beq_iff_eq), beq_iff_eq, beq_iff_eq⟩⟩
  obtain ⟨accepts, run, ha, he⟩ := exec_takesMessage hc
  have judged : exec c s = .next (outbound (judgeRequest run m (headTaken s rest))) := by
    rw [he, perform_running hr, takeRequest_judges hhead hroom ha]
  refine ⟨fun hl hk => ?notAttached, fun older e newer hl h0 hcache ht hkind ho => ?cached,
    fun hready hk hlength => ?badLength, fun hready hunknown => ?unknownKind⟩
  case notAttached =>
    rw [judged, judgeRequest_notAttached (s := headTaken s rest) hl hk]
    rfl
  case cached =>
    rw [judged, judgeRequest_cached (s := headTaken s rest) hl (hcache ▸ cacheHit_append h0 ht hkind ho)]
    rfl
  case badLength =>
    have hin := requestKindOf_mem hk
    rw [he, perform_running hr, takeRequest_ready hready ha, if_neg (not_not.2 hin), hlength,
      if_neg Bool.false_ne_true, ← responseKind_request hin]
    rfl
  case unknownKind =>
    have hout : m.kind ∉ requestKinds := by
      rcases hc with hk | ⟨-, hout⟩
      · rw [hunknown] at hk
        exact absurd hk (Option.some_ne_none _).symm
      · exact hout
    rw [he, perform_running hr, takeRequest_ready hready ha, if_pos hout, ← responseKind_unknown hout]
    rfl

/-! ### The response cache (R148) -/

section

variable {e : CacheEntry} {cache : List CacheEntry}

theorem enterCache_room (h : (cache.filter fun x => x.tag ≠ e.tag).length < 8) :
    enterCache e cache = (cache.filter fun x => x.tag ≠ e.tag) ++ [e] := by
  unfold enterCache
  dsimp only
  rw [if_neg (Nat.ne_of_lt h)]

theorem filter_tag_self (h : ∀ x ∈ cache, x.tag ≠ e.tag) : cache.filter (fun x => x.tag ≠ e.tag) = cache :=
  List.filter_eq_self.2 fun x hx => decide_eq_true (h x hx)

/-- The new entry takes the place of the one of its tag. -/
theorem enterCache_replaces {older newer : List CacheEntry} {old : CacheEntry} (hcache : cache = older ++ old :: newer)
    (htag : old.tag = e.tag) (hn : (cache.map (·.tag)).Nodup) (hl : cache.length ≤ 8) :
    enterCache e cache = older ++ newer ++ [e] := by
  have hothers : cache.filter (fun x => x.tag ≠ e.tag) = older ++ newer := by
    rw [hcache, List.map_append, List.map_cons, List.nodup_middle, List.nodup_cons, htag, ← List.map_append] at hn
    have hne : ∀ x ∈ older ++ newer, x.tag ≠ e.tag := fun x hx heq =>
      hn.1 (List.mem_map.2 ⟨x, hx, heq⟩)
    rw [hcache, List.filter_append, List.filter_cons_of_neg (by simp [htag]), ← List.filter_append, filter_tag_self hne]
  rw [enterCache_room, hothers]
  rw [hothers]
  rw [hcache, List.length_append, List.length_cons] at hl
  rw [List.length_append]
  omega

/-- With 8 entries of other tags the oldest goes. -/
theorem enterCache_evicts {oldest : CacheEntry} {newer : List CacheEntry} (hcache : cache = oldest :: newer)
    (hl : newer.length = 7) (h : ∀ x ∈ cache, x.tag ≠ e.tag) : enterCache e cache = newer ++ [e] := by
  unfold enterCache
  dsimp only
  rw [filter_tag_self h, hcache, if_pos (by rw [List.length_cons, hl]), List.tail_cons]

theorem enterCache_joins (hl : cache.length < 8) (h : ∀ x ∈ cache, x.tag ≠ e.tag) :
    enterCache e cache = cache ++ [e] := by
  rw [enterCache_room, filter_tag_self h]
  rwa [filter_tag_self h]

end

/-- Settles O17: the cache is that of `enterCache`, by the entries it holds. -/
theorem executedRequestIsAnsweredAndCached : Obligations.ExecutedRequestIsAnsweredAndCached := by
  unfold Obligations.ExecutedRequestIsAnsweredAndCached
  intro m content s hk
  rw [← responseKind_request hk]
  refine ⟨if m.tag = 0 then s.link.cache else
    enterCache ⟨m.tag, m.kind, ⟨responseKind m.kind, m.tag, content⟩⟩ s.link.cache, ?_, fun h0 => if_pos h0,
    fun h0 hn => ?_⟩
  · unfold completeRequest State.modifyLink
    dsimp only
    split <;> rfl
  · rw [if_neg h0]
    exact ⟨fun older e newer hcache htag hl => enterCache_replaces hcache htag hn hl,
      fun oldest newer hcache hl hne => enterCache_evicts hcache hl hne, fun hl hne => enterCache_joins hl hne⟩

end Sys2Proof.Machine
end

section
/-! SUPPORT. HELLO hands the report window back by R169's table and attaches the link (R154). -/

namespace Sys2Proof.Machine

open Sys2Proof

/-! ### The requests that a discarded window settles (R169) -/

theorem keepFirst_sublist (xs : List ReportRequest) : (keepFirst xs).Sublist xs := by
  induction xs with
  | nil => exact List.Sublist.refl _
  | cons r rest ih => exact (List.filter_sublist.trans ih).cons_cons r

theorem keepFirst_filter (p : ReportRequest → Bool) (xs : List ReportRequest) :
    keepFirst (xs.filter p) = (keepFirst xs).filter p := by
  induction xs with
  | nil => rfl
  | cons r rest ih =>
    rw [keepFirst]
    by_cases hr : p r = true
    · rw [List.filter_cons_of_pos hr, List.filter_cons_of_pos hr, keepFirst, ih, List.filter_filter, List.filter_filter]
      simp only [Bool.and_comm]
    · rw [List.filter_cons_of_neg hr, List.filter_cons_of_neg hr, ih, List.filter_filter]
      refine List.filter_congr fun q _ => ?_
      by_cases hq : q = r
      · simp [hq, hr]
      · simp [hq]

/-- A request stands at the place where it stands first. -/
theorem keepFirst_ordered (xs : List ReportRequest) :
    (keepFirst xs).Pairwise fun p q => xs.idxOf p < xs.idxOf q := by
  induction xs with
  | nil => exact List.Pairwise.nil
  | cons r rest ih =>
    have hlater {q : ReportRequest} (hq : q ∈ (keepFirst rest).filter (· ≠ r)) :
        (r :: rest).idxOf q = rest.idxOf q + 1 :=
      List.idxOf_cons_ne _ (of_decide_eq_true (List.mem_filter.1 hq).2).symm
    refine List.pairwise_cons.2 ⟨fun q hq => ?_, (ih.filter _).imp_of_mem fun hp hq h => ?_⟩
    · rw [hlater hq, List.idxOf_cons_self]
      exact Nat.succ_pos _
    · rw [hlater hp, hlater hq]
      exact Nat.succ_lt_succ h

/-- What R169's table settles: a transaction and a line always, a node that is still declared, and a subscription that
is still open, whose SAMPLE_READY needs a notice. -/
def Settled (s : State) (r : ReportRequest) : Prop :=
  match r with
  | .txnDone _ | .lineState _ => True
  | .nodeState l address uid => ∃ n ∈ (s.line l).nodes, n.address = address ∧ n.uid = uid
  | .subState id uid => ∃ q ∈ s.subs, q.id = id ∧ q.uid = uid ∧ q.state ≠ .closing
  | .sampleReady id uid =>
    ∃ q ∈ s.subs, q.id = id ∧ q.uid = uid ∧ q.state ≠ .closing ∧ q.notice ≠ .none

theorem isOpen_iff {q : SubRecord} : q.isOpen = true ↔ q.state ≠ .closing := bne_iff_ne

/-- A test of the record that an id and uid find (R62). -/
theorem findSubRecord_any {s : State} (hn : (s.subs.map (·.id)).Nodup) (id uid : Nat) (test : SubRecord → Bool) :
    (findSubRecord s id uid).any test = true ↔ ∃ q ∈ s.subs, q.id = id ∧ q.uid = uid ∧ test q = true := by
  rw [Option.any_eq_true]
  constructor
  · rintro ⟨q, hf, ht⟩
    obtain ⟨hq, hid, huid⟩ := findSubRecord_mem hf
    exact ⟨q, hq, hid, huid, ht⟩
  · rintro ⟨q, hq, rfl, rfl, ht⟩
    exact ⟨q, findSubRecord_of_mem hn hq, ht⟩

theorem settles_iff {s : State} (hn : (s.subs.map (·.id)).Nodup) (r : ReportRequest) :
    settles s r = true ↔ Settled s r := by
  cases r with
  | txnDone _ => exact iff_of_true rfl trivial
  | lineState _ => exact iff_of_true rfl trivial
  | nodeState l address uid => simp [settles, Settled, findNodeRecord]
  | subState id uid =>
    have h : settles s (.subState id uid) = (findSubRecord s id uid).any SubRecord.isOpen := by
      unfold settles
      dsimp only
      cases findSubRecord s id uid <;> rfl
    rw [h, findSubRecord_any hn]
    simp only [isOpen_iff]
    rfl
  | sampleReady id uid =>
    have h : settles s (.sampleReady id uid) =
        (findSubRecord s id uid).any fun q => q.isOpen && q.notice != .none := by
      unfold settles
      dsimp only
      cases findSubRecord s id uid <;> rfl
    rw [h, findSubRecord_any hn]
    simp only [Bool.and_eq_true, isOpen_iff, bne_iff_ne]
    rfl

/-! ### The owners of the settled requests (R93, R105) -/

/-- A notice SENT is QUEUED again with its request (R93). -/
def requeuedSub (settled : List ReportRequest) (q : SubRecord) : SubRecord :=
  if .sampleReady q.id q.uid ∈ settled ∧ q.notice = .sent then { q with notice := .queued } else q

/-- A REPORTED record is DONE again with its request (R105). -/
def requeuedTxn (settled : List ReportRequest) (x : TxnRecord) : TxnRecord :=
  if .txnDone x.reference ∈ settled ∧ x.state = .reported then { x with state := .done } else x

/-- The owners of these requests have been told. -/
def requeued (settled : List ReportRequest) (s : State) : State :=
  { s with subs := s.subs.map (requeuedSub settled), txns := s.txns.map (requeuedTxn settled) }

theorem requeuedSub_nil : requeuedSub [] = id := funext fun _ => if_neg fun h => List.not_mem_nil h.1

theorem requeuedTxn_nil : requeuedTxn [] = id := funext fun _ => if_neg fun h => List.not_mem_nil h.1

theorem requeuedSub_cons (r : ReportRequest) (settled : List ReportRequest) (q : SubRecord) :
    requeuedSub settled (requeuedSub [r] q) = requeuedSub (r :: settled) q := by
  unfold requeuedSub
  by_cases hr : ReportRequest.sampleReady q.id q.uid = r
  · by_cases hs : q.notice = .sent <;> simp [hr, hs]
  · simp [hr]

theorem requeuedTxn_cons (r : ReportRequest) (settled : List ReportRequest) (x : TxnRecord) :
    requeuedTxn settled (requeuedTxn [r] x) = requeuedTxn (r :: settled) x := by
  unfold requeuedTxn
  by_cases hr : ReportRequest.txnDone x.reference = r
  · by_cases hs : x.state = .reported <;> simp [hr, hs]
  · simp [hr]

theorem requeued_nil (s : State) : requeued [] s = s := by
  rw [requeued, requeuedSub_nil, requeuedTxn_nil, List.map_id, List.map_id]

theorem requeued_cons (r : ReportRequest) (settled : List ReportRequest) (s : State) :
    requeued settled (requeued [r] s) = requeued (r :: settled) s := by
  unfold requeued
  simp only [List.map_map, Function.comp_def, requeuedSub_cons, requeuedTxn_cons]

theorem requeuedSub_other {r : ReportRequest} (h : ∀ id uid, r ≠ .sampleReady id uid) : requeuedSub [r] = id :=
  funext fun _ => if_neg fun hq => h _ _ (List.mem_singleton.1 hq.1).symm

theorem requeuedTxn_other {r : ReportRequest} (h : ∀ reference, r ≠ .txnDone reference) : requeuedTxn [r] = id :=
  funext fun _ => if_neg fun hx => h _ (List.mem_singleton.1 hx.1).symm

theorem requeuedSub_sampleReady (id uid : Nat) : requeuedSub [.sampleReady id uid] = fun q =>
    if q.id = id ∧ q.uid = uid then { q with notice := if q.notice = .sent then .queued else q.notice } else q := by
  funext q
  unfold requeuedSub
  by_cases hkey : q.id = id ∧ q.uid = uid
  · obtain ⟨rfl, rfl⟩ := hkey
    by_cases hs : q.notice = .sent <;> simp [hs]
  · simp [hkey]

theorem requeuedTxn_txnDone (reference : Word16) : requeuedTxn [.txnDone reference] = fun x =>
    if x.reference = reference then { x with state := if x.state = .reported then .done else x.state } else x := by
  funext x
  unfold requeuedTxn
  by_cases hkey : x.reference = reference
  · subst hkey
    by_cases hs : x.state = .reported <;> simp [hs]
  · simp [hkey]

theorem requeueOwner_eq (s : State) (r : ReportRequest) : requeueOwner s r = requeued [r] s := by
  unfold requeued
  cases r with
  | sampleReady id uid =>
    rw [requeuedSub_sampleReady, requeuedTxn_other fun _ => ReportRequest.noConfusion, List.map_id]
    rfl
  | txnDone reference =>
    rw [requeuedTxn_txnDone, requeuedSub_other fun _ _ => ReportRequest.noConfusion, List.map_id]
    rfl
  | _ =>
    rw [requeuedSub_other fun _ _ => ReportRequest.noConfusion, requeuedTxn_other fun _ => ReportRequest.noConfusion,
      List.map_id, List.map_id]
    rfl

theorem requeueOwners_eq (settled : List ReportRequest) (s : State) :
    settled.foldl requeueOwner s = requeued settled s := by
  induction settled generalizing s with
  | nil => exact (requeued_nil s).symm
  | cons r settled ih => rw [List.foldl_cons, ih, requeueOwner_eq, requeued_cons]

/-! ### HELLO (R154) -/

section

variable {s : State} {m : Message} {rest : List Message} {start high low : Byte}

theorem exec_hello (h : Ready s m rest) (hk : m.kind = 0x10) (hp : m.payload = [start, high, low]) :
    exec .hello s = .next (outbound (completeRequest m (runHello [start, high, low] (headTaken s rest)))) := by
  rw [← hp]
  exact takeKind_ready h hk (by decide) (beq_iff_eq.2 (hp ▸ rfl))

theorem runHello_attaches (h10 : 10 ≤ (high ++ low).toNat) (h1000 : (high ++ low).toNat ≤ 1000) :
    runHello [start, high, low] s = answerOk Config.identity (attachLink start (high ++ low).toNat s) :=
  if_pos ⟨h10, h1000⟩

theorem runHello_refuses (h : (high ++ low).toNat < 10 ∨ 1000 < (high ++ low).toNat) :
    runHello [start, high, low] s = refuseWith .badField s := by
  refine if_neg ?_
  rintro ⟨h10, h1000⟩
  exact h.elim (Nat.not_lt.2 h10) (Nat.not_lt.2 h1000)

theorem attachLink_eq (start : Byte) (timeout : Nat) (s : State) : attachLink start timeout s =
    { requeued (settledRequests s) s with
      link := { s.link with linkState := .attached, cache := [] }
      delivery := {
        queue := settledRequests s ++ s.delivery.queue.filter fun r => r ∉ settledRequests s
        window := [], nextSequence := start, ackTimer := .stopped, timeoutCount := 0, ackTimeout := timeout
        resendRunDue := false } } := by
  have hsettles : settles (s.modifyLink fun k => { k with linkState := .attached }) = settles s := by
    funext r
    cases r with
    | nodeState l _ _ => cases l <;> rfl
    | _ => rfl
  have hsettled : settledRequests (s.modifyLink fun k => { k with linkState := .attached }) = settledRequests s := by
    unfold settledRequests
    rw [hsettles]
    rfl
  unfold attachLink handBackWindow
  dsimp only
  rw [hsettled, requeueOwners_eq]
  rfl

end

/-- Settles O18: the settled requests are the first ones of the window that `Settled` holds of. -/
theorem helloAttachesTheLink : Obligations.HelloAttachesTheLink := by
  unfold Obligations.HelloAttachesTheLink
  intro s m rest start high low h hk hp
  refine ⟨fun h10 h1000 hn => ?_, fun hout => ?_⟩
  · refine ⟨settledRequests (headTaken s rest), attachLink start (high ++ low).toNat (headTaken s rest),
      keepFirst_nodup _, (keepFirst_sublist _).trans List.filter_sublist, fun r => ?_, ?_, ?_, ?_⟩
    · have hsettled : Settled (headTaken s rest) r ↔ Settled s r := by
        cases r with
        | nodeState l _ _ => rw [Settled, headTaken_line]; rfl
        | _ => exact Iff.rfl
      unfold settledRequests
      rw [keepFirst_mem, List.mem_filter, settles_iff (s := headTaken s rest) hn, hsettled, List.mem_map]
      exact Iff.rfl
    · unfold settledRequests
      rw [keepFirst_filter]
      exact (keepFirst_ordered _).filter _
    · rw [exec_hello h hk hp, runHello_attaches h10 h1000]
      rfl
    · rw [attachLink_eq]
      rfl
  · rw [exec_hello h hk hp, runHello_refuses hout]
    rfl

end Sys2Proof.Machine
end

section
/-! SUPPORT. RESTART puts every block at its start and lets a character under way go out (R138, R155). -/

namespace Sys2Proof.Machine

open Sys2Proof

/-! ### A line at RESTART (R41, R133, R138) -/

/-- The port of a line after RESTART (R41, R133, R138): a frame is cut after the character under way, and a break
ends. -/
def restartedPort (p : LinePort) : LinePort :=
  match p.tx with
  | .idle | .frame _ _ true => p
  | .frame chars position false =>
    { p with tx := .frame (chars.take (position / 176 + 1)) position true, echo := .none }
  | .sendingBreak _ _ => releasedPort p

/-- A line after RESTART: its counters and its port are left of what it was (R138, R155, R172). -/
def restartedLine (x : Line) : Line :=
  { Line.initial with counters := x.counters, port := restartedPort x.port }

theorem restartedPort_of_noBreak {p : LinePort} (h : ∀ jam left, p.tx ≠ .sendingBreak jam left) :
    restartedPort p = restartPort p ∧ ∀ jam left, (restartPort p).tx ≠ .sendingBreak jam left := by
  unfold restartedPort restartPort
  cases htx : p.tx with
  | idle => exact ⟨rfl, h⟩
  | frame chars position finishing =>
    cases finishing with
    | true => exact ⟨rfl, h⟩
    | false => exact ⟨rfl, fun _ _ => Transmitter.noConfusion⟩
  | sendingBreak jam left => exact absurd htx (h jam left)

theorem endBreak_noBreak {l : LineId} {s : State} (h : ∀ jam left, (s.line l).port.tx ≠ .sendingBreak jam left) :
    endBreak l s = s := by
  unfold endBreak
  split
  · exact absurd ‹_› (h _ _)
  all_goals rfl

theorem endBreak_sendsBreak {l : LineId} {s : State} {jam : Bool} {left : Nat}
    (h : (s.line l).port.tx = .sendingBreak jam left) : endBreak l s = releaseDriver l s := by
  unfold endBreak
  rw [h]

/-- No timer of the engine at its start runs, so that the release holds none (R133). -/
theorem endBreak_restartLine {l : LineId} {s : State} {x : Line} (h : s.line l = restartLine x) :
    endBreak l s = s.setLine l (restartedLine x) := by
  by_cases hbreak : ∃ jam left, x.port.tx = .sendingBreak jam left
  · obtain ⟨jam, left, htx⟩ := hbreak
    have hport : restartPort x.port = x.port := by
      unfold restartPort
      rw [htx]
    have hengine : releasedEngine x.port (restartLine x).engine = (restartLine x).engine :=
      releasedEngine_stopped rfl rfl rfl
    have hline : restartLine x = { restartLine x with port := x.port } := by
      rw [restartLine, hport]
    rw [endBreak_sendsBreak (jam := jam) (left := left) (by rw [h, hline]; exact htx), releaseDriver_eq,
      State.modifyLine, h, hline]
    dsimp only
    rw [hengine, restartedLine, restartedPort, htx]
    rfl
  · obtain ⟨hport, hother⟩ := restartedPort_of_noBreak fun jam left htx => hbreak ⟨jam, left, htx⟩
    have hline : restartedLine x = s.line l := by
      rw [h, restartedLine, hport]
      rfl
    rw [endBreak_noBreak (by rw [h]; exact hother), hline, setLine_line_self]

/-! ### The part at RESTART (R155) -/

/-- Every block at its start; the sequence, the acknowledgement timeout, the counters and the clock are kept (R155). -/
theorem restartAll_eq (u : State) : restartAll u = { u with
    lineA := restartedLine u.lineA, lineB := restartedLine u.lineB, subs := [], freeBlocks := 96, txns := []
    link := { u.link with cache := [] }
    delivery := { u.delivery with
      queue := [], window := [], ackTimer := .stopped, timeoutCount := 0, resendRunDue := false } } := by
  unfold restartAll
  rw [endBreak_restartLine (l := .a) (x := u.lineA) rfl, endBreak_restartLine (l := .b) (x := u.lineB) rfl]
  rfl

/-- The sample periods of a line do not touch the inbox. -/
theorem playPeriods_headTaken (l : LineId) (periods : Periods) (s : State) (rest : List Message) :
    playPeriods l periods (headTaken s rest) = headTaken (playPeriods l periods s) rest := by
  cases l <;> rfl

theorem exec_restart {s : State} {m : Message} {rest : List Message} (periodsA periodsB : Periods)
    (h : Ready s m rest) (hk : m.kind = 0x11) (hp : m.payload = []) : exec (.restart periodsA periodsB) s =
      .next (outbound (completeRequest m (answerOk []
        (restartAll (headTaken (playPeriods .b periodsB (playPeriods .a periodsA s)) rest))))) := by
  rw [← playPeriods_headTaken, ← playPeriods_headTaken]
  exact takeKind_ready h hk (by decide) (beq_iff_eq.2 (hp ▸ rfl))

/-- Settles O19: the blocks by `restartAll_eq`, and a port by what it sends. -/
theorem restartReturnsToTheStart : Obligations.RestartReturnsToTheStart := by
  unfold Obligations.RestartReturnsToTheStart
  rintro periodsA periodsB s u m rest h rfl hk hp
  generalize hu : playPeriods .b periodsB (playPeriods .a periodsA s) = u
  have hline (l : LineId) : (restartAll (headTaken u rest)).line l = restartedLine (u.line l) := by
    rw [restartAll_eq]
    cases l <;> rfl
  refine ⟨restartAll (headTaken u rest), hu ▸ exec_restart periodsA periodsB h hk hp, ?_, fun l => ?_⟩
  · rw [restartAll_eq, ← hu]
    rfl
  · rw [hline]
    refine ⟨rfl, fun htx => ?_, fun chars position htx => ?_, fun chars position htx => ?_, fun jam left htx => ?_⟩ <;>
      rw [restartedLine, restartedPort, htx]

end Sys2Proof.Machine
end

section
/-! SUPPORT. Reports: what each one says (R162, R179), and the composition of a new one with what its owner is told of
it (R161, R88, R104). -/

namespace Sys2Proof.Machine

open Sys2Proof

/-! ### Content (R162, R179) -/

/-- The result of a completed transaction is the byte of its code (R179). -/
theorem txnDoneContent_of_result {t : TxnRecord} {result : TxnResult} (h : t.result = some result) :
    txnDoneContent t = be16 t.reference ++ [lineCode t.line, byteOf t.node, txnKindCode t.kind, resultCode result,
      lastVerdictCode t.lastVerdict, byteOf t.attempts, refuseReasonCode t.refuseReason,
      byteOf (t.reply.getD []).length] ++ t.reply.getD [] := by
  unfold txnDoneContent
  rw [h]
  rfl

/-- Settles O15: the owner of each report is found in its table, and its content read from it. -/
theorem reportsCarryTheirOwner : Obligations.ReportsCarryTheirOwner := by
  unfold Obligations.ReportsCarryTheirOwner
  refine fun s => ⟨fun r hr hnodup => ⟨?ready, ?sub⟩, fun l n hn hnodup => ?node,
    fun t ht result hresult hnodup => ?txn, fun l => rfl⟩
  case ready =>
    rw [reportContent, findSubRecord_of_mem hnodup hr]
    rfl
  case sub =>
    rw [reportContent, findSubRecord_of_mem hnodup hr]
    rfl
  case node =>
    rw [reportContent, findNodeRecord_of_mem hnodup hn, Option.map_some, nodeStateContent]
    cases n.profile <;> rfl
  case txn =>
    rw [reportContent, findTxn_of_mem hnodup ht, Option.map_some, txnDoneContent_of_result hresult,
      List.append_assoc]

/-! ### The owner is told of the composition (R88, R104) -/

/-- A notice QUEUED becomes SENT with its SAMPLE_READY (R88). -/
def toldSub (r : ReportRequest) (q : SubRecord) : SubRecord :=
  if r = .sampleReady q.id q.uid ∧ q.notice = .queued then { q with notice := .sent } else q

/-- A DONE transaction becomes REPORTED with its TXN_DONE (R104). -/
def toldTxn (r : ReportRequest) (t : TxnRecord) : TxnRecord :=
  if r = .txnDone t.reference ∧ t.state = .done then { t with state := .reported } else t

theorem toldSub_sampleReady (id uid : Nat) (q : SubRecord) : toldSub (.sampleReady id uid) q =
    if q.id = id ∧ q.uid = uid then { q with notice := if q.notice = .queued then .sent else q.notice } else q := by
  have howner : ReportRequest.sampleReady id uid = .sampleReady q.id q.uid ↔ q.id = id ∧ q.uid = uid := by
    simp [eq_comm]
  by_cases hn : q.notice = .queued <;> simp [toldSub, howner, hn]

theorem toldTxn_txnDone (reference : Word16) (t : TxnRecord) : toldTxn (.txnDone reference) t =
    if t.reference = reference then { t with state := if t.state = .done then .reported else t.state } else t := by
  have howner : ReportRequest.txnDone reference = .txnDone t.reference ↔ t.reference = reference := by
    simp [eq_comm]
  by_cases hd : t.state = .done <;> simp [toldTxn, howner, hd]

theorem toldSub_other {r : ReportRequest} (h : ∀ id uid, r ≠ .sampleReady id uid) : toldSub r = id :=
  funext fun _ => if_neg fun hq => h _ _ hq.1

theorem toldTxn_other {r : ReportRequest} (h : ∀ reference, r ≠ .txnDone reference) : toldTxn r = id :=
  funext fun _ => if_neg fun ht => h _ ht.1

/-- The owner's record changes, and no other (R161 step 5). -/
theorem tellOwner_eq (r : ReportRequest) (s : State) :
    tellOwner r s = { s with subs := s.subs.map (toldSub r), txns := s.txns.map (toldTxn r) } := by
  cases r with
  | sampleReady id uid =>
    rw [toldTxn_other (fun _ => ReportRequest.noConfusion), List.map_id, funext (toldSub_sampleReady id uid)]
    rfl
  | txnDone reference =>
    rw [toldSub_other (fun _ _ => ReportRequest.noConfusion), List.map_id, funext (toldTxn_txnDone reference)]
    rfl
  | _ =>
    rw [toldSub_other (fun _ _ => ReportRequest.noConfusion), toldTxn_other (fun _ => ReportRequest.noConfusion),
      List.map_id, List.map_id]
    rfl

/-! ### The composition (R161) -/

section

variable {s : State} {r : ReportRequest} {rest : List ReportRequest} {content : List Byte}

/-- A new report waits while ATTACHED, with room in the window and an entry in the report queue (R151). -/
theorem reportWaits_true (ha : s.link.linkState = .attached) (hroom : s.delivery.window.length < 4)
    (hqueue : s.delivery.queue ≠ []) : reportWaits s = true := by
  simp [reportWaits, ha, hroom, hqueue]

/-- A new report is granted when neither a resend nor a response waits (R151). -/
theorem outbound_composes (hfree : s.link.transmitter = none) (hresend : resendWaits s = none)
    (hresponses : s.link.responses = []) (hreport : reportWaits s = true) : outbound s = composeReport s := by
  rw [outbound_noResend hfree hresend, if_neg (not_not.2 hresponses), if_pos hreport]

/-- The entry leaves the queue, its snapshot joins the window and is counted, the owner is told, and HLTX takes the
report (R161). -/
theorem composeReport_cons (hqueue : s.delivery.queue = r :: rest) (hcontent : reportContent r s = some content) :
    composeReport s = sendMessage ⟨reportKind r, s.delivery.nextSequence, content⟩ (tellOwner r
      ((s.modifyDelivery fun d => joinWindow r content { d with queue := rest }).countLink fun c =>
        { c with reportsSent := satInc c.reportsSent })) := by
  unfold composeReport
  rw [hqueue]
  dsimp only
  rw [reportContent_congr, hcontent]
  rfl

end

/-- Settles O14: the arbiter's grant, the composition, and what it tells the owner. -/
theorem outboundComposesNewReports : Obligations.OutboundComposesNewReports := by
  unfold Obligations.OutboundComposesNewReports
  intro s r rest content hfree hattached hmarks hresponses hroom hqueue hcontent
  have hwaits : reportWaits s = true := reportWaits_true hattached hroom (by rw [hqueue]; exact List.cons_ne_nil _ _)
  rw [outbound_composes hfree (resendWaits_none (.inr hmarks)) hresponses hwaits, composeReport_cons hqueue hcontent,
    tellOwner_eq]
  rfl

end Sys2Proof.Machine
end

section
/-! SUPPORT. Acknowledgement (R163 to R165) and timeout (R166, R168): what the window loses, and which transactions are
freed with it. -/

namespace Sys2Proof.Machine

open Sys2Proof

/-! ### The snapshot named (R164, R165) -/

section

variable {sequence : Byte} {older newer : List Snapshot} {named : Snapshot}

/-- The oldest snapshot of the number goes with all older ones (R164). -/
theorem ackSplit_named (hnamed : named.sequence = sequence) (holder : ∀ x ∈ older, x.sequence ≠ sequence) :
    ackSplit sequence (older ++ named :: newer) = some (older ++ [named], newer) := by
  induction older with
  | nil => exact if_pos hnamed
  | cons x older ih =>
    rw [List.cons_append, ackSplit, if_neg (holder x List.mem_cons_self),
      ih fun y hy => holder y (List.mem_cons_of_mem _ hy)]
    rfl

theorem ackSplit_stray {window : List Snapshot} (h : ∀ x ∈ window, x.sequence ≠ sequence) :
    ackSplit sequence window = none := by
  induction window with
  | nil => rfl
  | cons x window ih =>
    rw [ackSplit, if_neg (h x List.mem_cons_self), ih fun y hy => h y (List.mem_cons_of_mem _ hy)]
    rfl

/-! ### The transactions of the snapshots removed (R104, R164) -/

theorem releaseOwner_eq (s : State) (x : Snapshot) : releaseOwner s x =
    { s with txns := s.txns.filter fun t => x.request ≠ .txnDone t.reference } := by
  unfold releaseOwner
  cases x.request with
  | txnDone reference =>
    have hfreed (t : TxnRecord) :
        t.reference ≠ reference ↔ ReportRequest.txnDone reference ≠ .txnDone t.reference := by
      simp [eq_comm]
    simp only [freeTxn_eq, hfreed]
  | _ => simp

theorem releaseOwners_eq (removed : List Snapshot) (s : State) : removed.foldl releaseOwner s =
    { s with txns := s.txns.filter fun t => ∀ x ∈ removed, x.request ≠ .txnDone t.reference } := by
  induction removed generalizing s with
  | nil => simp
  | cons x removed ih =>
    rw [List.foldl_cons, ih, releaseOwner_eq, List.filter_filter]
    congr 1
    exact List.filter_congr fun t _ => by simp [Bool.and_comm]

/-! ### The acknowledgement (R164, R165) -/

variable {s : State}

theorem acknowledge_named (hattached : s.link.linkState = .attached)
    (hwindow : s.delivery.window = older ++ named :: newer) (hnamed : named.sequence = sequence)
    (holder : ∀ x ∈ older, x.sequence ≠ sequence) : acknowledge sequence s = { s with
      txns := s.txns.filter fun t => ∀ x ∈ older ++ [named], x.request ≠ .txnDone t.reference
      delivery := { s.delivery with
        window := newer, timeoutCount := 0
        ackTimer := if newer = [] then .stopped else .running s.delivery.ackTimeout } } := by
  unfold acknowledge
  rw [if_pos hattached, hwindow, ackSplit_named hnamed holder]
  dsimp only
  rw [releaseOwners_eq]
  rfl

theorem acknowledge_stray
    (h : s.link.linkState = .detached ∨ ∀ x ∈ s.delivery.window, x.sequence ≠ sequence) :
    acknowledge sequence s = s.countLink fun c => { c with strayAcks := satInc c.strayAcks } := by
  have hnone : (if s.link.linkState = .attached then ackSplit sequence s.delivery.window else none) = none := by
    rcases h with hd | hw
    · exact if_neg (by rw [hd]; decide)
    · rw [ackSplit_stray hw, ite_self]
  unfold acknowledge
  rw [hnone]

end

/-- The state as a message with a good check value is passed on: the receiver is in HUNT and the message counted (R141,
R143). -/
def messageCounted (s : State) : State :=
  ((endHighWait s).modifyLink huntMessage).countLink fun c => { c with received := satInc c.received }

theorem messageCounted_delivery (s : State) : (messageCounted s).delivery = s.delivery := rfl

theorem messageCounted_linkState (s : State) : (messageCounted s).link.linkState = s.link.linkState := rfl

section

variable {sequence : Byte} {payload : List Byte} {check : Word16} {s : State} (hr : s.resetHeld = false)
  (hlength : payload.length ≤ 238)
include hr hlength

/-- The message of kind 0x0A is judged like every other (R143). -/
theorem exec_acknowledgement : exec (.acknowledgement sequence payload check) s =
    .next (outbound (judgeMessage ⟨0x0A, sequence, payload⟩ check (endHighWait s))) :=
  (perform_running hr).trans (by rw [takeReceivedMessage_fits hlength]; rfl)

/-- With a good check value it is counted as received and acknowledges (R143, R164). -/
theorem exec_acknowledgement_good (hcheck : crc16 (coveredBytes ⟨0x0A, sequence, payload⟩) = check) :
    exec (.acknowledgement sequence payload check) s =
      .next (outbound (acknowledge sequence (messageCounted s))) := by
  rw [exec_acknowledgement hr hlength, judgeMessage_good hcheck]
  rfl

end

/-- Settles O10: the check value, and then the snapshot named. -/
theorem acknowledgementRemovesSnapshots : Obligations.AcknowledgementRemovesSnapshots := by
  unfold Obligations.AcknowledgementRemovesSnapshots
  refine ⟨fun sequence payload check s older newer named hr hlength hcheck hattached hwindow hnamed holder => ?named,
    fun sequence payload check s hr hlength hcheck => ?wrongCheck⟩
  case named =>
    rw [← messageCounted_linkState] at hattached
    rw [← messageCounted_delivery] at hwindow
    rw [exec_acknowledgement_good hr hlength hcheck, acknowledge_named hattached hwindow hnamed holder]
    rfl
  case wrongCheck =>
    rw [exec_acknowledgement hr hlength, judgeMessage_wrongCheck hcheck]
    rfl

/-- Settles O11: a stray acknowledgement is counted, and what is behind the snapshot named stays. -/
theorem strayAcknowledgementIsIgnored : Obligations.StrayAcknowledgementIsIgnored := by
  unfold Obligations.StrayAcknowledgementIsIgnored
  intro sequence payload check s hr hlength hcheck
  rw [← messageCounted_linkState, ← messageCounted_delivery, exec_acknowledgement_good hr hlength hcheck]
  refine ⟨fun hstray => ?stray, fun older named newer hattached hwindow hnamed holder => ⟨_, rfl, ?younger⟩⟩
  case stray =>
    rw [acknowledge_stray hstray]
    rfl
  case younger => rw [acknowledge_named hattached hwindow hnamed holder]

/-! ### The acknowledgement timer (R166, R168) -/

section

variable {s : State}

theorem ackTimerExpiry_expired (h : s.delivery.ackTimer = .running 0) : ackTimerExpiry s = ackTimerRunsOut s :=
  if_pos (hasExpired_iff.2 h)

theorem ackTimerExpiry_waits (h : s.delivery.ackTimer ≠ .running 0) : ackTimerExpiry s = s :=
  if_neg fun hexpired => h (hasExpired_iff.1 hexpired)

theorem ackTimerRunsOut_marks (h : s.delivery.timeoutCount + 1 < 5) : ackTimerRunsOut s =
    s.modifyDelivery fun d => { d with
      timeoutCount := d.timeoutCount + 1, ackTimer := .stopped, resendRunDue := true
      window := d.window.map fun x => { x with resendMark := true } } := if_pos h

/-- The fifth expiry in a row detaches the link (R166, R168). -/
theorem ackTimerRunsOut_detaches (h : 5 ≤ s.delivery.timeoutCount + 1) : ackTimerRunsOut s =
    detach (s.modifyDelivery fun d => { d with timeoutCount := d.timeoutCount + 1, ackTimer := .stopped }) :=
  if_neg (Nat.not_lt.2 h)

end

/-- Settles O12: the timer, and then the count of its expiries. -/
theorem ackTimeoutMarksOrDetaches : Obligations.AckTimeoutMarksOrDetaches := by
  unfold Obligations.AckTimeoutMarksOrDetaches
  intro s hr
  have run : exec .ackTimeout s = .next (outbound (ackTimerExpiry s)) := perform_running hr
  refine ⟨fun hexpired hbelow => ?marks, fun hexpired hlimit => ?detaches, fun hwaits => ?waits⟩
  case marks =>
    rw [run, ackTimerExpiry_expired hexpired, ackTimerRunsOut_marks hbelow]
    rfl
  case detaches =>
    rw [run, ackTimerExpiry_expired hexpired, ackTimerRunsOut_detaches hlimit]
    rfl
  case waits => rw [run, ackTimerExpiry_waits hwaits]

end Sys2Proof.Machine
end

section
/-! SUPPORT. STATS_READ (R171, R174): the two checks, and the counters of each scope as they stand and cleared. -/

namespace Sys2Proof.Machine

open Sys2Proof

/-! ### The counters cleared (R174) -/

theorem modifyLine_same {s : State} {l : LineId} {f : Line → Line} (h : f (s.line l) = s.line l) :
    s.modifyLine l f = s :=
  (congrArg (s.setLine l) h).trans (setLine_line_self s l)

theorem byteOf_toNat (b : Byte) : byteOf b.toNat = b := BitVec.eq_of_toNat_eq (toNat_byteOf b.isLt)

section

variable (clear : Bool) (s : State)

theorem readLineStats_eq (l : LineId) : readLineStats clear l s =
    answerOk ([0, lineCode l, 0] ++ lineCounterBytes (s.line l).counters)
      (s.modifyLine l fun x => { x with counters := if clear then LineCounters.zero else x.counters }) := by
  cases clear with
  | false => exact congrArg (answerOk _) (modifyLine_same rfl).symm
  | true => rfl

theorem readNodeStats_notFound {l : LineId} {address : Nat} (hf : findNode s l address = none) :
    readNodeStats clear l address s = refuseWith .notFound s := by
  unfold readNodeStats
  rw [hf]

/-- Of the line's records the one found is cleared: no other has its address (R42). -/
theorem readNodeStats_of_mem {l : LineId} (hn : ((s.line l).nodes.map (·.address)).Nodup) {n : NodeRecord}
    (h : n ∈ (s.line l).nodes) : readNodeStats clear l n.address s =
      answerOk ([1, lineCode l, byteOf n.address] ++ nodeCounterBytes n.counters)
        (s.modifyLine l fun x => { x with nodes := x.nodes.map fun k =>
          if k = n ∧ clear = true then { k with counters := NodeCounters.zero } else k }) := by
  unfold readNodeStats
  rw [findNode_of_mem hn h]
  refine congrArg (answerOk _) ?_
  cases clear with
  | false => exact (modifyLine_same (by simp)).symm
  | true => simpa using updateNode_of_mem hn h _

theorem readLinkStats_eq : readLinkStats clear s =
    answerOk ([2, 0, 0] ++ linkCounterBytes s.link.counters)
      (s.countLink fun c => if clear then LinkCounters.zero else c) := by
  cases clear <;> rfl

end

/-! ### The checks and the scope (R174) -/

section

variable {s : State} {scope line address clear : Byte}

/-- Check 1: a scope above 2 or a clear flag above 1. -/
theorem runStatsRead_badField (h : 2 < scope.toNat ∨ 1 < clear.toNat) :
    runStatsRead [scope, line, address, clear] s = refuseWith .badField s := if_pos h

theorem clearFlag_eq : (clear.toNat == 1) = decide (clear = 1) := by
  rw [Bool.eq_iff_iff, beq_iff_eq, decide_eq_true_iff]
  exact BitVec.toNat_inj (y := 1)

/-- Past check 1, scope NODE reads line and address as the requests of the Node Table do. -/
theorem runStatsRead_passes (hscope : scope.toNat ≤ 2) (hclear : clear.toNat ≤ 1) :
    runStatsRead [scope, line, address, clear] s =
      if scope.toNat = 0 then onLine line.toNat (readLineStats (decide (clear = 1))) s
      else if scope.toNat = 1 then onNode [line, address] (readNodeStats (decide (clear = 1))) s
      else readLinkStats (decide (clear = 1)) s := by
  rw [← clearFlag_eq]
  exact if_neg (not_or.2 ⟨Nat.not_lt.2 hscope, Nat.not_lt.2 hclear⟩)

variable (hclear : clear.toNat ≤ 1)
include hclear

theorem runStatsRead_lineScope : runStatsRead [0, line, address, clear] s =
    onLine line.toNat (readLineStats (decide (clear = 1))) s := runStatsRead_passes (by decide) hclear

theorem runStatsRead_nodeScope : runStatsRead [1, line, address, clear] s =
    onNode [line, address] (readNodeStats (decide (clear = 1))) s := runStatsRead_passes (by decide) hclear

theorem runStatsRead_linkScope : runStatsRead [2, line, address, clear] s =
    readLinkStats (decide (clear = 1)) s := runStatsRead_passes (by decide) hclear

end

/-- Both checks: what check 1 lets pass has scope 0, 1 or 2, and check 2 is that of the scope. -/
theorem runStatsRead_refuses {s : State} {scope line address clear : Byte}
    (h : 2 < scope.toNat ∨ 1 < clear.toNat ∨ scope.toNat ≤ 1 ∧ 1 < line.toNat ∨
      scope.toNat = 1 ∧ (address.toNat = 0 ∨ 30 < address.toNat)) :
    runStatsRead [scope, line, address, clear] s = refuseWith .badField s := by
  by_cases hcheck : 2 < scope.toNat ∨ 1 < clear.toNat
  · exact runStatsRead_badField hcheck
  · have hclear : clear.toNat ≤ 1 := by omega
    have hscope : scope.toNat = 0 ∧ 1 < line.toNat ∨
        scope.toNat = 1 ∧ (1 < line.toNat ∨ address.toNat = 0 ∨ 30 < address.toNat) := by omega
    rcases hscope with ⟨hzero, hline⟩ | ⟨hone, hnode⟩
    · obtain rfl : scope = 0 := BitVec.eq_of_toNat_eq hzero
      rw [runStatsRead_lineScope hclear, onLine_refuses (ne_lineCode_of_lt hline)]
    · obtain rfl : scope = 1 := BitVec.eq_of_toNat_eq hone
      rw [runStatsRead_nodeScope hclear, onNode_refuses hnode]

theorem exec_statsRead {s : State} {m : Message} {rest : List Message} {scope line address clear : Byte}
    (h : Ready s m rest) (hk : m.kind = 0x60) (hp : m.payload = [scope, line, address, clear]) :
    exec .statsRead s =
      .next (outbound (completeRequest m (runStatsRead [scope, line, address, clear] (headTaken s rest)))) :=
  (takeKind_ready h hk (by decide) (hp ▸ rfl)).trans (by rw [hp])

/-- Settles O27: the checks refuse first; then the scope decides which counters are read and cleared. -/
theorem statsReadReturnsAndClears : Obligations.StatsReadReturnsAndClears := by
  unfold Obligations.StatsReadReturnsAndClears
  refine ⟨fun s m rest scope line address clear h hk hp hbad => ?badField,
    fun s m rest l address clear h hk hflag => ?_⟩
  case badField =>
    rw [exec_statsRead h hk hp, runStatsRead_refuses hbad]
    rfl
  have hclear : clear.toNat ≤ 1 := by rcases hflag with rfl | rfl <;> decide
  refine ⟨fun hp => ?line, fun hp h1 h30 => ⟨fun hnone => ?notFound, fun n hn ha hnodup => ?node⟩,
    fun line hp => ?link⟩
  case line =>
    rw [exec_statsRead h hk hp, runStatsRead_lineScope hclear, onLine_runs, readLineStats_eq, headTaken_line]
    simp only [decide_eq_true_eq]
    rfl
  case notFound =>
    rw [exec_statsRead h hk hp, runStatsRead_nodeScope hclear, onNode_runs l h1 h30,
      readNodeStats_notFound _ _ ((findNode_headTaken s rest l _).trans (findNode_none hnone))]
    rfl
  case node =>
    rw [← headTaken_line s rest l] at hn hnodup
    rw [exec_statsRead h hk hp, runStatsRead_nodeScope hclear, onNode_runs l h1 h30, ← ha,
      readNodeStats_of_mem _ _ hnodup hn, ha, byteOf_toNat]
    simp only [decide_eq_true_eq]
    rfl
  case link =>
    rw [exec_statsRead h hk hp, runStatsRead_linkScope hclear, readLinkStats_eq]
    simp only [decide_eq_true_eq]
    rfl

end Sys2Proof.Machine
end

section
/-! SUPPORT. What a command of one line leaves alone (R126, R172): its effect is the work of that line, and the grant
that may follow is the outbound arbiter's (R151). -/

namespace Sys2Proof.Machine

open Sys2Proof

/-- The grant sends a response or a report and counts it: of the host link nothing else changes (R151, R152). -/
theorem outbound_link (s : State) : ∃ responses transmitter counters, (outbound s).link =
    { s.link with responses := responses, transmitter := transmitter, counters := counters } := by
  rcases outbound_cases s with h | ⟨x, -, -, h⟩ | ⟨-, -, -, h⟩ | ⟨-, -, -, -, h⟩ <;> rw [h]
  · exact ⟨_, _, _, rfl⟩
  · exact ⟨_, _, _, rfl⟩
  · unfold grantResponse
    split <;> exact ⟨_, _, _, rfl⟩
  · unfold composeReport
    split
    next => exact ⟨_, _, _, rfl⟩
    next r rest _ =>
      dsimp only
      split
      next => exact ⟨_, _, _, rfl⟩
      next =>
        unfold sendMessage
        rw [modifyLink_link, tellOwner_link]
        exact ⟨_, _, _, rfl⟩

/-- A command of a line performs an event of that line. -/
theorem exec_lineEvent {c : Instr} {l : LineId} (h : lineOf c = some l) (s : State) :
    ∃ f, LineEvent l f ∧ exec c s = perform f s := by
  cases c <;> cases h
  case roundTimerExpiry => exact ⟨_, .roundTimer, rfl⟩
  case roundStart => exact ⟨_, .roundStart, rfl⟩
  case quietEnd => exact ⟨_, .quiet, rfl⟩
  case responseWindowExpiry => exact ⟨_, .window, rfl⟩
  case gapTimerExpiry => exact ⟨_, .gap, rfl⟩
  case holdoffExpiry => exact ⟨_, .holdoff, rfl⟩
  case idleWaitExpiry => exact ⟨_, .idleWait, rfl⟩
  case arbiterChoice => exact ⟨_, .port _ arbiterChoice_command, rfl⟩
  case transmitEnd => exact ⟨_, .port _ transmitEnd_command, rfl⟩
  case characterEnd => exact ⟨_, .port _ characterEnd_command, rfl⟩
  case settlingEnd => exact ⟨_, .port _ settlingEnd_command, rfl⟩
  case breakDetected => exact ⟨_, .port _ breakDetected_command, rfl⟩
  case breakEnd => exact ⟨_, .port _ breakEnd_command, rfl⟩
  case stuck => exact ⟨_, .port _ stuckInput_command, rfl⟩
  case stuckEnd => exact ⟨_, .port _ stuckEnd_command, rfl⟩
  case contention => exact ⟨_, .port _ contention_command, rfl⟩
  case jamBreakEnd => exact ⟨_, .port _ jamBreakEnd_command, rfl⟩
  case breakOrderEnd => exact ⟨_, .port _ breakOrderEnd_command, rfl⟩
  case startBegun => exact ⟨_, .port _ startBegun_command, rfl⟩
  case falseStart => exact ⟨_, .port _ falseStart_command, rfl⟩
  case returnHigh => exact ⟨_, .port _ (returnHigh_command _), rfl⟩

/-- Settles O55: the work of the line by `lineEvent_work`, and the grant after it. -/
theorem lineEventsLeaveTheRest : Obligations.LineEventsLeaveTheRest := by
  unfold Obligations.LineEventsLeaveTheRest
  intro c l s t hline ht
  obtain ⟨f, hf, hexec⟩ := exec_lineEvent hline s
  obtain rfl | ⟨-, rfl⟩ := perform_cases (hexec.symm.trans ht)
  case inl => exact ⟨fun _ _ => rfl, rfl, rfl, rfl, rfl, rfl, rfl, rfl, rfl, rfl⟩
  case inr =>
    have hw : LineWork l s (f s) := lineEvent_work hf s
    have hd : DeliveryWork (f s) (outbound (f s)) := outbound_deliveryWork (f s)
    obtain ⟨responses, transmitter, counters, hlink⟩ := outbound_link (f s)
    rw [hlink, hw.link]
    exact ⟨fun k hk => (hd.lines k).trans (hw.other k hk), (congrArg Line.config (hd.lines l)).trans hw.config,
      hd.resetHeld.trans hw.resetHeld, hd.msClock.trans hw.msClock, hd.prescaler.trans hw.prescaler,
      hd.pending.trans hw.pending, hd.nextUid.trans hw.nextUid, rfl, rfl, rfl⟩

end Sys2Proof.Machine
end

section
/-! SUPPORT. The step on a queue that is not empty; `step_idle` speaks of the empty one. -/

namespace Sys2Proof.Machine

open Sys2Proof

/-- Settles O1: with the front of the queue known, the step takes the branch that dispatches the command. -/
theorem stepRunsFrontCommand : Obligations.StepRunsFrontCommand := by
  unfold Obligations.StepRunsFrontCommand
  intro c rest s hpending
  unfold step
  rw [hpending]

end Sys2Proof.Machine
end
